-- ==== Sys2Proof/Word.lean ====
section
/-! DEFINITION. The word types of the VRD-4100 (R8: little-endian, 64-bit threads, 46-bit physical addresses). -/

namespace Sys2Proof

/-- A byte of memory. -/
abbrev Byte := BitVec 8
/-- A 64-bit register of a control thread. -/
abbrev Word := BitVec 64
/-- A 5-bit register field of a scalar instruction (R246). -/
abbrev Reg := BitVec 5
/-- One plane of one bank: a bit for each of its 2,048 logical lanes (R131). -/
abbrev Row := BitVec 2048

/-- 64-bit word from a number, modulo 2^64. -/
abbrev word (n : Nat) : Word := BitVec.ofNat 64 n

end Sys2Proof
end

