-- ==== Sys2Proof/Config.lean ====
section
/-! DEFINITION. What an implementation fixes and the spec leaves open: constants, and the free values (opaque, so that
no proof can see one; log entry 4). -/

namespace Sys2Proof.Config

/-- Free 64-bit values: contents the spec calls undefined, indexed by the counter `free` of State. -/
opaque freeWord : Nat → BitVec 64

/-- Free rows: scratchpad rows whose contents the spec calls undefined (R49, R56, R132). -/
opaque freeRow : Nat → BitVec 2048

/-- Free bytes: device-owned contents of save areas and reports, by a location and a counter. -/
opaque freeByte : Nat → Nat → BitVec 8

/-- Which of the 32 channels of its HBM4 stack serves a line (R16 fixes the stack alone; log entry 26). -/
opaque hbmChannel : Nat → BitVec 5

/-- Which of the 16,384 sets of its slice holds a line (R143 gives their number alone; log entry 91). -/
opaque l2Set : Nat → BitVec 14

/-- Arithmetic-clock cycles that a step of a thread takes (R272 leaves them to the timing): at least the advance of
the cycle counter, by the counter `free`. -/
opaque cycles : Nat → BitVec 64

/-- The bytes of a key or a signature that the device makes (R62, R63), by name and input. -/
opaque keyBytes : Nat → List (BitVec 8) → BitVec 912

/-- What the image of a firmware slot holds (R61): its body, its Ed448 signature and public key, its SVN and its commit flag. -/
structure Image where
  body   : List (BitVec 8)
  sig    : List (BitVec 8)
  key    : List (BitVec 8)
  svn    : BitVec 16
  commit : Bool

/-- The image that a slot's contents are, if they are one. The layout of an image belongs to the released image (R430). -/
opaque image : List (Nat × BitVec 8) → Option Image

/-- The fused KEYHASH that an image's public key must match (R61). -/
opaque keyHash : BitVec 256

/-- The bodies of the firmware that start step 3 measures (R62): Campanile's, the training firmware's and the M-mode
runtime's, by number, from the contents of the slot that is taken. -/
opaque imageBody : Nat → List (Nat × BitVec 8) → List (BitVec 8)

/-- The vendor, architecture and implementation numbers of the harts (RISC-V leaves them to the implementation). -/
opaque mvendorid : BitVec 64
opaque marchid : BitVec 64
opaque mimpid : BitVec 64

end Sys2Proof.Config
end

