-- ==== Sys2Proof/Syntax.lean ====
section
/-! DEFINITION. The syntax of every step of the opcode table: scalar instructions, vector words, messages,
register accesses and internal events, one constructor of `Instr` a row. -/

namespace Sys2Proof

/-- The fields of a vector word but its opcode (R251). -/
structure VWord where
  make ::
  c   : BitVec 1
  fn  : BitVec 4
  vd  : BitVec 4
  va  : BitVec 4
  vb  : BitVec 4
  mk  : BitVec 3
  mi  : BitVec 1
  ms  : BitVec 3
  se  : BitVec 1
  wa  : BitVec 4
  wb  : BitVec 4
  wd  : BitVec 4
  wo  : BitVec 1
  gs  : BitVec 3
  so  : BitVec 1
  imm : BitVec 15
deriving DecidableEq, Repr

/-- Width and extension of a RISC-V load (RV64I). -/
inductive LoadKind where
  | lb | lh | lw | ld | lbu | lhu | lwu
deriving DecidableEq, Repr

/-- Width of a RISC-V store (RV64I). -/
inductive StoreKind where
  | sb | sh | sw | sd
deriving DecidableEq, Repr

/-- The operation of a RISC-V AMO (R377). -/
inductive AmoOp where
  | swap | add | xor | and | or | min | max | minu | maxu
deriving DecidableEq, Repr

/-- The form of a Zicsr instruction. -/
inductive CsrOp where
  | rw | rs | rc | rwi | rsi | rci
deriving DecidableEq, Repr

/-- Condition of a RISC-V branch. -/
inductive BrCond where
  | eq | ne | lt | ge | ltu | geu
deriving DecidableEq, Repr

/-- Register-immediate operations with a 12-bit immediate. -/
inductive ImmOp where
  | addi | slti | sltiu | xori | ori | andi | addiw
deriving DecidableEq, Repr

/-- Register-immediate shifts (RV64I, Zba, Zbb). -/
inductive ShiftOp where
  | slli | srli | srai | rori | slliuw | slliw | srliw | sraiw | roriw
deriving DecidableEq, Repr

/-- Register-register operations (RV64I, M, Zba, Zbb). -/
inductive AluOp where
  | add | sub | sll | slt | sltu | xor | srl | sra | or | and
  | addw | subw | sllw | srlw | sraw
  | mul | mulh | mulhsu | mulhu | div | divu | rem | remu
  | mulw | divw | divuw | remw | remuw
  | sh1add | sh2add | sh3add | adduw | sh1adduw | sh2adduw | sh3adduw
  | andn | orn | xnor | min | minu | max | maxu | rol | ror | rolw | rorw
deriving DecidableEq, Repr

/-- One-operand operations (Zbb). -/
inductive UnaryOp where
  | clz | ctz | cpop | clzw | ctzw | cpopw | sextb | sexth | zexth | rev8 | orcb
deriving DecidableEq, Repr

/-- The base instructions behind the row BASE_INSTRUCTION (R272): everything of RV64IMC, Zba and Zbb but loads,
stores, atomics, fences and system instructions. -/
inductive BaseOp where
  | lui (rd : Reg) (imm : BitVec 20)
  | auipc (rd : Reg) (imm : BitVec 20)
  | jal (rd : Reg) (off : BitVec 20)
  | jalr (rd rs1 : Reg) (imm : BitVec 12)
  | branch (c : BrCond) (rs1 rs2 : Reg) (off : BitVec 12)
  | imm (op : ImmOp) (rd rs1 : Reg) (i : BitVec 12)
  | shift (op : ShiftOp) (rd rs1 : Reg) (sh : BitVec 6)
  | alu (op : AluOp) (rd rs1 rs2 : Reg)
  | unary (op : UnaryOp) (rd rs1 : Reg)
deriving DecidableEq, Repr

/-- The IPv6 address that a MAC address gives by EUI-64 in the link-local prefix fe80::/64 (R28). -/
def linkLocal (mac : BitVec 48) : BitVec 128 :=
  let hi := mac.toNat / 2 ^ 24 ^^^ 0x020000
  BitVec.ofNat 128 (0xFE80 * 2 ^ 112 + hi * 2 ^ 40 + 0xFFFE * 2 ^ 24 + mac.toNat % 2 ^ 24)

/-- A packet: what the layers below bring that a rule looks at (the remote end's address and UDP port, the port's address,
MACsec, the ECN codepoint and the DSCP, the EtherType, an extension header, a bad UDP checksum: R26 to R28), then the fields
of the Isachepel header, the acknowledgement block with its reserved bytes, and the payload (R32). LEN is the payload's
length unless the packet says otherwise. -/
structure Packet where
  src     : BitVec 128
  sport   : BitVec 16
  macsec  : Bool
  ecn     : BitVec 2 := 2
  ver     : BitVec 4
  typ     : BitVec 4
  ackreq  : Bool
  retx    : Bool
  ecne    : Bool
  first   : Bool
  last    : Bool
  cpl     : Bool
  rsv     : Bool
  conn    : BitVec 16
  psn     : BitVec 32
  apsn    : BitVec 32
  sack    : Option (BitVec 64 × BitVec 32)
  op      : BitVec 8
  qw      : BitVec 8
  addr    : Word
  tag     : BitVec 32
  key     : BitVec 32
  payload : List Byte
  len     : BitVec 16 := BitVec.ofNat 16 payload.length
  sackRsv : BitVec 32 := 0
  here    : BitVec 128 := linkLocal 0
  dscp    : BitVec 6 := 0
  eth     : BitVec 16 := 0x86DD
  ext     : Bool := false
  sumBad  : Bool := false
deriving DecidableEq, Repr

/-- What the surroundings give a start (R44): whether pre-heat is needed, which attempts the surroundings make fail (step
and status, none for an attempt that nothing outside stops), whether the Ethernet link comes up within step 11, the duration,
and the lanes that the self-test of step 9 marks (core, bank, physical lane). -/
structure StartEnv where
  cold     : Bool
  attempts : List (Option (Nat × Word))
  link     : Bool
  micros   : Word
  marks    : List (Nat × Nat × Nat) := []
deriving DecidableEq, Repr

/-- What a scratchpad read finds (R56): the four rows of its table. -/
inductive SoftError where
  | singleTransient | singleHard | doubleTransient | doubleHard
deriving DecidableEq, Repr

/-- The four classes of chain flits (R19). -/
inductive FlitClass where
  | req | wr | rsp | sync
deriving DecidableEq, Repr

/-- One step of the opcode table, one constructor a row (spec/opcode_table.json). Scalar instructions carry their
operand fields and vector instructions their word; a message, a register access or an internal event takes its operands
from the field `ev` of State (the packet, the address and value, the unit concerned), which its turn sets. -/
inductive Instr where
  | scalarLoad (k : LoadKind) (rd rs1 : Reg) (off : BitVec 12)
  | scalarStore (k : StoreKind) (rs1 rs2 : Reg) (off : BitVec 12)
  | lr (dbl : Bool) (aq rl : Bool) (rd rs1 : Reg)
  | sc (dbl : Bool) (aq rl : Bool) (rd rs1 rs2 : Reg)
  | amo (op : AmoOp) (dbl aq rl : Bool) (rd rs1 rs2 : Reg)
  | fence (pred succ : BitVec 4)
  | csrAccess (op : CsrOp) (rd src : Reg) (csr : BitVec 12)
  | csrWriteVl (op : CsrOp) (rd src : Reg)
  | csrWriteVw (op : CsrOp) (rd src : Reg)
  | csrWriteVctx (op : CsrOp) (rd src : Reg)
  | csrWriteVqlim (op : CsrOp) (rd src : Reg)
  | csrWriteWcnt (op : CsrOp) (rd src : Reg)
  | csrAccessRng (op : CsrOp) (rd src : Reg) (csr : BitVec 12)
  | vsetvl (rd rs1 : Reg)
  | vsetw (rd rs1 : Reg)
  | vsetvli (rd rs1 : Reg) (w : BitVec 12)
  | vctx (rd rs1 : Reg)
  | vslip (rd rs1 : Reg)
  | vdrain (kinds scope : BitVec 3)
  | vlive (rd rs1 rs2 : Reg)
  | vget (rd : Reg) (vs : BitVec 4)
  | vgetP (rd : Reg) (vs : BitVec 4)
  | cbcmpEq (cd rs1 rs2 : Reg)
  | cbcmpNe (cd rs1 rs2 : Reg)
  | cbcmpLt (cd rs1 rs2 : Reg)
  | cbcmpGe (cd rs1 rs2 : Reg)
  | cbcmpLtu (cd rs1 rs2 : Reg)
  | cbcmpGeu (cd rs1 rs2 : Reg)
  | cblogAnd (cd ca cb : Reg)
  | cblogOr (cd ca cb : Reg)
  | cblogXor (cd ca cb : Reg)
  | cblogAndn (cd ca cb : Reg)
  | cbget (rd : Reg)
  | cbput (rs1 rs2 : Reg)
  | cbclr (rs1 : Reg)
  | cbseti (cd : Reg) (v : BitVec 1)
  | vfetch (rs1 : Reg) (off : BitVec 12)
  | tcfg (h rs1 rs2 : Reg)
  | tload (h rs1 rs2 : Reg)
  | tstore (h rs1 : Reg)
  | tfree (h : Reg)
  | tstat (rd h : Reg)
  | tcopy (hd hs : Reg)
  | strcfg (q : BitVec 3) (rs1 : Reg)
  | strstart (q : BitVec 3)
  | strstop (q : BitVec 3)
  | strstat (rd : Reg) (q : BitVec 3)
  | strbind (rd : Reg) (q : BitVec 3)
  | xcopy (rd rs1 rs2 : Reg)
  | xform (rs1 : Reg)
  | close (cls : BitVec 4)
  | lineClean (rd rs1 : Reg)
  | lineFlush (rd rs1 : Reg)
  | lineInval (rd rs1 : Reg)
  | lineLastuse (rd rs1 : Reg)
  | lineDiscard (rd rs1 : Reg)
  | wmwait (scope : BitVec 3) (rs1 rs2 : Reg)
  | wmwaitArm (scope : BitVec 3) (rs1 rs2 : Reg)
  | wmwaitDisarm (scope : BitVec 3)
  | wmpub (scope : BitVec 3) (rs1 rs2 : Reg)
  | wmpubRemote (rs1 rs2 : Reg)
  | wait (ld st cp ti : BitVec 3)
  | barinit (b : BitVec 4) (rs1 rs2 : Reg)
  | bararrive (b : BitVec 4)
  | barwait (b : BitVec 4)
  | bararrwait (b : BitVec 4)
  | barinv (b : BitVec 4)
  | scfence (scope : BitVec 3)
  | acqfence (scope : BitVec 3)
  | relfence (scope : BitVec 3)
  | afaddS (rd rs1 rs2 : Reg)
  | afminS (rd rs1 rs2 : Reg)
  | afmaxS (rd rs1 rs2 : Reg)
  | afminnS (rd rs1 rs2 : Reg)
  | afmaxnS (rd rs1 rs2 : Reg)
  | sqcreate (rd rs1 rs2 : Reg)
  | sqres (rd rs1 rs2 : Reg)
  | sqcommit (rd rs1 rs2 : Reg)
  | sqabandon (rd rs1 rs2 : Reg)
  | sqfork (rx rs1 rs2 : Reg)
  | sqlen (rd rs1 : Reg)
  | sqwait (rd rs1 rs2 : Reg)
  | sqseal (rd rs1 rs2 : Reg)
  | sqevict (rx rs1 rs2 : Reg)
  | sqrelease (rd rs1 : Reg)
  | btinv (rd rs1 rs2 : Reg)
  | ixcreate (rd rs1 rs2 : Reg)
  | ixfamily (rd rs1 rs2 : Reg)
  | ixins (rd rs1 rs2 : Reg)
  | ixdel (rd rs1 rs2 : Reg)
  | ixprobe (rd rs1 : Reg)
  | ixrehash (rd rs1 rs2 : Reg)
  | ixstat (rd rs1 rs2 : Reg)
  | attn (rd rs1 : Reg)
  | attnstat (rd : Reg)
  | attncancel (rd rs1 : Reg)
  | bc (c : Reg) (off : BitVec 12)
  | bnc (c : Reg) (off : BitVec 12)
  | mmcfg (rd rs1 : Reg)
  | mmissue (rs1 rs2 : Reg)
  | mmsparse (rs1 rs2 : Reg)
  | mmgather (rs1 rs2 : Reg)
  | mmret (rs1 rs2 : Reg)
  | acczero (rs1 : Reg)
  | accscale (rs1 rs2 : Reg)
  | mmstat (rd : Reg)
  | halttF (rs1 : Reg)
  | preemptpt (rd : Reg)
  | launch (rd rs1 : Reg) (n : BitVec 5)
  | rngseed (rs1 rs2 : Reg)
  | rngnext (rd : Reg)
  | ctxsave (rd rs1 : Reg) (f : BitVec 1)
  | ctxload (rd rs1 : Reg)
  | laneretire (rd rs1 : Reg)
  | bblog (rc rs1 rs2 : Reg)
  | vadd (w : VWord)
  | vsub (w : VWord)
  | vrsub (w : VWord)
  | vneg (w : VWord)
  | vabs (w : VWord)
  | vmin (w : VWord)
  | vmax (w : VWord)
  | vminu (w : VWord)
  | vmaxu (w : VWord)
  | vmul (w : VWord)
  | vmulh (w : VWord)
  | vmac (w : VWord)
  | vand (w : VWord)
  | vor (w : VWord)
  | vxor (w : VWord)
  | vandn (w : VWord)
  | vnot (w : VWord)
  | vsll (w : VWord)
  | vsrl (w : VWord)
  | vsra (w : VWord)
  | vshrr (w : VWord)
  | vcmp (w : VWord)
  | vsel (w : VWord)
  | vmov (w : VWord)
  | vmovi (w : VWord)
  | vmovg (w : VWord)
  | vpopc (w : VWord)
  | vclz (w : VWord)
  | vabsd (w : VWord)
  | vavg (w : VWord)
  | vdotr (w : VWord)
  | vrand (w : VWord)
  | vsext (w : VWord)
  | vzext (w : VWord)
  | vsatw (w : VWord)
  | vpack (w : VWord)
  | vsegd (w : VWord)
  | vcvt (w : VWord)
  | mlog (w : VWord)
  | mset (w : VWord)
  | mpop (w : VWord)
  | mfirst (w : VWord)
  | vany (w : VWord)
  | vall (w : VWord)
  | vtrim (w : VWord)
  | vsetvlb (w : VWord)
  | vfadd (w : VWord)
  | vfsub (w : VWord)
  | vfmul (w : VWord)
  | vfma (w : VWord)
  | vfmin (w : VWord)
  | vfmax (w : VWord)
  | vfdiv (w : VWord)
  | vfsqrt (w : VWord)
  | vfrecip (w : VWord)
  | vfrsqrt (w : VWord)
  | vfexp2 (w : VWord)
  | vfcmp (w : VWord)
  | vfclass (w : VWord)
  | vfscale (w : VWord)
  | vfsgn (w : VWord)
  | vred (w : VWord)
  | vfred (w : VWord)
  | vscan (w : VWord)
  | vperm (w : VWord)
  | vslideup (w : VWord)
  | vslidedn (w : VWord)
  | vbcast (w : VWord)
  | vcompact (w : VWord)
  | vnzscan (w : VWord)
  | vpfxpop (w : VWord)
  | vramp (w : VWord)
  | vbar (w : VWord)
  | vld (w : VWord)
  | vlds (w : VWord)
  | vldx (w : VWord)
  | vldseg (w : VWord)
  | vldff (w : VWord)
  | vst (w : VWord)
  | vsts (w : VWord)
  | vstx (w : VWord)
  | vstseg (w : VWord)
  | vamo (w : VWord)
  | vamoTile (w : VWord)
  | vamof (w : VWord)
  | vldt (w : VWord)
  | vstt (w : VWord)
  | vwaitn (w : VWord)
  | vpref (w : VWord)
  | vaccrd (w : VWord)
  | vaccwr (w : VWord)
  | vaccz (w : VWord)
  | vmxsc (w : VWord)
  | vixprobe (w : VWord)
  | vixhash (w : VWord)
  | vsqmap (w : VWord)
  | vsqpos (w : VWord)
  | vstop (w : VWord)
  | vstopR (w : VWord)
  | vtfetch (w : VWord)
  | vnop (w : VWord)
  | vtrap (w : VWord)
  | baseInstruction (op : BaseOp)
  | illegalInstruction (bits : BitVec 32)
  | vectorIllegal (bits : BitVec 64)
  | powerOn
  | startBegin
  | preHeatTimeout
  | preHeatDone
  | ethernetLinkUp
  | thermalThrottle
  | hbmRefreshDouble
  | hbmStopIssue
  | thermalTrip
  | thermalRecovery
  | powerCapAdjust
  | droopDetected
  | targetFreqAdjust
  | retrainWindowOpen
  | retrainWindowClose
  | retrainFailed
  | uncorrectableMemoryError
  | scratchpadSoftError
  | linkCrcReplay
  | linkRetrain
  | ucieModuleLost
  | adjacencyFailed
  | flitReceive
  | causalWriteApply
  | sequenceReport
  | mkaKeyChange
  | frameDrop
  | icmpv6NdAnswer
  | post
  | read
  | write
  | atomicAdd
  | atomicSwap
  | atomicCas
  | atomicMaxu
  | atomicFaddS
  | completion
  | ack
  | manageOpen
  | manageClose
  | manageAttest
  | manageBbread
  | manageResetWarm
  | manageResetKeep
  | manageResetCold
  | manageCakset
  | ackDelayExpire
  | retransmissionTimerExpire
  | connectionHoldExpire
  | outboundTransferSend
  | registerWrite
  | unassignedAccess
  | chainstRead
  | portstRead
  | memhlthRead
  | qstatRead
  | schstRead
  | windowCommit
  | portaddrCommit
  | campanileStore
  | xlinvPage
  | xlinvAsid
  | xlinvAll
  | queueEnable
  | queueDisable
  | qcancelTag
  | qcancelAll
  | schcancelTag
  | schcancelAll
  | recordTake
  | cancelledSlotPass
  | dependencePass
  | dependenceTimeout
  | claimFormed
  | placement
  | gangStart
  | prefetchFault
  | preemptRequest
  | threadStopSave
  | preemptForceExpire
  | gangSaved
  | saveRestoreFail
  | recordComplete
  | trapTake
  | convoyWatchdogExpire
  | heldStorePerform
  | notifyUpdate
  | vamofFlagMerge
  | watermarkPassed
  | engineCommandDone
  | tileFillComplete
  | tileDrainComplete
  | streamFill
  | awlCommand
  | batchComplete
  | pinRelease
  | frameReturn
  | btinvComplete
  | indexZeroingComplete
  | sqwaitTimeout
  | barrierArrivalPerform
  | accumulatorGroupZero
  | matrixOpComplete
  | lanternJobStart
  | lanternJobDone
  | lanternWatchdogExpire
  | lanternReplayStart
  | lanternResetDone
  | lanternReadError
  | fenceTso
  | fenceI
  | ecall
  | ebreak
  | wfi
  | mret
  | vqdrain
  | svfence
  | mmfence
  | haltt
  | yield
  | bankRejoin
  | ethernetLinkDown
  | lossOfPower
  | hbmIssueResume
  | lrWriteDeferralEnd
  | lanternCancelStop
deriving DecidableEq, Repr

end Sys2Proof
end

