-- ==== Sys2Proof/WellFormed.lean ====
section
/-! DEFINITION. Which instructions are well formed: operand fields the encoding map admits (R245 to R257), and the one
constructor that each shared encoding stands for. -/

namespace Sys2Proof

/-- Scope codes 0 to 5 (R4, R246). -/
def scopeOk (s : BitVec 3) : Bool := decide (s.toNat ≤ 5)

/-- Condition bits that CBCMP, CBLOG and CBSETI may name as destination: not the hardware-posted c16 to c27 (R284). -/
def cbDestOk (c : Reg) : Bool := decide (c.toNat < 16) || decide (28 ≤ c.toNat)

/-- Whether a Zicsr form writes its CSR: CSRRS and CSRRC with source field 0 do not. -/
def csrWrites (op : CsrOp) (src : Reg) : Bool :=
  match op with
  | .rw | .rwi => true
  | .rs | .rc | .rsi | .rci => decide (src ≠ 0)

/-- Shift amounts of the 32-bit shifts are below 32. -/
def BaseOp.wf : BaseOp → Bool
  | .shift .slliw _ _ sh | .shift .srliw _ _ sh | .shift .sraiw _ _ sh | .shift .roriw _ _ sh => decide (sh.toNat < 32)
  | _ => true

/-- A well-formed instruction: every operand field holds a value the map admits, and a word that two rows share
(WMWAIT, VAMO, VSTOP, the CSR rows) stands under the row its fields select. -/
def Instr.wf : Instr → Bool
  | .vdrain k sp => decide (k ≠ 0) && scopeOk sp
  | .vgetP _ v => !v.getLsbD 0
  | .cbcmpEq c _ _ | .cbcmpNe c _ _ | .cbcmpLt c _ _ | .cbcmpGe c _ _ | .cbcmpLtu c _ _ | .cbcmpGeu c _ _ => cbDestOk c
  | .cblogAnd c _ _ | .cblogOr c _ _ | .cblogXor c _ _ | .cblogAndn c _ _ => cbDestOk c
  | .cbseti c _ => cbDestOk c
  | .wmwait sp a _ => scopeOk sp && decide (a ≠ 0)
  | .wmwaitArm _ _ _ => false
  | .wmwaitDisarm sp => scopeOk sp
  | .wmpub sp _ _ => scopeOk sp
  | .wmpubRemote _ _ => false
  | .scfence sp | .acqfence sp | .relfence sp => scopeOk sp
  | .baseInstruction op => op.wf
  | .csrAccess op _ src csr =>
      !(csrWrites op src && (csr == 0x800 || csr == 0x801 || csr == 0x802 || csr == 0x804 || csr == 0x814))
      && !(csr == 0x811) && !(csr == 0x812)
  | .csrAccessRng _ _ _ csr => csr == 0x811 || csr == 0x812
  | .csrWriteVl op _ src | .csrWriteVw op _ src | .csrWriteVctx op _ src | .csrWriteVqlim op _ src
  | .csrWriteWcnt op _ src => csrWrites op src
  | .illegalInstruction _ | .vectorIllegal _ => false
  | .vamo w => !w.fn.getLsbD 3
  | .vamoTile w => w.fn.getLsbD 3
  | .vstop w => decide (w.fn ≠ 1)
  | .vstopR w => decide (w.fn = 1)
  | _ => true

end Sys2Proof
end

