-- ==== Sys2Proof/Decode.lean ====
section
/-! DEFINITION. The decoder (R244 to R257, RV64IMAC with Zicsr, Zifencei, Zba and Zbb), total on any bytes, and after it
the encoder written from the same encoding tables. -/

namespace Sys2Proof

/-- Why bytes give no instruction: too few of them. -/
inductive DecodeError where
  | tooShort
deriving DecidableEq, Repr

/-- The fields every 32-bit format shares (R244). -/
structure Fields where
  f7 : BitVec 7
  rs2 : Reg
  rs1 : Reg
  f3 : BitVec 3
  rd : Reg
  op : BitVec 7
deriving DecidableEq, Repr

/-- The fields of a 32-bit word (R244). -/
def Fields.of (w : BitVec 32) : Fields :=
  { f7 := w.extractLsb' 25 7, rs2 := w.extractLsb' 20 5, rs1 := w.extractLsb' 15 5,
    f3 := w.extractLsb' 12 3, rd := w.extractLsb' 7 5, op := w.extractLsb' 0 7 }

/-- The word of given fields (R244). -/
def Fields.bits (f : Fields) : BitVec 32 := f.f7 ++ f.rs2 ++ f.rs1 ++ f.f3 ++ f.rd ++ f.op

/-- I-type immediate bits (R244). -/
def Fields.imm12 (f : Fields) : BitVec 12 := f.f7 ++ f.rs2

/-- B-type offset bits [12:1] (R244). -/
def Fields.off12 (f : Fields) : BitVec 12 :=
  f.f7.extractLsb' 6 1 ++ f.rd.extractLsb' 0 1 ++ f.f7.extractLsb' 0 6 ++ f.rd.extractLsb' 1 4

/-- S-type immediate bits. -/
def Fields.immS (f : Fields) : BitVec 12 := f.f7 ++ f.rd

/-- U-type immediate bits. -/
def Fields.imm20 (f : Fields) : BitVec 20 := f.f7 ++ f.rs2 ++ f.rs1 ++ f.f3

/-- J-type offset bits [20:1]. -/
def Fields.off20 (f : Fields) : BitVec 20 :=
  f.f7.extractLsb' 6 1 ++ (f.rs1 ++ f.f3) ++ f.rs2.extractLsb' 0 1 ++ (f.f7.extractLsb' 0 6 ++ f.rs2.extractLsb' 1 4)

/-- An instruction that needs a field to be zero (R245). -/
def need (b : Bool) (i : Instr) : Option Instr := if b then some i else none

/-- A field marked unused is zero. -/
abbrev z (r : Reg) : Bool := decide (r = 0)

/-- Low four bits of a field; R246 needs the bit above to be zero. -/
abbrev lo4 (r : Reg) : BitVec 4 := r.extractLsb' 0 4
abbrev lo3 (r : Reg) : BitVec 3 := r.extractLsb' 0 3
abbrev hi1 (r : Reg) : Bool := decide (r.toNat < 16)
abbrev hi2 (r : Reg) : Bool := decide (r.toNat < 8)

/-- custom-0, funct3 000 but for VGET (R247). -/
def decodeC0R (f : Fields) : Option Instr :=
  match f.f7.toNat with
  | 0 => need (z f.rs2) (.vsetvl f.rd f.rs1)
  | 1 => need (z f.rs2) (.vsetw f.rd f.rs1)
  | 2 => need (z f.rs2) (.vctx f.rd f.rs1)
  | 3 => need (z f.rs2) (.vslip f.rd f.rs1)
  | 4 => need (z f.rd && hi2 f.rs2 && hi2 f.rs1) (.vdrain (lo3 f.rs2) (lo3 f.rs1))
  | 5 => need (z f.rd && z f.rs1 && z f.rs2) .vqdrain
  | 6 => some (.vlive f.rd f.rs1 f.rs2)
  | 7 => need (z f.rd && z f.rs1 && z f.rs2) .svfence
  | 9 => some (.cbcmpEq f.rd f.rs1 f.rs2)
  | 10 => some (.cbcmpNe f.rd f.rs1 f.rs2)
  | 11 => some (.cbcmpLt f.rd f.rs1 f.rs2)
  | 12 => some (.cbcmpGe f.rd f.rs1 f.rs2)
  | 13 => some (.cbcmpLtu f.rd f.rs1 f.rs2)
  | 14 => some (.cbcmpGeu f.rd f.rs1 f.rs2)
  | 15 => some (.cblogAnd f.rd f.rs1 f.rs2)
  | 16 => some (.cblogOr f.rd f.rs1 f.rs2)
  | 17 => some (.cblogXor f.rd f.rs1 f.rs2)
  | 18 => some (.cblogAndn f.rd f.rs1 f.rs2)
  | 19 => need (z f.rs1 && z f.rs2) (.cbget f.rd)
  | 20 => need (z f.rd) (.cbput f.rs1 f.rs2)
  | 21 => need (z f.rd && z f.rs2) (.cbclr f.rs1)
  | _ => none

/-- VGET holds its form in the rs2 field: 0 single, 1 pair (R283). -/
def decodeVget (f : Fields) : Option Instr :=
  match f.rs2.toNat with
  | 0 => need (hi1 f.rs1) (.vget f.rd (lo4 f.rs1))
  | 1 => need (hi1 f.rs1) (.vgetP f.rd (lo4 f.rs1))
  | _ => none

/-- custom-0 (R247). -/
def decodeC0 (f : Fields) : Option Instr :=
  match f.f3.toNat with
  | 0 => if f.f7 = 8 then decodeVget f else decodeC0R f
  | 1 => need (z f.rd) (.vfetch f.rs1 f.imm12)
  | 2 => some (.vsetvli f.rd f.rs1 f.imm12)
  | 3 => need (z f.rs1 && decide (f.imm12.extractLsb' 1 11 = 0)) (.cbseti f.rd (f.imm12.extractLsb' 0 1))
  | _ => none

/-- custom-1, funct3 000 but for LINE, WMWAIT and WMPUB (R248). -/
def decodeC1R (f : Fields) : Option Instr :=
  match f.f7.toNat with
  | 0 => some (.tcfg f.rd f.rs1 f.rs2)
  | 1 => some (.tload f.rd f.rs1 f.rs2)
  | 2 => need (z f.rs2) (.tstore f.rd f.rs1)
  | 3 => need (z f.rs1 && z f.rs2) (.tfree f.rd)
  | 4 => need (z f.rs2) (.tstat f.rd f.rs1)
  | 5 => need (z f.rs2) (.tcopy f.rd f.rs1)
  | 6 => need (hi2 f.rd && z f.rs2) (.strcfg (lo3 f.rd) f.rs1)
  | 7 => need (hi2 f.rd && z f.rs1 && z f.rs2) (.strstart (lo3 f.rd))
  | 8 => need (hi2 f.rd && z f.rs1 && z f.rs2) (.strstop (lo3 f.rd))
  | 9 => need (hi2 f.rs1 && z f.rs2) (.strstat f.rd (lo3 f.rs1))
  | 10 => need (hi2 f.rs1 && z f.rs2) (.strbind f.rd (lo3 f.rs1))
  | 11 => some (.xcopy f.rd f.rs1 f.rs2)
  | 12 => need (z f.rd && z f.rs2) (.xform f.rs1)
  | 13 => need (hi1 f.rs1 && z f.rd && z f.rs2) (.close (lo4 f.rs1))
  | _ => none

/-- LINE holds its operation in the rs2 field (R248). -/
def decodeLine (f : Fields) : Option Instr :=
  match f.rs2.toNat with
  | 0 => some (.lineClean f.rd f.rs1)
  | 1 => some (.lineFlush f.rd f.rs1)
  | 2 => some (.lineInval f.rd f.rs1)
  | 3 => some (.lineLastuse f.rd f.rs1)
  | 4 => some (.lineDiscard f.rd f.rs1)
  | _ => none

/-- WMWAIT; with rs1 zero it disarms, and rs2 must be zero. Which of its other two forms runs is decided by x[rs2][63]
(R348). -/
def decodeWmwait (f : Fields) : Option Instr :=
  if z f.rs1 then need (hi2 f.rd && z f.rs2) (.wmwaitDisarm (lo3 f.rd))
  else need (hi2 f.rd) (.wmwait (lo3 f.rd) f.rs1 f.rs2)

/-- custom-1 (R248). -/
def decodeC1 (f : Fields) : Option Instr :=
  match f.f3.toNat with
  | 0 =>
    if f.f7 = 14 then decodeLine f
    else if f.f7 = 15 then decodeWmwait f
    else if f.f7 = 16 then need (hi2 f.rd) (.wmpub (lo3 f.rd) f.rs1 f.rs2)
    else decodeC1R f
  | 1 => need (z f.rd && z f.rs1) (.wait (f.imm12.extractLsb' 9 3) (f.imm12.extractLsb' 6 3)
           (f.imm12.extractLsb' 3 3) (f.imm12.extractLsb' 0 3))
  | _ => none

/-- custom-2, funct3 000 (R249). -/
def decodeC2R (f : Fields) : Option Instr :=
  match f.f7.toNat with
  | 0 => need (hi1 f.rd) (.barinit (lo4 f.rd) f.rs1 f.rs2)
  | 1 => need (hi1 f.rs1 && z f.rd && z f.rs2) (.bararrive (lo4 f.rs1))
  | 2 => need (hi1 f.rs1 && z f.rd && z f.rs2) (.barwait (lo4 f.rs1))
  | 3 => need (hi1 f.rs1 && z f.rd && z f.rs2) (.bararrwait (lo4 f.rs1))
  | 4 => need (hi1 f.rs1 && z f.rd && z f.rs2) (.barinv (lo4 f.rs1))
  | 5 => need (hi2 f.rs1 && z f.rd && z f.rs2) (.scfence (lo3 f.rs1))
  | 6 => need (hi2 f.rs1 && z f.rd && z f.rs2) (.acqfence (lo3 f.rs1))
  | 7 => need (hi2 f.rs1 && z f.rd && z f.rs2) (.relfence (lo3 f.rs1))
  | 8 => some (.afaddS f.rd f.rs1 f.rs2)
  | 9 => some (.afminS f.rd f.rs1 f.rs2)
  | 10 => some (.afmaxS f.rd f.rs1 f.rs2)
  | 11 => some (.afminnS f.rd f.rs1 f.rs2)
  | 12 => some (.afmaxnS f.rd f.rs1 f.rs2)
  | 13 => some (.sqcreate f.rd f.rs1 f.rs2)
  | 14 => some (.sqres f.rd f.rs1 f.rs2)
  | 15 => some (.sqcommit f.rd f.rs1 f.rs2)
  | 16 => some (.sqabandon f.rd f.rs1 f.rs2)
  | 17 => some (.sqfork f.rd f.rs1 f.rs2)
  | 18 => need (z f.rs2) (.sqlen f.rd f.rs1)
  | 19 => some (.sqwait f.rd f.rs1 f.rs2)
  | 20 => some (.sqseal f.rd f.rs1 f.rs2)
  | 21 => some (.sqevict f.rd f.rs1 f.rs2)
  | 22 => need (z f.rs2) (.sqrelease f.rd f.rs1)
  | 23 => some (.btinv f.rd f.rs1 f.rs2)
  | 24 => some (.ixcreate f.rd f.rs1 f.rs2)
  | 25 => some (.ixfamily f.rd f.rs1 f.rs2)
  | 26 => some (.ixins f.rd f.rs1 f.rs2)
  | 27 => some (.ixdel f.rd f.rs1 f.rs2)
  | 28 => need (z f.rs2) (.ixprobe f.rd f.rs1)
  | 29 => some (.ixrehash f.rd f.rs1 f.rs2)
  | 30 => some (.ixstat f.rd f.rs1 f.rs2)
  | 31 => need (z f.rs2) (.attn f.rd f.rs1)
  | 32 => need (z f.rs1 && z f.rs2) (.attnstat f.rd)
  | 33 => need (z f.rs2) (.attncancel f.rd f.rs1)
  | _ => none

/-- custom-2 (R249). -/
def decodeC2 (f : Fields) : Option Instr := if f.f3 = 0 then decodeC2R f else none

/-- custom-3, funct3 010: the matrix instructions (R250). -/
def decodeC3M (f : Fields) : Option Instr :=
  match f.f7.toNat with
  | 0 => need (z f.rs2) (.mmcfg f.rd f.rs1)
  | 1 => need (z f.rd) (.mmissue f.rs1 f.rs2)
  | 2 => need (z f.rd) (.mmsparse f.rs1 f.rs2)
  | 3 => need (z f.rd) (.mmgather f.rs1 f.rs2)
  | 4 => need (z f.rd) (.mmret f.rs1 f.rs2)
  | 5 => need (z f.rd && z f.rs2) (.acczero f.rs1)
  | 6 => need (z f.rd) (.accscale f.rs1 f.rs2)
  | 7 => need (z f.rs1 && z f.rs2) (.mmstat f.rd)
  | 8 => need (z f.rd && z f.rs1 && z f.rs2) .mmfence
  | _ => none

/-- custom-3, funct3 111 but for HALTT: the system instructions (R250). -/
def decodeC3S (f : Fields) : Option Instr :=
  match f.f7.toNat with
  | 1 => need (z f.rd && z f.rs1 && z f.rs2) .yield
  | 2 => need (z f.rs1 && z f.rs2) (.preemptpt f.rd)
  | 3 => some (.launch f.rd f.rs1 f.rs2)
  | 4 => need (z f.rd) (.rngseed f.rs1 f.rs2)
  | 5 => need (z f.rs1 && z f.rs2) (.rngnext f.rd)
  | 6 => need (decide (f.rs2.toNat < 2)) (.ctxsave f.rd f.rs1 (f.rs2.extractLsb' 0 1))
  | 7 => need (z f.rs2) (.ctxload f.rd f.rs1)
  | 8 => need (z f.rs2) (.laneretire f.rd f.rs1)
  | 9 => some (.bblog f.rd f.rs1 f.rs2)
  | _ => none

/-- HALTT holds its form in the rs2 field (R288). -/
def decodeHaltt (f : Fields) : Option Instr :=
  match f.rs2.toNat with
  | 0 => need (z f.rd && z f.rs1) .haltt
  | 1 => need (z f.rd) (.halttF f.rs1)
  | _ => none

/-- custom-3 (R250). -/
def decodeC3 (f : Fields) : Option Instr :=
  match f.f3.toNat with
  | 0 => need (z f.rs2) (.bc f.rs1 f.off12)
  | 1 => need (z f.rs2) (.bnc f.rs1 f.off12)
  | 2 => decodeC3M f
  | 7 => if f.f7 = 0 then decodeHaltt f else decodeC3S f
  | _ => none

/-- LOAD (0x03). -/
def decodeLoad (f : Fields) : Option Instr :=
  let mk (k : LoadKind) : Option Instr := some (.scalarLoad k f.rd f.rs1 f.imm12)
  match f.f3.toNat with
  | 0 => mk .lb | 1 => mk .lh | 2 => mk .lw | 3 => mk .ld | 4 => mk .lbu | 5 => mk .lhu | 6 => mk .lwu
  | _ => none

/-- STORE (0x23). -/
def decodeStore (f : Fields) : Option Instr :=
  let mk (k : StoreKind) : Option Instr := some (.scalarStore k f.rs1 f.rs2 f.immS)
  match f.f3.toNat with
  | 0 => mk .sb | 1 => mk .sh | 2 => mk .sw | 3 => mk .sd
  | _ => none

/-- MISC-MEM (0x0F): FENCE, FENCE.TSO, FENCE.I. -/
def decodeMisc (f : Fields) : Option Instr :=
  match f.f3.toNat with
  | 0 =>
    if f.imm12 = 0x833 then some .fenceTso
    else some (.fence (f.imm12.extractLsb' 4 4) (f.imm12.extractLsb' 0 4))
  | 1 => some .fenceI
  | _ => none

/-- OP-IMM (0x13). -/
def decodeOpImm (f : Fields) : Option Instr :=
  let im (o : ImmOp) : Option Instr := some (.baseInstruction (.imm o f.rd f.rs1 f.imm12))
  let sh (o : ShiftOp) : Option Instr := some (.baseInstruction (.shift o f.rd f.rs1 (f.imm12.extractLsb' 0 6)))
  let un (o : UnaryOp) : Option Instr := some (.baseInstruction (.unary o f.rd f.rs1))
  match f.f3.toNat with
  | 0 => im .addi | 2 => im .slti | 3 => im .sltiu | 4 => im .xori | 6 => im .ori | 7 => im .andi
  | 1 =>
    if f.imm12.extractLsb' 6 6 = 0 then sh .slli
    else if f.imm12 = 0x600 then un .clz else if f.imm12 = 0x601 then un .ctz else if f.imm12 = 0x602 then un .cpop
    else if f.imm12 = 0x604 then un .sextb else if f.imm12 = 0x605 then un .sexth else none
  | 5 =>
    if f.imm12.extractLsb' 6 6 = 0 then sh .srli
    else if f.imm12.extractLsb' 6 6 = 0x10 then sh .srai
    else if f.imm12.extractLsb' 6 6 = 0x18 then sh .rori
    else if f.imm12 = 0x287 then un .orcb else if f.imm12 = 0x6B8 then un .rev8 else none
  | _ => none

/-- OP-IMM-32 (0x1B). -/
def decodeOpImm32 (f : Fields) : Option Instr :=
  let sh (o : ShiftOp) : Option Instr := some (.baseInstruction (.shift o f.rd f.rs1 (f.imm12.extractLsb' 0 6)))
  let un (o : UnaryOp) : Option Instr := some (.baseInstruction (.unary o f.rd f.rs1))
  match f.f3.toNat with
  | 0 => some (.baseInstruction (.imm .addiw f.rd f.rs1 f.imm12))
  | 1 =>
    if f.f7 = 0 then sh .slliw
    else if f.imm12.extractLsb' 6 6 = 2 then sh .slliuw
    else if f.imm12 = 0x600 then un .clzw else if f.imm12 = 0x601 then un .ctzw else if f.imm12 = 0x602 then un .cpopw
    else none
  | 5 =>
    if f.f7 = 0 then sh .srliw else if f.f7 = 0x20 then sh .sraiw else if f.f7 = 0x30 then sh .roriw else none
  | _ => none

/-- OP (0x33). -/
def decodeOp (f : Fields) : Option Instr :=
  let al (o : AluOp) : Option Instr := some (.baseInstruction (.alu o f.rd f.rs1 f.rs2))
  match f.f7.toNat, f.f3.toNat with
  | 0, 0 => al .add | 0, 1 => al .sll | 0, 2 => al .slt | 0, 3 => al .sltu
  | 0, 4 => al .xor | 0, 5 => al .srl | 0, 6 => al .or | 0, 7 => al .and
  | 0x20, 0 => al .sub | 0x20, 5 => al .sra | 0x20, 4 => al .xnor | 0x20, 6 => al .orn | 0x20, 7 => al .andn
  | 1, 0 => al .mul | 1, 1 => al .mulh | 1, 2 => al .mulhsu | 1, 3 => al .mulhu
  | 1, 4 => al .div | 1, 5 => al .divu | 1, 6 => al .rem | 1, 7 => al .remu
  | 0x10, 2 => al .sh1add | 0x10, 4 => al .sh2add | 0x10, 6 => al .sh3add
  | 5, 4 => al .min | 5, 5 => al .minu | 5, 6 => al .max | 5, 7 => al .maxu
  | 0x30, 1 => al .rol | 0x30, 5 => al .ror
  | _, _ => none

/-- OP-32 (0x3B). -/
def decodeOp32 (f : Fields) : Option Instr :=
  let al (o : AluOp) : Option Instr := some (.baseInstruction (.alu o f.rd f.rs1 f.rs2))
  match f.f7.toNat, f.f3.toNat with
  | 0, 0 => al .addw | 0, 1 => al .sllw | 0, 5 => al .srlw
  | 0x20, 0 => al .subw | 0x20, 5 => al .sraw
  | 1, 0 => al .mulw | 1, 4 => al .divw | 1, 5 => al .divuw | 1, 6 => al .remw | 1, 7 => al .remuw
  | 4, 0 => al .adduw
  | 4, 4 => if f.rs2 = 0 then some (.baseInstruction (.unary .zexth f.rd f.rs1)) else none
  | 0x10, 2 => al .sh1adduw | 0x10, 4 => al .sh2adduw | 0x10, 6 => al .sh3adduw
  | 0x30, 1 => al .rolw | 0x30, 5 => al .rorw
  | _, _ => none

/-- BRANCH (0x63). -/
def decodeBranch (f : Fields) : Option Instr :=
  let br (c : BrCond) : Option Instr := some (.baseInstruction (.branch c f.rs1 f.rs2 f.off12))
  match f.f3.toNat with
  | 0 => br .eq | 1 => br .ne | 4 => br .lt | 5 => br .ge | 6 => br .ltu | 7 => br .geu
  | _ => none

/-- AMO (0x2F): LR, SC and the AMOs, word and doubleword. -/
def decodeAmo (f : Fields) : Option Instr :=
  let aq := f.f7.getLsbD 1
  let rl := f.f7.getLsbD 0
  let go (d : Bool) : Option Instr :=
    let am (o : AmoOp) : Option Instr := some (.amo o d aq rl f.rd f.rs1 f.rs2)
    match (f.f7.extractLsb' 2 5).toNat with
    | 0 => am .add | 1 => am .swap | 4 => am .xor | 8 => am .or | 12 => am .and
    | 16 => am .min | 20 => am .max | 24 => am .minu | 28 => am .maxu
    | 2 => need (z f.rs2) (.lr d aq rl f.rd f.rs1)
    | 3 => some (.sc d aq rl f.rd f.rs1 f.rs2)
    | _ => none
  match f.f3.toNat with
  | 2 => go false
  | 3 => go true
  | _ => none

/-- The row of a Zicsr instruction: writes of vl, vw, vctx, vqlim and wcnt have behaviour of their own, and so has
every access of rngkey and rngctr. -/
def csrInstr (op : CsrOp) (rd src : Reg) (csr : BitVec 12) : Instr :=
  if csr == 0x811 || csr == 0x812 then .csrAccessRng op rd src csr
  else if csrWrites op src then
    if csr == 0x800 then .csrWriteVl op rd src
    else if csr == 0x801 then .csrWriteVw op rd src
    else if csr == 0x802 then .csrWriteVctx op rd src
    else if csr == 0x804 then .csrWriteVqlim op rd src
    else if csr == 0x814 then .csrWriteWcnt op rd src
    else .csrAccess op rd src csr
  else .csrAccess op rd src csr

/-- SYSTEM (0x73). -/
def decodeSystem (f : Fields) : Option Instr :=
  let cs (o : CsrOp) : Option Instr := some (csrInstr o f.rd f.rs1 f.imm12)
  match f.f3.toNat with
  | 0 =>
    if z f.rd && z f.rs1 then
      if f.imm12 = 0 then some .ecall else if f.imm12 = 1 then some .ebreak
      else if f.imm12 = 0x302 then some .mret else if f.imm12 = 0x105 then some .wfi else none
    else none
  | 1 => cs .rw | 2 => cs .rs | 3 => cs .rc | 5 => cs .rwi | 6 => cs .rsi | 7 => cs .rci
  | _ => none

/-- A 32-bit encoding by its major opcode; none where the map lists nothing (R245). -/
def decodeFields (f : Fields) : Option Instr :=
  match f.op.toNat with
  | 0x0B => decodeC0 f
  | 0x2B => decodeC1 f
  | 0x5B => decodeC2 f
  | 0x7B => decodeC3 f
  | 0x03 => decodeLoad f
  | 0x23 => decodeStore f
  | 0x0F => decodeMisc f
  | 0x13 => decodeOpImm f
  | 0x1B => decodeOpImm32 f
  | 0x33 => decodeOp f
  | 0x3B => decodeOp32 f
  | 0x37 => some (.baseInstruction (.lui f.rd f.imm20))
  | 0x17 => some (.baseInstruction (.auipc f.rd f.imm20))
  | 0x6F => some (.baseInstruction (.jal f.rd f.off20))
  | 0x67 => if f.f3 = 0 then some (.baseInstruction (.jalr f.rd f.rs1 f.imm12)) else none
  | 0x63 => decodeBranch f
  | 0x2F => decodeAmo f
  | 0x73 => decodeSystem f
  | _ => none

/-- A 32-bit word: an unlisted encoding is the row ILLEGAL_INSTRUCTION (R245). -/
def decode32 (w : BitVec 32) : Instr := (decodeFields (Fields.of w)).getD (.illegalInstruction w)

/-- Compressed registers x8 to x15. -/
def creg (h : BitVec 16) (lo : Nat) : Reg := (1#2) ++ h.extractLsb' lo 3

/-- One bit of a half-word. -/
abbrev hb (h : BitVec 16) (i : Nat) : BitVec 1 := h.extractLsb' i 1

/-- Quadrant 0 of RV64C without the floating-point forms. -/
def decodeQ0 (h : BitVec 16) : Option Instr :=
  let rd := creg h 2
  let rs := creg h 7
  let offW : BitVec 12 := 0#5 ++ hb h 5 ++ h.extractLsb' 10 3 ++ hb h 6 ++ 0#2
  let offD : BitVec 12 := 0#4 ++ h.extractLsb' 5 2 ++ h.extractLsb' 10 3 ++ 0#3
  match (h.extractLsb' 13 3).toNat with
  | 0 =>
    let im : BitVec 12 := 0#2 ++ h.extractLsb' 7 4 ++ h.extractLsb' 11 2 ++ hb h 5 ++ hb h 6 ++ 0#2
    if im = 0 then none else some (.baseInstruction (.imm .addi rd 2 im))
  | 2 => some (.scalarLoad .lw rd rs offW)
  | 3 => some (.scalarLoad .ld rd rs offD)
  | 6 => some (.scalarStore .sw rs rd offW)
  | 7 => some (.scalarStore .sd rs rd offD)
  | _ => none

/-- Quadrant 1 of RV64C. -/
def decodeQ1 (h : BitVec 16) : Option Instr :=
  let r : Reg := h.extractLsb' 7 5
  let im6 : BitVec 6 := hb h 12 ++ h.extractLsb' 2 5
  let im : BitVec 12 := im6.signExtend 12
  let rp := creg h 7
  let rq := creg h 2
  let b (o : BaseOp) : Option Instr := some (.baseInstruction o)
  let brOff : BitVec 12 :=
    (hb h 12 ++ h.extractLsb' 5 2 ++ hb h 2 ++ h.extractLsb' 10 2 ++ h.extractLsb' 3 2 : BitVec 8).signExtend 12
  match (h.extractLsb' 13 3).toNat with
  | 0 => b (.imm .addi r r im)
  | 1 => if r = 0 then none else b (.imm .addiw r r im)
  | 2 => b (.imm .addi r 0 im)
  | 3 =>
    if r = 2 then
      let i16 : BitVec 12 := (hb h 12 ++ h.extractLsb' 3 2 ++ hb h 5 ++ hb h 2 ++ hb h 6 ++ 0#4 : BitVec 10).signExtend 12
      if i16 = 0 then none else b (.imm .addi 2 2 i16)
    else if im6 = 0 then none else b (.lui r (im6.signExtend 20))
  | 4 =>
    match (h.extractLsb' 10 2).toNat with
    | 0 => b (.shift .srli rp rp im6)
    | 1 => b (.shift .srai rp rp im6)
    | 2 => b (.imm .andi rp rp im)
    | _ =>
      match (hb h 12).toNat, (h.extractLsb' 5 2).toNat with
      | 0, 0 => b (.alu .sub rp rp rq)
      | 0, 1 => b (.alu .xor rp rp rq)
      | 0, 2 => b (.alu .or rp rp rq)
      | 0, 3 => b (.alu .and rp rp rq)
      | 1, 0 => b (.alu .subw rp rp rq)
      | 1, 1 => b (.alu .addw rp rp rq)
      | _, _ => none
  | 5 =>
    let off : BitVec 20 :=
      (hb h 12 ++ hb h 8 ++ h.extractLsb' 9 2 ++ hb h 6 ++ hb h 7 ++ hb h 2 ++ hb h 11 ++ h.extractLsb' 3 3 : BitVec 11).signExtend 20
    b (.jal 0 off)
  | 6 => b (.branch .eq rp 0 brOff)
  | _ => b (.branch .ne rp 0 brOff)

/-- Quadrant 2 of RV64C without the floating-point forms. -/
def decodeQ2 (h : BitVec 16) : Option Instr :=
  let r : Reg := h.extractLsb' 7 5
  let r2 : Reg := h.extractLsb' 2 5
  let b (o : BaseOp) : Option Instr := some (.baseInstruction o)
  match (h.extractLsb' 13 3).toNat with
  | 0 => b (.shift .slli r r (hb h 12 ++ r2))
  | 2 => if r = 0 then none
         else some (.scalarLoad .lw r 2 (0#4 ++ h.extractLsb' 2 2 ++ hb h 12 ++ h.extractLsb' 4 3 ++ 0#2))
  | 3 => if r = 0 then none
         else some (.scalarLoad .ld r 2 (0#3 ++ h.extractLsb' 2 3 ++ hb h 12 ++ h.extractLsb' 5 2 ++ 0#3))
  | 4 =>
    if hb h 12 = 0 then
      if r2 = 0 then (if r = 0 then none else b (.jalr 0 r 0)) else b (.alu .add r 0 r2)
    else if r2 = 0 then (if r = 0 then some .ebreak else b (.jalr 1 r 0))
    else b (.alu .add r r r2)
  | 6 => some (.scalarStore .sw 2 r2 (0#4 ++ h.extractLsb' 7 2 ++ h.extractLsb' 9 4 ++ 0#2))
  | 7 => some (.scalarStore .sd 2 r2 (0#3 ++ h.extractLsb' 7 3 ++ h.extractLsb' 10 3 ++ 0#3))
  | _ => none

/-- A 16-bit encoding (bits [1:0] not 0b11). -/
def decode16 (h : BitVec 16) : Instr :=
  (match (h.extractLsb' 0 2).toNat with
   | 0 => decodeQ0 h
   | 1 => decodeQ1 h
   | _ => decodeQ2 h).getD (.illegalInstruction (h.setWidth 32))

/-- Little-endian number of bytes (R8). -/
def leNat : List Byte → Nat
  | [] => 0
  | b :: bs => b.toNat + 256 * leNat bs

/-- The instruction a thread issues from the bytes at its program counter, and its length in bytes. -/
def decodeBytes (bs : List Byte) : Except DecodeError (Instr × Nat) :=
  match bs with
  | b0 :: b1 :: rest =>
    if b0.extractLsb' 0 2 = 3 then
      match rest with
      | b2 :: b3 :: _ => .ok (decode32 (BitVec.ofNat 32 (leNat [b0, b1, b2, b3])), 4)
      | _ => .error .tooShort
    else .ok (decode16 (BitVec.ofNat 16 (leNat [b0, b1])), 2)
  | _ => .error .tooShort

/-- The fields of a vector word (R251). -/
def VWord.of (w : BitVec 64) : VWord :=
  { c := w.extractLsb' 63 1, fn := w.extractLsb' 52 4, vd := w.extractLsb' 48 4, va := w.extractLsb' 44 4,
    vb := w.extractLsb' 40 4, mk := w.extractLsb' 37 3, mi := w.extractLsb' 36 1, ms := w.extractLsb' 33 3,
    se := w.extractLsb' 32 1, wa := w.extractLsb' 28 4, wb := w.extractLsb' 24 4, wd := w.extractLsb' 20 4,
    wo := w.extractLsb' 19 1, gs := w.extractLsb' 16 3, so := w.extractLsb' 15 1, imm := w.extractLsb' 0 15 }

/-- The bits of a vector word with opcode `op` (R251). -/
def VWord.bits (op : BitVec 7) (v : VWord) : BitVec 64 :=
  v.c ++ op ++ v.fn ++ v.vd ++ v.va ++ v.vb ++ v.mk ++ v.mi ++ v.ms ++ v.se ++ v.wa ++ v.wb ++ v.wd ++ v.wo ++ v.gs
    ++ v.so ++ v.imm


/-- The opcode map of vector words (R256), forms that share an opcode told apart by FN; none where reserved or illegal. -/
def decodeVop (op : Nat) (v : VWord) : Option Instr :=
  match op with
  | 0x00 => some (.vadd v)
  | 0x01 => some (.vsub v)
  | 0x02 => some (.vrsub v)
  | 0x03 => some (.vneg v)
  | 0x04 => some (.vabs v)
  | 0x05 => some (.vmin v)
  | 0x06 => some (.vmax v)
  | 0x07 => some (.vminu v)
  | 0x08 => some (.vmaxu v)
  | 0x09 => some (.vmul v)
  | 0x0a => some (.vmulh v)
  | 0x0b => some (.vmac v)
  | 0x0c => some (.vand v)
  | 0x0d => some (.vor v)
  | 0x0e => some (.vxor v)
  | 0x0f => some (.vandn v)
  | 0x10 => some (.vnot v)
  | 0x11 => some (.vsll v)
  | 0x12 => some (.vsrl v)
  | 0x13 => some (.vsra v)
  | 0x14 => some (.vshrr v)
  | 0x15 => some (.vcmp v)
  | 0x16 => some (.vsel v)
  | 0x17 => some (.vmov v)
  | 0x18 => some (.vmovi v)
  | 0x19 => some (.vmovg v)
  | 0x1a => some (.vpopc v)
  | 0x1b => some (.vclz v)
  | 0x1c => some (.vabsd v)
  | 0x1d => some (.vavg v)
  | 0x1e => some (.vdotr v)
  | 0x1f => some (.vrand v)
  | 0x20 => some (.vsext v)
  | 0x21 => some (.vzext v)
  | 0x22 => some (.vsatw v)
  | 0x23 => some (.vpack v)
  | 0x24 => some (.vsegd v)
  | 0x25 => some (.vcvt v)
  | 0x26 => some (.mlog v)
  | 0x27 => some (.mset v)
  | 0x28 => some (.mpop v)
  | 0x29 => some (.mfirst v)
  | 0x2a => some (.vany v)
  | 0x2b => some (.vall v)
  | 0x2c => some (.vtrim v)
  | 0x2d => some (.vsetvlb v)
  | 0x30 => some (.vfadd v)
  | 0x31 => some (.vfsub v)
  | 0x32 => some (.vfmul v)
  | 0x33 => some (.vfma v)
  | 0x34 => some (.vfmin v)
  | 0x35 => some (.vfmax v)
  | 0x36 => some (.vfdiv v)
  | 0x37 => some (.vfsqrt v)
  | 0x38 => some (.vfrecip v)
  | 0x39 => some (.vfrsqrt v)
  | 0x3a => some (.vfexp2 v)
  | 0x3b => some (.vfcmp v)
  | 0x3c => some (.vfclass v)
  | 0x3d => some (.vfscale v)
  | 0x3e => some (.vfsgn v)
  | 0x40 => some (.vred v)
  | 0x41 => some (.vfred v)
  | 0x42 => some (.vscan v)
  | 0x43 => some (.vperm v)
  | 0x44 => some (.vslideup v)
  | 0x45 => some (.vslidedn v)
  | 0x46 => some (.vbcast v)
  | 0x47 => some (.vcompact v)
  | 0x48 => some (.vnzscan v)
  | 0x49 => some (.vpfxpop v)
  | 0x4a => some (.vramp v)
  | 0x4b => some (.vbar v)
  | 0x50 => some (.vld v)
  | 0x51 => some (.vlds v)
  | 0x52 => some (.vldx v)
  | 0x53 => some (.vldseg v)
  | 0x54 => some (.vldff v)
  | 0x55 => some (.vst v)
  | 0x56 => some (.vsts v)
  | 0x57 => some (.vstx v)
  | 0x58 => some (.vstseg v)
  | 0x59 => some (if v.fn.getLsbD 3 then .vamoTile v else .vamo v)
  | 0x5a => some (.vamof v)
  | 0x5b => some (.vldt v)
  | 0x5c => some (.vstt v)
  | 0x5d => some (.vwaitn v)
  | 0x5e => some (.vpref v)
  | 0x60 => some (.vaccrd v)
  | 0x61 => some (.vaccwr v)
  | 0x62 => some (.vaccz v)
  | 0x63 => some (.vmxsc v)
  | 0x64 => some (.vixprobe v)
  | 0x65 => some (.vixhash v)
  | 0x66 => some (.vsqmap v)
  | 0x67 => some (.vsqpos v)
  | 0x70 => some (if v.fn = 1 then .vstopR v else .vstop v)
  | 0x71 => some (.vtfetch v)
  | 0x72 => some (.vnop v)
  | 0x73 => some (.vtrap v)
  | _ => none

/-- A vector word: a reserved or illegal opcode is the row VECTOR_ILLEGAL (R257). -/
def decode64 (w : BitVec 64) : Instr :=
  (decodeVop (w.extractLsb' 56 7).toNat (VWord.of w)).getD (.vectorIllegal w)

/-- The `n` bytes of a number, lowest first (R8). -/
def leBytes : Nat → Nat → List Byte
  | 0, _ => []
  | n + 1, v => BitVec.ofNat 8 v :: leBytes n (v / 256)

/-- The decoder on a table word: `nbits` bits of `w`, stored little-endian and followed by zeros. -/
def decodeTableWord (nbits w : Nat) : Option Instr :=
  if nbits = 64 then some (decode64 (BitVec.ofNat 64 w))
  else
    match decodeBytes (leBytes (nbits / 8) w ++ List.replicate 8 0) with
    | .ok (i, _) => some i
    | .error _ => none

/-! The encoder. -/

/-- Opcode and fields of a vector instruction (R256). -/
def Instr.vparts : Instr → Option (BitVec 7 × VWord)
  | .vadd v => some (0x00, v)
  | .vsub v => some (0x01, v)
  | .vrsub v => some (0x02, v)
  | .vneg v => some (0x03, v)
  | .vabs v => some (0x04, v)
  | .vmin v => some (0x05, v)
  | .vmax v => some (0x06, v)
  | .vminu v => some (0x07, v)
  | .vmaxu v => some (0x08, v)
  | .vmul v => some (0x09, v)
  | .vmulh v => some (0x0a, v)
  | .vmac v => some (0x0b, v)
  | .vand v => some (0x0c, v)
  | .vor v => some (0x0d, v)
  | .vxor v => some (0x0e, v)
  | .vandn v => some (0x0f, v)
  | .vnot v => some (0x10, v)
  | .vsll v => some (0x11, v)
  | .vsrl v => some (0x12, v)
  | .vsra v => some (0x13, v)
  | .vshrr v => some (0x14, v)
  | .vcmp v => some (0x15, v)
  | .vsel v => some (0x16, v)
  | .vmov v => some (0x17, v)
  | .vmovi v => some (0x18, v)
  | .vmovg v => some (0x19, v)
  | .vpopc v => some (0x1a, v)
  | .vclz v => some (0x1b, v)
  | .vabsd v => some (0x1c, v)
  | .vavg v => some (0x1d, v)
  | .vdotr v => some (0x1e, v)
  | .vrand v => some (0x1f, v)
  | .vsext v => some (0x20, v)
  | .vzext v => some (0x21, v)
  | .vsatw v => some (0x22, v)
  | .vpack v => some (0x23, v)
  | .vsegd v => some (0x24, v)
  | .vcvt v => some (0x25, v)
  | .mlog v => some (0x26, v)
  | .mset v => some (0x27, v)
  | .mpop v => some (0x28, v)
  | .mfirst v => some (0x29, v)
  | .vany v => some (0x2a, v)
  | .vall v => some (0x2b, v)
  | .vtrim v => some (0x2c, v)
  | .vsetvlb v => some (0x2d, v)
  | .vfadd v => some (0x30, v)
  | .vfsub v => some (0x31, v)
  | .vfmul v => some (0x32, v)
  | .vfma v => some (0x33, v)
  | .vfmin v => some (0x34, v)
  | .vfmax v => some (0x35, v)
  | .vfdiv v => some (0x36, v)
  | .vfsqrt v => some (0x37, v)
  | .vfrecip v => some (0x38, v)
  | .vfrsqrt v => some (0x39, v)
  | .vfexp2 v => some (0x3a, v)
  | .vfcmp v => some (0x3b, v)
  | .vfclass v => some (0x3c, v)
  | .vfscale v => some (0x3d, v)
  | .vfsgn v => some (0x3e, v)
  | .vred v => some (0x40, v)
  | .vfred v => some (0x41, v)
  | .vscan v => some (0x42, v)
  | .vperm v => some (0x43, v)
  | .vslideup v => some (0x44, v)
  | .vslidedn v => some (0x45, v)
  | .vbcast v => some (0x46, v)
  | .vcompact v => some (0x47, v)
  | .vnzscan v => some (0x48, v)
  | .vpfxpop v => some (0x49, v)
  | .vramp v => some (0x4a, v)
  | .vbar v => some (0x4b, v)
  | .vld v => some (0x50, v)
  | .vlds v => some (0x51, v)
  | .vldx v => some (0x52, v)
  | .vldseg v => some (0x53, v)
  | .vldff v => some (0x54, v)
  | .vst v => some (0x55, v)
  | .vsts v => some (0x56, v)
  | .vstx v => some (0x57, v)
  | .vstseg v => some (0x58, v)
  | .vamo v => some (0x59, v)
  | .vamoTile v => some (0x59, v)
  | .vamof v => some (0x5a, v)
  | .vldt v => some (0x5b, v)
  | .vstt v => some (0x5c, v)
  | .vwaitn v => some (0x5d, v)
  | .vpref v => some (0x5e, v)
  | .vaccrd v => some (0x60, v)
  | .vaccwr v => some (0x61, v)
  | .vaccz v => some (0x62, v)
  | .vmxsc v => some (0x63, v)
  | .vixprobe v => some (0x64, v)
  | .vixhash v => some (0x65, v)
  | .vsqmap v => some (0x66, v)
  | .vsqpos v => some (0x67, v)
  | .vstop v => some (0x70, v)
  | .vstopR v => some (0x70, v)
  | .vtfetch v => some (0x71, v)
  | .vnop v => some (0x72, v)
  | .vtrap v => some (0x73, v)
  | _ => none

/-- Opcode of a vector instruction. -/
def Instr.vop (i : Instr) : Option (BitVec 7) := i.vparts.map (·.1)

/-- Fields of a vector instruction. -/
def Instr.vword (i : Instr) : Option VWord := i.vparts.map (·.2)

/-- Fields of a B-type word (R244). -/
def bFields (rs2 rs1 : Reg) (f3 : BitVec 3) (off : BitVec 12) (op : BitVec 7) : Fields :=
  { f7 := off.extractLsb' 11 1 ++ off.extractLsb' 4 6, rs2, rs1, f3,
    rd := off.extractLsb' 0 4 ++ off.extractLsb' 10 1, op }

/-- Fields of an I-type word (R244). -/
def iFields (imm : BitVec 12) (rs1 : Reg) (f3 : BitVec 3) (rd : Reg) (op : BitVec 7) : Fields :=
  { f7 := imm.extractLsb' 5 7, rs2 := imm.extractLsb' 0 5, rs1, f3, rd, op }

/-- Fields of an S-type word. -/
def sFields (imm : BitVec 12) (rs2 rs1 : Reg) (f3 : BitVec 3) (op : BitVec 7) : Fields :=
  { f7 := imm.extractLsb' 5 7, rs2, rs1, f3, rd := imm.extractLsb' 0 5, op }

/-- Fields of a U-type word. -/
def uFields (imm : BitVec 20) (rd : Reg) (op : BitVec 7) : Fields :=
  { f7 := imm.extractLsb' 13 7, rs2 := imm.extractLsb' 8 5, rs1 := imm.extractLsb' 3 5, f3 := imm.extractLsb' 0 3, rd, op }

/-- Fields of a J-type word. -/
def jFields (off : BitVec 20) (rd : Reg) : Fields :=
  { f7 := off.extractLsb' 19 1 ++ off.extractLsb' 4 6, rs2 := off.extractLsb' 0 4 ++ off.extractLsb' 10 1,
    rs1 := off.extractLsb' 14 5, f3 := off.extractLsb' 11 3, rd, op := 0x6F }

/-- Funct3 of a load. -/
def LoadKind.f3 : LoadKind → BitVec 3
  | .lb => 0 | .lh => 1 | .lw => 2 | .ld => 3 | .lbu => 4 | .lhu => 5 | .lwu => 6

/-- Funct3 of a store. -/
def StoreKind.f3 : StoreKind → BitVec 3
  | .sb => 0 | .sh => 1 | .sw => 2 | .sd => 3

/-- Funct3 of a Zicsr form. -/
def CsrOp.f3 : CsrOp → BitVec 3
  | .rw => 1 | .rs => 2 | .rc => 3 | .rwi => 5 | .rsi => 6 | .rci => 7

/-- Funct3 of a branch. -/
def BrCond.f3 : BrCond → BitVec 3
  | .eq => 0 | .ne => 1 | .lt => 4 | .ge => 5 | .ltu => 6 | .geu => 7

/-- Funct5 of an AMO. -/
def AmoOp.f5 : AmoOp → BitVec 5
  | .add => 0 | .swap => 1 | .xor => 4 | .or => 8 | .and => 12 | .min => 16 | .max => 20 | .minu => 24 | .maxu => 28

/-- Funct3 and major opcode of a register-immediate operation. -/
def ImmOp.f3op : ImmOp → BitVec 3 × BitVec 7
  | .addi => (0, 0x13) | .slti => (2, 0x13) | .sltiu => (3, 0x13) | .xori => (4, 0x13) | .ori => (6, 0x13)
  | .andi => (7, 0x13) | .addiw => (0, 0x1B)

/-- Upper six immediate bits, funct3 and major opcode of a shift. -/
def ShiftOp.code : ShiftOp → BitVec 6 × BitVec 3 × BitVec 7
  | .slli => (0, 1, 0x13) | .srli => (0, 5, 0x13) | .srai => (0x10, 5, 0x13) | .rori => (0x18, 5, 0x13)
  | .slliuw => (2, 1, 0x1B) | .slliw => (0, 1, 0x1B) | .srliw => (0, 5, 0x1B) | .sraiw => (0x10, 5, 0x1B)
  | .roriw => (0x18, 5, 0x1B)

/-- Funct7, funct3 and major opcode of a register-register operation. -/
def AluOp.code : AluOp → BitVec 7 × BitVec 3 × BitVec 7
  | .add => (0, 0, 0x33) | .sll => (0, 1, 0x33) | .slt => (0, 2, 0x33) | .sltu => (0, 3, 0x33)
  | .xor => (0, 4, 0x33) | .srl => (0, 5, 0x33) | .or => (0, 6, 0x33) | .and => (0, 7, 0x33)
  | .sub => (0x20, 0, 0x33) | .sra => (0x20, 5, 0x33) | .xnor => (0x20, 4, 0x33) | .orn => (0x20, 6, 0x33)
  | .andn => (0x20, 7, 0x33)
  | .mul => (1, 0, 0x33) | .mulh => (1, 1, 0x33) | .mulhsu => (1, 2, 0x33) | .mulhu => (1, 3, 0x33)
  | .div => (1, 4, 0x33) | .divu => (1, 5, 0x33) | .rem => (1, 6, 0x33) | .remu => (1, 7, 0x33)
  | .sh1add => (0x10, 2, 0x33) | .sh2add => (0x10, 4, 0x33) | .sh3add => (0x10, 6, 0x33)
  | .min => (5, 4, 0x33) | .minu => (5, 5, 0x33) | .max => (5, 6, 0x33) | .maxu => (5, 7, 0x33)
  | .rol => (0x30, 1, 0x33) | .ror => (0x30, 5, 0x33)
  | .addw => (0, 0, 0x3B) | .sllw => (0, 1, 0x3B) | .srlw => (0, 5, 0x3B) | .subw => (0x20, 0, 0x3B)
  | .sraw => (0x20, 5, 0x3B) | .mulw => (1, 0, 0x3B) | .divw => (1, 4, 0x3B) | .divuw => (1, 5, 0x3B)
  | .remw => (1, 6, 0x3B) | .remuw => (1, 7, 0x3B) | .adduw => (4, 0, 0x3B) | .sh1adduw => (0x10, 2, 0x3B)
  | .sh2adduw => (0x10, 4, 0x3B) | .sh3adduw => (0x10, 6, 0x3B) | .rolw => (0x30, 1, 0x3B) | .rorw => (0x30, 5, 0x3B)

/-- Immediate, funct3 and major opcode of a one-operand operation. -/
def UnaryOp.code : UnaryOp → BitVec 12 × BitVec 3 × BitVec 7
  | .clz => (0x600, 1, 0x13) | .ctz => (0x601, 1, 0x13) | .cpop => (0x602, 1, 0x13) | .sextb => (0x604, 1, 0x13)
  | .sexth => (0x605, 1, 0x13) | .orcb => (0x287, 5, 0x13) | .rev8 => (0x6B8, 5, 0x13)
  | .clzw => (0x600, 1, 0x1B) | .ctzw => (0x601, 1, 0x1B) | .cpopw => (0x602, 1, 0x1B) | .zexth => (0x080, 4, 0x3B)

/-- Fields of a base instruction in its 32-bit form. -/
def BaseOp.fields : BaseOp → Fields
  | .lui rd i => uFields i rd 0x37
  | .auipc rd i => uFields i rd 0x17
  | .jal rd off => jFields off rd
  | .jalr rd rs1 i => iFields i rs1 0 rd 0x67
  | .branch c rs1 rs2 off => bFields rs2 rs1 c.f3 off 0x63
  | .imm o rd rs1 i => iFields i rs1 o.f3op.1 rd o.f3op.2
  | .shift o rd rs1 sh => iFields (o.code.1 ++ sh) rs1 o.code.2.1 rd o.code.2.2
  | .alu o rd rs1 rs2 => { f7 := o.code.1, rs2, rs1, f3 := o.code.2.1, rd, op := o.code.2.2 }
  | .unary o rd rs1 => iFields o.code.1 rs1 o.code.2.1 rd o.code.2.2

/-- Fields of an R-type word (R244). -/
def rFields (f7 : BitVec 7) (rs2 rs1 : Reg) (f3 : BitVec 3) (rd : Reg) (op : BitVec 7) : Fields :=
  { f7, rs2, rs1, f3, rd, op }

/-- Fields of a scalar instruction; none for the rows that are no scalar instruction. -/
def Instr.fields : Instr → Option Fields
  | .vsetvl rd rs1 => some (rFields 0 0 rs1 0 rd 0x0b)
  | .vsetw rd rs1 => some (rFields 1 0 rs1 0 rd 0x0b)
  | .vctx rd rs1 => some (rFields 2 0 rs1 0 rd 0x0b)
  | .vslip rd rs1 => some (rFields 3 0 rs1 0 rd 0x0b)
  | .vdrain k sp => some (rFields 4 (k.setWidth 5) (sp.setWidth 5) 0 0 0x0b)
  | .vqdrain => some (rFields 5 0 0 0 0 0x0b)
  | .vlive rd rs1 rs2 => some (rFields 6 rs2 rs1 0 rd 0x0b)
  | .svfence => some (rFields 7 0 0 0 0 0x0b)
  | .cbcmpEq rd rs1 rs2 => some (rFields 9 rs2 rs1 0 rd 0x0b)
  | .cbcmpNe rd rs1 rs2 => some (rFields 10 rs2 rs1 0 rd 0x0b)
  | .cbcmpLt rd rs1 rs2 => some (rFields 11 rs2 rs1 0 rd 0x0b)
  | .cbcmpGe rd rs1 rs2 => some (rFields 12 rs2 rs1 0 rd 0x0b)
  | .cbcmpLtu rd rs1 rs2 => some (rFields 13 rs2 rs1 0 rd 0x0b)
  | .cbcmpGeu rd rs1 rs2 => some (rFields 14 rs2 rs1 0 rd 0x0b)
  | .cblogAnd rd rs1 rs2 => some (rFields 15 rs2 rs1 0 rd 0x0b)
  | .cblogOr rd rs1 rs2 => some (rFields 16 rs2 rs1 0 rd 0x0b)
  | .cblogXor rd rs1 rs2 => some (rFields 17 rs2 rs1 0 rd 0x0b)
  | .cblogAndn rd rs1 rs2 => some (rFields 18 rs2 rs1 0 rd 0x0b)
  | .cbget rd => some (rFields 19 0 0 0 rd 0x0b)
  | .cbput rs1 rs2 => some (rFields 20 rs2 rs1 0 0 0x0b)
  | .cbclr rs1 => some (rFields 21 0 rs1 0 0 0x0b)
  | .tcfg rd rs1 rs2 => some (rFields 0 rs2 rs1 0 rd 0x2b)
  | .tload rd rs1 rs2 => some (rFields 1 rs2 rs1 0 rd 0x2b)
  | .tstore rd rs1 => some (rFields 2 0 rs1 0 rd 0x2b)
  | .tfree rd => some (rFields 3 0 0 0 rd 0x2b)
  | .tstat rd rs1 => some (rFields 4 0 rs1 0 rd 0x2b)
  | .tcopy rd rs1 => some (rFields 5 0 rs1 0 rd 0x2b)
  | .strcfg q rs1 => some (rFields 6 0 rs1 0 (q.setWidth 5) 0x2b)
  | .strstart q => some (rFields 7 0 0 0 (q.setWidth 5) 0x2b)
  | .strstop q => some (rFields 8 0 0 0 (q.setWidth 5) 0x2b)
  | .strstat rd q => some (rFields 9 0 (q.setWidth 5) 0 rd 0x2b)
  | .strbind rd q => some (rFields 10 0 (q.setWidth 5) 0 rd 0x2b)
  | .xcopy rd rs1 rs2 => some (rFields 11 rs2 rs1 0 rd 0x2b)
  | .xform rs1 => some (rFields 12 0 rs1 0 0 0x2b)
  | .close b => some (rFields 13 0 (b.setWidth 5) 0 0 0x2b)
  | .barinit b rs1 rs2 => some (rFields 0 rs2 rs1 0 (b.setWidth 5) 0x5b)
  | .bararrive b => some (rFields 1 0 (b.setWidth 5) 0 0 0x5b)
  | .barwait b => some (rFields 2 0 (b.setWidth 5) 0 0 0x5b)
  | .bararrwait b => some (rFields 3 0 (b.setWidth 5) 0 0 0x5b)
  | .barinv b => some (rFields 4 0 (b.setWidth 5) 0 0 0x5b)
  | .scfence sp => some (rFields 5 0 (sp.setWidth 5) 0 0 0x5b)
  | .acqfence sp => some (rFields 6 0 (sp.setWidth 5) 0 0 0x5b)
  | .relfence sp => some (rFields 7 0 (sp.setWidth 5) 0 0 0x5b)
  | .afaddS rd rs1 rs2 => some (rFields 8 rs2 rs1 0 rd 0x5b)
  | .afminS rd rs1 rs2 => some (rFields 9 rs2 rs1 0 rd 0x5b)
  | .afmaxS rd rs1 rs2 => some (rFields 10 rs2 rs1 0 rd 0x5b)
  | .afminnS rd rs1 rs2 => some (rFields 11 rs2 rs1 0 rd 0x5b)
  | .afmaxnS rd rs1 rs2 => some (rFields 12 rs2 rs1 0 rd 0x5b)
  | .sqcreate rd rs1 rs2 => some (rFields 13 rs2 rs1 0 rd 0x5b)
  | .sqres rd rs1 rs2 => some (rFields 14 rs2 rs1 0 rd 0x5b)
  | .sqcommit rd rs1 rs2 => some (rFields 15 rs2 rs1 0 rd 0x5b)
  | .sqabandon rd rs1 rs2 => some (rFields 16 rs2 rs1 0 rd 0x5b)
  | .sqfork rd rs1 rs2 => some (rFields 17 rs2 rs1 0 rd 0x5b)
  | .sqlen rd rs1 => some (rFields 18 0 rs1 0 rd 0x5b)
  | .sqwait rd rs1 rs2 => some (rFields 19 rs2 rs1 0 rd 0x5b)
  | .sqseal rd rs1 rs2 => some (rFields 20 rs2 rs1 0 rd 0x5b)
  | .sqevict rd rs1 rs2 => some (rFields 21 rs2 rs1 0 rd 0x5b)
  | .sqrelease rd rs1 => some (rFields 22 0 rs1 0 rd 0x5b)
  | .btinv rd rs1 rs2 => some (rFields 23 rs2 rs1 0 rd 0x5b)
  | .ixcreate rd rs1 rs2 => some (rFields 24 rs2 rs1 0 rd 0x5b)
  | .ixfamily rd rs1 rs2 => some (rFields 25 rs2 rs1 0 rd 0x5b)
  | .ixins rd rs1 rs2 => some (rFields 26 rs2 rs1 0 rd 0x5b)
  | .ixdel rd rs1 rs2 => some (rFields 27 rs2 rs1 0 rd 0x5b)
  | .ixprobe rd rs1 => some (rFields 28 0 rs1 0 rd 0x5b)
  | .ixrehash rd rs1 rs2 => some (rFields 29 rs2 rs1 0 rd 0x5b)
  | .ixstat rd rs1 rs2 => some (rFields 30 rs2 rs1 0 rd 0x5b)
  | .attn rd rs1 => some (rFields 31 0 rs1 0 rd 0x5b)
  | .attnstat rd => some (rFields 32 0 0 0 rd 0x5b)
  | .attncancel rd rs1 => some (rFields 33 0 rs1 0 rd 0x5b)
  | .mmcfg rd rs1 => some (rFields 0 0 rs1 2 rd 0x7b)
  | .mmissue rs1 rs2 => some (rFields 1 rs2 rs1 2 0 0x7b)
  | .mmsparse rs1 rs2 => some (rFields 2 rs2 rs1 2 0 0x7b)
  | .mmgather rs1 rs2 => some (rFields 3 rs2 rs1 2 0 0x7b)
  | .mmret rs1 rs2 => some (rFields 4 rs2 rs1 2 0 0x7b)
  | .acczero rs1 => some (rFields 5 0 rs1 2 0 0x7b)
  | .accscale rs1 rs2 => some (rFields 6 rs2 rs1 2 0 0x7b)
  | .mmstat rd => some (rFields 7 0 0 2 rd 0x7b)
  | .mmfence => some (rFields 8 0 0 2 0 0x7b)
  | .yield => some (rFields 1 0 0 7 0 0x7b)
  | .preemptpt rd => some (rFields 2 0 0 7 rd 0x7b)
  | .launch rd rs1 n => some (rFields 3 n rs1 7 rd 0x7b)
  | .rngseed rs1 rs2 => some (rFields 4 rs2 rs1 7 0 0x7b)
  | .rngnext rd => some (rFields 5 0 0 7 rd 0x7b)
  | .ctxsave rd rs1 fl => some (rFields 6 (fl.setWidth 5) rs1 7 rd 0x7b)
  | .ctxload rd rs1 => some (rFields 7 0 rs1 7 rd 0x7b)
  | .laneretire rd rs1 => some (rFields 8 0 rs1 7 rd 0x7b)
  | .bblog rd rs1 rs2 => some (rFields 9 rs2 rs1 7 rd 0x7b)
  | .vget rd v => some (rFields 8 0 (v.setWidth 5) 0 rd 0x0B)
  | .vgetP rd v => some (rFields 8 1 (v.setWidth 5) 0 rd 0x0B)
  | .vfetch rs1 i => some (iFields i rs1 1 0 0x0B)
  | .vsetvli rd rs1 i => some (iFields i rs1 2 rd 0x0B)
  | .cbseti cd v => some (iFields (v.setWidth 12) 0 3 cd 0x0B)
  | .lineClean rd rs1 => some (rFields 14 0 rs1 0 rd 0x2B)
  | .lineFlush rd rs1 => some (rFields 14 1 rs1 0 rd 0x2B)
  | .lineInval rd rs1 => some (rFields 14 2 rs1 0 rd 0x2B)
  | .lineLastuse rd rs1 => some (rFields 14 3 rs1 0 rd 0x2B)
  | .lineDiscard rd rs1 => some (rFields 14 4 rs1 0 rd 0x2B)
  | .wmwait sp rs1 rs2 => some (rFields 15 rs2 rs1 0 (sp.setWidth 5) 0x2B)
  | .wmwaitArm sp rs1 rs2 => some (rFields 15 rs2 rs1 0 (sp.setWidth 5) 0x2B)
  | .wmwaitDisarm sp => some (rFields 15 0 0 0 (sp.setWidth 5) 0x2B)
  | .wmpub sp rs1 rs2 => some (rFields 16 rs2 rs1 0 (sp.setWidth 5) 0x2B)
  | .wmpubRemote rs1 rs2 => some (rFields 16 rs2 rs1 0 5 0x2B)
  | .wait l s c t => some (iFields (l ++ s ++ c ++ t) 0 1 0 0x2B)
  | .bc c off => some (bFields 0 c 0 off 0x7B)
  | .bnc c off => some (bFields 0 c 1 off 0x7B)
  | .haltt => some (rFields 0 0 0 7 0 0x7B)
  | .halttF rs1 => some (rFields 0 1 rs1 7 0 0x7B)
  | .scalarLoad k rd rs1 off => some (iFields off rs1 k.f3 rd 0x03)
  | .scalarStore k rs1 rs2 off => some (sFields off rs2 rs1 k.f3 0x23)
  | .lr d aq rl rd rs1 =>
      some (rFields (2#5 ++ BitVec.ofBool aq ++ BitVec.ofBool rl) 0 rs1 (if d then 3 else 2) rd 0x2F)
  | .sc d aq rl rd rs1 rs2 =>
      some (rFields (3#5 ++ BitVec.ofBool aq ++ BitVec.ofBool rl) rs2 rs1 (if d then 3 else 2) rd 0x2F)
  | .amo o d aq rl rd rs1 rs2 =>
      some (rFields (o.f5 ++ BitVec.ofBool aq ++ BitVec.ofBool rl) rs2 rs1 (if d then 3 else 2) rd 0x2F)
  | .fence p s => some (iFields (0#4 ++ p ++ s) 0 0 0 0x0F)
  | .fenceTso => some (iFields 0x833 0 0 0 0x0F)
  | .fenceI => some (iFields 0 0 1 0 0x0F)
  | .ecall => some (iFields 0 0 0 0 0x73)
  | .ebreak => some (iFields 1 0 0 0 0x73)
  | .wfi => some (iFields 0x105 0 0 0 0x73)
  | .mret => some (iFields 0x302 0 0 0 0x73)
  | .csrAccess o rd src csr => some (iFields csr src o.f3 rd 0x73)
  | .csrAccessRng o rd src csr => some (iFields csr src o.f3 rd 0x73)
  | .csrWriteVl o rd src => some (iFields 0x800 src o.f3 rd 0x73)
  | .csrWriteVw o rd src => some (iFields 0x801 src o.f3 rd 0x73)
  | .csrWriteVctx o rd src => some (iFields 0x802 src o.f3 rd 0x73)
  | .csrWriteVqlim o rd src => some (iFields 0x804 src o.f3 rd 0x73)
  | .csrWriteWcnt o rd src => some (iFields 0x814 src o.f3 rd 0x73)
  | .baseInstruction o => some o.fields
  | _ => none

/-- The 32-bit word of a scalar instruction. -/
def encode32 (i : Instr) : Option (BitVec 32) := i.fields.map Fields.bits

/-- The 64-bit word of a vector instruction. -/
def encode64 (i : Instr) : Option (BitVec 64) := i.vparts.map fun p => p.2.bits p.1

/-- The bytes of an instruction as they stand in memory. -/
def encode (i : Instr) : Option (List Byte) :=
  match encode32 i with
  | some w => some (leBytes 4 w.toNat)
  | none => (encode64 i).map fun w => leBytes 8 w.toNat

end Sys2Proof
end

