-- ==== Sys2Proof/Machine/State.lean ====
section
/-! DEFINITION. The state of the module as plain data: every piece the spec names, in the units that hold it, and the
state right after power is applied. INVENTORY.md lists each field with its rule and reset value. -/

namespace Sys2Proof.Machine

/-- A sparse table: rising keys, no entry equal to the table's default. -/
abbrev Tab (α : Type) := List (Nat × α)

/-- Privilege modes (R103). -/
inductive Mode where
  | u | m
deriving DecidableEq, Repr

/-- A trap: cause, mtval, mtrapx (R124); for an engine trap the tile-table entries and the stream it names, whether a
matrix operation raised it, and whether it is due at the next instruction (R126, R366). -/
structure Trap where
  cause : Nat
  tval  : Word
  info  : Word
  names : List Nat := []
  strm  : Option Nat := none
  mtx   : Bool := false
  due   : Bool := false
deriving DecidableEq, Repr

/-- The CSRs of a thread that hold state (R259; the standard M-mode ones by the RISC-V privileged architecture). -/
structure Csrs where
  mstatus  : Word := 0
  mtvec    : Word := 0
  mepc     : Word := 0
  mcause   : Word := 0
  mtval    : Word := 0
  mscratch : Word := 0
  mtrapx   : Word := 0
  mcountinhibit : Word := 0
  minstret : Word := 0
  mcycle   : Word := 0
  vptbase  : BitVec 30 := 0
  vasid    : BitVec 16 := 0
  lmsel    : BitVec 16 := 0
  vl       : BitVec 18 := 0
  vw       : BitVec 12 := 0x777
  vctx     : BitVec 10 := 0
  vslip    : BitVec 4 := 4
  vqlim    : BitVec 7 := 64
  vxstat   : BitVec 8 := 0
  fidx     : Vector (BitVec 32) 8 := Vector.replicate 8 0xFFFFFFFF
  vround   : BitVec 3 := 0
  ffst     : BitVec 40 := 0x00FFFFFFFF
  vlive    : Word := 0xFFFFFFFF00FFFFFF
  rngkey   : Word := 0
  rngctr   : Word := 0
  cb       : BitVec 32 := 1
  wcnt     : Word := 0
deriving DecidableEq, Repr

/-- A reservation of LR (R378). -/
structure Resv where
  line : Nat
  addr : Nat
  size : Nat
deriving DecidableEq, Repr

/-- A scalar store that has issued and not left the thread's store buffer (R156): physical address, bytes, its virtual
address, and whether a fence of the RISC-V base stands before it (R157). -/
structure PendStore where
  addr  : Nat
  bytes : List Byte
  va    : Word := 0
  fence : Bool := false
deriving DecidableEq, Repr

/-- Where a write of a thread comes from: the held word (0 for a scalar store) and whether that word holds scalar accesses
(R159); its virtual address, element number and the address of its convoy, which a fault found at the home reports (R21,
R53, R323). -/
structure Origin where
  word : Nat := 0
  hold : Bool := false
  va   : Word := 0
  idx  : Nat := 0
  addr : Word := 0
deriving DecidableEq, Repr

/-- A write that its core, or its cluster, sees and that its die does not see yet (R155, R166): the issuing thread, the
physical address, the bytes with the mask of a bit-packed element, and its origin; `last`: under cache policy 2. -/
structure Bufw where
  tid   : Nat
  addr  : Nat
  bytes : List Byte
  mask  : List Byte := []
  org   : Origin := {}
  last  : Bool := false
deriving DecidableEq, Repr

/-- The snapshot of a block (R108). -/
structure Snap where
  g      : Vector Word 8
  vl     : BitVec 18
  vw     : BitVec 12
  vround : BitVec 3
  vslip  : BitVec 4
  vctx   : BitVec 10
deriving DecidableEq, Repr

/-- A block in a vector queue: its address, its snapshot, the vl epoch of its VFETCH (R276) and whether that issued in M mode. -/
structure Block where
  addr  : Word
  snap  : Snap
  epoch : Nat
  mmode : Bool
deriving DecidableEq, Repr

/-- Divergence states of a bank (R119). -/
inductive Div where
  | joined | diverged | waiting
deriving DecidableEq, Repr

/-- A bank in flight through the head block: block PC, convoys retired in the block, divergence state, rejoin point and
the draw of the VTFETCH that diverged it (R116, R119, R185). -/
structure BankRun where
  pc      : Word
  n       : Nat := 0
  div     : Div := .joined
  rejoin  : Word := 0
  draw    : Word := 0
deriving DecidableEq, Repr

/-- An atomic operation at a home slice: integer by width and signedness, or FP (R162, R326, R327, R375). -/
inductive AtomOp where
  | add | swap | and | or | xor | min | max | minu | maxu
  | fadd | fmin | fmax | fminn | fmaxn
deriving DecidableEq, Repr

/-- Containers of FP atomics. -/
inductive FpKind where
  | fp16 | bf16 | fp32
deriving DecidableEq, Repr

/-- One element access of a store or an atomic of a vector word, held until it performs (R118): its element number,
virtual address, physical addresses of its bytes, a bit mask for bit-packed data, and its data. -/
structure Elem where
  idx   : Nat
  va    : Word
  pas   : List Nat
  mask  : List Byte
  bytes : List Byte
  op    : Option (AtomOp × FpKind) := none
deriving DecidableEq, Repr

/-- A page that a translation uses (R150, R152): bits [47:16] of a virtual address in it, and log2 of its size. -/
structure VPage where
  page : Nat
  lg   : Nat
deriving DecidableEq, Repr

/-- A memory word whose elements are held: the convoys of its block that must have retired everywhere first (0 once the
block has ended), the address of its convoy, its accesses, its scope, order, OVT, whether it notifies, VAMOF flags
still to merge, the mode and address space of its translations, and the pages that it pins till its last element has
performed (R151, R152). -/
structure Held where
  id     : Nat
  need   : Nat := 0
  addr   : Word := 0
  ord    : Bool
  ovt    : Bool
  scope  : BitVec 3
  atomic : Bool
  elems  : List Elem
  ntf    : Bool := false
  vamof  : Bool := false
  flags  : BitVec 8 := 0
  fidx   : List (Nat × Nat) := []
  last   : Bool := false
  asid   : BitVec 16 := 0
  mode   : Mode := .u
  pins   : List VPage := []
deriving DecidableEq, Repr

/-- A notify update recorded at retirement and not yet performed (R167): its progress word, the count, the scope, the
held words that it follows, and the addresses of the word and of its convoy. -/
structure Notify where
  word  : Nat
  count : Word
  scope : BitVec 3
  words : List Nat
  va    : Word
  addr  : Word
deriving DecidableEq, Repr

/-- Effects of a convoy that wait until it has retired on every non-idle bank (R113, R115, R187): flags and the lowest
element of each, reductions to condition bits, a new vl, a new ffst, the notify. -/
structure Fx where
  flags : BitVec 8 := 0
  fidx  : List (Nat × Nat) := []
  posts : List (Nat × Bool) := []
  vl    : Option (BitVec 18) := none
  ffst  : Option (BitVec 40) := none
  ntf   : Option Notify := none
  draw  : Option Word := none
deriving DecidableEq, Repr

/-- A barrier handle (R380), with the address that its BARINIT named (R384). -/
structure BarHandle where
  line    : Nat
  id      : BitVec 32
  exp     : BitVec 32
  pending : Bool
  va      : Word := 0
deriving DecidableEq, Repr

/-- A barrier arrival that has issued and not performed (R382): its handle, its barrier and scope, and the store-buffer
entries, queued blocks and held words it releases (R168). -/
structure Arrival where
  handle : Nat
  line   : Nat
  id     : BitVec 32
  scope  : Nat
  held   : List Nat
  stores : Nat
  blocks : Nat
  va     : Word := 0
deriving DecidableEq, Repr

/-- A batch: the operations issued into it, 0 for those that have completed (R345). -/
abbrev Batch := List Nat

/-- The strip watermark (R348): the address of the progress word and the mode it was armed in, the scope, T, and whether a
strip check holds the thread. -/
structure Watermark where
  va    : Word
  mode  : Mode := .u
  scope : BitVec 3
  bound : Word
  hold  : Bool := false
deriving DecidableEq, Repr

/-- What a waiting instruction has already done (R387): nothing, the deadline of an SQWAIT, if it has one, with its
register, descriptor and bound, an operation a unit has accepted and the register of its result (R391), an operation that was
sent to a unit and has to return (R391), the jobs that an ATTNCANCEL has cancelled so far (R401), a monitor armed by WMWAIT, a waiter entry at the barrier unit of a handle (R387); `waits` is a wait of R273 or R387 that has done nothing,
`stalled` a stall, which is no wait. A BARARRWAIT that has
arrived is named by the thread's `arrived`, so that it never arrives twice. -/
inductive Waiting where
  | none
  | stalled
  | waits
  | deadline (t : Option Nat) (rd : Reg) (desc bound : Nat)
  | accepted (id : Nat) (rd : Reg)
  | cancelling (n : Nat)
  | sent (id : Nat)
  | monitor (pa : Nat) (bound : Word)
  | barrier (handle : Nat)
deriving DecidableEq, Repr

/-- A control thread (R102, R258). -/
structure Thread where
  live    : Bool := false
  mode    : Mode := .u
  x       : Vector Word 32 := Vector.replicate 32 0
  pc      : Word := 0
  npc     : Word := 0
  csr     : Csrs := {}
  prq     : Bool := false
  frc     : Bool := false
  prqAt   : Nat := 0
  stopNow : Bool := false
  stopped : Bool := false
  gang    : Nat := 0
  rank    : Nat := 0
  vlc     : BitVec 18 := 0
  epoch   : Nat := 0
  resv    : Option Resv := none
  sb      : List PendStore := []
  svMark  : Nat := 0
  wfence  : Bool := false
  vq      : List Block := []
  banks   : Tab BankRun := []
  fx      : Tab Fx := []
  settled : Nat := 0
  frozen  : Bool := false
  convTrap : Option Trap := none
  laneTraps : List Trap := []
  laneBad : Option (Nat × Trap) := none
  engTraps : List Trap := []
  done    : List (Nat × Nat) := []
  held    : List Held := []
  notifies : List Notify := []
  handles : Tab Nat := []
  bars    : Tab BarHandle := []
  arrivals : List Arrival := []
  openB   : Vector Batch 4 := Vector.replicate 4 []
  closedB : Vector (List Batch) 4 := Vector.replicate 4 []
  copies  : List Nat := []
  copyFlt : Bool := false
  water   : Option Watermark := none
  wait    : Waiting := .none
  arrived : List (Mode × Word) := []
  armed   : Option (Nat × List (Nat × Word)) := none
  yielded : Bool := false
  mcfg    : BitVec 9 := 0
  mmOut   : List Nat := []
  mmFlt   : Bool := false
  mmFltStat : Bool := false
  mmLast  : BitVec 8 := 0
  mmDone  : BitVec 32 := 0
  atFlt   : Bool := false
  atRpl   : Bool := false
  atCan   : Bool := false
  atBad   : Bool := false
  atDone  : BitVec 32 := 0
deriving DecidableEq, Repr

/-- Tile states (R137). -/
inductive TileSt where
  | empty | filling | ready | draining
deriving DecidableEq, Repr

/-- A shape record as TCFG copies it (R332). -/
structure Shape where
  fmt     : Nat
  awm     : Nat
  comp    : Nat
  spm     : Bool
  ro      : Bool
  lgbk    : Nat
  ext0    : Nat
  ext1    : Nat
  frq     : Nat
  base    : Word
  stride  : Nat
  sstride : Nat
  scb     : Word
  mdb     : Word
  escb    : Word
deriving DecidableEq, Repr

/-- A bound tile-table entry (R136) with its copied shape and the fewest usable lanes of its group (R333). -/
structure Tile where
  st     : TileSt
  flt    : Bool
  stream : Option Nat
  owner  : Nat
  frow   : Nat
  nrows  : Nat
  fbank  : Nat
  shape  : Shape
  usable : Nat
  rdrs   : Nat := 0
deriving DecidableEq, Repr

/-- States of a stream unit (R340). -/
inductive StreamSt where
  | uncfg | idle | run | fault
deriving DecidableEq, Repr

/-- A stream unit (R339, R340): owner, slots by tile-table entry, record fields, windows filled and delivered. -/
structure Stream where
  st     : StreamSt := .uncfg
  owner  : Nat := 0
  slots  : List Nat := []
  step   : Word := 0
  mstep  : Word := 0
  nwin   : Nat := 0
  nsm    : Nat := 0
  filled : Nat := 0
  dlv    : Nat := 0
  atEnd  : Bool := false
  last   : Bool := false
  mode   : Mode := .u
  root   : BitVec 30 := 0
deriving DecidableEq, Repr

/-- A core, or a Cupola core (R101, R123). -/
structure Core where
  rows    : Tab Row := []
  seg     : Tab (BitVec 32) := []
  acc     : Tab (BitVec 32) := []
  accOwner : Tab (Option Nat) := []
  zeroing : List Nat := []
  tiles   : Tab (Option Tile) := []
  streams : Tab Stream := []
  retired : Tab (List Nat) := []
  marked  : Tab (List Nat) := []
  soft    : Tab (Option (Nat × Nat)) := []
  mapVer  : BitVec 32 := 0
  bankOf  : Tab (Option Nat) := []
  icache  : Tab (Option (BitVec 512)) := []
  eff     : BitVec 12 := 0
  tgt     : BitVec 12 := 2100
  droop   : Bool := false
  buf     : List Bufw := []
deriving DecidableEq, Repr

/-- A write to a line of another die (R163, R164); `mask`: the bits that a bit-packed element writes (R154), empty for
all. -/
structure Outw where
  src   : Nat
  tid   : Nat
  seq   : BitVec 24
  addr  : Nat
  bytes : List Byte
  mask  : List Byte := []
  stamp : Vector (BitVec 24) 4
  org   : Origin := {}
  last  : Bool := false
deriving DecidableEq, Repr

/-- A chain flit: destination, class and contents: a stamped write, or a report of applied writes. -/
inductive Flit where
  | wr (dst : Nat) (w : Outw)
  | report (dst src : Nat) (upto : BitVec 24)
deriving DecidableEq, Repr

/-- A die. -/
structure Die where
  lnkLo   : BitVec 2 := 0
  lnkHi   : BitVec 2 := 0
  modLo   : BitVec 4 := 0
  modHi   : BitVec 4 := 0
  retrn   : BitVec 16 := 0
  replay  : BitVec 16 := 0
  rtcnt   : BitVec 16 := 0
  rtretry : BitVec 16 := 0
  mcorr   : BitVec 16 := 0
  secorr  : BitVec 16 := 0
  xlva    : BitVec 32 := 0
  clock   : Vector (BitVec 24) 4 := Vector.replicate 4 0
  nextSeq : BitVec 24 := 0
  out     : List Outw := []
  inb     : List Outw := []
  applied : Vector (BitVec 24) 4 := Vector.replicate 4 0
  doneSeq : List (BitVec 24) := []
  throttle : Nat := 0
  hot     : BitVec 2 := 0
  stopIss : BitVec 2 := 0
  window  : Option Nat := none
  failed  : Option Nat := none
deriving DecidableEq, Repr

/-- States of an attention job (R240); the terminal states leave the Lantern. -/
inductive JobSt where
  | queued | running | replay
deriving DecidableEq, Repr

/-- An attention job (R232, R234, R240): its card, the Lantern that holds or ran it, whether it has been replayed, the
pinned block-table entries, the tile entries of its handles, where its status record lies, the bytes of a slot ÷ 64, the
blocks queued before its ATTN, whether a cancel has reached it and whether it ever ran, its gang, and the
mode, the address space and the pages of the translations it pins (R151). -/
structure Job where
  id     : Nat
  tid    : Nat
  card   : BitVec 1024
  cardVa : Word
  st     : JobSt
  lan    : Nat
  replayed : Bool
  pins   : List (Nat × Word)
  qt     : Nat
  ot     : Nat
  stw    : Option Nat
  kbu    : Nat
  vbu    : Nat
  blocks : Nat
  cancel : Bool
  ran    : Bool
  gang   : Nat := 0
  mode   : Mode := .u
  asid   : BitVec 16 := 0
  vas    : List VPage := []
deriving DecidableEq, Repr

/-- A cluster: the jobs of its two Lanterns in queue order, which Lanterns are being reset, and the writes that the
cluster sees and its die does not yet. -/
structure Cluster where
  jobs  : List Job := []
  reset : List Nat := []
  buf   : List Bufw := []
deriving DecidableEq, Repr

/-- A bound barrier (R379): its image and its waiters live in the line and the threads; the unit keeps these. -/
structure Bar where
  target : Nat
  scope  : Nat
  arr    : Nat
  phase  : BitVec 32
  id     : BitVec 32
  home   : Nat
deriving DecidableEq, Repr

/-- An operation that was sent to a sequence or Eyelet unit and waits there, or is under way: one on a row, IXREHASH of `n`
buckets and the buckets that it has still to move, a family or template record, a probe record, a selector, and SQEVICT and
BTINV of a block (R223, R391, R397). -/
inductive SentOp where
  | ins (row : Nat)
  | del (row : Nat)
  | rehash (n : Nat)
  | moving (k : Nat) (ov : Bool)
  | create (v : Nat)
  | family (v : Nat)
  | probe (v : Nat)
  | stat (sel : Nat)
  | evict (blk : Nat) (keep : Word)
  | inv (blk : Nat)
deriving DecidableEq, Repr

/-- A frame pool as the units learnt it when it was first named (R205): its stack, capacity and frame size, and the frames
on the stack. -/
structure Pool where
  stack : Nat
  cap   : Nat
  size  : Nat
  free  : List Nat
deriving DecidableEq, Repr

/-- What an operation in flight at an engine or unit does when it completes (R144, R146, R169, R211, R218, R365, R391). -/
inductive UnitOp where
  | fill (core tile : Nat) (off soff : Word)
  | drain (core tile : Nat) (off : Word)
  | tcopy (core dst src : Nat)
  | xcopy (dst src : Word) (len : Nat) (last : Bool)
  | awl (core : Nat) (rec : BitVec 256) (tile : Option Nat)
  | remote (conn : Nat) (last : Bool) (reqs : List (BitVec 32 × Word)) (bad : Option (Nat × Word × Nat))
  | matrix (cores : List Nat) (funct : Nat) (rec : BitVec 512) (w x : Shape) (a c : Word) (mcfg : BitVec 9)
      (mode : BitVec 3) (draw key : Word)
  | posting (core : Nat) (tile : Option Nat) (trap : Option Trap) (flags : BitVec 8)
  | btinv (desc blk entry pool : Nat) (old new : Word)
  | ixcreate (desc : Nat) (image : List Byte)
  | ixfamily (desc : Nat) (fam : BitVec 128)
  | sent (desc : Nat) (blk : Option Nat) (va : Word) (q : SentOp)
deriving DecidableEq, Repr

/-- What an access needs of a page. -/
inductive Need where
  | read | write | exec
deriving DecidableEq, Repr

/-- A translation that a command pins for its life (R151): the 64 KiB of its virtual addresses, what it is for, where they
lie, and log2 of the size of the page that they belong to. -/
structure PagePin where
  page : Nat
  need : Need
  base : Nat
  lg   : Nat := 16
deriving DecidableEq, Repr

/-- An operation in flight: its issuing thread and that thread's gang, mode and address space, the destination lines it
owns, the source lines it pins, what it does, the translations it pins, the tile-table entries of a matrix operation's
cores, and the lines that a fetch unit has consumed, as they were (R145). -/
structure Op where
  tid   : Nat
  mode  : Mode
  root  : BitVec 30
  owns  : List (Nat × Nat)
  pins  : List Nat
  op    : UnitOp
  asid  : BitVec 16 := 0
  pages : List PagePin := []
  gang  : Nat := 0
  tiles : List Nat := []
  kept  : List (Nat × BitVec 512) := []
deriving DecidableEq, Repr

/-- Queue states (R69). -/
inductive QSt where
  | off | on | draining | error
deriving DecidableEq, Repr

/-- A queue descriptor (R67) and the slots cancelled in its ring (R75). -/
structure Queue where
  base   : BitVec 34 := 0
  qen    : Bool := false
  lgsize : BitVec 4 := 0
  qprio  : BitVec 3 := 0
  head   : BitVec 32 := 0
  tail   : BitVec 32 := 0
  conn   : BitVec 16 := 0
  win    : BitVec 4 := 0
  key    : BitVec 32 := 0
  st     : QSt := .off
  lasterr : BitVec 8 := 0
  rej    : BitVec 16 := 0
  canc   : BitVec 16 := 0
  cancelled : List (BitVec 32) := []
deriving DecidableEq, Repr

/-- States of a record in the pending set (R78); `ending` holds a completion not yet written, `posted` waits for the remote
end's answer to its MAXU (R76). -/
inductive RecSt where
  | wait | ready | place | run | stop | saved
  | ending (status detail : Nat)
  | posted
deriving DecidableEq, Repr

/-- One thread of a placement: hart and bank group (R85, R86, R90). -/
structure Seat where
  tid   : Nat
  vctx  : BitVec 10
  ordinal : Nat
deriving DecidableEq, Repr

/-- An entry of Belfry's pending set (R78): the claim and its target (R84); the victims and what they free, kept for the
record (R94); the prefetch streams still to be configured, by thread, unit and index, and whether one has faulted (R72,
R89). -/
structure Rec where
  bits   : BitVec 1024
  q      : Nat
  prio   : Nat
  st     : RecSt
  passed : BitVec 4 := 0
  taken  : Nat
  since  : Nat := 0
  seats  : List Seat := []
  halted : List Nat := []
  claim  : Option (List Seat) := none
  started : Nat := 0
  victims : List Nat := []
  keptH   : List Nat := []
  keptB   : List (Nat × Nat) := []
  keptG   : List (Nat × Nat) := []
  prefetch : List (Nat × Nat × Nat) := []
  badStream : Bool := false
deriving DecidableEq, Repr

/-- What a remote request of the device waits for (R42, R76): an operation of a thread, by a WRITE, an ATOMIC or a READ, the
completion word of a record that a queue cancelled or rejected, or that of a record in the pending set. -/
inductive Waiter where
  | op (id : Nat)
  | atomic (id : Nat)
  | read (id : Nat)
  | queue (q : Nat)
  | record (q e : Nat)
deriving DecidableEq, Repr

/-- A packet sent and not acknowledged, with its retransmissions (R35). -/
structure Sent where
  pkt   : Packet
  tries : Nat
deriving DecidableEq, Repr

/-- Connection states (R30); `held` is a number kept for 10 ms after a CLOSE (R31). -/
inductive ConnSt where
  | closed | opened | failed | held
deriving DecidableEq, Repr

/-- A connection (R29 to R35): `here` is the address of the port that its OPEN named; `got` tells that a packet of it has
come; `wrote` that the WRITE at its head has issued its lines, `lost` that one of them failed (R38); `credit` before any
acknowledgement block is the reorder space of R34 (log entry 85). -/
structure Conn where
  st     : ConnSt := .closed
  owner  : Bool := false
  addr   : BitVec 128 := 0
  sport  : BitVec 16 := 0
  sconn  : BitVec 16 := 0
  isn    : BitVec 32 := 0
  disn   : BitVec 32 := 0
  rx     : BitVec 32 := 0
  tx     : BitVec 32 := 0
  got    : Bool := false
  buf    : List Packet := []
  part   : List Packet := []
  unacked : List Sent := []
  waiting : List Packet := []
  credit : BitVec 32 := 1024
  cwnd   : Nat := 1024
  acked  : Nat := 0
  ackDue : Bool := false
  reqs   : List (BitVec 32 × Waiter) := []
  cut    : Option (BitVec 32) := none
  nextTag : BitVec 32 := 0
  ce      : Bool := false
  here    : BitVec 128 := 0
  wrote   : Bool := false
  lost    : Bool := false
deriving DecidableEq, Repr

/-- A window entry in use and its staged words (R41). -/
structure Window where
  base  : Word := 0
  size  : Word := 0
  key   : BitVec 32 := 0
  perm  : BitVec 3 := 0
  sbase : Word := 0
  ssize : Word := 0
deriving DecidableEq, Repr

/-- The Ethernet port (R26 to R43). -/
structure Port where
  link    : BitVec 2 := 0
  msec    : Bool := false
  feccor  : BitVec 16 := 0
  drop    : BitVec 16 := 0
  retx    : BitVec 16 := 0
  dscp    : BitVec 6 := 0
  msreq   : Bool := false
  msen    : Bool := false
  mac     : BitVec 48 := 0
  addr    : BitVec 128 := 0
  staged  : BitVec 64 := 0
  owner   : Option (BitVec 128) := none
  key     : Nat := 0
  conns   : Tab Conn := []
  windows : Tab Window := []
  wire    : List Packet := []
deriving DecidableEq, Repr

/-- An entry of the black-box record (R59). -/
abbrev BbEntry := BitVec 256

/-- The clocks of a stretch of time that has ended, in MHz (R51): until when, by die, and of single cores. -/
structure Clocks where
  upto  : Nat
  dies  : List Nat
  cores : Tab Nat := []
deriving DecidableEq, Repr

/-- A start that has been asked for: DEVST.CAUSE, whether it is warm, whether memory is kept; for a MANAGE RESET the
connection and TAG of its completion and the time (R64). -/
structure StartAsk where
  cause : Nat
  warm  : Bool
  keep  : Bool
  by_   : Option (Nat × BitVec 32) := none
  at_   : Nat := 0
deriving DecidableEq, Repr

/-- Campanile: power, the start in progress, DEVST, measurements, identity, black box, non-volatile storage. -/
structure Campanile where
  power   : Bool := false
  ready   : Bool := false
  safe    : Bool := false
  warm    : Bool := false
  step    : BitVec 4 := 0
  wfail   : BitVec 2 := 0
  cfail   : BitVec 2 := 0
  cause   : BitVec 4 := 0
  svn     : BitVec 16 := 0
  tripped : Bool := false
  keep    : Bool := false
  env     : StartEnv := ⟨false, [], false, 0, []⟩
  reset   : List StartAsk := []
  heatAt  : Nat := 0
  meas    : Vector (BitVec 512) 3 := Vector.replicate 3 0
  minSvn  : BitVec 16 := 0
  bbHead  : BitVec 12 := 0
  bbSeq   : BitVec 32 := 0
  bb      : Tab BbEntry := []
  cold    : Nat := 0
  cut     : Nat := 0
  cak     : Option (List Byte) := none
  store   : Tab Byte := []
  lanes   : Tab (List (Nat × Nat × Nat)) := []
deriving DecidableEq, Repr

/-- Belfry and its registers (R78 to R99); `words`: completion words that wait for their lines (R76, R169). -/
structure Belfry where
  recs    : Tab (Option Rec) := []
  nextRec : Nat := 0
  takeAt  : Nat := 0
  placeAt : Nat := 0
  depto   : BitVec 16 := 0
  nopre   : Bool := false
  preempt : BitVec 16 := 0
  forced  : BitVec 16 := 0
  canc    : BitVec 16 := 0
  words   : List (Nat × Word) := []
deriving DecidableEq, Repr

/-- The operands of a message, a register access or an internal event: which unit, thread, core, die or element it
concerns, and what it brings. -/
structure Ev where
  tid   : Nat := 0
  core  : Nat := 0
  die   : Nat := 0
  clu   : Nat := 0
  bank  : Nat := 0
  lane  : Nat := 0
  row   : Nat := 0
  unit  : Nat := 0
  idx   : Nat := 0
  addr  : Nat := 0
  width : Nat := 0
  value : Word := 0
  up    : Bool := false
  soft  : SoftError := .singleTransient
  cls   : FlitClass := .wr
  psn   : BitVec 32 := 0
  pkt   : Option Packet := none
  env   : StartEnv := ⟨false, [], false, 0, []⟩
deriving DecidableEq, Repr

/-- Whose turn it is (log entry 1). -/
inductive Turn where
  | event (i : Instr) (ev : Ev)
  | packet (p : Packet)
  | thread (tid : Nat)
  | banks (tid : Nat) (bs : List Nat)
  | loads (tid : Nat) (bs : List Nat) (which : List Nat)
  | perform (tid k : Nat)
  | promote (core : Nat)
  | apply (clu : Nat)
  | icache (core line : Nat)
  | writeBack (line : Nat)
  | corrected (die : Nat)
  | fecCorrected
  | tick (n : Nat)
deriving DecidableEq, Repr

/-- The banks and the convoy that are executing: thread, banks, snapshot in force, convoy address and ordinal, the
word's place, the draw base of the convoy, the effects so far, and the parts of a load that alone perform in this turn
(R158, R325). -/
structure Act where
  tid    : Nat := 0
  banks  : List Nat := []
  snap   : Snap := ⟨Vector.replicate 8 0, 0, 0, 0, 0, 0⟩
  addr   : Word := 0
  n      : Nat := 0
  fx     : Fx := {}
  mmode  : Bool := false
  trap   : Option Trap := none
  stall  : Bool := false
  still  : Bool := false
  draw   : Word := 0
  only   : Option (List Nat) := none
deriving DecidableEq, Repr

/-- What a save region holds (R96, R293): the device-owned bytes at `base`, the thread, the banks whose rows stand at
`bankAt`, and what of them and of the accumulator store was saved. -/
structure Saved where
  base   : Nat
  image  : List Byte := []
  thread : Thread := {}
  epc    : Word := 0
  lgn    : Nat := 0
  banks  : List Nat := []
  bankAt : Nat := 0
  rows   : Tab Row := []
  seg    : Tab (BitVec 32) := []
  tiles  : Tab (Option Tile) := []
  streams : Tab Stream := []
  groups : List Nat := []
  acc    : Tab (BitVec 32) := []
deriving DecidableEq, Repr

/-- Why the machine stops. The spec gives the module no such stop of its own: every fault of the spec is a trap, a
status or a completion, and is a next state. -/
inductive Fault where
  /-- Raised by no meaning: kept so that a stop has a name should one be needed. Safe. -/
  | stuck
deriving DecidableEq, Repr

/-- Why an instruction has no meaning. -/
inductive Refusal where
  /-- The arm of an instruction that is not modelled yet (Dispatch). Safe: nothing runs. -/
  | notModelled (mnemonic : String)
deriving DecidableEq, Repr

/-- The module. -/
structure State where
  agenda   : List Turn := []
  ev       : Ev := {}
  act      : Act := {}
  cur      : Nat := 0
  ir       : BitVec 32 := 0
  free     : Nat := 0
  rr       : Nat := 0
  now      : Nat := 0
  bus      : Word := 0
  mem      : List Host.Cell := []
  backing  : Tab (Option (BitVec 512)) := []
  poison   : List Nat := []
  stamps   : Tab (List (BitVec 24)) := []
  threads  : Tab Thread := []
  cores    : Tab Core := []
  clusters : Tab Cluster := []
  dies     : Vector Die 4 := Vector.replicate 4 {}
  links    : Tab (List Flit) := []
  dead     : List Nat := []
  port     : Port := {}
  camp     : Campanile := {}
  queues   : Tab Queue := []
  belfry   : Belfry := {}
  bars     : Tab (Option Bar) := []
  barCnt   : Tab (BitVec 32) := []
  seqs     : List Nat := []
  btab     : Tab Word := []
  frames   : List (Nat × Nat × Nat) := []
  pools    : Tab (Option Pool) := []
  tables   : List Nat := []
  deferred : List (Nat × Nat) := []
  ops      : Tab (Option Op) := []
  nextOp   : Nat := 1
  saves    : Tab (Option Saved) := []
  clocks   : List Clocks := []
deriving DecidableEq, Repr

/-- The module right after reset: power about to be applied, every field at its reset value (log entries 8, 9, 10
name those the spec does not give). -/
def State.reset : State := {}

end Sys2Proof.Machine
end

