-- ==== Sys2Proof/Machine/Tab.lean ====
section
/-! DEFINITION. Sparse tables and memory in one canonical form: keys strictly rising, no entry equal to what an unlisted
key reads as. -/

namespace Sys2Proof.Machine

/-- The value at a key; an unlisted key reads as `d`. -/
def Tab.get {α : Type} (d : α) : Tab α → Nat → α
  | [], _ => d
  | (k', v) :: r, k => if k' = k then v else Tab.get d r k

/-- The table without a key. -/
def Tab.erase {α : Type} : Tab α → Nat → Tab α
  | [], _ => []
  | (k', v) :: r, k => if k' = k then Tab.erase r k else (k', v) :: Tab.erase r k

/-- The table with a listed value at a key, in its place. -/
def Tab.insert {α : Type} : Tab α → Nat → α → Tab α
  | [], k, v => [(k, v)]
  | (k', v') :: r, k, v =>
    if k < k' then (k, v) :: (k', v') :: r
    else if k' = k then (k, v) :: r
    else (k', v') :: Tab.insert r k v

/-- Write a value at a key; writing the default removes the entry. -/
def Tab.set {α : Type} [DecidableEq α] (d : α) (t : Tab α) (k : Nat) (v : α) : Tab α :=
  if v = d then Tab.erase t k else Tab.insert t k v

/-- Update the value at a key. -/
def Tab.upd {α : Type} [DecidableEq α] (d : α) (t : Tab α) (k : Nat) (f : α → α) : Tab α :=
  Tab.set d t k (f (Tab.get d t k))

/-- All keys are at or above a bound and strictly rising, and no entry is the default. -/
def Tab.wfFrom {α : Type} [DecidableEq α] (d : α) : Nat → Tab α → Bool
  | _, [] => true
  | lo, (k, v) :: r => decide (lo ≤ k) && decide (v ≠ d) && Tab.wfFrom d (k + 1) r

/-- The canonical form. -/
def Tab.wf {α : Type} [DecidableEq α] (d : α) (t : Tab α) : Bool := Tab.wfFrom d 0 t

/-- What a byte that nothing has written reads as: memory is zeroed at every start (R44 step 8). -/
def Memory.empty : Byte := 0

/-- Read one byte. -/
def Memory.read (m : List Host.Cell) (a : Nat) : Byte := Tab.get Memory.empty m a

/-- Write one byte. -/
def Memory.write (m : List Host.Cell) (a : Nat) (b : Byte) : List Host.Cell := Tab.set Memory.empty m a b

/-- The canonical form of memory. -/
def Memory.wf (m : List Host.Cell) : Bool := Tab.wf Memory.empty m

/-- Write bytes at ascending addresses. -/
def Memory.writeList (m : List Host.Cell) (a : Nat) : List Byte → List Host.Cell
  | [] => m
  | b :: bs => Memory.writeList (Memory.write m a b) (a + 1) bs

/-- Read `n` bytes from an address upward. -/
def Memory.readList (m : List Host.Cell) : Nat → Nat → List Byte
  | _, 0 => []
  | a, n + 1 => Memory.read m a :: Memory.readList m (a + 1) n

end Sys2Proof.Machine
end

