-- ==== Sys2Proof/Machine/Bits.lean ====
section
/-! DEFINITION. Bit-field, sign and byte-order helpers. -/

namespace Sys2Proof.Machine

/-- Bits [hi:lo] of a number. -/
def bitsOf (v hi lo : Nat) : Nat := (v / 2 ^ lo) % 2 ^ (hi - lo + 1)

/-- One bit of a number. -/
def bitOf (v i : Nat) : Bool := (v / 2 ^ i) % 2 == 1

/-- Bits [hi:lo] of a word as a number. -/
def Fld (w : Word) (hi lo : Nat) : Nat := bitsOf w.toNat hi lo

/-- Replace bits [hi:lo] of a number. -/
def putBits (v hi lo x : Nat) : Nat :=
  v - bitsOf v hi lo * 2 ^ lo + (x % 2 ^ (hi - lo + 1)) * 2 ^ lo

/-- A Bool as a number. -/
def b2n (b : Bool) : Nat := if b then 1 else 0

/-- The two's complement value of the low `n` bits. -/
def toSigned (n v : Nat) : Int :=
  let u := v % 2 ^ n
  if n ≠ 0 ∧ 2 ^ (n - 1) ≤ u then (u : Int) - (2 ^ n : Nat) else u

/-- The low `n` bits of an integer. -/
def ofSigned (n : Nat) (x : Int) : Nat := (x % (2 ^ n : Nat)).toNat

/-- Number of set bits. -/
def popNat : Nat → Nat → Nat
  | 0, _ => 0
  | k + 1, v => v % 2 + popNat k (v / 2)

/-- Number of leading zeros in a field of `n` bits. -/
def clzNat : Nat → Nat → Nat
  | 0, _ => 0
  | k + 1, v => if bitOf v k then 0 else clzNat k v + 1

/-- Number of trailing zeros in a field of `n` bits. -/
def ctzNat : Nat → Nat → Nat
  | 0, _ => 0
  | k + 1, v => if v % 2 = 1 then 0 else ctzNat k (v / 2) + 1

/-- Big-endian number of bytes: fields carried on the wire (R8). -/
def beNat (bs : List Byte) : Nat := bs.foldl (fun a b => 256 * a + b.toNat) 0

/-- The `n` bytes of a number, highest first (R8). -/
def beBytes (n v : Nat) : List Byte := (leBytes n v).reverse

/-- The bytes of a list that start at an offset. -/
def sub (bs : List Byte) (off n : Nat) : List Byte := (bs.drop off).take n

/-- Smallest element satisfying a test among 0 .. n-1. -/
def findBelow (p : Nat → Bool) : Nat → Option Nat
  | 0 => none
  | k + 1 => match findBelow p k with
    | some i => some i
    | none => if p k then some k else none

/-- Ceiling division. -/
def ceilDiv (a b : Nat) : Nat := (a + b - 1) / b

/-- Saturating increase of a 16-bit counter (R22, R43, R54). -/
def satAdd16 (c : BitVec 16) (n : Nat) : BitVec 16 := BitVec.ofNat 16 (min 0xFFFF (c.toNat + n))

/-- Saturating increase of a 32-bit counter (R215). -/
def satAdd32 (c n : Nat) : Nat := min 0xFFFFFFFF (c + n)

/-- Sequence numbers of 24 bits compared modulo 2^24 (R164). -/
def seqLe (a b : BitVec 24) : Bool := (b - a).toNat < 2 ^ 23

/-- The later of two sequence numbers. -/
def seqMax (a b : BitVec 24) : BitVec 24 := if seqLe a b then b else a

/-- The mixer of the random generator (R186). -/
def mix (key ctr : Word) : Word :=
  let z := ctr ^^^ (key * 0xC4D396A15E7B20F9)
  let z := (z ^^^ (z >>> 31)) * 0x8F251D6BE34A97C7
  let z := (z ^^^ (z >>> 29)) * 0xC4D396A15E7B20F9
  z ^^^ (z >>> 32)

end Sys2Proof.Machine
end

