-- ==== Sys2Proof/Machine/Shake.lean ====
section
/-! DEFINITION. SHAKE256 (FIPS 202), the hash of the measurements and of firmware images (R61, R62; log entry 13). -/

namespace Sys2Proof.Machine

/-- Lane (x, y) of a Keccak state, kept as 25 lanes with x counting first. -/
def kLane (a : List Word) (x y : Nat) : Word := a.getD (x % 5 + 5 * (y % 5)) 0

/-- The 25 lanes of a state from a function of their place. -/
def kLanes (f : Nat → Nat → Word) : List Word := (List.range 25).map fun i => f (i % 5) (i / 5)

/-- Rotation distances of step rho, by lane. -/
def rhoOf : List Nat :=
  [0, 1, 62, 28, 27, 36, 44, 6, 55, 20, 3, 10, 43, 25, 39, 41, 45, 15, 21, 8, 18, 2, 61, 56, 14]

/-- Round constants of step iota. -/
def iotaOf : List Word :=
  [0x0000000000000001, 0x0000000000008082, 0x800000000000808A, 0x8000000080008000, 0x000000000000808B,
   0x0000000080000001, 0x8000000080008081, 0x8000000000008009, 0x000000000000008A, 0x0000000000000088,
   0x0000000080008009, 0x000000008000000A] ++
  [0x000000008000808B, 0x800000000000008B, 0x8000000000008089, 0x8000000000008003, 0x8000000000008002,
   0x8000000000000080, 0x000000000000800A, 0x800000008000000A, 0x8000000080008081, 0x8000000000008080,
   0x0000000080000001, 0x8000000080008008]

/-- One round of Keccak-f[1600]: theta, rho and pi, chi, iota. -/
def keccakRound (a : List Word) (rc : Word) : List Word :=
  let c := (List.range 5).map fun x => kLane a x 0 ^^^ kLane a x 1 ^^^ kLane a x 2 ^^^ kLane a x 3 ^^^ kLane a x 4
  let a := kLanes fun x y => kLane a x y ^^^ kLane c (x + 4) 0 ^^^ (kLane c (x + 1) 0).rotateLeft 1
  let b := kLanes fun x y => (kLane a (x + 3 * y) x).rotateLeft (rhoOf.getD ((x + 3 * y) % 5 + 5 * x) 0)
  kLanes fun x y => (kLane b x y ^^^ (~~~ (kLane b (x + 1) y) &&& kLane b (x + 2) y)) ^^^ (if x + y = 0 then rc else 0)

/-- Keccak-f[1600]. -/
def keccak (a : List Word) : List Word := iotaOf.foldl keccakRound a

/-- The sponge's input, padded to whole blocks of 136 bytes. -/
def shakePad (m : List Byte) : List Byte :=
  let z := 135 - m.length % 136
  if z = 0 then m ++ [0x9F] else m ++ [0x1F] ++ List.replicate (z - 1) 0 ++ [0x80]

/-- The state after absorbing the first `n` blocks of a padded message. -/
def shakeAbsorb : Nat → List Byte → List Word → List Word
  | 0, _, a => a
  | n + 1, m, a =>
    shakeAbsorb n (m.drop 136) (keccak (kLanes fun x y =>
      kLane a x y ^^^ if x + 5 * y < 17 then word (leNat ((m.drop (8 * (x + 5 * y))).take 8)) else 0))

/-- SHAKE256 of a message, at most 136 bytes of output. -/
def shakeBytes (n : Nat) (m : List Byte) : List Byte :=
  let p := shakePad m
  let a := shakeAbsorb (p.length / 136) p (List.replicate 25 0)
  ((a.take 17).flatMap fun w => leBytes 8 w.toNat).take n

/-- SHAKE256 of a message, 64 bytes, the first byte lowest. -/
def shake256 (m : List Byte) : BitVec 512 := BitVec.ofNat 512 (leNat (shakeBytes 64 m))

end Sys2Proof.Machine
end

