-- ==== Sys2Proof/Machine/Ed448.lean ====
section
/-! DEFINITION. Verifying an Ed448 signature (RFC 8032), which the boot ROM does for a firmware image (R61; log entry 13). -/

namespace Sys2Proof.Machine

/-- The field of the curve x² + y² = 1 - 39081 x² y², and the order of its base point. -/
def edP : Nat := 2 ^ 448 - 2 ^ 224 - 1
def edD : Nat := edP - 39081
def edL : Nat := 2 ^ 446 - 13818066809895115352007386748515426880336692474882178609894547503885

/-- A power modulo the field's prime, over `n` bits of the exponent. -/
def edPow (x e : Nat) : Nat → Nat
  | 0 => 1
  | n + 1 => let r := edPow x (e / 2) n; if e % 2 = 1 then r * r % edP * x % edP else r * r % edP

/-- A point of the curve as X, Y, Z with x = X/Z and y = Y/Z. -/
abbrev EdPoint := Nat × Nat × Nat

/-- The sum of two points; the formulas hold for every pair. -/
def edAdd (p q : EdPoint) : EdPoint :=
  let a := p.2.2 * q.2.2 % edP
  let b := a * a % edP
  let c := p.1 * q.1 % edP
  let d := p.2.1 * q.2.1 % edP
  let e := edD * c % edP * d % edP
  let f := (b + edP - e) % edP
  let g := (b + e) % edP
  let h := (p.1 + p.2.1) * (q.1 + q.2.1) % edP
  (a * f % edP * ((h + 2 * edP - c - d) % edP) % edP, a * g % edP * ((d + edP - c) % edP) % edP, f * g % edP)

/-- A multiple of a point, over `n` bits of the number. -/
def edMul (k : Nat) (p : EdPoint) : Nat → EdPoint
  | 0 => (0, 1, 1)
  | n + 1 => let r := edMul (k / 2) p n; let r2 := edAdd r r; if k % 2 = 1 then edAdd r2 p else r2

/-- The base point. -/
def edBase : EdPoint :=
  (224580040295924300187604334099896036246789641632564134246125461686950415467406032909029192869357953282578032075146446173674602635247710,
   298819210078481492676017930443930673437544040154080242095928241372331506189835876003536878655418784733982303233503462500531545062832660,
   1)

/-- Two points are the same. -/
def edSame (p q : EdPoint) : Bool :=
  p.1 * q.2.2 % edP == q.1 * p.2.2 % edP && p.2.1 * q.2.2 % edP == q.2.1 * p.2.2 % edP

/-- The point that 57 bytes encode, if they encode one. -/
def edDecode (bs : List Byte) : Option EdPoint :=
  let n := leNat bs
  let y := n % 2 ^ 455
  let u := (y * y + edP - 1) % edP
  let v := (edD * (y * y % edP) + edP - 1) % edP
  let u3v := u * u % edP * u % edP * v % edP
  let x := u3v * edPow (u3v * (u * u % edP) % edP * (v * v % edP) % edP) ((edP - 3) / 4) 446 % edP
  let sign := n / 2 ^ 455
  if bs.length ≠ 57 ∨ edP ≤ y ∨ v * (x * x % edP) % edP ≠ u ∨ (x = 0 ∧ sign = 1) then none
  else some (if x % 2 = sign then x else edP - x, y, 1)

/-- The signature of a message under a key and a context verifies. -/
def edVerify (key ctx msg sig : List Byte) : Bool :=
  let r := sig.take 57
  let s := leNat (sig.drop 57)
  let dom : List Byte := [83, 105, 103, 69, 100, 52, 52, 56, 0, BitVec.ofNat 8 ctx.length] ++ ctx
  let k := leNat (shakeBytes 114 (dom ++ r ++ key ++ msg)) % edL
  match edDecode key, edDecode r with
  | some a, some p =>
    let four (p : EdPoint) : EdPoint := edAdd (edAdd p p) (edAdd p p)
    sig.length == 114 && decide (s < edL) && edSame (four (edMul s edBase 446)) (four (edAdd p (edMul k a 446)))
  | _, _ => false

end Sys2Proof.Machine
end

