-- ==== Sys2Proof/Machine/Ops.lean ====
section
/-! DEFINITION. Named operations over the state: threads, cores, registers, advancing, the exception entry and the
return from it, the end of a thread and of a gang. -/

namespace Sys2Proof.Machine

/-- The outcome of an instruction or a step. -/
abbrev Out := Host.Outcome State Fault Refusal

/-! Threads, cores and dies. A thread is named by its mhartid: THR [2:0], CORE [6:3], CUP [7], CLU [10:8], DIE [12:11]
(R259, R262); a core by mhartid / 8, a cluster by mhartid / 256, a die by mhartid / 2048. -/

def coreOf (tid : Nat) : Nat := tid / 8
def cluOf (tid : Nat) : Nat := tid / 256
def dieOf (tid : Nat) : Nat := tid / 2048 % 4
def thrOf (tid : Nat) : Nat := tid % 8
def isCup (tid : Nat) : Bool := tid / 128 % 2 == 1

def State.thread (s : State) (tid : Nat) : Thread := Tab.get {} s.threads tid
def State.setThread (s : State) (tid : Nat) (t : Thread) : State := { s with threads := Tab.set {} s.threads tid t }
def State.updThread (s : State) (tid : Nat) (f : Thread → Thread) : State := s.setThread tid (f (s.thread tid))

def State.core (s : State) (c : Nat) : Core := Tab.get {} s.cores c
def State.setCore (s : State) (c : Nat) (k : Core) : State := { s with cores := Tab.set {} s.cores c k }
def State.updCore (s : State) (c : Nat) (f : Core → Core) : State := s.setCore c (f (s.core c))

def State.cluster (s : State) (c : Nat) : Cluster := Tab.get {} s.clusters c
def State.updCluster (s : State) (c : Nat) (f : Cluster → Cluster) : State :=
  { s with clusters := Tab.set {} s.clusters c (f (s.cluster c)) }

def State.die (s : State) (d : Nat) : Die := s.dies[d % 4]'(Nat.mod_lt _ (by decide))
def State.setDie (s : State) (d : Nat) (x : Die) : State :=
  { s with dies := s.dies.set (d % 4) x (Nat.mod_lt _ (by decide)) }
def State.updDie (s : State) (d : Nat) (f : Die → Die) : State := s.setDie d (f (s.die d))

/-- The thread that executes. -/
def State.me (s : State) : Thread := s.thread s.cur
def State.setMe (s : State) (t : Thread) : State := s.setThread s.cur t
def State.updMe (s : State) (f : Thread → Thread) : State := s.setMe (f s.me)
/-- The core of the thread that executes. -/
def State.myCore (s : State) : Core := s.core (coreOf s.cur)
def State.updMyCore (s : State) (f : Core → Core) : State := s.updCore (coreOf s.cur) f

def State.rec? (s : State) (e : Nat) : Option Rec := Tab.get none s.belfry.recs e
def State.setRec (s : State) (e : Nat) (r : Option Rec) : State :=
  { s with belfry := { s.belfry with recs := Tab.set none s.belfry.recs e r } }

/-- A fresh index of free values (log entry 4). -/
def State.tick (s : State) : State := { s with free := s.free + 1 }

/-- Threads that are live. -/
def State.live (s : State) : List (Nat × Thread) := s.threads.filter (·.2.live)
/-- The thread holds its hart: live, or stopped for a save that its gang has not ended (R95). -/
def Thread.present (t : Thread) : Bool := t.live || t.stopped

/-! Registers: x0 reads zero and discards writes (R258, R374). -/

def Thread.getX (t : Thread) (r : Reg) : Word := if r = 0 then 0 else t.x[r.toNat]'(r.isLt)
def Thread.setX (t : Thread) (r : Reg) (v : Word) : Thread :=
  if r = 0 then t else { t with x := t.x.set r.toNat v r.isLt }

def State.rd (s : State) (r : Reg) : Word := s.me.getX r
def State.wr (s : State) (r : Reg) (v : Word) : State := s.setMe (s.me.setX r v)

/-- The thread has no banks: NONE of vctx (R104). -/
def Thread.none? (t : Thread) : Bool := t.csr.vctx.getLsbD 9
/-- First bank and log2 of the number of banks of a context (R104). -/
def ctxFirst (v : BitVec 10) : Nat := (v.extractLsb' 0 6).toNat
def ctxLgn (v : BitVec 10) : Nat := (v.extractLsb' 6 3).toNat
def ctxBanks (v : BitVec 10) : List Nat :=
  if v.getLsbD 9 then [] else (List.range (2 ^ ctxLgn v)).map (ctxFirst v + ·)

/-- Usable lanes of a bank: min(2,048, 2,080 - retired) (R148). -/
def Core.usable (c : Core) (b : Nat) : Nat := min 2048 (2080 - (Tab.get [] c.retired b).length)
/-- The fewest usable lanes among banks (R105). -/
def Core.fewest (c : Core) (bs : List Nat) : Nat := bs.foldl (fun m b => min m (c.usable b)) 2048
/-- Elements that a context holds (R105); 0 with NONE. -/
def Core.mvl (c : Core) (v : BitVec 10) : Nat :=
  if v.getLsbD 9 then 0 else 2 ^ ctxLgn v * c.fewest (ctxBanks v)
/-- mvl of the executing thread. -/
def State.mvl (s : State) : Nat := s.myCore.mvl s.me.csr.vctx
/-- Banks that the executing thread's task holds on its core, as mvlcore shows them (R262). -/
def State.taskBanks (s : State) : List Nat :=
  if isCup s.cur then [] else (List.range 64).filter fun b => Tab.get none s.myCore.bankOf b = some s.me.gang

/-! Advancing. -/

/-- One more instruction retired, unless mcountinhibit stops the counter. -/
def Thread.retire (t : Thread) : Thread :=
  if t.csr.mcountinhibit.getLsbD 2 then t else { t with csr := { t.csr with minstret := t.csr.minstret + 1 } }

/-- Nothing of the instruction that has performed is left waiting, an outstanding arrival of its mode included. -/
def Thread.settle (t : Thread) : Thread :=
  { t with wait := .none, arrived := t.arrived.filter fun p => p.1 != t.mode }

/-- The instruction has performed: the pc moves to the next instruction, and nothing of it is left waiting. -/
def State.advance (s : State) : State := s.updMe fun t => { t.retire.settle with pc := t.npc }

/-- The instruction has performed and control moves to a target. -/
def State.jump (s : State) (target : Word) : State := s.updMe fun t => { t.retire.settle with pc := target }

/-- A result is written and the instruction has performed. -/
def State.ret (s : State) (r : Reg) (v : Word) : Out := .next (s.wr r v).advance

/-- An instruction whose operation a unit has accepted counts as performed: its register reads 0 and the pc moves on (R391). -/
def Thread.finishAccepted (t : Thread) : Thread :=
  match t.wait with
  | .accepted _ rd => { (t.setX rd 0).retire.settle with pc := t.npc }
  | _ => t

/-- The instruction stalls: it has changed no state and issues again at the thread's next turn (R92). -/
def Thread.block (t : Thread) : Thread := match t.wait with | .none => { t with wait := .stalled } | _ => t
def State.stall (s : State) : Out := .next (s.updMe Thread.block)

/-- The instruction waits: as a stall, but a thread blocked so can be stopped for pre-emption at once (R95, R273, R387). -/
def Thread.await (t : Thread) : Thread := match t.wait with | .none | .stalled => { t with wait := .waits } | _ => t
def State.waits (s : State) : Out := .next (s.updMe Thread.await)

/-! The black-box record (R59). -/

/-- Write one entry: code, place, source, arguments. -/
def State.blackBox (s : State) (code : Nat) (place : Nat) (src : Nat) (a0 a1 : Word) : State :=
  let c := s.camp
  let time := (s.now - c.cold) * 10
  let cup := b2n (isCup place)
  let e : Nat := time % 2 ^ 64 + 2 ^ 64 * (code % 256 + 2 ^ 8 * (dieOf place) + 2 ^ 10 * (place / 256 % 8)
    + 2 ^ 13 * (if isCup place then 0 else place / 8 % 16) + 2 ^ 17 * (if isCup place then 0 else thrOf place)
    + 2 ^ 20 * src + 2 ^ 24 * cup) + 2 ^ 96 * c.bbSeq.toNat + 2 ^ 128 * a0.toNat + 2 ^ 192 * a1.toNat
  { s with camp := { c with bb := Tab.set 0 c.bb c.bbHead.toNat (BitVec.ofNat 256 e),
                            bbHead := c.bbHead + 1, bbSeq := c.bbSeq + 1 } }

/-! The end of threads and gangs (R87, R129, R289). -/

/-- The owner number of a tile-table entry whose thread has ended while an engine uses its rows (R172). -/
def noHart : Nat := 8

/-- An engine still fills, drains or reads the tile; a stream's slots are filled by the stream alone. -/
def Tile.inUse (t : Tile) : Bool := t.rdrs != 0 || (t.stream.isNone && (t.st == .filling || t.st == .draining))

/-- A tile-table entry of a core (R136). -/
def Core.tile? (c : Core) (i : Nat) : Option Tile := Tab.get none c.tiles i
def Core.setTile (c : Core) (i : Nat) (t : Option Tile) : Core := { c with tiles := Tab.set none c.tiles i t }

/-- Change a tile-table entry; one whose thread has ended goes once no engine uses it (R172). -/
def Core.updTile (c : Core) (i : Nat) (f : Tile → Tile) : Core :=
  c.setTile i (((c.tile? i).map f).bind fun t => if t.owner = noHart ∧ !t.inUse then none else some t)

/-- Tile-table entries of a hart freed, and its streams unconfigured; an entry that an engine uses stays until the engine has
ended (R172). -/
def Core.dropHart (c : Core) (h : Nat) : Core :=
  { c with
    tiles := (c.tiles.filter fun p => match p.2 with | some t => decide (t.owner ≠ h) || t.inUse | none => false).map fun p =>
      (p.1, p.2.map fun t => if t.owner = h then { t with owner := noHart } else t)
    streams := c.streams.filter fun p => decide (p.2.owner ≠ h) }

/-- A thread ends: nothing of it issues again. Its store buffer stays until its stores have performed. What a trap or
HALTT.F leaves held is dropped (R129, R172); the held stores of retired convoys of a cancelled gang perform (R98). -/
def Thread.ended (t : Thread) (cancelled : Bool := false) : Thread :=
  let held := if cancelled then t.held.filter fun h => decide (h.need ≤ t.settled) else []
  { live := false, gang := t.gang, rank := t.rank, sb := t.sb
    held := held.map fun h => { h with need := 0 }
    notifies := if cancelled then t.notifies else []
    csr := { vptbase := t.csr.vptbase, vasid := t.csr.vasid, mtvec := t.csr.mtvec, mscratch := t.csr.mscratch } }

/-- Jobs of a gang that ends are cancelled: those that wait leave at once, a running one at its next key-block boundary
(R240). -/
def Cluster.cancelOf (c : Cluster) (gang : Nat) : Cluster :=
  { c with jobs := c.jobs.map fun j => if j.gang == gang then { j with cancel := true } else j }

/-- End one thread: its hart and the banks of its context free (R87), and with the task's last thread on the core the banks
that no thread of the task held (R106). -/
def State.endThread (s : State) (tid : Nat) (cancelled : Bool := false) : State :=
  let t := s.thread tid
  let s := s.setThread tid (t.ended cancelled)
  let last := !(s.threads.any fun p => p.2.present && coreOf p.1 == coreOf tid && p.2.gang == t.gang)
  let own := if isCup tid then [] else ctxBanks t.csr.vctx
  s.updCore (coreOf tid) fun c =>
    let c := c.dropHart (thrOf tid)
    { c with bankOf := c.bankOf.filter fun p => decide (p.2 ≠ some t.gang) || !(last || own.contains p.1) }

/-- A record moves to its completion (R78). -/
def State.finishRec (s : State) (e status detail : Nat) : State :=
  match s.rec? e with
  | none => s
  | some r =>
    match r.st with
    | .ending _ _ | .posted => s
    | _ => s.setRec e (some { r with st := .ending status detail, claim := none, keptH := [], keptB := [], keptG := [] })

/-- Whether a save region belongs to gang `e`: gangs keep theirs under even keys, CTXSAVE under odd ones. -/
def saveOf (e k : Nat) : Bool := k % 2 == 0 && k / 131072 == e

/-- Banks and accumulator groups of a core that gang `e` held; the groups are to be zeroed (R367). -/
def Core.freeOf (c : Core) (e : Nat) : Core :=
  { c with bankOf := c.bankOf.filter (fun q => decide (q.2 ≠ some e))
           accOwner := c.accOwner.filter (fun q => decide (q.2 ≠ some e))
           zeroing := c.zeroing ++ (c.accOwner.filter fun q => decide (q.2 = some e)).map (·.1) }

/-- Everything that gang `e` holds is freed: its threads, banks, accumulator groups and saves (R87, R96, R129). -/
def State.freeGang (s : State) (e : Nat) (cancelled : Bool := false) : State :=
  let seats : List Nat := match s.rec? e with | some r => r.seats.map Seat.tid | none => []
  let tids := seats.filter fun tid => (s.thread tid).gang == e
  let s := tids.foldl (fun (s : State) tid => s.endThread tid cancelled) s
  { s with
    cores := s.cores.map (fun p => (p.1, p.2.freeOf e))
    saves := s.saves.filter (fun p => !saveOf e p.1) }

/-- A gang ends: every thread stops at its convoy boundary without a save, its jobs are cancelled, and the record completes
(R98, R129, R240). -/
def State.endGang (s : State) (e status detail : Nat) (cancelled : Bool := false) : State :=
  let s := s.freeGang e cancelled
  let s : State := { s with clusters := s.clusters.map fun p => (p.1, p.2.cancelOf e) }
  s.finishRec e status detail

/-! Exceptions (R124 to R129). -/

/-- mstatus on entry: MPIE := MIE, MIE := 0, MPP := the mode left. -/
def mstatusEnter (m : Word) (from_ : Mode) : Word :=
  let m := (m &&& ~~~(0x1888 : Word)) ||| (if m.getLsbD 3 then 0x80 else 0)
  m ||| (match from_ with | .m => 0x1800 | .u => 0)

/-- mstatus on return: MIE := MPIE, MPIE := 1, MPP := U. -/
def mstatusReturn (m : Word) : Word :=
  ((m &&& ~~~(0x1888 : Word)) ||| (if m.getLsbD 7 then 8 else 0)) ||| 0x80

/-- The thread after taking a trap: mepc, mcause, mtval, mtrapx and mstatus written, M mode, pc at mtvec; a reservation
is lost (R378). -/
def Thread.enter (t : Thread) (tr : Trap) (epc : Word) : Thread :=
  { t with
    mode := .m, pc := t.csr.mtvec &&& ~~~(3 : Word), resv := none, wait := .none
    csr := { t.csr with mepc := epc, mcause := word tr.cause, mtval := tr.tval, mtrapx := tr.info
                        mstatus := mstatusEnter t.csr.mstatus t.mode } }

/-- TAKING AN EXCEPTION (R124): the executing thread enters M mode at mtvec with the resume point `epc`. A trap taken in
M mode ends the gang at once as a trap that is not resumed does (R129). -/
def State.takeException (s : State) (tr : Trap) (epc : Word) : State :=
  let t := s.me
  let s' := s.setMe (t.enter tr epc)
  match t.mode with
  | .u => s'
  | .m => s'.endGang t.gang 1 (tr.cause % 256)

/-- RETURN FROM AN EXCEPTION (MRET): mode and mstatus restored, pc at mepc, the queue unfrozen so that the trapping
convoy issues again (R124), unless its trap has still to be taken (R126). -/
def State.returnException (s : State) : State :=
  s.updMe fun t =>
    { t.retire.settle with
      mode := if t.csr.mstatus.extractLsb' 11 2 = 0 then .u else .m
      pc := t.csr.mepc, frozen := t.convTrap.isSome
      csr := { t.retire.csr with mstatus := mstatusReturn t.csr.mstatus } }

/-- A precise exception of the scalar instruction that executes: mepc is the instruction. -/
def State.trap (s : State) (cause : Nat) (tval info : Word) : Out :=
  .next (s.takeException { cause, tval, info } s.me.pc)

/-- Illegal instruction: mcause 2, mtval the instruction bits (R245). -/
def State.illegal (s : State) (info : Word := 0) : Out := s.trap 2 (s.ir.setWidth 64) info

/-- An engine or unit posts a fault as a pending trap of its thread (R126). -/
def State.engineTrap (s : State) (tid : Nat) (tr : Trap) : State :=
  s.updThread tid fun t => if t.present then { t with engTraps := t.engTraps ++ [tr] } else t

/-! Condition bits (R115). -/

/-- Write one condition bit; c0 and c28 to c31 ignore writes. -/
def setCb (cb : BitVec 32) (i : Nat) (v : Bool) : BitVec 32 :=
  if i = 0 ∨ 28 ≤ i then cb
  else if v then cb ||| (1#32 <<< i) else cb &&& ~~~(1#32 <<< i)

def Thread.post (t : Thread) (i : Nat) (v : Bool) : Thread := { t with csr := { t.csr with cb := setCb t.csr.cb i v } }
def State.post (s : State) (tid i : Nat) (v : Bool) : State := s.updThread tid (·.post i v)

/-! Flags (R187). -/

/-- Merge flags into vxstat. -/
def Thread.mergeFlags (t : Thread) (f : BitVec 8) : Thread := { t with csr := { t.csr with vxstat := t.csr.vxstat ||| f } }

end Sys2Proof.Machine
end

