-- ==== Sys2Proof/Machine/Memory.lean ====
section
/-! DEFINITION. Physical memory: the address map, translation, the view of a die, writes at the home slice and across
the chain, poison, backing values, and what a write breaks (R14 to R17, R149 to R152, R161 to R164, R170, R378, R383). -/

namespace Sys2Proof.Machine

/-- What a physical address names (R14). -/
inductive Region where
  | memory | registers | campanile | hole
deriving DecidableEq, Repr

/-- The address map of R14. -/
def region (pa : Nat) : Region :=
  let o := pa % 2 ^ 44
  if 2 ^ 46 ≤ pa then .hole
  else if o < 0x1800000000 then .memory
  else if 0x20000000000 ≤ o ∧ o < 0x24000000000 then .memory
  else if 0x80000000000 ≤ o ∧ o < 0x80040000000 then .registers
  else if 0x80040000000 ≤ o ∧ o < 0x80080000000 ∧ pa < 2 ^ 44 then .campanile
  else .hole

/-- The home die of an address (R14). -/
def homeDie (pa : Nat) : Nat := pa / 2 ^ 44 % 4

/-- Whether `n` bytes from `pa` lie within the HBM4 or within the LP6 region of one die. -/
def inMemory (pa n : Nat) : Bool :=
  let o := pa % 2 ^ 44
  decide (pa < 2 ^ 46) && (decide (o + n ≤ 0x1800000000) ||
    (decide (0x20000000000 ≤ o) && decide (o + n ≤ 0x24000000000)))

/-- The 64-byte line of an address. -/
def lineOf (pa : Nat) : Nat := pa / 64

/-- A virtual address is canonical: bits [63:48] equal bit 47 (R149). -/
def canonical (va : Word) : Bool := decide (va.toNat / 2 ^ 47 = 0) || decide (va.toNat / 2 ^ 47 = 2 ^ 17 - 1)

/-- A record's 48-bit address as a virtual address: sign-extended from bit 47. -/
def va48 (n : Nat) : Word := (BitVec.ofNat 48 n).signExtend 64

/-! Reading. -/

/-- One byte over another where a mask has ones; a byte without a mask is written whole (R154). -/
def mergeByte (old b : Byte) (m : Option Byte) : Byte := match m with | none => b | some m => (old &&& ~~~m) ||| (b &&& m)

/-- Bytes over others under masks. -/
def mergeBytes : List Byte → List Byte → List Byte → List Byte
  | o :: os, b :: bs, m => mergeByte o b m.head? :: mergeBytes os bs m.tail
  | _, bs, _ => bs

/-- A byte as a die sees it: its own outbound writes stand before the home's value (R163). -/
def State.byteAt (s : State) (die pa : Nat) : Byte :=
  (s.die die).out.foldl (fun b w =>
    if w.addr ≤ pa ∧ pa < w.addr + w.bytes.length then
      mergeByte b (w.bytes.getD (pa - w.addr) b) w.mask[pa - w.addr]? else b) (Memory.read s.mem pa)

/-- A byte over which the writes of a buffer stand, the latest last. -/
def overBuf (l : List Bufw) (pa : Nat) (b : Byte) : Byte :=
  l.foldl (fun b w =>
    if w.addr ≤ pa ∧ pa < w.addr + w.bytes.length then
      mergeByte b (w.bytes.getD (pa - w.addr) b) w.mask[pa - w.addr]? else b) b

/-- A byte as every thread of a core sees it: the writes that its core and its cluster see stand before those its die
sees (R155). -/
def State.viewByte (s : State) (core pa : Nat) : Byte :=
  overBuf (s.core core).buf pa (overBuf (s.cluster (core / 32)).buf pa (s.byteAt (core / 256) pa))

/-- Bytes as a core sees them. -/
def State.viewBytes (s : State) (core pa : Nat) : Nat → List Byte
  | 0 => []
  | n + 1 => s.viewByte core pa :: s.viewBytes core (pa + 1) n

/-- A little-endian number of `n` bytes as a core sees it. -/
def State.viewNum (s : State) (core pa n : Nat) : Nat := leNat (s.viewBytes core pa n)

/-- Bytes as a die sees them. -/
def State.bytesAt (s : State) (die pa : Nat) : Nat → List Byte
  | 0 => []
  | n + 1 => s.byteAt die pa :: s.bytesAt die (pa + 1) n

/-- A little-endian number of `n` bytes at the home slice. -/
def State.homeNum (s : State) (pa n : Nat) : Nat := leNat (Memory.readList s.mem pa n)

/-- The value of a line at its home. -/
def State.lineVal (s : State) (line : Nat) : BitVec 512 := BitVec.ofNat 512 (s.homeNum (line * 64) 64)

/-- The line is poisoned (R55). -/
def State.poisoned (s : State) (pa : Nat) : Bool := s.poison.contains (lineOf pa)

/-- An adjacency between two dies has failed (R21). -/
def State.cut (s : State) (a b : Nat) : Bool := s.dead.any fun k => min a b ≤ k && k < max a b

/-- What stops an access at its home: a failed adjacency on the way, or a memory error (R21, R53, R55). -/
inductive HomeErr where
  | link | mem
deriving DecidableEq, Repr

/-- Flag bits 63 and 62 of mtrapx (R263). -/
def HomeErr.flag : HomeErr → Nat | .link => 2 ^ 63 | .mem => 2 ^ 62

/-- The channel of an address within its die: HBM4 channels 0 to 63 (stack × 32 + channel), LP6 channels 64 to 71 (R16,
R52). Which of its 32 channels a stack uses for a line is the controller's own (log entry 26). -/
def channelOf (pa ch : Nat) : Bool :=
  let o := pa % 2 ^ 44
  if o < 0x1800000000 then
    ch < 64 && ch / 32 == b2n (bitOf pa 8 != bitOf pa 21) && ch % 32 == (Config.hbmChannel (lineOf pa)).toNat
  else ch ≥ 64 && ch - 64 == (bitsOf pa 10 8 ^^^ bitsOf pa 23 21)

/-- A request waits at its channel's controller while its retraining window is open (R52). -/
def State.windowHolds (s : State) (pa : Nat) : Bool :=
  match (s.die (homeDie pa)).window with
  | none => false
  | some ch => channelOf pa ch

/-- A link between two dies trains during operation: its traffic stalls (R20). -/
def State.training (s : State) (a b : Nat) : Bool :=
  (List.range 3).any fun k => min a b ≤ k && k < max a b && (s.die k).lnkHi == 1

/-- An access from a die waits on its way: its channel retrains, or a link that it crosses trains (R20, R52). -/
def State.pathHolds (s : State) (die pa : Nat) : Bool := s.windowHolds pa || s.training (die % 4) (homeDie pa)

/-- A report from one die to another is on its way in the SYNC class, in which atomics, barrier arrivals, and sequence and
index operations of the same two dies stand behind it (R19). -/
def State.syncQueued (s : State) (src dst : Nat) : Bool :=
  s.links.any fun p => p.2.any fun f => match f with | .report d c _ => d == dst && c == src | .wr _ _ => false

/-- Every retry of the address's channel has failed (R53). -/
def State.channelFailed (s : State) (pa : Nat) : Bool :=
  match (s.die (homeDie pa)).failed with
  | none => false
  | some ch => channelOf pa ch

/-- What an access from a die to a memory address finds at its home (R21, R53, R55). -/
def State.homeErr (s : State) (die : Nat) (reads : Bool) (pa : Nat) : Option HomeErr :=
  if s.cut die (homeDie pa) then some .link
  else if s.channelFailed pa || (reads && s.poisoned pa) then some .mem
  else none

/-- A die that reads a line has observed the writes in it (R164). -/
def State.observe (s : State) (die line : Nat) : State :=
  match Tab.get [] s.stamps line with
  | [a, b, c, d] => s.updDie die fun x =>
      let st : Vector (BitVec 24) 4 := #v[a, b, c, d]
      { x with clock := Vector.ofFn fun i => seqMax x.clock[i] st[i] }
  | _ => s

/-! What is in the way of an access. -/

/-- The line is owned by an operation in flight, or holds an attention job's status record (R169): any other access
waits for the recall. -/
def State.owned (s : State) (line : Nat) : Bool :=
  (s.ops.any fun p => match p.2 with
    | some o => o.owns.any fun q => q.1 ≤ line && line < q.1 + q.2
    | none => false)
  || s.clusters.any fun p => p.2.jobs.any fun j => match j.stw with | some pa => lineOf pa == line | none => false

/-- The line is owned by an operation that stands before operation or job `id`, or holds the status record of an earlier job:
the operation's own access waits for the recall (R169). -/
def State.ownedBefore (s : State) (id line : Nat) : Bool :=
  (s.ops.any fun p => decide (p.1 < id) && match p.2 with
    | some o => o.owns.any fun q => q.1 ≤ line && line < q.1 + q.2
    | none => false)
  || s.clusters.any fun p => p.2.jobs.any fun j => decide (j.id < id) && match j.stw with
    | some pa => lineOf pa == line
    | none => false

/-- Cluster slice that is a line's home on its die: three parities of every third line-address bit (R143). -/
def homeSlice (pa : Nat) : Nat :=
  let par (k : Nat) : Nat := ((List.range 38).filter fun i => i % 3 == k && bitOf pa (i + 6)).length % 2
  par 0 + 2 * par 1 + 4 * par 2
/-- The line is pinned by a tile fetch unit (R145): writes wait. -/
def State.linePinned (s : State) (line : Nat) : Bool :=
  s.ops.any fun p => match p.2 with
    | some o => o.pins.contains line
    | none => false

/-- A home defers other agents' writes after an LR (R378). -/
def State.lrDeferred (s : State) (line tid : Nat) : Bool := s.deferred.any fun p => p.1 == line && p.2 != tid

/-- The number that stands for agents that are no thread. -/
def noThread : Nat := 2 ^ 20

/-- The agents that write for a connection's messages and for an operation in flight. -/
def connAgent (c : Nat) : Nat := noThread + 8192 + c
def engAgent (id : Nat) : Nat := 2 ^ 21 + id

/-- The line is owned against an agent: the write of an operation waits for those before it alone (R169). -/
def State.ownedFrom (s : State) (line agent : Nat) : Bool :=
  if 2 ^ 21 ≤ agent then s.ownedBefore (agent - 2 ^ 21) line else s.owned line

/-- A write of an agent to a line waits. Agents that are no thread use a number above every mhartid. -/
def State.writeWaits (s : State) (line tid : Nat) : Bool :=
  s.ownedFrom line tid || s.linePinned line || s.lrDeferred line tid

/-! Translation (R149, R150). -/

/-- Why an address gives no place to access: translation invalid, permission, hole or register space, an error of the
memory that holds the table, or nothing yet: the entry's line is owned or its channel retrains. -/
inductive XErr where
  | invalid | permission | hole | hold
  | home (ea : Nat) (e : HomeErr)
deriving DecidableEq, Repr

/-- A leaf entry gives the page, if well-formed, in memory and permitted. -/
def leafPage (e : Nat) (lgPage : Nat) (need : Need) : Except XErr Nat :=
  let pa := bitsOf e 45 8 * 256
  if bitOf e 3 && !bitOf e 2 then .error .invalid
  else if pa % 2 ^ lgPage ≠ 0 ∨ !inMemory pa 1 ∨ !inMemory pa (2 ^ lgPage) then .error .invalid
  else
    let ok := match need with | .read => bitOf e 2 | .write => bitOf e 3 | .exec => bitOf e 4
    if ok then .ok pa else .error .permission

/-- Level `k` of the table (2 the first): the entry's index, log2 of the page it maps, the alignment of the next table
(R150). -/
def walkLevel (va k : Nat) : Nat × Nat × Nat :=
  if k = 2 then (bitsOf va 47 30, 30, 4096) else if k = 1 then (bitsOf va 29 21, 21, 256) else (bitsOf va 20 16, 16, 1)

/-- One level of the walk: the entry at `tbl + 8 * idx`; `k` levels may follow. -/
def walkFrom (s : State) (die : Nat) (need : Need) (va : Nat) : Nat → Nat → Except XErr Nat
  | 0, _ => .error .invalid
  | k + 1, tbl =>
    let (idx, lgPage, align) := walkLevel va k
    let ea := tbl + 8 * idx
    if !inMemory ea 8 then .error .invalid
    else match s.homeErr die true ea with
    | some e => .error (.home ea e)
    | none =>
      let e := s.homeNum ea 8
      if s.pathHolds die ea || s.owned (lineOf ea) then .error .hold
      else if !bitOf e 0 ∨ bitsOf e 7 5 ≠ 0 ∨ bitsOf e 63 46 ≠ 0 then .error .invalid
      else if bitOf e 1 then
        match leafPage e lgPage need with
        | .ok page => .ok (page + va % 2 ^ lgPage)
        | .error x => .error x
      else if bitsOf e 4 2 ≠ 0 then .error .invalid
      else
        let nxt := bitsOf e 45 8 * 256
        if nxt % align ≠ 0 ∨ !inMemory nxt 1 then .error .invalid
        else walkFrom s die need va k nxt

/-- log2 of the size of the page that a walk ends at; `k` levels may follow. -/
def leafLg (s : State) (va : Nat) : Nat → Nat → Nat
  | 0, _ => 16
  | k + 1, tbl =>
    let (idx, lgPage, _) := walkLevel va k
    let e := s.homeNum (tbl + 8 * idx) 8
    if bitOf e 1 then lgPage else leafLg s va k (bitsOf e 45 8 * 256)

/-- The page of a table that a virtual address lies in. -/
def State.vpage (s : State) (root : BitVec 30) (va : Word) : VPage :=
  ⟨va.toNat % 2 ^ 48 / 65536, leafLg s va.toNat 3 (root.toNat * 65536)⟩

/-- The pages that an access of a mode uses: both of one that straddles; none in M mode (R149, R151). -/
def State.vpages (s : State) (mode : Mode) (root : BitVec 30) (va : Word) (n : Nat) : List VPage :=
  match mode with | .m => [] | .u => [s.vpage root va, s.vpage root (va + word (n - 1))].eraseDups

/-- A page number of XLINVVA names the page (R152). -/
def VPage.hit (p : VPage) (vpn : Nat) : Bool := vpn / 2 ^ (p.lg - 16) == p.page / 2 ^ (p.lg - 16)

/-- Translate a virtual address in an address space for an access from a die, or take it as physical in M mode (R149). -/
def State.xlate (s : State) (die : Nat) (mode : Mode) (root : BitVec 30) (need : Need) (va : Word) : Except XErr Nat :=
  match mode with
  | .m => .ok va.toNat
  | .u => if canonical va then walkFrom s die need va.toNat 3 (root.toNat * 65536) else .error .invalid

/-- The code of R261 for an error, with the flags of mtrapx; 0 for an access that has only to wait. -/
def XErr.code : XErr → Nat
  | .invalid => 1 | .permission => 2 | .hole => 3 | .hold => 0
  | .home _ .link => 3 | .home _ .mem => 4
def XErr.flags : XErr → Nat
  | .home _ e => 2 ^ 61 + e.flag
  | _ => 0

/-- Where one byte of a vector access lies, or its fault (R261): translation, permission, or a hole or the register
space. -/
def State.bytePa (s : State) (die : Nat) (mode : Mode) (root : BitVec 30) (need : Need) (va : Word) : Except XErr Nat :=
  match s.xlate die mode root need va with
  | .error e => .error e
  | .ok pa => if inMemory pa 1 then .ok pa else .error .hole

/-- Where `n` bytes lie, or the first that faults. -/
def State.bytePas (s : State) (die : Nat) (mode : Mode) (root : BitVec 30) (need : Need) :
    Nat → Word → Except (XErr × Word) (List Nat)
  | 0, _ => .ok []
  | n + 1, va =>
    match s.bytePa die mode root need va with
    | .error c => .error (c, va)
    | .ok pa => (s.bytePas die mode root need n (va + 1)).map (pa :: ·)

/-- Translate for the executing thread. -/
def State.xlateMe (s : State) (need : Need) (va : Word) : Except XErr Nat :=
  s.xlate (dieOf s.cur) s.me.mode s.me.csr.vptbase need va

/-! Writing at the home slice. -/

/-- Lines that a run of bytes touches. -/
def linesOf (pa n : Nat) : List Nat :=
  if n = 0 then [] else (List.range (lineOf (pa + n - 1) - lineOf pa + 1)).map (lineOf pa + ·)

/-- The backing value of a line is kept from its first write since the last write-back (R170). -/
def State.keepBacking (s : State) (line : Nat) : State :=
  if Tab.get none s.backing line = none then { s with backing := Tab.set none s.backing line (some (s.lineVal line)) }
  else s

/-- Reservations on a line that other agents lose (R378). -/
def State.loseResv (s : State) (line tid : Nat) : State :=
  { s with threads := s.threads.map fun p =>
      match p.2.resv with
      | some r => if r.line = line ∧ p.1 ≠ tid then (p.1, { p.2 with resv := none }) else p
      | none => p }

/-- The image of a barrier line (R379). -/
def Bar.image (b : Bar) (bound : Bool) : Nat :=
  b.target + 2 ^ 16 * b.scope + 2 ^ 19 * b2n bound + 2 ^ 32 * b.arr + 2 ^ 64 * b.phase.toNat + 2 ^ 96 * b.id.toNat
    + 2 ^ 128 * b.home

/-- Barrier handles of a thread (R380). -/
def Thread.bar? (t : Thread) (b : Nat) : Option BarHandle :=
  (t.bars.find? (·.1 == b)).map (·.2)
def Thread.setBarHandle (t : Thread) (b : Nat) (h : Option BarHandle) : Thread :=
  { t with bars := match h with | some x => Tab.insert t.bars b x | none => Tab.erase t.bars b }

/-- A waiting BARWAIT or BARARRWAIT returns, with c22 as R382 and R383 say. -/
def Thread.barReturn (t : Thread) (stale : Bool) : Thread := { (t.post 22 stale).retire.settle with pc := t.npc }

/-- What becomes of a thread that waits at the barrier of a line: a break returns it, and so does the phase that it awaits
once no arrival of it is pending (R382, R383). -/
def Thread.barWoken (t : Thread) (line : Nat) (b : Bar) (broken : Bool) : Thread :=
  match t.wait with
  | .barrier k =>
    match t.bar? k with
    | some h =>
      if !(t.live && h.line == line && h.id == b.id) then t
      else if broken then t.barReturn true
      else if !h.pending && BitVec.slt 0 (b.phase - h.exp) then
        (t.setBarHandle k (some { h with exp := b.phase })).barReturn false
      else t
    | none => t
  | _ => t

/-- Every waiter of the barrier that its phase or its break returns. -/
def State.wakeBar (s : State) (line : Nat) (b : Bar) (broken : Bool) : State :=
  { s with threads := s.threads.map fun p => (p.1, p.2.barWoken line b broken) }

/-- The barrier unit writes a barrier's image: a write of the whole line by another agent than any thread (R55, R170, R378,
R379). -/
def State.writeImage (s : State) (line : Nat) (b : Bar) (bound : Bool) : State :=
  let s := (s.loseResv line noThread).keepBacking line
  { s with mem := Memory.writeList s.mem (line * 64) (leBytes 64 (b.image bound)), poison := s.poison.erase line }

/-- A bound barrier on the line is broken: image with BOUND = 0, every waiter returned, every handle stale (R383). -/
def State.breakBar (s : State) (line : Nat) : State :=
  match Tab.get none s.bars line with
  | none => s
  | some b => State.wakeBar { s.writeImage line b false with bars := Tab.set none s.bars line none } line b true

/-- Live sequences whose descriptor lies in the line, and block-table entries of live sequences at the address. -/
def State.seqOfLine (s : State) (line : Nat) : Option Nat := s.seqs.find? fun d => lineOf d ≤ line && line < lineOf d + 4

/-- The live sequence whose block table holds an address (R204, R211). -/
def State.seqOfEntry (s : State) (pa : Nat) : Option Nat :=
  s.seqs.find? fun d =>
    let base := bitsOf (s.homeNum (d + 24) 8) 33 0 * 4096
    base ≤ pa && pa < base + 8 * (s.homeNum (d + 32) 2 % 2 ^ 15)

/-- A waiting SQWAIT returns: with CLEN, and c23 as R212 says. -/
def Thread.sqReturn (t : Thread) (rd : Reg) (clen : Nat) (missed : Bool) : Thread :=
  { ((t.post 23 missed).setX rd (word clen)).retire.settle with pc := t.npc }

/-- The length or the state of sequence `d` has changed: every waiter whose bound is met returns with an acquire, and every
waiter of a sequence that is no longer live without one (R211 to R213). -/
def State.wakeWaiters (s : State) (d : Nat) : State :=
  let live := (Memory.read s.mem (d + 8)).toNat % 4 == 1
  let clen := s.homeNum (d + 4) 4
  let hit (t : Thread) : Option Reg := match t.wait with
    | .deadline _ rd d' bound => if t.live && d' == d && (!live || decide (bound ≤ clen)) then some rd else none
    | _ => none
  let woken := s.threads.filter fun p => (hit p.2).isSome
  let s : State := { s with threads := s.threads.map fun p => (p.1, match hit p.2 with
    | some rd => p.2.sqReturn rd clen (!live)
    | none => p.2) }
  if live then woken.foldl (fun (s : State) p => s.observe (dieOf p.1) (lineOf d)) s else s

/-- A plain store has hit a live sequence: ST := BROKEN, and every waiter returns (R211). -/
def State.breakSeq (s : State) (d : Nat) : State :=
  State.wakeWaiters
    { s with mem := Memory.write s.mem (d + 8) (((Memory.read s.mem (d + 8)) &&& 0xFC) ||| 3), seqs := s.seqs.erase d } d

/-- A store to a block-table entry breaks the sequence unless it writes no field but the FRAME of a sealed block, as system
software does before BTINV (R211). -/
def State.entryStore (s : State) (pa : Nat) (old new : Word) : State :=
  match s.seqOfEntry pa with
  | none => s
  | some d =>
    let frame := bitsOf old.toNat 45 12 * 4096
    let migrates := bitOf old.toNat 0 && bitOf (s.homeNum (frame + 10) 1) 0 &&
      decide ((old ^^^ new) &&& ~~~(0x3FFFFFFFF000 : Word) = 0)
    if migrates then s else s.breakSeq d

/-- A known index table whose descriptor the line belongs to. -/
def State.tableOfLine (s : State) (line : Nat) : Option Nat :=
  s.tables.find? fun d => lineOf d ≤ line && line < lineOf d + 4

/-- A plain store to an index table's descriptor performs and makes the table BROKEN, whatever it was (R218). -/
def State.breakTable (s : State) (d : Nat) : State := { s with mem := Memory.write s.mem d ((Memory.read s.mem d) ||| 3) }

/-- What a plain write of one line does beside storing: barrier, reservations, backing value. -/
def State.beforeWrite (s : State) (line tid : Nat) : State :=
  ((s.breakBar line).loseResv line tid).keepBacking line

/-! Fields of a start record (R70). -/

def rf (r : BitVec 1024) (hi lo : Nat) : Nat := bitsOf r.toNat hi lo
def recEntry (r : BitVec 1024) : Nat := rf r 47 0
def recTpc (r : BitVec 1024) : Nat := rf r 66 64
def recCpc (r : BitVec 1024) : Nat := rf r 70 67
def recCup (r : BitVec 1024) : Bool := rf r 71 71 == 1
def recCpd (r : BitVec 1024) : Nat := rf r 74 72
def recDies (r : BitVec 1024) : Nat := rf r 78 75
def recLgb (r : BitVec 1024) : Nat := rf r 82 80
def recPrio (r : BitVec 1024) : Nat := rf r 86 84
def recVlc (r : BitVec 1024) : Nat := rf r 105 88
def recNdep (r : BitVec 1024) : Nat := rf r 108 106
def recNpre (r : BitVec 1024) : Nat := rf r 111 109
def recAsid (r : BitVec 1024) : Nat := rf r 143 128
def recRoot (r : BitVec 1024) : Nat := rf r 173 144
def recSave (r : BitVec 1024) : Nat := rf r 237 208
def recRmt (r : BitVec 1024) : Bool := rf r 256 256 == 1
def recCplw (r : BitVec 1024) : Nat := rf r 301 259 * 8
def recCseq (r : BitVec 1024) : Nat := rf r 351 320
def recTag (r : BitVec 1024) : Nat := rf r 383 352
def recDep (r : BitVec 1024) (i : Nat) : Nat := rf r (447 + 64 * i) (384 + 64 * i)
def recBound (r : BitVec 1024) (i : Nat) : Nat := rf r (671 + 32 * i) (640 + 32 * i)
def recPre (r : BitVec 1024) (i : Nat) : Nat := rf r (831 + 64 * i) (768 + 64 * i)

/-! The monitors of dependences (R80). -/

/-- Committed length in a sequence descriptor (R203). -/
def State.seqClen (s : State) (d : Nat) : Nat := s.homeNum (d + 4) 4

/-- A dependence passes (R72); a word in use of KIND 0 names no watermark and passes at once (log entry 84). A word that the
monitor at its home cannot read passes nothing (R55; log entry 106). -/
def State.depPasses (s : State) (r : BitVec 1024) (i : Nat) : Bool :=
  let pa := bitsOf (recDep r i) 45 3 * 8
  (recDep r i % 4 == 0 || (s.homeErr (homeDie pa) true pa).isNone) && decide (recBound r i ≤ (match recDep r i % 4 with | 1 => s.homeNum pa 8 | 2 => s.seqClen pa | _ => recBound r i))

/-- Evaluate the dependences of a record in WAIT; READY when all have passed (R80, R81). -/
def State.evalDeps (s : State) (e : Nat) : State :=
  match s.rec? e with
  | none => s
  | some r =>
    if r.st ≠ .wait then s
    else
      let p := (List.range 4).foldl (fun (p : BitVec 4) i =>
        if i < recNdep r.bits ∧ s.depPasses r.bits i then p ||| (1#4 <<< i) else p) r.passed
      let all := (List.range (recNdep r.bits)).all fun i => p.getLsbD i
      s.setRec e (some (if all then { r with passed := p, st := .ready, since := s.now } else { r with passed := p }))

/-- Records of the pending set. -/
def State.recList (s : State) : List (Nat × Rec) := s.belfry.recs.filterMap fun p => p.2.map fun r => (p.1, r)

/-- The record waits on a dependence of a kind whose address lies in a run of bytes. -/
def Rec.watches (r : Rec) (kind pa n : Nat) : Bool :=
  r.st == .wait && (List.range (recNdep r.bits)).any fun i =>
    let a := bitsOf (recDep r.bits i) 45 3 * 8
    recDep r.bits i % 4 == kind && decide (a < pa + n) && decide (pa < a + 8)

/-- The monitors at the home: every record in WAIT with a dependence of the kind there evaluates it again (R80). -/
def State.watch (s : State) (kind pa n : Nat) : State :=
  (s.recList.filter fun p => p.2.watches kind pa n).foldl (fun (s : State) p => s.evalDeps p.1) s

/-- A write of bytes within one line at its home, in the line's order (R153, R383, R211, R218, R55); the
monitors of dependences on it look at once (R80). -/
def State.homeWrite (s : State) (tid pa : Nat) (bytes : List Byte) : State :=
  let line := lineOf pa
  let entries := (List.range ((pa + bytes.length - 1) / 8 - pa / 8 + 1)).map fun k => (pa / 8 + k) * 8
  let olds := entries.map fun ea => (ea, word (s.homeNum ea 8))
  let s := s.beforeWrite line tid
  let s := { s with mem := Memory.writeList s.mem pa bytes
                    poison := if bytes.length = 64 then s.poison.erase line else s.poison }
  let s := match s.seqOfLine line with | some d => s.breakSeq d | none => s
  let s := match s.tableOfLine line with | some d => s.breakTable d | none => s
  (olds.foldl (fun (s : State) p => s.entryStore p.1 p.2 (word (s.homeNum p.1 8))) s).watch 1 pa bytes.length

/-- Bytes of a run that lie in one line. -/
def splitLines (pa : Nat) (bytes : List Byte) : List (Nat × List Byte) :=
  (linesOf pa bytes.length).map fun l =>
    let lo := max pa (l * 64)
    let hi := min (pa + bytes.length) (l * 64 + 64)
    (lo, sub bytes (lo - pa) (hi - lo))

/-- A write by an agent of a die to lines of that die, or by an owning agent at the home: line by line. -/
def State.writeHome (s : State) (tid pa : Nat) (bytes : List Byte) : State :=
  (splitLines pa bytes).foldl (fun s p => s.homeWrite tid p.1 p.2) s

/-- The vector clock of a die goes with the line it writes (R164). -/
def State.stampLine (s : State) (line : Nat) (c : Vector (BitVec 24) 4) : State :=
  let old := Tab.get [] s.stamps line
  let new := (List.range 4).map fun i => seqMax (old.getD i 0) (c.toList.getD i 0)
  { s with stamps := Tab.set [] s.stamps line new }

/-- Adjacency between a die and its neighbour toward a destination, and the die there. -/
def hop (src dst : Nat) : Nat × Nat := if src < dst then (2 * src, src + 1) else (2 * (src - 1) + 1, src - 1)

/-- Queue a flit on the link that leads from a die toward its destination (R19). Links: 2 k upward, 2 k + 1 downward
over adjacency k; WR flits under key 4 link, SYNC flits under key 4 link + 1. -/
def State.sendFlit (s : State) (at_ : Nat) (f : Flit) : State :=
  let (dst, c) := match f with | .wr d _ => (d, 0) | .report d _ _ => (d, 1)
  let k := (hop at_ dst).1 * 4 + c
  { s with links := Tab.set [] s.links k (Tab.get [] s.links k ++ [f]) }

/-- A write under a mask at the home: a bound barrier breaks first, and the bits are merged over its image (R154, R383). -/
def State.homeMerge (s : State) (tid pa : Nat) (bytes mask : List Byte) : State :=
  let s := s.breakBar (lineOf pa)
  s.homeWrite tid pa (mergeBytes (Memory.readList s.mem pa bytes.length) bytes mask)

/-- A sequence number brought up to a floor that stands behind the writes in flight. -/
def agedSeq (floor n : BitVec 24) : BitVec 24 := if seqLe n floor then floor else n

/-- One entry of a clock or a stamp brought up. -/
def agedClock (t : Nat) (floor : BitVec 24) (v : Vector (BitVec 24) 4) : Vector (BitVec 24) 4 :=
  Vector.ofFn fun i => if i.val = t then agedSeq floor v[i] else v[i]

def Outw.aged (t : Nat) (floor : BitVec 24) (w : Outw) : Outw :=
  if w.src = t then w else { w with stamp := agedClock t floor w.stamp }
def Flit.aged (t : Nat) (floor : BitVec 24) : Flit → Flit
  | .wr d w => .wr d (w.aged t floor)
  | .report d src n => .report d src (if src = t then agedSeq floor n else n)
def Die.aged (t : Nat) (floor : BitVec 24) (d : Die) : Die :=
  { d with clock := agedClock t floor d.clock, applied := agedClock t floor d.applied
           out := d.out.map (·.aged t floor), inb := d.inb.map (·.aged t floor) }

/-- Every number of die `t` more than 2^21 behind its latest is brought up to there: its write has long been applied, since
at most 2^20 are not, and numbers compared modulo 2^24 stay unambiguous (R164; log entry 107). -/
def State.ageSeqs (s : State) (t : Nat) (seq : BitVec 24) : State :=
  if seq.toNat % 2 ^ 20 ≠ 0 then s
  else
    let floor := seq - BitVec.ofNat 24 (2 ^ 21)
    { s with
      dies := s.dies.map (·.aged t floor)
      links := s.links.map fun p => (p.1, p.2.map (·.aged t floor))
      stamps := s.stamps.map fun p => (p.1, (List.range p.2.length).map fun i =>
        if i = t then agedSeq floor (p.2.getD i 0) else p.2.getD i 0) }

/-- A write of an agent on a die within one line: at the home when the line is the die's own, otherwise into the die's
outbound buffer with its stamp and across the chain (R154, R163, R164). -/
def State.writeLine (s : State) (die tid pa : Nat) (bytes mask : List Byte) (org : Origin := {}) (last : Bool := false) : State :=
  let h := homeDie pa
  if h = die % 4 then (s.homeMerge tid pa bytes mask).stampLine (lineOf pa) (s.die die).clock
  else
    let d := s.die die
    let seq := d.nextSeq + 1
    let clock := d.clock.set (die % 4) seq (Nat.mod_lt _ (by decide))
    let w : Outw := { src := die % 4, tid, seq, addr := pa, bytes, mask, stamp := clock, org, last }
    ((s.setDie die { d with nextSeq := seq, clock, out := d.out ++ [w] }).sendFlit (die % 4) (.wr h w)).ageSeqs (die % 4) seq

/-- A write of an agent on a die, line by line. -/
def State.writeFrom (s : State) (die tid pa : Nat) (bytes : List Byte) : State :=
  (splitLines pa bytes).foldl (fun s p => s.writeLine die tid p.1 p.2 []) s

/-- Whether two runs of bytes overlap. -/
def overlaps (a n b m : Nat) : Bool := decide (a < b + m) && decide (b < a + n)

/-- Writes that only their core or their cluster sees, of the cores and clusters of a die. -/
def State.bufsOf (s : State) (die : Nat) : List Bufw :=
  ((s.cores.filter fun p => p.1 / 256 == die % 4).flatMap fun p => p.2.buf)
    ++ (s.clusters.filter fun p => p.1 / 8 == die % 4).flatMap fun p => p.2.buf

/-- Writes of a die to a location that have not performed at their home (R162). -/
def State.pendingTo (s : State) (die pa n : Nat) : Bool :=
  ((s.die die).out.any fun w => overlaps w.addr w.bytes.length pa n)
    || (s.bufsOf die).any fun w => overlaps w.addr w.bytes.length pa n

/-- Writes on their way to their homes that satisfy a test on their issuing thread and their origin. -/
def State.onWay (s : State) (tid : Nat) (f : Origin → Bool) : Bool :=
  (s.core (coreOf tid)).buf.any (fun w => w.tid == tid && f w.org)
    || (s.cluster (cluOf tid)).buf.any (fun w => w.tid == tid && f w.org)
    || (s.die (dieOf tid)).out.any fun w => w.tid == tid && f w.org

/-- Writes of a thread that have left its store buffer or its held words and that their home has not applied. -/
def State.outOf (s : State) (tid : Nat) : Bool := s.onWay tid fun _ => true

/-- Every write that the thread has made or seen, and that its store buffer does not hold, has performed at a scope: at clu
its core's buffer is empty, at die its cluster's too, at pkg and sys its die's outbound writes have been applied (R155,
R165). -/
def State.flushed (s : State) (tid scope : Nat) : Bool :=
  (decide (scope < 2) || (s.core (coreOf tid)).buf.isEmpty)
    && (decide (scope < 3) || (s.cluster (cluOf tid)).buf.isEmpty)
    && (decide (scope < 4) || (s.die (dieOf tid)).out.isEmpty)

/-! A write on its way: the thread's store buffer, the buffer that its core sees, the buffer that its cluster sees, then
its home, or its die's outbound buffer and the chain (R155, R156, R163, R166). -/

/-- A store-buffer entry may leave the buffer: no earlier entry overlaps it or stands behind a fence, and an entry behind a
fence waits until every write that the thread made or saw before has performed at sys (R156, R157). -/
def State.canPerform (s : State) (tid k : Nat) : Bool :=
  match (s.thread tid).sb[k]? with
  | none => false
  | some e =>
    !((s.thread tid).sb.take k).any (fun d => d.fence || overlaps d.addr d.bytes.length e.addr e.bytes.length)
      && (!e.fence || (k == 0 && s.flushed tid 5))

/-- A store-buffer entry leaves the thread: every thread of its core sees it; later entries of an SVFENCE move up. -/
def State.performStore (s : State) (tid k : Nat) : State :=
  match (s.thread tid).sb[k]? with
  | none => s
  | some e =>
    let s := s.updThread tid fun t =>
      { t with sb := t.sb.eraseIdx k, svMark := if k < t.svMark then t.svMark - 1 else t.svMark
               arrivals := t.arrivals.map fun a => if k < a.stores then { a with stores := a.stores - 1 } else a }
    s.updCore (coreOf tid) fun c =>
      { c with buf := c.buf ++ [{ tid, addr := e.addr, bytes := e.bytes, org := { va := e.va } }] }

/-- The oldest write of a core's buffer becomes visible to its cluster. -/
def State.promote (s : State) (core : Nat) : State :=
  match (s.core core).buf with
  | [] => s
  | w :: rest =>
    (s.updCore core fun c => { c with buf := rest }).updCluster (core / 32) fun c => { c with buf := c.buf ++ [w] }

/-- A write may go on to its home, or into its die's outbound buffer: nothing holds its line, its channel does not retrain,
and fewer than 2^20 writes of the die are unapplied (R52, R164, R169, R378). -/
def State.mayGo (s : State) (w : Bufw) : Bool :=
  !s.writeWaits (lineOf w.addr) w.tid && !s.windowHolds w.addr
    && (homeDie w.addr == dieOf w.tid || decide ((s.die (dieOf w.tid)).out.length < 2 ^ 20))

/-- Write back a line: it is clean from then on (R170). -/
def State.writeBack (s : State) (line : Nat) : State := { s with backing := Tab.set none s.backing line none }

/-- Cache policy 2 for a buffer. -/
def lastBuf (line : Nat) (l : List Bufw) : List Bufw := l.map fun w => if lineOf w.addr = line then { w with last := true } else w

/-- Cache policy 2 (R142): after the access a dirty line is written back; a write that is still on its way to its home
carries the policy along. -/
def State.lastUse (s : State) (line : Nat) : State :=
  if (List.range 4).any fun d => s.pendingTo d (line * 64) 64 then
    { s with
      dies := s.dies.map fun d =>
        { d with out := d.out.map fun w => if lineOf w.addr = line then { w with last := true } else w }
      cores := s.cores.map fun p => (p.1, { p.2 with buf := lastBuf line p.2.buf })
      clusters := s.clusters.map fun p => (p.1, { p.2 with buf := lastBuf line p.2.buf }) }
  else s.writeBack line

/-- The oldest write of a cluster's buffer goes on: to its home on the die, or into the die's outbound buffer. -/
def State.apply (s : State) (clu : Nat) : State :=
  match (s.cluster clu).buf with
  | [] => s
  | w :: rest =>
    if !s.mayGo w then s
    else
      let s := (s.updCluster clu fun c => { c with buf := rest }).writeLine (dieOf w.tid) w.tid w.addr w.bytes w.mask w.org w.last
      if w.last && homeDie w.addr == dieOf w.tid then s.lastUse (lineOf w.addr) else s

/-- A byte as the thread itself sees it: its store buffer's latest entry first (R156). -/
def State.byteOf (s : State) (tid pa : Nat) : Byte :=
  (s.thread tid).sb.foldl (fun b e =>
    if e.addr ≤ pa ∧ pa < e.addr + e.bytes.length then e.bytes.getD (pa - e.addr) b else b) (s.viewByte (coreOf tid) pa)

/-- Bytes as the thread itself sees them. -/
def State.bytesOf (s : State) (tid pa : Nat) : Nat → List Byte
  | 0 => []
  | n + 1 => s.byteOf tid pa :: s.bytesOf tid (pa + 1) n

/-- All earlier accesses of the thread have performed at a scope: its store buffer is empty, and what it made or saw has
reached that scope (R155, R157, R165, R373). -/
def State.quiet (s : State) (tid scope : Nat) : Bool :=
  scope = 0 || ((s.thread tid).sb.isEmpty && s.flushed tid scope)

/-- DISCARD of a line at its home: a write of the whole line with its backing value, which a clean line's own value is (R170,
R383). -/
def State.discard (s : State) (tid line : Nat) : State :=
  let v := (Tab.get none s.backing line).getD (s.lineVal line)
  let pz := s.poison.contains line
  let s := (s.homeWrite tid (line * 64) (leBytes 64 v.toNat)).writeBack line
  if pz then { s with poison := line :: s.poison.erase line } else s

/-! Outstanding writes that a failure stops (R21, R53). -/

/-- How far a die's writes are applied without a gap, and the numbers applied beyond it. -/
def advanceSeq : Nat → BitVec 24 → List (BitVec 24) → BitVec 24 × List (BitVec 24)
  | 0, n, l => (n, l)
  | k + 1, n, l => if l.contains (n + 1) then advanceSeq k (n + 1) (l.erase (n + 1)) else (n, l)

/-- The source die learns that its write has been applied. -/
def Die.ackWrite (d : Die) (i : Nat) (seq : BitVec 24) : Die :=
  let l := d.doneSeq ++ [seq]
  let r := advanceSeq l.length (d.applied[i % 4]'(Nat.mod_lt _ (by decide))) l
  { d with out := d.out.filter (fun w => w.seq != seq), doneSeq := r.2
           applied := d.applied.set (i % 4) r.1 (Nat.mod_lt _ (by decide)) }

/-- What stops an access of a thread to some bytes at their home (R21, R53, R55): a reason with its flag bits. -/
def State.elemBad (s : State) (tid : Nat) (reads : Bool) (pas : List Nat) : Option Nat :=
  pas.findSome? fun pa => (s.homeErr (dieOf tid) reads pa).map fun e => (XErr.home 0 e).code + e.flag

/-- Access fault of a scalar access (R15, R21, R55). -/
def accessInfo (pa : Nat) (mem link : Bool) : Word :=
  word (pa % 2 ^ 46 + 2 ^ 62 * b2n mem + 2 ^ 63 * b2n link)

/-- VECTOR_ACCESS found at the home after the convoy has retired (R323): element number, address, address of the convoy. -/
def Thread.homeTrap (t : Thread) (bad i : Nat) (va addr : Word) : Thread :=
  { t with
    frozen := true
    convTrap := some { cause := 25, tval := va, info := word (bad + 2 ^ 61 + 2 ^ 8 * (addr.toNat % 2 ^ 48)) }
    csr := { t.csr with ffst := BitVec.ofNat 40 (i % 2 ^ 32 + 2 ^ 32 * (bad % 8)) } }

/-- A scalar store that has issued completes with the access fault of R15: a trap that its thread takes at its next
instruction (log entry 76). -/
def lateFault (va : Word) (pa : Nat) (e : HomeErr) : Trap :=
  { cause := 7, tval := va, info := accessInfo pa (e == .mem) (e == .link), due := true }

/-- Elements join a held word, in element order. -/
def Held.join (h : Held) (es : List Elem) : Held :=
  let i := (es.head?.map Elem.idx).getD 0
  { h with elems := (h.elems.filter fun e => decide (e.idx < i)) ++ es ++ h.elems.filter fun e => decide (i ≤ e.idx) }

/-- An element whose write was stopped on its way has not performed: it stands in its held word again, which raises its fault
as it tries to perform (R323). -/
def Thread.heldAgain (t : Thread) (o : Origin) (last : Bool) (x : Elem) : Thread :=
  { t with held :=
      if t.held.any (·.id == o.word) then t.held.map fun h => if h.id = o.word then h.join [x] else h
      else { id := o.word, addr := o.addr, ord := false, ovt := !o.hold, scope := 0, atomic := false, elems := [x], last } :: t.held }

/-- What becomes of a write that a failure stops and that has left its thread: a scalar store's fault, or an element held
again. -/
def Thread.failWrite (t : Thread) (pa : Nat) (bytes mask : List Byte) (o : Origin) (last : Bool) (e : HomeErr) : Thread :=
  if !t.present then t
  else if o.word = 0 then { t with engTraps := t.engTraps ++ [lateFault o.va pa e] }
  else t.heldAgain o last { idx := o.idx, va := o.va, pas := (List.range bytes.length).map (pa + ·), mask, bytes }

/-- The store-buffer entries that a failure stops leave the buffer with their faults. -/
def Thread.failStores (t : Thread) (bad : Nat → Option HomeErr) : Thread :=
  let hit (e : PendStore) : Bool := (bad e.addr).isSome
  let fewer (n : Nat) : Nat := n - ((t.sb.take n).filter hit).length
  let t' := { t with sb := t.sb.filter (fun e => !hit e), svMark := fewer t.svMark
                     arrivals := t.arrivals.map fun a => { a with stores := fewer a.stores } }
  t.sb.foldl (fun (t : Thread) e => match bad e.addr with
    | some x => t.failWrite e.addr [] [] { va := e.va } false x
    | none => t) t'

/-- An engine's write cannot reach its home: its operation ends with ENGINE_ASYNC, local reason 3 or 4 (R337). -/
def Op.failWrite (o : Op) (va : Word) (e : HomeErr) : Op :=
  match o.op with
  | .posting c tile none fl =>
    let info := 256 * (XErr.home 0 e).code + e.flag + (match tile with | some i => 2 ^ 16 * (i % 64) | none => 0)
    { o with op := .posting c tile (some { cause := 51, tval := va, info := word info, names := tile.toList }) fl }
  | _ => o

/-- What becomes of a write that a failure stops, whose agent is a thread, an operation in flight or a connection. -/
def State.failWrite (s : State) (w : Bufw) (e : HomeErr) : State :=
  let agent := w.tid
  if agent < noThread then s.updThread agent fun t => t.failWrite w.addr w.bytes w.mask w.org w.last e
  else if 2 ^ 21 ≤ agent then
    match Tab.get none s.ops (agent - 2 ^ 21) with
    | some x => { s with ops := Tab.set none s.ops (agent - 2 ^ 21) (some (x.failWrite w.org.va e)) }
    | none => s
  else { s with port := { s.port with conns := Tab.upd {} s.port.conns (agent - connAgent 0) fun k => { k with lost := true } } }

/-- An outbound write as its thread's core saw it. -/
def Outw.buf (w : Outw) : Bufw := { tid := w.tid, addr := w.addr, bytes := w.bytes, mask := w.mask, org := w.org, last := w.last }

/-- An outbound write of a die has not arrived at its home's die. -/
def State.onThisSide (s : State) (d : Nat) (w : Outw) : Bool :=
  !(s.die (homeDie w.addr)).inb.any fun x => x.src == d && x.seq == w.seq

/-- Every write on its way that a failure stops leaves its buffer and completes with its fault or is held again; `bad` tells by die and
address which, and `home` whether a write that waits at its home is one of them (R21, R53). -/
def State.failWrites (s : State) (bad : Nat → Nat → Option HomeErr) (home : Bool := false) : State :=
  let s : State := { s with threads := s.threads.map fun p => (p.1, p.2.failStores (bad (dieOf p.1))) }
  let out (d : Nat) : List Outw := (s.die d).out.filter fun w => (home || s.onThisSide d w) && (bad d w.addr).isSome
  let lost : List (Bufw × HomeErr) := (List.range 4).flatMap fun d =>
    (s.bufsOf d ++ (out d).map Outw.buf).filterMap fun w => (bad d w.addr).map fun e => (w, e)
  let keep (d : Nat) (l : List Bufw) : List Bufw := l.filter fun w => (bad d w.addr).isNone
  let s : State := { s with
    cores := s.cores.map fun p => (p.1, { p.2 with buf := keep (p.1 / 256) p.2.buf })
    clusters := s.clusters.map fun p => (p.1, { p.2 with buf := keep (p.1 / 8) p.2.buf })
    dies := Vector.ofFn fun i =>
      let d := (out i.val).foldl (fun d w => d.ackWrite i.val w.seq) s.dies[i]
      { d with inb := d.inb.filter fun w => !(home && (bad w.src w.addr).isSome) } }
  lost.foldl (fun (s : State) x => s.failWrite x.1 x.2) s

end Sys2Proof.Machine
end

