-- ==== Sys2Proof/Machine/Start.lean ====
section
/-! DEFINITION. Starting, calibration and health (R24, R25, R44 to R65): the start sequences, safe mode, clocks, memory
retraining, memory and scratchpad errors, the Ethernet link, loss of power. -/

namespace Sys2Proof.Machine

/-- The number an operand of the event gives. -/
abbrev State.evN (s : State) : Nat := s.ev.value.toNat

/-- Campanile's storage as a list of (offset, byte) (R430). -/
def Campanile.bytes (c : Campanile) (off n : Nat) : List Byte := Memory.readList c.store off n

/-- What survives loss of power: the storage, the fuses, the retirement lists, the stored CAK and the entry number of
the black box, which is never reset (R57, R59, R61, R64, R430). -/
def Campanile.cold0 (c : Campanile) : Campanile :=
  { store := c.store, minSvn := c.minSvn, lanes := c.lanes, cak := c.cak, bbSeq := c.bbSeq }

/-- A measurement register after one digest has been extended into it (R62); a digest is SHAKE256 of what is measured. -/
def extend (m : BitVec 512) (body : List Byte) : BitVec 512 :=
  shake256 (leBytes 64 m.toNat ++ leBytes 64 (shake256 body).toNat)

/-- The contents of a firmware slot, 0 or 1 (R430). -/
def Campanile.slot (c : Campanile) (k : Nat) : List (Nat × Byte) :=
  (c.store.filter fun p => p.1 / 0x8000000 == k).map fun p => (p.1 % 0x8000000, p.2)

/-- The context string of a firmware signature, "Linmal-VRD-fw" (R61). -/
def fwContext : List Byte := [76, 105, 110, 109, 97, 108, 45, 86, 82, 68, 45, 102, 119]

/-- The checks of R61 on an image: its signature over SHAKE256 of its body, its key against the fused KEYHASH, its SVN. -/
def Campanile.imageOk (c : Campanile) (i : Config.Image) : Bool :=
  edVerify i.key fwContext (shakeBytes 64 i.body) i.sig && leNat (shakeBytes 32 i.key) == Config.keyHash.toNat
    && decide (c.minSvn.toNat ≤ i.svn.toNat)

/-- The image of a slot, if the boot ROM takes it (R61). -/
def Campanile.imageOf (c : Campanile) (k : Nat) : Option Config.Image := (Config.image (c.slot k)).filter c.imageOk

/-- Step 3: the image of slot A, or else of slot B, is verified and copied, measurements are taken, and the stored
configuration is loaded (R61, R62, R430); none when neither slot verifies. -/
def State.loadFirmware (s : State) : Option State :=
  let c := s.camp
  let take (k : Nat) (i : Config.Image) : State :=
    let conf := c.bytes 0x10000000 4096
    let img := c.slot k
    let meas : Vector (BitVec 512) 3 := #v[extend 0 (Config.imageBody 0 img),
      extend (extend 0 (Config.imageBody 1 img)) conf, extend 0 (Config.imageBody 2 img)]
    { s with
      camp := { c with svn := i.svn, meas, minSvn := if i.commit then i.svn else c.minSvn }
      port := { s.port with
        addr := BitVec.ofNat 128 (leNat (conf.take 16))
        msreq := bitOf (conf.getD 16 0).toNat 0, msen := bitOf (conf.getD 16 0).toNat 1 } }
  match c.imageOf 0, c.imageOf 1 with
  | some i, _ => some (take 0 i)
  | none, some i => some (take 1 i)
  | none, none => none

/-- A write that was on its way to its home when its task was aborted lands (R46). -/
def State.land (s : State) (pa : Nat) (bytes mask : List Byte) : State :=
  s.homeWrite noThread pa (mergeBytes (Memory.readList s.mem pa bytes.length) bytes mask)

/-- Every start aborts the gangs without a save, empties the queues, resets the registers and closes every connection
(R45, R30, R66, R139). Warm starts keep lane maps; writes on their way to their homes land (R46). -/
def State.abortAll (s : State) : State :=
  let s := (s.dies.toList.flatMap (·.out)).foldl (fun s w => s.land w.addr w.bytes w.mask) s
  let s := ((s.clusters.flatMap fun p => p.2.buf) ++ s.cores.flatMap fun p => p.2.buf).foldl
    (fun s w => s.land w.addr w.bytes w.mask) s
  let fresh (d : Die) : Die := { hot := d.hot, stopIss := d.stopIss, throttle := d.throttle }
  { s with
    threads := []
    cores := s.cores.map fun p => (p.1, { retired := p.2.retired, marked := p.2.marked, mapVer := p.2.mapVer,
                                          rows := p.2.rows, tgt := p.2.tgt, eff := p.2.eff, droop := p.2.droop })
    clusters := [], links := [], dead := [], ops := [], bars := []
    deferred := [], saves := [], queues := [], act := {}, stamps := []
    dies := s.dies.map fresh
    belfry := { nextRec := s.belfry.nextRec }
    port := { link := s.port.link, wire := s.port.wire, msec := s.port.msec, key := s.port.key } }

/-- Step 8: memory zeroed; what the units knew of structures in it is gone. -/
def State.zeroMemory (s : State) : State :=
  { s with mem := [], backing := [], poison := [], seqs := [], btab := [], frames := [], pools := [], tables := [] }

/-- A lane joins the list of retired lanes of a bank. -/
def Core.retireLane (c : Core) (bank lane : Nat) : Core :=
  { c with retired := Tab.upd [] c.retired bank fun l => l.filter (· < lane) ++ [lane] ++ l.filter (lane < ·) }

/-- A retired lane enters Campanile's stored list of its die, unless the list is full (R57). -/
def Campanile.listLane (c : Campanile) (e : Nat × Nat × Nat) : Campanile :=
  let l := Tab.get [] c.lanes (e.1 / 256)
  if l.contains e ∨ 256 ≤ l.length then c else { c with lanes := Tab.set [] c.lanes (e.1 / 256) (l ++ [e]) }

/-- Step 9: the lane maps, built from the stored retirement lists and the lanes that the self-test marks (R57); the
scratchpad is overwritten. That the self-test's lanes enter the map at once, with no black-box entry and no new lane map
version, and that marks from before a cold start are dropped, is this model's choice (log entry 111). -/
def State.buildMaps (s : State) (marks : List (Nat × Nat × Nat)) : State :=
  let es : List (Nat × Nat × Nat) := s.camp.lanes.flatMap (·.2) ++ marks
  let s : State := { s with
    camp := marks.foldl Campanile.listLane s.camp
    cores := s.cores.map fun p => (p.1, { p.2 with retired := [], marked := [], rows := [] }) }
  es.foldl (fun s e => s.updCore e.1 fun c => c.retireLane e.2.1 e.2.2) s

/-- Every bank has at least 2,048 - 512 usable lanes (R44 step 9). -/
def State.mapsGood (s : State) : Bool :=
  s.cores.all fun p => p.2.retired.all fun b => decide (2048 - 512 ≤ p.2.usable b.1)

/-- Step 10: every link trains and every adjacency comes up with its 8 modules, those removed before included (R18, R20,
R22; log entry 78). -/
def State.trainLinks (s : State) : State :=
  { s with dies := Vector.ofFn fun i =>
      { s.dies[i] with
        lnkLo := if i.val = 0 then 0 else 2, modLo := if i.val = 0 then 0 else 8
        lnkHi := if i.val = 3 then 0 else 2, modHi := if i.val = 3 then 0 else 8 } }

/-- A start that was asked for still has to follow one that begins: a MANAGE RESET, or a cold start behind a warm one (R45,
R53, R64; log entry 80). -/
def StartAsk.outlasts (a : StartAsk) (warm : Bool) : Bool := a.cause == 1 || (warm && !a.warm)

/-- A start begins (R45): black-box entry, DEVST, measurements cleared. -/
def State.beginStart (s : State) (warm : Bool) (cause : Nat) : State :=
  let s := s.abortAll
  let s := { s with camp := { s.camp with
    ready := false, safe := false, warm, cause := BitVec.ofNat 4 cause, step := 1, tripped := false
    reset := s.camp.reset.filter (·.outlasts warm)
    cold := if warm then s.camp.cold else s.now, meas := Vector.replicate 3 0 } }
  s.blackBox (if warm then 2 else 1) 0 0 (word cause) 0

/-- The ready flag is set (R44 steps 11 and 12). The clocks run from their PLLs' lock on; before it they are 0 (R44, R51; log
entry 81). -/
def State.becomeReady (s : State) (env : StartEnv) : State :=
  let s := { s with
    clocks := [{ upto := s.now, dies := [0, 0, 0, 0] }]
    port := { s.port with link := if env.link then 2 else 1 }
    camp := { s.camp with ready := true, step := 12, wfail := 0, cfail := 0, keep := false } }
  s.blackBox 3 0 0 env.micros 0

/-- Steps that a start runs and that can fail (R44): 2, 7 and 9 only a cold start runs, 8 every one but a warm start that
keeps memory; 11 and 12 never fail. -/
def stepRuns (warm keep : Bool) (k : Nat) : Bool :=
  decide (1 ≤ k) && decide (k ≤ 10) && !(warm && (k == 2 || k == 7 || k == 9)) && !(warm && keep && k == 8)

/-- One step of a start, none when what it finds makes it fail. -/
def State.startStep (s : State) (warm : Bool) (env : StartEnv) (k : Nat) : Option State :=
  if !stepRuns warm s.camp.keep k then some s
  else match k with
    | 3 => s.loadFirmware
    | 8 => some s.zeroMemory
    | 9 => let t := s.buildMaps env.marks; if t.mapsGood then some t else none
    | 10 => some s.trainLinks
    | _ => some s

/-- Some steps of a start in order, all or up to the first that fails, with its status. -/
def State.runSteps (warm : Bool) (env : StartEnv) : List Nat → State → State × Option (Nat × Word)
  | [], s => (s, none)
  | k :: ks, s =>
    let t := { s with camp := { s.camp with step := BitVec.ofNat 4 k } }
    match env.attempts with
    | some (k', status) :: _ =>
      if k' = k ∧ stepRuns warm s.camp.keep k then (t, some (k, status))
      else match t.startStep warm env k with
        | some u => State.runSteps warm env ks u
        | none => (t, some (k, 0))
    | _ => match t.startStep warm env k with
        | some u => State.runSteps warm env ks u
        | none => (t, some (k, 0))

/-- A start has failed at a step (R47): a black-box entry, the count of its kind, which stays at 3 (log entry 77), and the
kind of the next attempt: a third failed warm start is followed by a cold one, a third failed cold start by safe mode. -/
def State.failStart (s : State) (warm : Bool) (k : Nat) (status : Word) : State × Option Bool :=
  let s := s.blackBox 4 0 0 (word k) status
  let n := min 3 ((if warm then s.camp.wfail else s.camp.cfail).toNat + 1)
  if warm then
    ({ s with camp := { s.camp with wfail := BitVec.ofNat 2 n } }, some (decide (n < 3)))
  else if n < 3 then ({ s with camp := { s.camp with cfail := BitVec.ofNat 2 n } }, some false)
  else (({ s with camp := { s.camp with cfail := 3, safe := true, reset := s.camp.reset.filter (·.cause == 1) } }).blackBox
    5 0 0 0 0, none)

/-- The steps after the pre-heat step. -/
def lateSteps : List Nat := [3, 4, 5, 6, 7, 8, 9, 10]

/-- The attempts of a start: each begins, waits at step 2 when a cold one needs pre-heat (R49), and reaches the ready flag or
fails (R44, R47). -/
def attemptStart : Nat → Bool → Nat → StartEnv → State → State
  | 0, _, _, _, s => s
  | fuel + 1, warm, cause, env, s =>
    let heats := !warm && env.cold
    match State.runSteps warm env (1 :: if heats then [] else lateSteps) (s.beginStart warm cause) with
    | (s, none) => if heats then { s with camp := { s.camp with step := 2, env, heatAt := s.now } } else s.becomeReady env
    | (s, some (k, status)) =>
      match s.failStart warm k status with
      | (s, none) => s
      | (s, some w) => attemptStart fuel w (if w = warm then cause else 4) { env with attempts := env.attempts.drop 1 } s

/-- A start that waited for pre-heat goes on with step 3. The scratchpad's contents, undefined from here on, are overwritten
by step 9 before anything can read them. -/
def State.resumeStart (s : State) : State :=
  let env := { s.camp.env with cold := false }
  match State.runSteps false env lateSteps s with
  | (s, none) => s.becomeReady env
  | (s, some (k, status)) =>
    match s.failStart false k status with
    | (s, none) => s
    | (s, some _) => attemptStart 4 false s.camp.cause.toNat { env with attempts := env.attempts.drop 1 } s

/-- Pre-heat has not warmed the stacks: step 2 fails, and the next attempt waits at it again (R47, R49). -/
def State.heatFailed (s : State) : State :=
  match s.failStart false 2 0 with
  | (s, none) => s
  | (s, some _) => attemptStart 4 false s.camp.cause.toNat { s.camp.env with attempts := s.camp.env.attempts.drop 1 } s

/-- Whether a cold start waits at the pre-heat step; a thermal trip ends pre-heat (R25). -/
def State.preheating (s : State) : Bool :=
  s.camp.power && !s.camp.ready && !s.camp.safe && !s.camp.tripped && s.camp.step == 2

/-- Tasks may run: power, ready, no safe mode, no thermal trip (R25, R44, R48). -/
def State.serving (s : State) : Bool := s.camp.power && s.camp.ready && !s.camp.safe && !s.camp.tripped

/-- Ask for a start: it begins at its START_BEGIN (R45, R64). In safe mode only a MANAGE RESET is taken (R48). A start of the
same cause and kind that waits already is not asked for twice; others wait beside it (log entry 80). -/
def State.askStart (s : State) (a : StartAsk) : State :=
  if a.cause ≠ 1 ∧ (s.camp.safe ∨ s.camp.reset.any fun b => b.cause == a.cause && b.warm == a.warm) then s
  else { s with camp := { s.camp with reset := s.camp.reset ++ [a] } }

/-- POWER_ON (R44): power is applied and a cold start runs. -/
def execPowerOn (s : State) : Out :=
  if s.camp.power then .next s
  else
    let s0 := { s with camp := { s.camp.cold0 with power := true }, now := 0 }
    .next (attemptStart 8 false 0 s.ev.env s0)

/-- A start asked for may begin: after a thermal trip only the one that recovery asks for (R25), and in safe mode only a MANAGE
RESET's (R48), which begins once its
completion has been sent, and acknowledged or sent for 1 ms (R64). A connection that is no longer open holds nothing back. -/
def State.mayStart (s : State) (a : StartAsk) : Bool :=
  s.camp.power && (!s.camp.tripped || a.cause == 3) && (!s.camp.safe || a.cause == 1) &&
    match a.by_ with
    | none => true
    | some (c, tag) =>
      let k : Conn := Tab.get {} s.port.conns c
      let of_ (p : Packet) : Bool := p.typ == 4 && p.tag == tag
      k.st != .opened
        || (!k.waiting.any of_ && (!(k.unacked.any fun u => of_ u.pkt) || decide (a.at_ + 100000 ≤ s.now)))

/-- START_BEGIN (R45, R64, R65): the first start asked for that may begin does. -/
def execStartBegin (s : State) : Out :=
  match s.camp.reset.find? s.mayStart with
  | none => .next s
  | some a =>
    .next (attemptStart 8 a.warm a.cause s.ev.env
      { s with camp := { s.camp with keep := a.keep, reset := s.camp.reset.erase a } })

/-- 90 s of the 100 MHz reference (R49, R50). -/
def heatBound : Nat := 9000000000

/-- PRE_HEAT_DONE (R49): every stack reads at least 0 °C, and the start continues; after 90 s the step has failed. -/
def execPreHeatDone (s : State) : Out :=
  if s.preheating then .next (if s.camp.heatAt + heatBound < s.now then s.heatFailed else s.resumeStart) else .next s

/-- PRE_HEAT_TIMEOUT (R49): 90 s have passed, and step 2 fails. -/
def execPreHeatTimeout (s : State) : Out :=
  if s.preheating && decide (s.camp.heatAt + heatBound ≤ s.now) then .next s.heatFailed else .next s

/-- ETHERNET_LINK_UP (R44 step 11): link training completes and DEVST.LINK rises. -/
def execEthernetLinkUp (s : State) : Out :=
  if s.camp.power then .next { s with port := { s.port with link := 2 } } else .next s

/-- ETHERNET_LINK_DOWN (R43): the link is lost (down), or the cage module is removed (fault). -/
def execEthernetLinkDown (s : State) : Out :=
  .next { s with port := { s.port with link := if s.ev.up then 3 else 0 } }

/-- The clock of a core's target less power cap and thermal throttle, never below 1,600 MHz (R24, R25, R51). -/
def State.target (s : State) (c : Nat) : Nat :=
  max 1600 ((s.core c).tgt.toNat - (s.die (c / 256)).throttle - s.camp.cut)

/-- The clock of a core now, a droop's stretches included (R50). -/
def State.clockNow (s : State) (c : Nat) : Nat :=
  let t := s.target c
  if (s.core c).droop then min (s.core c).eff.toNat t else t

/-- 10 µs of the 100 MHz reference (R50, R51). -/
def effSpan : Nat := 1000

/-- The clocks are about to change: the stretch up to now is kept as long as EFF averages over it (R51). -/
def State.noteClocks (s : State) : State :=
  { s with clocks :=
      { upto := s.now, dies := (List.range 4).map fun d => max 1600 (2100 - (s.die d).throttle - s.camp.cut)
        cores := s.cores.map fun p => (p.1, s.clockNow p.1) } :: s.clocks.takeWhile fun k => s.now < k.upto + effSpan }

/-- The clock of a core in a stretch that has ended. -/
def Clocks.of (k : Clocks) (c : Nat) : Nat := Tab.get (k.dies.getD (c / 256 % 4) 0) k.cores c

/-- The sum over the time from `lo` to `hi` of a core's clock, which is `f` after the latest of some stretches. -/
def clockSum (c lo : Nat) : List Clocks → Nat → Nat → Nat
  | [], hi, f => f * (hi - lo)
  | k :: ks, hi, f =>
    if k.upto ≤ lo then f * (hi - lo) else f * (hi - k.upto) + clockSum c lo ks (min hi k.upto) (k.of c)

/-- The clock of a core averaged over the last 10 µs (R51). -/
def State.meanClock (s : State) (c : Nat) : Nat := clockSum c (s.now - effSpan) s.clocks s.now (s.clockNow c) / effSpan

/-- THERMAL_THROTTLE (R25): at 105 °C the die's clock goes down one 50 MHz step, and then at each reading until one is below
100 °C, down to 1.6 GHz. The spec does not say how the clock returns: the model drops the whole throttle at that reading
(log entry 79). The operand is the temperature in 0.1 °C. -/
def execThermalThrottle (s : State) : Out :=
  let old := (s.die s.ev.die).throttle
  let s := s.noteClocks
  if 1050 ≤ s.evN ∨ (old ≠ 0 ∧ 1000 ≤ s.evN) then
    .next ((s.updDie s.ev.die fun d => { d with throttle := min 700 (d.throttle + 50) }).blackBox 0x32
      (s.ev.die * 2048) 0 (word s.ev.unit) s.ev.value)
  else if s.evN < 1000 then .next (s.updDie s.ev.die fun d => { d with throttle := 0 })
  else .next s

/-- HBM_REFRESH_DOUBLE (R25): a stack at 85 °C and above doubles its refresh rate; below, it refreshes at the plain rate. The
operand is the temperature in 0.1 °C. -/
def execHbmRefreshDouble (s : State) : Out :=
  let bit : BitVec 2 := 1#2 <<< (s.ev.unit % 2)
  .next (s.updDie s.ev.die fun d => { d with hot := if 850 ≤ s.evN then d.hot ||| bit else d.hot &&& ~~~bit })

/-- HBM_STOP_ISSUE (R25): a stack at 95 °C: no new tasks on its die. -/
def execHbmStopIssue (s : State) : Out :=
  .next (s.updDie s.ev.die fun d => { d with stopIss := d.stopIss ||| (1#2 <<< s.ev.unit % 2) })

/-- HBM_ISSUE_RESUME (R25): the stack is below 90 °C. -/
def execHbmIssueResume (s : State) : Out :=
  .next (s.updDie s.ev.die fun d => { d with stopIss := d.stopIss &&& ~~~(1#2 <<< s.ev.unit % 2) })

/-- THERMAL_TRIP (R25): all dies halt at once without saving; a black-box entry; only management is served. -/
def execThermalTrip (s : State) : Out :=
  if s.camp.power && !s.camp.tripped then
    .next ({ s with camp := { s.camp with tripped := true } }.blackBox 0x31 0 0 (word s.ev.unit) s.ev.value)
  else .next s

/-- THERMAL_RECOVERY (R25): every die and stack reads below 90 °C: a cold start follows; in safe mode, which only a MANAGE
RESET leaves, the module goes back to serving management (R48; log entry 80). -/
def execThermalRecovery (s : State) : Out :=
  if !s.camp.tripped then .next s
  else if s.camp.safe then .next { s with camp := { s.camp with tripped := false } }
  else .next (s.askStart { cause := 3, warm := false, keep := false })

/-- POWER_CAP_ADJUST (R24): the arithmetic clock goes down or up by the operand, never below 1,600 MHz. -/
def execPowerCapAdjust (s : State) : Out :=
  .next { s.noteClocks with camp := { s.camp with
    cut := if s.ev.up then s.camp.cut - s.evN else min 700 (s.camp.cut + s.evN) } }

/-- DROOP_DETECTED (R50): the core's cycles stretch, and its effective clock falls to the operand. -/
def execDroopDetected (s : State) : Out :=
  .next (s.noteClocks.updCore s.ev.core fun c => { c with droop := s.ev.up, eff := BitVec.ofNat 12 s.evN })

/-- TARGET_FREQ_ADJUST (R50): one 25 MHz step within 1.6 to 2.3 GHz. -/
def execTargetFreqAdjust (s : State) : Out :=
  .next (s.noteClocks.updCore s.ev.core fun c =>
    { c with tgt := if s.ev.up then BitVec.ofNat 12 (min 2300 (c.tgt.toNat + 25))
                    else BitVec.ofNat 12 (max 1600 (c.tgt.toNat - 25)) })

/-- RETRAIN_WINDOW_OPEN (R52): one channel of a die at a time. -/
def execRetrainWindowOpen (s : State) : Out :=
  if (s.die s.ev.die).window.isNone then .next (s.updDie s.ev.die fun d => { d with window := some s.ev.unit })
  else .next s

/-- RETRAIN_WINDOW_CLOSE (R52): the held requests perform, RTCNT counts the window and RTRETRY its retries. -/
def execRetrainWindowClose (s : State) : Out :=
  if (s.die s.ev.die).window.isSome then
    .next (s.updDie s.ev.die fun d =>
      { d with window := none, rtcnt := satAdd16 d.rtcnt 1, rtretry := satAdd16 d.rtretry s.ev.idx })
  else .next s

/-- Writes to a failed channel of a die complete with the memory error of R53. -/
def failedChannel (die ch : Nat) (_ pa : Nat) : Option HomeErr :=
  if homeDie pa = die % 4 ∧ channelOf pa ch then some .mem else none

/-- RETRAIN_FAILED (R53): every retry failed: accesses outstanding to the channel fault, a black-box entry is written, and a
cold start with cause 5 follows. Until it begins, accesses that reach the channel fault too. -/
def execRetrainFailed (s : State) : Out :=
  match (s.die s.ev.die).window with
  | none => .next s
  | some ch =>
    let s1 := s.updDie s.ev.die fun d =>
      { d with rtretry := satAdd16 d.rtretry 3, window := none, failed := some ch }
    .next (((s1.failWrites (failedChannel s.ev.die ch) true).blackBox 0x20 (s.ev.die * 2048) 3 (word ch) 3).askStart
      { cause := 5, warm := false, keep := false })

/-- UNCORRECTABLE_MEMORY_ERROR (R55, R143): a read from HBM4 or LP6, or from a dirty L2 line, poisons the line at its home and
a black-box entry holds its address; a clean L2 line (operand: the error is in L2) is refetched. -/
def execUncorrectableMemoryError (s : State) : Out :=
  let l := lineOf s.ev.addr
  if !inMemory s.ev.addr 1 ∨ (s.ev.up ∧ Tab.get none s.backing l = none) then .next s
  else .next ({ s with poison := l :: s.poison.erase l }.blackBox 0x21 (homeDie s.ev.addr * 2048) 3 (word s.ev.addr) 0)

/-- mtrapx of LANE_ERROR (R56). -/
def laneInfo (bank lane row : Nat) : Word := word (bank % 64 + 64 * (lane % 4096) + 2 ^ 18 * (row % 512))

/-- Mark a physical lane for retirement (R56, R294). -/
def Core.mark (c : Core) (bank lane : Nat) : Core :=
  { c with marked := Tab.upd [] c.marked bank fun l => if l.contains lane then l else l ++ [lane] }

/-- The threads whose context holds a bank of a core. -/
def State.holders (s : State) (core bank : Nat) : List Nat :=
  (s.threads.filter fun p => p.2.present && coreOf p.1 == core && (ctxBanks p.2.csr.vctx).contains bank).map (·.1)

/-- A black-box entry's count goes up by one (R56, R59); `n` is its SEQ. -/
def State.countEntry (s : State) (n : Nat) : State :=
  let e : Nat := n % 4096
  { s with camp := { s.camp with bb := Tab.upd 0 s.camp.bb e fun b => b + (1 <<< 192) } }

/-- The place of entry SEQ in the ring: entries are written one at a time, so they lie in order below BBHEAD. -/
def Campanile.placeOf (c : Campanile) (seq : Nat) : Nat := (c.bbHead.toNat + 4096 - (c.bbSeq.toNat - seq)) % 4096

/-- A transient soft error of a bank (R56): SECORR counts it, and a black-box entry holds it, at most one for each bank in
1 ms; a further error in that time adds to the entry's count. That the entry's source is the memory controller is this model's choice
(log entry 112). -/
def State.transient (s : State) (core bank : Nat) (info : Word) : State :=
  let s := s.updDie (core / 256) fun d => { d with secorr := satAdd16 d.secorr 1 }
  match Tab.get none (s.core core).soft bank with
  | some (at_, seq) =>
    if s.now < at_ + 100000 ∧ s.camp.bbSeq.toNat - seq ≤ 4096 then s.countEntry (s.camp.placeOf seq)
    else (s.updCore core fun c => { c with soft := Tab.set none c.soft bank (some (s.now, s.camp.bbSeq.toNat)) }).blackBox
      0x11 ((core % 1024) * 8) 3 info 1
  | none => (s.updCore core fun c => { c with soft := Tab.set none c.soft bank (some (s.now, s.camp.bbSeq.toNat)) }).blackBox
      0x11 ((core % 1024) * 8) 3 info 1

/-- SCRATCHPAD_SOFT_ERROR (R56), by the four rows of its table; a double-bit error concerns the lanes of both bits. -/
def execScratchpadSoftError (s : State) : Out :=
  let e := s.ev
  let info := laneInfo e.bank e.lane e.row
  match e.soft with
  | .singleTransient | .doubleTransient => .next (s.transient e.core e.bank info)
  | .singleHard =>
    let s := s.updCore e.core (·.mark e.bank e.lane)
    .next ((s.holders e.core e.bank).foldl (fun s tid => s.updThread tid fun t =>
      { t with laneTraps := t.laneTraps ++ [{ cause := 49, tval := 0, info }] }) s)
  | .doubleHard =>
    let s := s.updCore e.core fun c => (c.mark e.bank e.lane).mark e.bank e.idx
    let bad := s.free
    let s := (s.tick).updCore e.core fun c =>
      { c with rows := Tab.set 0 c.rows (e.bank * 512 + e.row % 512) (Config.freeRow bad) }
    .next ((s.holders e.core e.bank).foldl (fun s tid => s.updThread tid fun t =>
      { t with laneBad := some (e.bank, { cause := 49, tval := 0, info }) }) s)

/-- LOSS_OF_POWER (R59): everything stops, and the black-box record is lost. -/
def execLossOfPower (s : State) : Out :=
  .next { State.reset with agenda := s.agenda, camp := s.camp.cold0, free := s.free }

end Sys2Proof.Machine
end

