-- ==== Sys2Proof/Machine/Send.lean ====
section
/-! DEFINITION. What the device sends: packets on a connection, completions, remote requests (R32 to R35, R38, R42). -/

namespace Sys2Proof.Machine

def State.conn (s : State) (c : Nat) : Conn := Tab.get {} s.port.conns c
def State.setConn (s : State) (c : Nat) (x : Conn) : State :=
  { s with port := { s.port with conns := Tab.set {} s.port.conns c x } }
def State.updConn (s : State) (c : Nat) (f : Conn → Conn) : State := s.setConn c (f (s.conn c))

/-- PORTST.DROP counts a frame or packet (R27, R30, R43). -/
def State.dropCount (s : State) : State := { s with port := { s.port with drop := satAdd16 s.port.drop 1 } }

/-- An empty packet of the device. -/
def packet0 : Packet :=
  { src := 0, sport := 0, macsec := false, ver := 1, typ := 0, ackreq := false, retx := false, ecne := false
    first := true, last := true, cpl := false, rsv := false, conn := 0, psn := 0, apsn := 0, sack := none, op := 0
    qw := 0, addr := 0, tag := 0, key := 0, payload := [] }

/-- Bitmap of packets received above the expected one (R32). -/
def Conn.sbmp (c : Conn) : BitVec 64 :=
  c.buf.foldl (fun m p => let d := (p.psn - c.rx - 1).toNat; if d < 64 then m ||| (1#64 <<< d) else m) 0

/-- Acknowledgement fields that ride on a packet (R35): APSN, and the block whenever a gap exists. -/
def Conn.ackFields (c : Conn) (p : Packet) : Packet :=
  { p with apsn := c.rx, ecne := c.ce
           sack := if c.buf.isEmpty then none else some (c.sbmp, BitVec.ofNat 32 (1024 - c.buf.length)) }

/-- Put a packet on the wire: with the DSCP of PORTCFG, ECN codepoint ECT(0), MACsec when it is enabled (R28), and LEN. -/
def State.emit (s : State) (p : Packet) : State :=
  let p := { p with dscp := s.port.dscp, ecn := 2, macsec := s.port.msen, len := BitVec.ofNat 16 p.payload.length }
  { s with port := { s.port with wire := s.port.wire ++ [p] } }

/-- A flag at a bit of a byte. -/
def flagBit (b : Bool) (i : Nat) : Nat := if b then 2 ^ i else 0

/-- A packet as the bytes after its UDP header (R32): the header of 32 bytes, the acknowledgement block, the payload. -/
def Packet.bytes (p : Packet) : List Byte :=
  [BitVec.ofNat 8 (p.ver.toNat * 16 + p.typ.toNat),
   BitVec.ofNat 8 (flagBit p.ackreq 7 + flagBit p.sack.isSome 6 + flagBit p.retx 5 + flagBit p.ecne 4 + flagBit p.first 3
     + flagBit p.last 2 + flagBit p.cpl 1 + flagBit p.rsv 0)]
    ++ beBytes 2 p.conn.toNat ++ beBytes 4 p.psn.toNat ++ beBytes 4 p.apsn.toNat ++ beBytes 2 p.len.toNat ++ [p.op, p.qw]
    ++ beBytes 8 p.addr.toNat ++ beBytes 4 p.tag.toNat ++ beBytes 4 p.key.toNat
    ++ (match p.sack with
        | some (m, c) => beBytes 8 m.toNat ++ beBytes 4 c.toNat ++ beBytes 4 p.sackRsv.toNat
        | none => [])
    ++ p.payload

/-- The packet whose bytes after the UDP header are given, in a frame like that of `ip`; none without a whole header (R32). -/
def readPacket (ip : Packet) (bs : List Byte) : Option Packet :=
  let n (off k : Nat) : Nat := beNat (sub bs off k)
  let b1 := n 1 1
  if bs.length < 32 ∨ (bitOf b1 6 ∧ bs.length < 48) then none
  else some { ip with
    ver := BitVec.ofNat 4 (n 0 1 / 16), typ := BitVec.ofNat 4 (n 0 1)
    ackreq := bitOf b1 7, retx := bitOf b1 5, ecne := bitOf b1 4, first := bitOf b1 3, last := bitOf b1 2
    cpl := bitOf b1 1, rsv := bitOf b1 0
    conn := BitVec.ofNat 16 (n 2 2), psn := BitVec.ofNat 32 (n 4 4), apsn := BitVec.ofNat 32 (n 8 4)
    len := BitVec.ofNat 16 (n 12 2), op := BitVec.ofNat 8 (n 14 1), qw := BitVec.ofNat 8 (n 15 1)
    addr := word (n 16 8), tag := BitVec.ofNat 32 (n 24 4), key := BitVec.ofNat 32 (n 28 4)
    sack := if bitOf b1 6 then some (BitVec.ofNat 64 (n 32 8), BitVec.ofNat 32 (n 40 4)) else none
    sackRsv := if bitOf b1 6 then BitVec.ofNat 32 (n 44 4) else 0
    payload := bs.drop (if bitOf b1 6 then 48 else 32) }

/-- Transmit the packets that wait on a connection, as many as min(CREDIT, congestion window) allows (R35). -/
def flushConn (c : Nat) : Nat → State → State
  | 0, s => s
  | fuel + 1, s =>
    let k := s.conn c
    match k.waiting with
    | [] => s
    | p :: rest =>
      if k.unacked.length < min k.credit.toNat k.cwnd then
        let p := k.ackFields { p with psn := k.tx }
        flushConn c fuel ((s.setConn c { k with waiting := rest, tx := k.tx + 1, ackDue := false, ce := false
                                                unacked := k.unacked ++ [⟨p, 0⟩] }).emit p)
      else s

def State.flush (s : State) (c : Nat) : State := flushConn c (s.conn c).waiting.length s

/-- A sequenced packet of the device joins those that wait on the connection. -/
def State.push (s : State) (c : Nat) (p : Packet) : State :=
  s.updConn c fun k => { k with waiting := k.waiting ++ [{ p with conn := k.sconn, src := k.addr, sport := k.sport, here := k.here }] }

/-- Cut data into packets of at most 8,192 bytes, FIRST on the first and LAST on the last (R33). -/
def segments : Nat → Bool → Nat → Packet → List Byte → List Packet
  | 0, _, _, _, _ => []
  | fuel + 1, first, off, p, bs =>
    let rest := bs.drop 8192
    { p with first, last := rest.isEmpty, addr := p.addr + word off, payload := bs.take 8192 } ::
      (if rest.isEmpty then [] else segments fuel false (off + 8192) p rest)

/-- A COMPLETION of a request: TAG, status and data (R38). That of a BBREAD with more than 8,192 bytes takes several packets too,
which R33 names for a READ alone: this model's choice (log entry 115). -/
def State.complete (s : State) (c : Nat) (tag : BitVec 32) (status : Nat) (data : List Byte := []) : State :=
  let p := { packet0 with typ := 4, op := BitVec.ofNat 8 status, tag }
  ((segments 129 true 0 p data).foldl (fun s p => s.push c p) s).flush c

/-- A request of the device joins a connection (R42): its TAG is the connection's next, and `w` waits for it. -/
def State.request (s : State) (c : Nat) (w : Waiter) (ps : BitVec 32 → List Packet) : State :=
  let tag := (s.conn c).nextTag
  let s := s.updConn c fun k => { k with nextTag := tag + 1, reqs := k.reqs ++ [(tag, w)] }
  (ps tag).foldl (fun s p => s.push c p) s

/-- The address field of a remote window access (R36, R42). -/
def remoteAddr (win ofs : Nat) : Word := word (win % 16 * 2 ^ 60 + ofs % 2 ^ 60)

/-- A remote ATOMIC MAXU (R42, R76). -/
def maxuPacket (win ofs : Nat) (key : BitVec 32) (v : Word) (tag : BitVec 32) : Packet :=
  { packet0 with typ := 3, op := 3, addr := remoteAddr win ofs, key, tag, payload := beBytes 8 v.toNat }

/-- Number of a queue descriptor: host queues 0 to 63, device queues 64 to 95 (R66). -/
def State.queue (s : State) (q : Nat) : Queue := Tab.get {} s.queues q
def State.setQueue (s : State) (q : Nat) (x : Queue) : State := { s with queues := Tab.set {} s.queues q x }
def State.updQueue (s : State) (q : Nat) (f : Queue → Queue) : State := s.setQueue q (f (s.queue q))

/-- A 64-bit unsigned maximum at a home slice; it writes the word even when unchanged (R37, R162). -/
def State.maxu (s : State) (tid pa : Nat) (v : Word) : State :=
  let old := word (s.homeNum pa 8)
  s.homeWrite tid pa (leBytes 8 (if old.toNat < v.toNat then v.toNat else old.toNat))

/-- Whether a completion word of a record can be written: check 11 of R74. -/
def cplUsable (q : Queue) (r : BitVec 1024) : Bool :=
  if recRmt r then decide (q.conn ≠ 0) else recCplw r == 0 || inMemory (recCplw r) 8

/-- A local completion word cannot be written: its line is poisoned, or its channel or an adjacency on the way to it has
failed (R21, R53, R55; log entry 108). -/
def State.wordFails (s : State) (pa : Nat) : Bool := (s.homeErr 0 true pa).isSome

/-- A completion word waits: its line is owned, pinned or deferred, its channel or a link on the way retrains, or a report
stands before it in its class (R19, R20, R52, R145, R169, R378). -/
def State.wordWaits (s : State) (pa : Nat) : Bool :=
  !s.wordFails pa && (s.writeWaits (lineOf pa) noThread || s.pathHolds 0 pa || s.syncQueued 0 (homeDie pa))

/-- The MAXU of a local completion word; none where it cannot be written (log entry 108). -/
def State.putWord (s : State) (pa : Nat) (v : Word) : State := if s.wordFails pa then s else s.maxu noThread pa v

/-- Write the completion words that waited and need not wait any more. -/
def State.writeWords (s : State) : State :=
  let ws := s.belfry.words
  let s : State := { s with belfry := { s.belfry with words := ws.filter fun w => s.wordWaits w.1 } }
  ws.foldl (fun (s : State) w => if s.wordWaits w.1 then s else s.putWord w.1 w.2) s

/-- A remote completion word cannot be written: LASTERR 14, and an entry that waited for it frees (R76, R78). -/
def State.wordLost (s : State) (q : Nat) (e : Option Nat) : State :=
  let s := s.updQueue q fun k => { k with lasterr := 14 }
  match e with
  | some e => s.setRec e none
  | none => s

/-- The completion of a record (R76): a sys-scope MAXU of its status at the local word, or a remote ATOMIC MAXU through QCPL as
it stands when the word is written, which R76 leaves open (log entry 113). The entry
`e` of the pending set, if any, frees once the word has been written, or at once without one (R78). -/
def State.writeCompletion (s : State) (q : Nat) (r : BitVec 1024) (status detail : Nat) (e : Option Nat := none) : State :=
  let v := word (status + 256 * (detail % 256) + 2 ^ 32 * recCseq r)
  let k := s.queue q
  let free (s : State) : State := match e with | some e => s.setRec e none | none => s
  if !cplUsable k r then free s
  else if recRmt r then
    let c := k.conn.toNat
    if (s.conn c).st = .opened then
      let s := match e, (e.bind s.rec?) with
        | some e, some x => s.setRec e (some { x with st := .posted })
        | _, _ => s
      s.request c (match e with | some e => .record q e | none => .queue q) fun tag =>
        [maxuPacket k.win.toNat (recCplw r) k.key v tag]
    else s.wordLost q e
  else if recCplw r = 0 then free s
  else if s.wordWaits (recCplw r) then
    free { s with belfry := { s.belfry with words := s.belfry.words ++ [(recCplw r, v)] } }
  else free (s.putWord (recCplw r) v)

end Sys2Proof.Machine
end

