-- ==== Sys2Proof/Machine/Queues.lean ====
section
/-! DEFINITION. Host and device queues (R66 to R77): rings, states, appending, validation, cancelling. -/

namespace Sys2Proof.Machine

/-- Ring base address (R67). -/
def Queue.ring (q : Queue) : Nat := q.base.toNat * 4096
/-- Slots of the ring (R68). -/
def Queue.slots (q : Queue) : Nat := 2 ^ q.lgsize.toNat
/-- The ring is valid: LGSIZE 4 to 12, wholly within one memory region of one die (R68, R69). -/
def Queue.ringOk (q : Queue) : Bool :=
  decide (4 ≤ q.lgsize.toNat) && decide (q.lgsize.toNat ≤ 12) && inMemory q.ring (128 * q.slots)
/-- Address of a ring slot (R68). -/
def Queue.slot (q : Queue) (i : BitVec 32) : Nat := q.ring + 128 * (i.toNat % q.slots)

/-- A slot cannot be written from die 0: an adjacency on the way or its channel has failed (R21, R53). -/
def State.slotBad (s : State) (pa : Nat) : Bool := (linesOf pa 128).any fun l => (s.homeErr 0 false (l * 64)).isSome

/-- Append a record: the codes of R38 (R69, R73). A slot that cannot be written leaves the queue as it is, with LINK. -/
def State.append (s : State) (q : Nat) (bytes : List Byte) : Nat × State :=
  let k := s.queue q
  match k.st with
  | .on =>
    if (k.tail - k.head).toNat = k.slots then (5, s)
    else if s.slotBad (k.slot k.tail) then (7, s)
    else (0, (s.writeHome noThread (k.slot k.tail) bytes).updQueue q fun k => { k with tail := k.tail + 1 })
  | _ => (6, s)

/-- An append to a queue that would write its slot has to wait at the slot's lines (R40, R52, R145, R169, R378). -/
def State.appendWaits (s : State) (q : Nat) : Bool :=
  let k := s.queue q
  k.st == .on && decide ((k.tail - k.head).toNat ≠ k.slots) && !s.slotBad (k.slot k.tail)
    && (linesOf (k.slot k.tail) 128).any fun l => s.writeWaits l noThread || s.pathHolds 0 (l * 64)

/-- QEN written 1 (R69): an OFF queue with a valid ring turns ON and empty; with an invalid one it stays OFF with
LASTERR 13. In the other states the write does nothing. -/
def State.queueEnable (s : State) (q : Nat) : State :=
  s.updQueue q fun k =>
    match k.st with
    | .off => if k.ringOk then { k with qen := true, st := .on, head := 0, tail := 0, cancelled := [] }
              else { k with qen := false, lasterr := 13 }
    | _ => k

/-- QEN written 0 (R69). HEAD and TAIL of a queue that leaves ERROR read 0 at once, a point that R69 leaves to the next enable
(log entry 113). -/
def State.queueDisable (s : State) (q : Nat) : State :=
  s.updQueue q fun k =>
    match k.st with
    | .on => { k with qen := false, st := if k.head = k.tail then .off else .draining }
    | .error => { k with qen := false, st := .off, head := 0, tail := 0, cancelled := [] }
    | _ => { k with qen := false }

/-- HEAD passes one slot; a DRAINING queue left empty turns OFF (R69). -/
def State.passHead (s : State) (q : Nat) : State :=
  s.updQueue q fun k =>
    let h := k.head + 1
    { k with head := h, cancelled := k.cancelled.filter (· ≠ k.head)
             st := if k.st = .draining ∧ h = k.tail then .off else k.st }

/-- The record in a slot: two whole lines (R74). -/
def State.slotRec (s : State) (pa : Nat) : BitVec 1024 := BitVec.ofNat 1024 (s.homeNum pa 128)

/-- The ring positions that hold records not yet taken. -/
def Queue.held (k : Queue) : List (BitVec 32) :=
  (List.range (k.tail - k.head).toNat).map fun i => k.head + BitVec.ofNat 32 i

/-- QCANCEL (R75): every record not yet taken whose tag matches, or every one, is cancelled in its slot and completes
CANCELLED; CANC receives the count. An uncorrectable error met reading a slot stops the queue there (R69). -/
def State.qcancel (s : State) (q : Nat) (tag : Option (BitVec 32)) : State :=
  let k := s.queue q
  let readable (i : BitVec 32) : Bool := (linesOf (k.slot i) 128).all fun l => (s.homeErr 0 true (l * 64)).isNone
  let good := k.held.takeWhile readable
  let hit := good.filter fun i =>
    !k.cancelled.contains i && (match tag with | none => true | some t => recTag (s.slotRec (k.slot i)) == t.toNat)
  let s := s.updQueue q fun k => { k with cancelled := k.cancelled ++ hit, canc := BitVec.ofNat 16 hit.length }
  let s := hit.foldl (fun s i => s.writeCompletion q (s.slotRec (k.slot i)) 2 0) s
  if good.length = k.held.length then s else s.updQueue q fun k => { k with st := .error, lasterr := 12 }

/-- A dependence word in use is sound: no KIND 3, aligned, in memory (check 7 of R74). -/
def depOk (w : Nat) : Bool :=
  let pa := bitsOf w 45 3 * 8
  decide (w % 4 ≠ 3) && (w % 4 != 2 || pa % 256 == 0) && inMemory pa 8

/-- Reserved fields of R70 are zero. -/
def recReservedOk (r : BitVec 1024) : Bool :=
  rf r 63 48 == 0 && rf r 79 79 == 0 && rf r 83 83 == 0 && rf r 87 87 == 0 && rf r 127 112 == 0 && rf r 191 174 == 0
    && rf r 207 192 == 0 && rf r 255 238 == 0 && rf r 258 257 == 0 && rf r 319 302 == 0
    && (List.range 4).all (fun i => !bitOf (recDep r i) 2 && bitsOf (recDep r i) 63 46 == 0)
    && (List.range 4).all (fun i => bitsOf (recPre r i) 5 3 == 0 && bitsOf (recPre r i) 63 48 == 0)

/-- The checks of R74 in order: the first that fails. -/
def recCheck (q : Queue) (r : BitVec 1024) : Option Nat :=
  if !recReservedOk r then some 1
  else if !canonical (word (recEntry r)) || recEntry r % 2 == 1 then some 2
  else if recDies r = 0 then some 3
  else if recLgb r = 7 ∨ 64 < (recTpc r + 1) * 2 ^ recLgb r then some 4
  else if recVlc r = 0 ∨ 2048 * 2 ^ recLgb r < recVlc r then some 5
  else if 4 < recNdep r ∨ 4 < recNpre r
      ∨ (List.range 4).any (fun i => recNdep r ≤ i && (recDep r i != 0 || recBound r i != 0))
      ∨ (List.range 4).any (fun i => recNpre r ≤ i && recPre r i != 0) then some 6
  else if (List.range 4).any (fun i => decide (i < recNdep r) && !depOk (recDep r i)) then some 7
  else if (List.range 4).any (fun i => decide (i < recNpre r) && !canonical (word (recPre r i / 64 * 64))) then some 8
  else if !inMemory (recRoot r * 65536) 1 then some 9
  else if recSave r ≠ 0 ∧ !inMemory (recSave r * 65536) 1 then some 10
  else if !cplUsable q r then some 11
  else none

/-- A record is rejected: LASTERR and REJ, and its completion unless the code is 11 (R74, R88). -/
def State.reject (s : State) (q : Nat) (r : BitVec 1024) (code : Nat) : State :=
  let s := s.updQueue q fun k => { k with lasterr := BitVec.ofNat 8 code, rej := satAdd16 k.rej 1 }
  if code = 11 then s else s.writeCompletion q r 3 code

/-- CANCELLED_SLOT_PASS (R75): HEAD reaches a cancelled slot and passes it without taking it. -/
def execCancelledSlotPass (s : State) : Out :=
  let k := s.queue s.ev.idx
  if (k.st = .on ∨ k.st = .draining) ∧ k.head ≠ k.tail ∧ k.cancelled.contains k.head then .next (s.passHead s.ev.idx)
  else .next s

end Sys2Proof.Machine
end

