-- ==== Sys2Proof/Machine/Rows.lean ====
section
/-! DEFINITION. The lane slice: rows, summary bits, segment descriptors, reading and writing vector registers and masks
plane by plane (R131 to R135). -/

namespace Sys2Proof.Machine

/-- Row `r` of a bank (R131). -/
def Core.row (c : Core) (b r : Nat) : Row := Tab.get 0 c.rows (b * 512 + r)
def Core.setRow (c : Core) (b r : Nat) (v : Row) : Core := { c with rows := Tab.set 0 c.rows (b * 512 + r) v }

/-- Summary bits of a row (R133): every logical lane that the bank has. -/
def Core.zs (c : Core) (b r : Nat) : Bool := (c.row b r).toNat % 2 ^ c.usable b == 0
def Core.os (c : Core) (b r : Nat) : Bool := (c.row b r).toNat % 2 ^ c.usable b == 2 ^ c.usable b - 1

/-- Segment descriptor of a register in a bank (R134). -/
def Core.segd (c : Core) (b v : Nat) : BitVec 32 := Tab.get 0 c.seg (b * 16 + v)
def Core.setSegd (c : Core) (b v : Nat) (d : BitVec 32) : Core := { c with seg := Tab.set 0 c.seg (b * 16 + v) d }

def segKeep (d : BitVec 32) : Nat := (d.extractLsb' 0 6).toNat
def segSgn (d : BitVec 32) : Bool := d.getLsbD 6
def segPk (d : BitVec 32) : Bool := d.getLsbD 7
def segWw (d : BitVec 32) : Nat := (d.extractLsb' 8 4).toNat
def segPr (d : BitVec 32) : Bool := d.getLsbD 12
def segBase (d : BitVec 32) : BitVec 16 := d.extractLsb' 16 16
/-- Width at which the register was last written; a pair is 32 planes wide. -/
def segWidth (d : BitVec 32) : Nat := if segPr d then 32 else segWw d + 1

/-- A descriptor from its fields. -/
def segMake (keep : Nat) (sgn pk : Bool) (ww : Nat) (pr : Bool) (base : Nat) : BitVec 32 :=
  BitVec.ofNat 32 (keep % 64 + 2 ^ 6 * b2n sgn + 2 ^ 7 * b2n pk + 2 ^ 8 * (ww % 16) + 2 ^ 12 * b2n pr
    + 2 ^ 16 * (base % 65536))

/-- The plane at an index, continued above the list by its last plane (signed) or by zero. -/
def planeExt (sgn : Bool) (ps : List Row) (j : Nat) : Row :=
  match ps[j]? with
  | some p => p
  | none => if sgn then ps.getLast?.getD 0 else 0

/-- `w` planes, extended or truncated. -/
def planesTo (sgn : Bool) (ps : List Row) (w : Nat) : List Row := (List.range w).map (planeExt sgn ps)

/-- The logical lanes that a bank has, as a row. -/
def Core.lanes (c : Core) (b : Nat) : Row := BitVec.ofNat 2048 (2 ^ c.usable b - 1)

/-- Add a constant to the lanes of a row, plane by plane with a carry (R135). -/
def addConst (lanes : Row) (k : Nat) : Nat → Row → List Row → List Row
  | _, _, [] => []
  | j, cy, p :: ps =>
    let b : Row := if bitOf k j then lanes else 0
    (p ^^^ b ^^^ cy) :: addConst lanes k (j + 1) ((p &&& b) ||| (p &&& cy) ||| (b &&& cy)) ps

/-- The planes a descriptor describes, from row `r0` upward: stored planes, elided planes, and the base of a packed
register added back (R134, R135). -/
def Core.segPlanes (c : Core) (b r0 : Nat) (d : BitVec 32) : List Row :=
  let stored := (List.range (segKeep d)).map fun j => c.row b (r0 + j)
  let ps := planesTo (segSgn d && !segPk d) stored (segWidth d)
  if segPk d then addConst (c.lanes b) (segBase d).toNat 0 0 ps else ps

/-- Signedness and planes of a register as last written: an odd register behind a pair is the pair's upper half. -/
def Core.regPlanes (c : Core) (b v : Nat) : Bool × List Row :=
  let e := c.segd b (v - v % 2)
  if v % 2 = 1 ∧ segPr e then (segSgn e, (c.segPlanes b (16 * (v - 1)) e).drop 16)
  else let d := c.segd b v; (segSgn d, c.segPlanes b (16 * v) d)

/-- The planes of register `v` read at width `w` (R135). -/
def Core.readReg (c : Core) (b v w : Nat) : List Row :=
  let (sgn, ps) := c.regPlanes b v
  planesTo sgn ps w

/-- The 32 planes of the pair at even register `v` (R132). -/
def Core.readPair (c : Core) (b v : Nat) : List Row :=
  let d := c.segd b v
  if segPr d then c.segPlanes b (16 * v) d
  else c.readReg b v 16 ++ c.readReg b (v + 1) 16

/-- Element of one lane, from planes. -/
def elemOf (ps : List Row) (lane : Nat) : Nat :=
  ps.foldr (fun p n => 2 * n + b2n (p.getLsbD lane)) 0

/-- Set one lane's bit of a row. -/
def setBit (r : Row) (lane : Nat) (b : Bool) : Row :=
  let m : Row := 1#2048 <<< lane
  if b then r ||| m else r &&& ~~~m

/-- Set the element of one lane, plane by plane. -/
def setElem (lane : Nat) : Nat → List Row → List Row
  | _, [] => []
  | v, p :: ps => setBit p lane (v % 2 == 1) :: setElem lane (v / 2) ps

/-- Planes kept: the least k such that every plane above is elided (R135). -/
def keepOf (sgn : Bool) (ps : List Row) : Nat :=
  (findBelow (fun k =>
    (if sgn then decide (1 ≤ k) else true) &&
      (ps.drop k).all fun p => p == (if sgn then (ps[k - 1]?).getD 0 else 0)) ps.length).getD ps.length

/-- Write the first `n` of a list of planes into rows from `r0` upward. -/
def Core.writeRows (c : Core) (b r0 : Nat) (ps : List Row) : Core :=
  ps.zipIdx.foldl (fun c p => c.setRow b (r0 + p.2) p.1) c

/-- A register that loses its other half keeps its own value: the half of a pair that is not overwritten gets a
descriptor of its own. -/
def Core.splitPair (c : Core) (b v : Nat) : Core :=
  let ev := v - v % 2
  let d := c.segd b ev
  if segPr d then
    let o := if v % 2 = 1 then ev else ev + 1
    let ps := c.readReg b o 16
    let k := keepOf (segSgn d) ps
    ((c.setSegd b ev 0).writeRows b (16 * o) (ps.take k)).setSegd b o (segMake k (segSgn d) false 15 false 0)
  else c

/-- Write register `v` in a bank from its new planes at width `ps.length` (R135 steps 2 to 4). -/
def Core.writeReg (c : Core) (b v : Nat) (sgn : Bool) (ps : List Row) : Core :=
  let c := c.splitPair b v
  let k := keepOf sgn ps
  (c.writeRows b (16 * v) (ps.take k)).setSegd b v (segMake k sgn false (ps.length - 1) false 0)

/-- Write the pair at even register `v` from its 32 planes (R132, R134). -/
def Core.writePair (c : Core) (b v : Nat) (sgn : Bool) (ps : List Row) : Core :=
  let k := keepOf sgn ps
  ((c.writeRows b (16 * v) (ps.take k)).setSegd b (v + 1) 0).setSegd b v (segMake k sgn false 15 true 0)

/-- Write register `v` packed (R135, R309): each element's unsigned delta from `base` at the delta's own KEEP. -/
def Core.writePacked (c : Core) (b v : Nat) (sgn : Bool) (base : Nat) (deltas : List Row) : Core :=
  let c := c.splitPair b v
  let k := keepOf false deltas
  (c.writeRows b (16 * v) (deltas.take k)).setSegd b v (segMake k sgn true (deltas.length - 1) false base)

/-- Row of mask `m`; m0 reads as all ones (R114). -/
def Core.maskRow (c : Core) (b m : Nat) : Row := if m = 0 then BitVec.allOnes 2048 else c.row b (256 + m)
def Core.setMaskRow (c : Core) (b m : Nat) (r : Row) : Core := if m = 0 then c else c.setRow b (256 + m) r

end Sys2Proof.Machine
end

