-- ==== Sys2Proof/Machine/Fetch.lean ====
section
/-! DEFINITION. Fetching scalar instructions and vector words through the instruction cache, and the hold that queued
vector words put on scalar accesses (R109, R141, R159). -/

namespace Sys2Proof.Machine

/-- One byte as a core's instruction cache supplies it: the cached line, else the core's view of memory. -/
def State.icByte (s : State) (core pa : Nat) : Byte :=
  match Tab.get none (s.core core).icache (lineOf pa) with
  | some l => BitVec.ofNat 8 (l.toNat / 2 ^ (8 * (pa % 64)))
  | none => s.viewByte core pa

def State.icBytes (s : State) (core pa : Nat) : Nat → List Byte
  | 0 => []
  | n + 1 => s.icByte core pa :: s.icBytes core (pa + 1) n

/-- A line that a fetch touches stays in the core's instruction cache until FENCE.I or a replacement. -/
def State.icFill (s : State) (core pa : Nat) : State :=
  let l := lineOf pa
  match Tab.get none (s.core core).icache l with
  | some _ => s
  | none => s.updCore core fun c =>
      { c with icache := Tab.set none c.icache l (some (BitVec.ofNat 512 (s.viewNum core (l * 64) 64))) }

/-- Why a fetch gives no bytes: it has to wait, or its scalar fault, 12 or 1, with its mtrapx. -/
inductive FetchErr where
  | wait
  | fault (cause : Nat) (info : Word)
deriving DecidableEq, Repr

/-- Where instruction bytes or a vector word lie: translated with execute permission, in memory, and readable at their
home unless the core's instruction cache holds the line; an access that must read memory waits for a window or for the
operation that owns the line (R52, R109, R150, R169). -/
def State.fetchPa (s : State) (core : Nat) (mode : Mode) (root : BitVec 30) (va : Word) (n : Nat) : Except FetchErr Nat :=
  match s.xlate (core / 256) mode root .exec va with
  | .error .hold => .error .wait
  | .error (.home ea e) => .error (.fault 1 (accessInfo ea (e == .mem) (e == .link)))
  | .error _ => .error (.fault 12 0)
  | .ok pa =>
    if !inMemory pa n then .error (.fault 1 (accessInfo pa false false))
    else if (Tab.get none (s.core core).icache (lineOf pa)).isSome then .ok pa
    else match s.homeErr (core / 256) true pa with
      | some e => .error (.fault 1 (accessInfo pa (e == .mem) (e == .link)))
      | none => if s.pathHolds (core / 256) pa || s.owned (lineOf pa) then .error .wait else .ok pa

/-- Where the vector word at an address lies, for a block of a thread. -/
def State.vecPa (s : State) (tid : Nat) (mmode : Bool) (va : Word) : Except FetchErr Nat :=
  s.fetchPa (coreOf tid) (if mmode then .m else .u) (s.thread tid).csr.vptbase va 8

/-- The 64-bit vector word at an address, fetched whole (R109); none when the fetch faults. -/
def State.vecWord (s : State) (tid : Nat) (mmode : Bool) (va : Word) : Option (BitVec 64) :=
  match s.vecPa tid mmode va with
  | .error _ => none
  | .ok pa => some (BitVec.ofNat 64 (leNat (s.icBytes (coreOf tid) pa 8)))

/-- The instruction cache after the fetch of a vector word. -/
def State.vecFill (s : State) (tid : Nat) (mmode : Bool) (va : Word) : State :=
  match s.vecPa tid mmode va with
  | .error _ => s
  | .ok pa => s.icFill (coreOf tid) pa

def vwOp (w : BitVec 64) : Nat := (w.extractLsb' 56 7).toNat
def vwFn (w : BitVec 64) : Nat := (w.extractLsb' 52 4).toNat
def vwC (w : BitVec 64) : Bool := w.getLsbD 63

/-- The words of the convoy at an address: one to four words, each with C = 1 but the last (R110); `none` for a word
that cannot be fetched. -/
def State.convoy (s : State) (tid : Nat) (mmode : Bool) : Nat → Word → List (Option (BitVec 64))
  | 0, _ => []
  | k + 1, va =>
    match s.vecWord tid mmode va with
    | none => [none]
    | some w => some w :: (if vwC w then s.convoy tid mmode k (va + 8) else [])

/-- The rest of a block from an address: whether a word satisfies `p`, and the blocks it thread-fetches (R319). A word that
cannot be fetched, and one past the words that are looked at, counts as one that does: the thread waits until the queue has
come closer (log entry 82). -/
def State.scan (s : State) (tid : Nat) (mmode : Bool) (g : Vector Word 8) (p : BitVec 64 → Bool) :
    Nat → Word → Bool × List Word
  | 0, _ => (true, [])
  | k + 1, va =>
    match s.vecWord tid mmode va with
    | none => (true, [])
    | some w =>
      if p w then (true, [])
      else if vwOp w = 0x70 then (false, [])
      else
        let r := s.scan tid mmode g p k (va + 8)
        if vwOp w = 0x71 then
          (r.1, (g[(w.extractLsb' 16 3).toNat]'(w.extractLsb' 16 3).isLt + ((w.extractLsb' 0 15).signExtend 64 <<< 3)) :: r.2)
        else r

/-- Words of one block, and blocks, that a scan looks at. -/
def scanWords : Nat := 65536
def scanBlocks : Nat := 256

/-- Scan blocks and the blocks they thread-fetch, each once. -/
def State.scanAll (s : State) (tid : Nat) (mmode : Bool) (g : Vector Word 8) (p : BitVec 64 → Bool) :
    Nat → List Word → List Word → Bool
  | _, _, [] => false
  | 0, _, _ => true
  | k + 1, seen, va :: todo =>
    if seen.contains va then s.scanAll tid mmode g p k seen todo
    else
      let (hit, ts) := s.scan tid mmode g p scanWords va
      hit || s.scanAll tid mmode g p k (va :: seen) (ts ++ todo)

/-- A queued convoy, not yet retired on every bank, holds a word satisfying `p` (R113, R286). -/
def State.queued (s : State) (tid : Nat) (p : BitVec 64 → Bool) : Bool :=
  let t := s.thread tid
  match t.vq with
  | [] => false
  | b :: rest =>
    let starts := if t.banks.isEmpty then [b.addr]
      else t.banks.flatMap fun k => if k.2.div = .joined then [k.2.pc] else [k.2.pc, k.2.rejoin]
    s.scanAll tid b.mmode b.snap.g p scanBlocks [] starts
      || rest.any fun b => s.scanAll tid b.mmode b.snap.g p scanBlocks [] [b.addr]

/-- A memory word with OVT = 0, VWAITN among them, or VIXPROBE (R159, R322, R402). -/
def ovt0 (w : BitVec 64) : Bool :=
  vwOp w == 0x64 ||
    (decide (0x50 ≤ vwOp w) && decide (vwOp w ≤ 0x5A) && !(vwOp w == 0x59 && decide (8 ≤ vwFn w)) || vwOp w == 0x5D)
      && !w.getLsbD 13

/-- Later scalar accesses of the thread wait: an OVT = 0 word fetched before has not performed, and the queue is not
frozen by a trap (R159). -/
def State.ovtHolds (s : State) (tid : Nat) : Bool :=
  let t := s.thread tid
  !t.frozen && ((t.held.any fun h => !h.ovt && !h.elems.isEmpty) || s.onWay tid Origin.hold || s.queued tid ovt0)

/-- Every scalar store of the thread, and every write that it has seen, has performed at its home (R160, R165). -/
def State.drained (s : State) (tid : Nat) : Bool := (s.thread tid).sb.isEmpty && s.flushed tid 5

end Sys2Proof.Machine
end

