-- ==== Sys2Proof/Machine/Flags.lean ====
section
/-! DEFINITION. Flag bits of vxstat, and integer results narrowed to a destination (R187, R189). -/

namespace Sys2Proof.Machine

def fSAT : BitVec 8 := 1
def fINV : BitVec 8 := 2
def fOVF : BitVec 8 := 4
def fUNF : BitVec 8 := 8
def fINX : BitVec 8 := 16
def fDZ : BitVec 8 := 32
def fNAN : BitVec 8 := 64
def fLOSS : BitVec 8 := 128

/-- The low `n` bits. -/
def wrapTo (n : Nat) (x : Int) : Nat := ofSigned n x

/-- An integer result at width `n`, signed or unsigned: the nearest bound with SAT when it lies beyond (R189). -/
def satTo (signed : Bool) (n : Nat) (x : Int) : Nat × BitVec 8 :=
  let lo : Int := if signed then -((2 ^ (n - 1) : Nat) : Int) else 0
  let hi : Int := if signed then ((2 ^ (n - 1) : Nat) : Int) - 1 else ((2 ^ n : Nat) : Int) - 1
  if x < lo then (ofSigned n lo, fSAT) else if hi < x then (ofSigned n hi, fSAT) else (ofSigned n x, 0)

/-- The value of the low `n` bits, signed or unsigned. -/
def valOf (signed : Bool) (n v : Nat) : Int := if signed then toSigned n v else ((v % 2 ^ n : Nat) : Int)

end Sys2Proof.Machine
end

