-- ==== Sys2Proof/Machine/Float.lean ====
section
/-! DEFINITION. Floating-point formats, exact values, the five rounding modes and the operations on them (R176, R183 to
R192, R195). -/

namespace Sys2Proof.Machine

/-- A binary format: exponent bits, fraction bits, and whether it is E4M3, which has no infinity (R176). -/
structure Fmt where
  eb : Nat
  fb : Nat
  e4m3 : Bool := false
deriving DecidableEq, Repr

def FP32 : Fmt := ⟨8, 23, false⟩
def FP16 : Fmt := ⟨5, 10, false⟩
def BF16 : Fmt := ⟨8, 7, false⟩
def E4M3 : Fmt := ⟨4, 3, true⟩
def E5M2 : Fmt := ⟨5, 2, false⟩

/-- Width in bits. -/
def Fmt.width (f : Fmt) : Nat := 1 + f.eb + f.fb
/-- Exponent bias. -/
def Fmt.bias (f : Fmt) : Nat := 2 ^ (f.eb - 1) - 1
/-- Exponent of the least significant bit of a subnormal. -/
def Fmt.emin (f : Fmt) : Int := 1 - (f.bias : Int) - f.fb
/-- Magnitude bits of the largest finite number. -/
def Fmt.maxBits (f : Fmt) : Nat := if f.e4m3 then 0x7E else (2 ^ f.eb - 1) * 2 ^ f.fb - 1
/-- The canonical quiet NaN (R176). -/
def Fmt.nan (f : Fmt) : Nat := if f.e4m3 then 0x7F else (2 ^ f.eb - 1) * 2 ^ f.fb + 2 ^ (f.fb - 1)
/-- Magnitude bits of infinity. -/
def Fmt.infBits (f : Fmt) : Nat := (2 ^ f.eb - 1) * 2 ^ f.fb
/-- The sign bit. -/
def Fmt.sgn (f : Fmt) (neg : Bool) : Nat := if neg then 2 ^ (f.eb + f.fb) else 0

/-- A floating-point datum: NaN (signalling or quiet), infinity, or (-1)^neg × m × 2^e. -/
inductive Fv where
  | nan (sig : Bool)
  | inf (neg : Bool)
  | fin (neg : Bool) (m : Nat) (e : Int)
deriving DecidableEq, Repr

/-- Read a datum (R176). -/
def Fmt.read (f : Fmt) (bits : Nat) : Fv :=
  let neg := bitOf bits (f.eb + f.fb)
  let ex := (bits / 2 ^ f.fb) % 2 ^ f.eb
  let fr := bits % 2 ^ f.fb
  if f.e4m3 && (bits % 128 == 127) then .nan false
  else if !f.e4m3 && ex == 2 ^ f.eb - 1 then
    if fr = 0 then .inf neg else .nan (!bitOf fr (f.fb - 1))
  else if ex = 0 then .fin neg fr f.emin
  else .fin neg (2 ^ f.fb + fr) (f.emin + ((ex : Int) - 1))

/-- A rounding mode (R183): 0 RNE, 1 RTZ, 2 RUP, 3 RDN, 4 SR, with the draw of the element for SR. -/
structure Rm where
  mode : Nat
  draw : Nat := 0
deriving DecidableEq, Repr

def RNE : Rm := ⟨0, 0⟩

/-- Whether a magnitude between two neighbours goes to the one above: `rem / 2^sh` of the way, `st` a little more
(R184, R185). -/
def roundsUp (rm : Rm) (neg : Bool) (sig rem sh : Nat) (st : Bool) : Bool :=
  if rem = 0 ∧ !st then false
  else match rm.mode with
    | 0 => decide (2 ^ sh < 2 * rem) || (2 * rem == 2 ^ sh && (st || sig % 2 == 1))
    | 1 => false
    | 2 => !neg
    | 3 => neg
    | _ => decide (rm.draw % 2 ^ 32 < 2 ^ 32 * rem / 2 ^ sh)

/-- Number of bits of a number. -/
def bitLen (m : Nat) : Nat := if m = 0 then 0 else Nat.log2 m + 1

/-- The rounded significand at the exponent `q`, and whether it is inexact. -/
def roundAt (rm : Rm) (neg : Bool) (m : Nat) (e q : Int) (st : Bool) : Nat × Bool :=
  if q ≤ e then (m * 2 ^ (e - q).toNat, st)
  else
    let sh := (q - e).toNat
    let sig := m / 2 ^ sh
    let rem := m % 2 ^ sh
    (if roundsUp rm neg sig rem sh st then sig + 1 else sig, st || rem != 0)

/-- Round an exact magnitude (`st`: and a little more) into a format: rounding first, then saturation (R184, R189). -/
def Fmt.round (f : Fmt) (rm : Rm) (neg : Bool) (m : Nat) (e : Int) (st : Bool := false) : Nat × BitVec 8 :=
  if m = 0 ∧ !st then (f.sgn neg, 0)
  else
    let q0 := e + (bitLen m : Int) - (f.fb + 1)
    let q := max q0 f.emin
    let (sig, inx) := roundAt rm neg m e q st
    let mag := (q - f.emin).toNat * 2 ^ f.fb + sig
    if f.maxBits < mag then (f.sgn neg + f.maxBits, fOVF ||| fSAT ||| fINX)
    else
      let (usig, _) := roundAt rm neg m e q0 st
      let tiny := decide (q0 < f.emin) && decide (usig * 2 ^ (q0 - (f.emin - 64 - (f.fb : Int) * 4 - 2000)).toNat
        < 2 ^ (f.emin + f.fb - (f.emin - 64 - (f.fb : Int) * 4 - 2000)).toNat)
      (f.sgn neg + mag, (if inx then fINX else 0) ||| (if inx && tiny then fUNF else 0))

/-- The canonical NaN, with NAN, and INV when asked (R191). -/
def Fmt.nanR (f : Fmt) (inv : Bool) : Nat × BitVec 8 := (f.nan, fNAN ||| (if inv then fINV else 0))

/-- A signalling NaN operand. -/
def Fv.isSig : Fv → Bool | .nan s => s | _ => false
def Fv.isNan : Fv → Bool | .nan _ => true | _ => false
def Fv.neg? : Fv → Bool | .nan _ => false | .inf n => n | .fin n _ _ => n
def Fv.isZero : Fv → Bool | .fin _ 0 _ => true | _ => false

/-- Signed integer at the smaller of two exponents. -/
def scaled (neg : Bool) (m : Nat) (e emin : Int) : Int :=
  let v : Int := ((m * 2 ^ (e - emin).toNat : Nat) : Int)
  if neg then -v else v

/-- An infinite result, with its sign; E4M3 has none and takes its bound with SAT alone (R176). -/
def Fmt.infR (f : Fmt) (neg : Bool) : Nat × BitVec 8 :=
  if f.e4m3 then (f.sgn neg + f.maxBits, fSAT) else (f.sgn neg + f.infBits, 0)

/-- Round an exact datum into a format (conversions, and results of exact operations). -/
def Fmt.ofFv (f : Fmt) (rm : Rm) (v : Fv) : Nat × BitVec 8 :=
  match v with
  | .nan s => f.nanR s
  | .inf n => f.infR n
  | .fin n m e => f.round rm n m e

/-- Sign of an exact zero sum (R191): of two zeros of one sign, that sign; otherwise + but - under RDN. -/
def zeroSign (rm : Rm) (n1 n2 : Bool) : Bool := if n1 == n2 then n1 else rm.mode == 3

/-- The sum (R191, R313). -/
def Fmt.add (f : Fmt) (rm : Rm) (a b : Fv) : Nat × BitVec 8 :=
  match a, b with
  | .nan s, b => f.nanR (s || b.isSig)
  | a, .nan s => f.nanR (s || a.isSig)
  | .inf n, .inf n' => if n = n' then f.infR n else f.nanR true
  | .inf n, _ => f.infR n
  | _, .inf n => f.infR n
  | .fin n1 m1 e1, .fin n2 m2 e2 =>
    let e := min e1 e2
    let x := scaled n1 m1 e1 e + scaled n2 m2 e2 e
    if x = 0 then (f.sgn (if m1 = 0 ∧ m2 = 0 then zeroSign rm n1 n2 else rm.mode == 3), 0)
    else f.round rm (decide (x < 0)) x.natAbs e

/-- The datum with its sign turned. -/
def Fv.negate : Fv → Fv
  | .nan s => .nan s
  | .inf n => .inf !n
  | .fin n m e => .fin (!n) m e

/-- The exact product, when neither operand is a NaN; none for 0 × ∞. -/
def Fv.mul (a b : Fv) : Option Fv :=
  match a, b with
  | .inf n, .inf n' => some (.inf (n != n'))
  | .inf n, .fin n' m _ => if m = 0 then none else some (.inf (n != n'))
  | .fin n m _, .inf n' => if m = 0 then none else some (.inf (n != n'))
  | .fin n m e, .fin n' m' e' => some (.fin (n != n') (m * m') (e + e'))
  | _, _ => none

/-- The product. -/
def Fmt.mul (f : Fmt) (rm : Rm) (a b : Fv) : Nat × BitVec 8 :=
  if a.isNan || b.isNan then f.nanR (a.isSig || b.isSig)
  else match a.mul b with
    | none => f.nanR true
    | some p => f.ofFv rm p

/-- a × b + c with one rounding; INV for 0 × ∞ even when c is a NaN (R195). -/
def Fmt.fma (f : Fmt) (rm : Rm) (a b c : Fv) : Nat × BitVec 8 :=
  if a.isNan || b.isNan then f.nanR (a.isSig || b.isSig || c.isSig)
  else match a.mul b with
    | none => f.nanR true
    | some p => if c.isNan then f.nanR c.isSig else f.add rm p c

/-- The quotient (R189: a finite non-zero number over zero is infinite with DZ). -/
def Fmt.div (f : Fmt) (rm : Rm) (a b : Fv) : Nat × BitVec 8 :=
  match a, b with
  | .nan s, b => f.nanR (s || b.isSig)
  | a, .nan s => f.nanR (s || a.isSig)
  | .inf _, .inf _ => f.nanR true
  | .inf n, .fin n' _ _ => f.infR (n != n')
  | .fin n _ _, .inf n' => (f.sgn (n != n'), 0)
  | .fin n m e, .fin n' m' e' =>
    if m' = 0 then (if m = 0 then f.nanR true else let r := f.infR (n != n'); (r.1, r.2 ||| fDZ))
    else
      let k := 128 + bitLen m'
      f.round rm (n != n') (m * 2 ^ k / m') (e - e' - k) (decide (m * 2 ^ k % m' ≠ 0))

/-- Integer square root, bit by bit from bit `k - 1`. -/
def isqrtFrom (n : Nat) : Nat → Nat → Nat
  | 0, r => r
  | k + 1, r => isqrtFrom n k (if (r + 2 ^ k) * (r + 2 ^ k) ≤ n then r + 2 ^ k else r)
def isqrt (n : Nat) : Nat := isqrtFrom n (bitLen n / 2 + 1) 0

/-- The square root; of a negative number, INV. -/
def Fmt.sqrt (f : Fmt) (rm : Rm) (a : Fv) : Nat × BitVec 8 :=
  match a with
  | .nan s => f.nanR s
  | .inf n => if n then f.nanR true else f.infR false
  | .fin n m e =>
    if m = 0 then (f.sgn n, 0)
    else if n then f.nanR true
    else
      let k : Nat := 256 + (e % 2).toNat
      let big := m * 2 ^ k
      let r := isqrt big
      f.round rm false r ((e - k) / 2) (decide (r * r ≠ big))

/-- The reciprocal square root; of a zero, infinite with DZ. -/
def Fmt.rsqrt (f : Fmt) (rm : Rm) (a : Fv) : Nat × BitVec 8 :=
  match a with
  | .nan s => f.nanR s
  | .inf n => if n then f.nanR true else (0, 0)
  | .fin n m e =>
    if m = 0 then (let r := f.infR n; (r.1, r.2 ||| fDZ))
    else if n then f.nanR true
    else
      -- 1 / sqrt(m 2^e) = 2^((-e-k)/2) sqrt(2^k / m), k of the parity of e
      let k : Nat := 512 + 2 * bitLen m + (e % 2).toNat
      let q := 2 ^ k / m
      let r := isqrt q
      f.round rm false r ((-e - k) / 2) (decide (r * r * m ≠ 2 ^ k))

/-- Roots 2^(2^-i) with 320 fraction bits, and their product over the bits of a fraction of `k` bits. -/
def exp2Frac : Nat → Nat → Nat → Nat → Nat
  | 0, _, _, acc => acc
  | k + 1, f, root, acc =>
    let root := isqrt (root * 2 ^ 320)
    exp2Frac k f root (if bitOf f k then acc * root / 2 ^ 320 else acc)

/-- 2^a: exact for integers, otherwise irrational (R197, R313). -/
def Fmt.exp2 (f : Fmt) (rm : Rm) (a : Fv) : Nat × BitVec 8 :=
  match a with
  | .nan s => f.nanR s
  | .inf n => if n then (0, 0) else f.infR false
  | .fin n m e =>
    if m = 0 then f.round rm false 1 0
    else
      let x := scaled n m e (min e (-160))
      let d : Int := ((2 ^ (-(min e (-160))).toNat : Nat) : Int)
      let ip := x / d
      let fp := (x % d).toNat
      if ip < -400 then f.round rm false 1 (-400) true
      else if 400 < ip then f.round rm false 1 400 true
      else if fp = 0 then f.round rm false 1 ip
      else
        let k := (-(min e (-160))).toNat
        f.round rm false (exp2Frac k fp (2 * 2 ^ 320) (2 ^ 320)) (ip - 320) true

/-- Order of two data that are no NaN, -0 below +0 (R192). -/
def Fv.lt (a b : Fv) : Bool :=
  match a, b with
  | .inf n, .inf n' => n && !n'
  | .inf n, _ => n
  | _, .inf n => !n
  | .fin n m e, .fin n' m' e' =>
    if m = 0 ∧ m' = 0 then n && !n'
    else let k := min e e'; decide (scaled n m e k < scaled n' m' e' k)
  | _, _ => false

/-- Equality and order as a comparison sees them: zeros equal (R314). -/
def Fv.cmpEq (a b : Fv) : Bool :=
  match a, b with
  | .inf n, .inf n' => n == n'
  | .fin n m e, .fin n' m' e' => let k := min e e'; decide (scaled n m e k = scaled n' m' e' k)
  | _, _ => false
def Fv.cmpLt (a b : Fv) : Bool :=
  match a, b with
  | .fin _ 0 _, .fin _ 0 _ => false
  | a, b => a.lt b

/-- Minimum or maximum, NaN-propagating (R192). -/
def Fmt.minmax (f : Fmt) (isMax : Bool) (x y : Nat) : Nat × BitVec 8 :=
  let a := f.read x
  let b := f.read y
  if a.isNan || b.isNan then f.nanR (a.isSig || b.isSig)
  else (if isMax then (if a.lt b then y else x) else (if b.lt a then y else x), 0)

/-- Minimum or maximum, number-preferring (R192). -/
def Fmt.minmaxNum (f : Fmt) (isMax : Bool) (x y : Nat) : Nat × BitVec 8 :=
  let a := f.read x
  let b := f.read y
  let inv := if a.isSig || b.isSig then fINV else 0
  if a.isNan && b.isNan then (f.nan, fNAN ||| inv)
  else if a.isNan then (y, inv)
  else if b.isNan then (x, inv)
  else f.minmax isMax x y

/-- A number in a format rounded into another (R310). -/
def Fmt.convert (src dst : Fmt) (rm : Rm) (x : Nat) : Nat × BitVec 8 := dst.ofFv rm (src.read x)

/-- An integer times a power of two, rounded (R194, R371). -/
def Fmt.ofInt (f : Fmt) (rm : Rm) (x e : Int) : Nat × BitVec 8 := f.round rm (decide (x < 0)) x.natAbs e

/-- An FP value rounded to an integer by a mode: the integer, and whether it is inexact (R310). -/
def intRound (rm : Rm) (neg : Bool) (m : Nat) (e : Int) : Int × Bool :=
  let (sig, inx) := roundAt rm neg m e 0 false
  (if neg then -(sig : Int) else sig, inx)

end Sys2Proof.Machine
end

