-- ==== Sys2Proof/Machine/Formats.lean ====
section
/-! DEFINITION. Operand formats of tiles, jobs and matrices: lane integers and block scale words (R174 to R182), fixed-rate
blocks (R199) and the Orcel stream (R200 to R202). -/

namespace Sys2Proof.Machine

/-- A lane integer in sign-magnitude form of `w` planes (R175). -/
def signMag (w : Nat) (neg : Bool) (mag : Nat) : Nat := mag % 2 ^ (w - 1) + 2 ^ (w - 1) * b2n neg

/-- Planes of the lane form (R174); `aw` is AWM + 1. -/
def fmtPlanes (fmt aw : Nat) : Nat :=
  match fmt with
  | 0 | 1 | 3 | 4 | 5 | 6 => aw
  | 2 => 2 | 7 => 5 | 8 => 10 | 9 => 7 | 10 => 8 | 11 => 4 | 12 => 6 | _ => 9

/-- The value of a lane integer (R174, R175). -/
def laneVal (fmt aw v : Nat) : Int :=
  match fmt with
  | 0 => toSigned aw v
  | 1 => ((v % 2 ^ aw : Nat) : Int)
  | 2 => if v % 4 = 1 then 1 else if v % 4 = 3 then -1 else 0
  | 10 => toSigned 8 v
  | _ =>
    let w := fmtPlanes fmt aw
    let m : Int := ((v % 2 ^ (w - 1) : Nat) : Int)
    if bitOf v (w - 1) then -m else m

/-- Elements a block scale covers: 32 for MX, 16 for SX and aligned floating point, 0 for none (R333). -/
def fmtBlock (fmt : Nat) : Nat :=
  if fmt ≤ 2 then 0 else if 7 ≤ fmt ∧ fmt ≤ 10 then 32 else 16

/-- A block scale word (R179). -/
def scaleWord (sc : Int) : Nat := ofSigned 10 sc
def scaleNan : Nat := 0x8000
def scaleExp (w : Nat) : Int := toSigned 10 w
def scaleIsNan (w : Nat) : Bool := bitOf w 15

/-- Bits of an MX element in memory (R177). -/
def mxBits (fmt : Nat) : Nat := match fmt with | 7 => 4 | 8 => 6 | 9 => 6 | _ => 8

/-- An MX element as its lane integer (R178). -/
def mxLane (fmt b : Nat) : Nat :=
  let go (F E w : Nat) : Nat :=
    let f := b % 2 ^ F
    let e := b / 2 ^ F % 2 ^ E
    signMag w (bitOf b (F + E)) (if e = 0 then f else (2 ^ F + f) * 2 ^ (e - 1))
  match fmt with
  | 7 => go 1 2 5
  | 8 => go 2 3 10
  | 9 => go 3 2 7
  | _ => b % 256

/-- A of R178. -/
def mxA (fmt : Nat) : Int := match fmt with | 7 => 1 | 8 => 4 | 9 => 3 | _ => 6

/-- The scale word of an MX block from its scale byte (R178). -/
def mxScale (fmt x : Nat) : Nat := if x = 255 then scaleNan else scaleWord ((x : Int) - 127 - mxA fmt)

/-- Magnitude bits of an SX format (R180). -/
def sxBits (fmt : Nat) : Nat := match fmt with | 11 => 2 | 12 => 4 | _ => 7
/-- Bytes of an SX block. -/
def sxBytes (fmt : Nat) : Nat := 2 + 2 * (sxBits fmt + 1)

/-- Element `i` of an SX block as its lane integer (R180, R181). -/
def sxLane (fmt blk i : Nat) : Nat :=
  let mb := sxBits fmt
  let el := blk / 2 ^ (16 + (mb + 1) * i) % 2 ^ (mb + 1)
  let m := el % 2 ^ mb
  signMag (mb + 2) (bitOf el mb) (if bitOf blk (8 + i / 2) then m else 2 * m)

/-- The scale word of an SX block (R181). -/
def sxScale (fmt blk : Nat) : Nat :=
  let e := blk % 256
  if e = 255 then scaleNan else scaleWord ((e : Int) - 127 - sxBits fmt)

/-- The floating-point format behind a code (R174). -/
def fmtFloat (fmt : Nat) : Fmt := match fmt with | 3 => FP16 | 4 => BF16 | 5 => E4M3 | _ => E5M2

/-- Round a magnitude to the unit 2^x, to nearest even (R182). -/
def rneAt (m : Nat) (e x : Int) : Nat := (roundAt RNE false m e x false).1

/-- Block alignment of one group (R182): lane integers of `aw` planes, the scale word, flags. -/
def alignGroup (f : Fmt) (aw : Nat) (raws : List Nat) : List Nat × Nat × BitVec 8 :=
  let vs := raws.map f.read
  if vs.any fun v => match v with | .fin _ _ _ => false | _ => true then
    (raws.map fun _ => 0, scaleNan,
      fNAN ||| (if vs.any (fun v => v.isSig || (match v with | .inf _ => true | _ => false)) then fINV else 0))
  else
    let fins := vs.map fun v => match v with | .fin n m e => (n, m, e) | _ => (false, 0, (0 : Int))
    if fins.all (fun p => p.2.1 == 0) then (raws.map fun _ => 0, 0, 0)
    else
      let mm := aw - 1
      let tops := (fins.filter (fun p => p.2.1 != 0)).map fun p => p.2.2 + (bitLen p.2.1 : Int)
      let x0 := tops.foldl max (tops.headD 0) - (mm : Int)
      let fits (x : Int) : Bool := fins.all fun p => rneAt p.2.1 p.2.2 x < 2 ^ mm
      let x := if fits x0 then x0 else x0 + 1
      let lane (p : Bool × Nat × Int) : Nat := signMag aw p.1 (rneAt p.2.1 p.2.2 x)
      let loss := fins.any fun (p : Bool × Nat × Int) => decide (p.2.2 < x) && decide (p.2.1 % 2 ^ (x - p.2.2).toNat ≠ 0)
      (fins.map lane, scaleWord x, if loss then fLOSS else 0)

/-! Fixed-rate blocks (R199). -/

/-- Whether a value lies in the `w`-bit range. -/
def inRange (signed : Bool) (w : Nat) (x : Int) : Bool :=
  if signed then decide (-((2 ^ (w - 1) : Nat) : Int) ≤ x) && decide (x < ((2 ^ (w - 1) : Nat) : Int))
  else decide (0 ≤ x) && decide (x < ((2 ^ w : Nat) : Int))

/-- What a fixed-rate block holds: its values, an escape index, or a fault. -/
inductive FrBlock where
  | vals (xs : List Int)
  | esc (n : Nat)
  | bad
deriving DecidableEq, Repr

/-- Decode one fixed-rate block. -/
def frDecode (signed : Bool) (w : Nat) (bs : List Byte) : FrBlock :=
  let v := leNat bs
  let dw := v % 32
  if bitsOf v 6 5 ≠ 0 ∨ w < dw then .bad
  else if bitOf v 7 then .esc (bitsOf v 63 32)
  else
    let base : Int := if signed then toSigned 16 (bitsOf v 23 8) else (bitsOf v 23 8 : Nat)
    let xs := (List.range 64).map fun i => base + ((v / 2 ^ (24 + dw * i) % 2 ^ dw : Nat) : Int)
    if 3 + ceilDiv (64 * dw) 8 ≤ bs.length ∧ xs.all (inRange signed w) then .vals xs else .bad

/-- Encode 64 values as a fixed-rate block of `t` bytes; none where the block must be escaped. -/
def frEncode (t : Nat) (xs : List Int) : Option (List Byte) :=
  let lo := xs.foldl min (xs.headD 0)
  let hi := xs.foldl max (xs.headD 0)
  let dw := bitLen (hi - lo).toNat
  if 3 + ceilDiv (64 * dw) 8 > t then none
  else
    let ds := xs.zipIdx.foldl (fun n p => n + (p.1 - lo).toNat * 2 ^ (dw * p.2)) 0
    some (leBytes t (dw + 256 * ofSigned 16 lo + 2 ^ 24 * ds))

/-- An escaped block that names raw block `n`. -/
def frEscape (t n : Nat) : List Byte := leBytes t (0x80 + 2 ^ 32 * n)

/-- 64 raw two-byte containers. -/
def rawVals (signed : Bool) (bs : List Byte) : List Int :=
  (List.range 64).map fun i => valOf signed 16 (leNat (sub bs (2 * i) 2))
def rawBytes (xs : List Int) : List Byte := xs.flatMap fun x => leBytes 2 (ofSigned 16 x)

/-! The Orcel interleaved stream (R200 to R202). -/

/-- Number of one-bits at the low end, at most `k`. -/
def onesBelow : Nat → Nat → Nat
  | 0, _ => 0
  | k + 1, v => if v % 2 = 1 then onesBelow k (v / 2) + 1 else 0

/-- Decode one value of a lane: the value and the bits used, or none for a code value beyond `w` bits. -/
def riceDecode (sgn : Bool) (w k buf : Nat) : Option (Int × Nat) :=
  let q := onesBelow 15 buf
  let (z, n) := if q < 15 then (q * 2 ^ k + buf / 2 ^ (q + 1) % 2 ^ k, q + 1 + k) else (buf / 2 ^ 15 % 2 ^ w, 15 + w)
  if 2 ^ w ≤ z then none
  else some (if sgn then (if z % 2 = 0 then (z / 2 : Nat) else -(((z + 1) / 2 : Nat) : Int)) else (z : Nat), n)

/-- The claim cycle of a step: lanes in ascending order take the next data word when they hold fewer than 32 bits. -/
def orcelClaim : List (Nat × Nat) → List Nat → Option (List (Nat × Nat) × List Nat)
  | [], ws => some ([], ws)
  | (buf, n) :: r, ws =>
    if n < 32 then
      match ws with
      | [] => none
      | w :: ws => (orcelClaim r ws).map fun p => ((buf + w * 2 ^ n, n + 32) :: p.1, p.2)
    else (orcelClaim r ws).map fun p => ((buf, n) :: p.1, p.2)

/-- The decode cycle of a step. -/
def orcelStep (sgn : Bool) (w : Nat) : List (Nat × Nat) → List Nat → Option (List Int × List (Nat × Nat))
  | (buf, n) :: r, k :: ks =>
    match riceDecode sgn w k buf with
    | none => none
    | some (v, used) => (orcelStep sgn w r ks).map fun p => (v :: p.1, (buf / 2 ^ used, n - used) :: p.2)
  | _, _ => some ([], [])

/-- All steps: the values in element order, with no data word left over. -/
def orcelRun (sgn : Bool) (w : Nat) (ks : List Nat) : Nat → List (Nat × Nat) → List Nat → Option (List Int)
  | 0, _, ws => if ws.isEmpty then some [] else none
  | c + 1, ls, ws =>
    match orcelClaim ls ws with
    | none => none
    | some (ls, ws) =>
      match orcelStep sgn w ls ks with
      | none => none
      | some (vs, ls) => (orcelRun sgn w ks c ls ws).map (vs ++ ·)

/-- 32-bit words from bytes. -/
def words32 (bs : List Byte) (n : Nat) : List Nat := (List.range n).map fun i => leNat (sub bs (4 * i) 4)

end Sys2Proof.Machine
end

