-- ==== Sys2Proof/Machine/Engine.lean ====
section
/-! DEFINITION. Engine commands: their accesses to memory, the operations in flight, batches and the copy completion bits
(R144, R160, R169, R337, R345 to R347). -/

namespace Sys2Proof.Machine

/-- Who an engine works for: thread, mode and translation root; the operation's number and agent, and the translations it
pins; `kept`: the lines that its fetch unit has consumed (R145); `atHome`: an Awl unit, which sits at the lines' home and
writes there (R146). -/
structure Who where
  tid   : Nat
  mode  : Mode
  root  : BitVec 30
  last  : Bool := false
  id    : Nat := 0
  agent : Nat := noThread
  pages : List PagePin := []
  kept  : List (Nat × BitVec 512) := []
  atHome : Bool := false
deriving DecidableEq, Repr

/-- A failed engine access: mtrapx of R337 with its flag bits, and the virtual address; a metadata mismatch; or an access
that has only to wait (R52, R145, R164, R169). -/
inductive EngErr where
  | fault (info : Nat) (va : Word)
  | metadata
  | hold
deriving DecidableEq, Repr

/-- Local reason in mtrapx[15:8] (R337). -/
def engReason (r : Nat) : Nat := 256 * r

/-- The fault of an engine access (R150, R337): local reason 1 to 4, with MEM or LINK set (R263). -/
def XErr.eng (e : XErr) (va : Word) : EngErr :=
  match e with
  | .hold => .hold
  | .home _ x => .fault (engReason e.code + x.flag) va
  | _ => .fault (engReason e.code) va

/-- Translate for an engine: by a translation that the command pins, else by the table as it stands (R149, R151). -/
def State.engXlate (s : State) (w : Who) (need : Need) (va : Word) : Except XErr Nat :=
  match w.mode, w.pages.find? fun p => p.need == need && p.page == va.toNat / 65536 with
  | .u, some p => .ok (p.base + va.toNat % 65536)
  | _, _ => s.xlate (dieOf w.tid) w.mode w.root need va

/-- Where an engine access goes (R15, R21, R53, R55, R150). -/
def State.engPa (s : State) (w : Who) (need : Need) (va : Word) (n : Nat) : Except EngErr Nat :=
  match s.engXlate w need va with
  | .error e => .error (e.eng va)
  | .ok pa =>
    if !inMemory pa n then .error (XErr.hole.eng va)
    else match s.homeErr (dieOf w.tid) (need == .read) pa with
      | some e => .error ((XErr.home 0 e).eng va)
      | none => .ok pa

/-- Cut a run of bytes at line boundaries: address, offset, length. -/
def chunks : Nat → Nat → Nat → Nat → List (Nat × Nat × Nat)
  | 0, _, _, _ => []
  | fuel + 1, a, off, n =>
    if n = 0 then [] else
      let k := min n (64 - a % 64)
      (a, off, k) :: chunks fuel (a + k) (off + k) (n - k)

def lineChunks (va : Word) (n : Nat) : List (Nat × Nat × Nat) := chunks (n / 64 + 2) va.toNat 0 n

/-- The bytes of a run within a line that the fetch unit has consumed: as they were (R145). -/
def State.engKept (s : State) (w : Who) (va n : Nat) : Option (List Byte) :=
  match s.engXlate w .read (word va) with
  | .ok pa => (w.kept.lookup (lineOf pa)).map fun l => leBytes n (l.toNat / 2 ^ (8 * (pa % 64)))
  | .error _ => none

/-- Read a run of bytes line by line as the thread's core sees them; the die observes what it reads. A line that an
operation before this one owns, or whose channel retrains, is waited for (R52, R169). -/
def State.engRead (s : State) (w : Who) (va : Word) (n : Nat) : Except EngErr (List Byte × State) :=
  (lineChunks va n).foldlM (fun r c =>
    match s.engKept w c.1 c.2.2, r.2.engPa w .read (word c.1) 1 with
    | some bs, _ => .ok (r.1 ++ bs, r.2)
    | none, .error e => .error e
    | none, .ok pa =>
      if r.2.pathHolds (dieOf w.tid) pa || r.2.ownedBefore w.id (lineOf pa) then .error .hold
      else
        let t := r.2.observe (dieOf w.tid) (lineOf pa)
        .ok (r.1 ++ r.2.viewBytes (coreOf w.tid) pa c.2.2, if w.last then t.lastUse (lineOf pa) else t)) ([], s)

/-- Physical lines that a run of bytes covers, as far as they translate. -/
def State.engLines (s : State) (w : Who) (va : Word) (n : Nat) : List (Nat × Nat) :=
  (lineChunks va n).filterMap fun c =>
    match s.engPa w .write (word c.1) 1 with
    | .ok pa => some (lineOf pa, 1)
    | .error _ => none

/-- The translations of the pages of a run of bytes, as far as they are good (R151). -/
def State.engPages (s : State) (w : Who) (need : Need) (va : Word) (n : Nat) : List PagePin :=
  if w.mode == .m || n = 0 then []
  else (List.range ((va.toNat % 65536 + n - 1) / 65536 + 1)).filterMap fun k =>
    let page := va.toNat / 65536 + k
    match s.xlate (dieOf w.tid) w.mode w.root need (word (page * 65536)) with
    | .ok pa => some ⟨page, need, pa, (s.vpage w.root (word (page * 65536))).lg⟩
    | .error _ => none

/-- Every line of a run can be written, or why not. -/
def State.engCheck (s : State) (w : Who) (va : Word) (n : Nat) : Except EngErr Unit :=
  (lineChunks va n).foldlM (fun _ c => match s.engPa w .write (word c.1) 1 with
    | .error e => .error e
    | .ok _ => .ok ()) ()

/-- An engine's write to a line waits: an operation before it owns the line, a tile fetch unit pins it, an LR defers it, its
channel retrains, or the die has 2^20 writes unapplied (R52, R145, R164, R169, R378). -/
def State.engHolds (s : State) (w : Who) (pa : Nat) : Bool :=
  let line := lineOf pa
  s.ownedBefore w.id line || s.linePinned line || s.lrDeferred line w.agent || s.windowHolds pa
    || (!w.atHome && homeDie pa != dieOf w.tid && decide (2 ^ 20 ≤ (s.die (dieOf w.tid)).out.length))

/-- Write a run of bytes line by line; lines before a fault are written. -/
def State.engWrite (s : State) (w : Who) (va : Word) (bytes : List Byte) : State × Option EngErr :=
  (lineChunks va bytes.length).foldl (fun r c =>
    match r.2 with
    | some _ => r
    | none =>
      match r.1.engPa w .write (word c.1) 1 with
      | .error e => (r.1, some e)
      | .ok pa =>
        if r.1.engHolds w pa then (r.1, some .hold)
        else
          let t := r.1.writeLine (if w.atHome then homeDie pa else dieOf w.tid) w.agent pa (sub bytes c.2.1 c.2.2) [] { va := word c.1 } w.last
          let t := if w.atHome then t.stampLine (lineOf pa) (r.1.die (dieOf w.tid)).clock else t
          (if w.last && homeDie pa == dieOf w.tid then t.lastUse (lineOf pa) else t, none)) (s, none)

/-! Operations in flight and batches. -/

def Op.who (o : Op) (id : Nat) : Who :=
  { tid := o.tid, mode := o.mode, root := o.root, id, agent := engAgent id, pages := o.pages, kept := o.kept
    last := match o.op with | .xcopy _ _ _ l => l | .remote _ l _ _ => l | _ => false }
def State.op? (s : State) (id : Nat) : Option Op := Tab.get none s.ops id
def State.setOp (s : State) (id : Nat) (o : Option Op) : State := { s with ops := Tab.set none s.ops id o }
/-- The executing thread as an engine sees it: a command that it issues now stands behind every other. -/
def State.whoMe (s : State) : Who := { tid := s.cur, mode := s.me.mode, root := s.me.csr.vptbase, id := s.nextOp }

/-- A batch is complete: every operation in it has completed (R345). -/
def Batch.complete (b : Batch) : Bool := b.all (· == 0)

/-- Batch `cls` (0 loads, 1 stores, 2 copies, 3 tile operations). -/
def Thread.open_ (t : Thread) (cls : Fin 4) : Batch := t.openB[cls]
def Thread.closed_ (t : Thread) (cls : Fin 4) : List Batch := t.closedB[cls]

/-- Closing another batch of the class has to wait: six closed batches are incomplete (R345). -/
def Thread.closeFull (t : Thread) (cls : Fin 4) : Bool := decide (6 ≤ ((t.closed_ cls).filter fun b => !b.complete).length)

/-- Incomplete closed batches of a class. -/
def Thread.incomplete (t : Thread) (cls : Fin 4) : Nat := ((t.closed_ cls).filter fun b => !b.complete).length

/-- Close the open batch of a class; an empty one stays open. -/
def Thread.closeBatch (t : Thread) (cls : Fin 4) : Thread :=
  let b := t.open_ cls
  if b.isEmpty then t
  else { t with openB := t.openB.set cls []
                closedB := t.closedB.set cls (t.closed_ cls ++ [b]) }

/-- An operation joins the open batch of its class, which closes at 64 operations (R345). -/
def Thread.join (t : Thread) (cls : Fin 4) (id : Nat) : Thread :=
  let t := { t with openB := t.openB.set cls (t.open_ cls ++ [id]) }
  if 64 ≤ (t.open_ cls).length then t.closeBatch cls else t

/-- Joining would close a seventh incomplete batch. -/
def Thread.joinStalls (t : Thread) (cls : Fin 4) : Bool := decide (63 ≤ (t.open_ cls).length) && t.closeFull cls

/-- An operation has completed or faulted: its batches forget it. -/
def Thread.leave (t : Thread) (id : Nat) : Thread :=
  let f (b : Batch) : Batch := b.map fun i => if i = id then 0 else i
  { t with openB := t.openB.map f
           closedB := t.closedB.map fun bs => bs.map f }

/-- An agent that takes ownership of lines (start, number) ends the reservations on them (R378). -/
def Thread.loseOwned (t : Thread) (owns : List (Nat × Nat)) : Thread :=
  match t.resv with
  | some r => if owns.any fun q => overlaps q.1 q.2 r.line 1 then { t with resv := none } else t
  | none => t
def State.takeOwned (s : State) (owns : List (Nat × Nat)) : State :=
  if owns.isEmpty then s else { s with threads := s.threads.map fun p => (p.1, p.2.loseOwned owns) }

/-- An engine command of the executing thread issues: a fresh operation joins its class, c16 and c17 clear; it owns its
destination lines, which ends reservations on them, and pins the translations it will use (R151, R169, R345, R347, R378). -/
def State.issueOp (s : State) (cls : Fin 4) (owns : List (Nat × Nat)) (pages : List PagePin) (op : UnitOp) : State :=
  let id := s.nextOp
  let w := s.whoMe
  let s := { s with nextOp := id + 1
                    ops := Tab.set none s.ops id (some { tid := w.tid, mode := w.mode, root := w.root, owns, pins := [], op
                                                         asid := s.me.csr.vasid, pages, gang := s.me.gang }) }
  (s.takeOwned owns).updMe fun t =>
    let t := ((t.post 16 false).post 17 false).join cls id
    { t with copies := t.copies ++ [id], copyFlt := false }

/-- An operation is about to own lines to which a write of its die is still on its way: the command waits until that write
has performed, so that it is not taken for a later one (R156, R169). -/
def State.linesPending (s : State) (tid : Nat) (owns : List (Nat × Nat)) : Bool :=
  owns.any fun q => s.pendingTo (dieOf tid) (q.1 * 64) (q.2 * 64)

/-- A copy-class operation of the thread completes: flags, batch, completion bits, the trap of a fault (R126, R187, R347). -/
def Thread.finishCopy (t : Thread) (id : Nat) (tr : Option Trap) (flags : BitVec 8) : Thread :=
  let t := (t.leave id).mergeFlags flags
  let t := { t with copies := t.copies.erase id, copyFlt := t.copyFlt || tr.isSome, engTraps := t.engTraps ++ tr.toList }
  if t.copies.isEmpty then (t.post 16 true).post 17 (t.copyFlt || t.csr.cb.getLsbD 17) else t

/-- A copy-class operation completes, with a fault's trap or the flags it merges: at its thread, or at its save, where its
condition bits post at restore (R95). -/
def State.finishOp (s : State) (id : Nat) (tr : Option Trap) (flags : BitVec 8) : State :=
  let s := s.setOp id none
  let f (t : Thread) : Thread := if t.copies.contains id then t.finishCopy id tr flags else t
  { s with
    threads := s.threads.map fun p => (p.1, f p.2)
    saves := s.saves.map fun p => (p.1, p.2.map fun v => { v with thread := f v.thread }) }

/-- The trap of a failed engine access: ENGINE_ASYNC, or METADATA_MISMATCH; `tile` is the entry involved (R337, R144). -/
def EngErr.trap (e : EngErr) (tile : Option Nat) : Trap :=
  let t := match tile with | some i => 2 ^ 16 * (i % 64) | none => 0
  match e with
  | .fault info va => { cause := 51, tval := va, info := word (info + t), names := tile.toList }
  | .hold => { cause := 51, tval := 0, info := word t, names := tile.toList }
  | .metadata => { cause := 27, tval := 0, info := word t, names := tile.toList }

/-- A tile whose drain has ended (R137). -/
def Tile.drained (t : Tile) (fault : Bool) : Tile := { t with st := .ready, flt := t.flt || fault }

/-- A command that has written its lines ends once none of its writes is on its way any more: a drained tile is READY again,
with FLT set on a fault (R137, R169). -/
def State.endPost (s : State) (id : Nat) : State :=
  match s.op? id with
  | some o =>
    match o.op with
    | .posting core tile tr fl =>
      if (s.die (dieOf o.tid)).out.any fun w => w.tid == engAgent id then s
      else
        let s := match tile with
          | none => s
          | some i => s.updCore core fun c => c.updTile i (·.drained tr.isSome)
        s.finishOp id tr fl
    | _ => s
  | none => s

/-- A command has written its lines: it keeps them until every one is written at its home (R169). -/
def State.posted (s : State) (id : Nat) (o : Op) (core : Nat) (tile : Option Nat) (tr : Option Trap) (fl : BitVec 8) : State :=
  (s.setOp id (some { o with op := .posting core tile tr fl })).endPost id

/-- An operation that a unit finishes on its own once it has accepted it (R391). -/
def UnitOp.own : UnitOp → Bool
  | .btinv _ _ _ _ _ _ | .ixcreate _ _ | .ixfamily _ _ | .sent _ _ _ _ => true
  | _ => false

/-- Operations of a thread that have not completed, those that a unit finishes on its own apart. -/
def State.opsOf (s : State) (tid : Nat) : Bool :=
  let g := (s.thread tid).gang
  s.ops.any fun p => match p.2 with | some o => o.tid == tid && o.gang == g && !o.op.own | none => false

/-- The operation reads or writes rows or accumulators of its thread's core, so that a save has to wait for it (R95, R96). -/
def UnitOp.rows : UnitOp → Bool
  | .fill _ _ _ _ | .drain _ _ _ | .tcopy _ _ _ | .matrix _ _ _ _ _ _ _ _ _ _ _ => true
  | .awl _ _ tile => tile.isSome
  | .posting _ tile _ _ => tile.isSome
  | _ => false

/-- An operation of the thread has rows to write or to read still. -/
def State.rowOps (s : State) (tid : Nat) : Bool :=
  let g := (s.thread tid).gang
  s.ops.any fun p => match p.2 with | some o => o.tid == tid && o.gang == g && o.op.rows | none => false

/-- Jobs of a thread at its cluster's Lanterns. -/
def State.jobsOf (s : State) (tid : Nat) : Bool :=
  let g := (s.thread tid).gang
  (s.cluster (cluOf tid)).jobs.any fun j => j.tid == tid && j.gang == g

/-- An engine command issues only after the thread's earlier scalar stores have performed at their homes, and not before
OVT = 0 words have (R159, R160). -/
def State.engineWaits (s : State) : Bool := !s.drained s.cur || s.ovtHolds s.cur

end Sys2Proof.Machine
end

