-- ==== Sys2Proof/Machine/Tiles.lean ====
section
/-! DEFINITION. Tiles and the tile table: shape records, placement of rows, fills and drains, the tile instructions
(R136 to R138, R332 to R338). -/

namespace Sys2Proof.Machine

/-- Entry that a handle maps to (R136); handles hold the entry's number plus one. -/
def Thread.handle (t : Thread) (h : Nat) : Option Nat :=
  match Tab.get 0 t.handles h with | 0 => none | i + 1 => some i
def Thread.bind (t : Thread) (h : Nat) (i : Option Nat) : Thread :=
  { t with handles := Tab.set 0 t.handles h (match i with | none => 0 | some i => i + 1) }

/-! Shapes (R332, R333). -/

/-- A shape record from its 512 bits; its addresses are zero-extended, so that one with bit 47 set is not canonical (log
entry 25). -/
def Shape.of (r : Nat) : Shape :=
  { fmt := bitsOf r 3 0, awm := bitsOf r 7 4, comp := bitsOf r 9 8, spm := bitOf r 10, ro := bitOf r 11,
    lgbk := bitsOf r 14 12, ext0 := bitsOf r 31 16, ext1 := bitsOf r 47 32, frq := bitsOf r 54 48,
    base := word (bitsOf r 111 64), stride := bitsOf r 159 128, sstride := bitsOf r 191 160,
    scb := word (bitsOf r 239 192), mdb := word (bitsOf r 303 256), escb := word (bitsOf r 367 320) }

/-- Reserved bits of a shape record. -/
def shapeReserved (r : Nat) : Bool :=
  bitOf r 15 || bitsOf r 63 55 != 0 || bitsOf r 127 112 != 0 || bitsOf r 255 240 != 0 || bitsOf r 319 304 != 0
    || bitsOf r 511 368 != 0

/-- A raw-bit tile (R333). -/
def Shape.raw (sh : Shape) : Bool := !sh.ro && (sh.fmt == 3 || sh.fmt == 4)
/-- Planes of an element in the lanes. -/
def Shape.w (sh : Shape) : Nat := if sh.raw then 16 else fmtPlanes sh.fmt (sh.awm + 1)
/-- Block size, 0 for a tile without blocks. -/
def Shape.bs (sh : Shape) : Nat := if sh.raw then 0 else fmtBlock sh.fmt
/-- Elements and blocks. -/
def Shape.elems (sh : Shape) : Nat := sh.ext0 * sh.ext1
def Shape.blocks (sh : Shape) : Nat := if sh.bs = 0 then 0 else sh.elems / sh.bs
/-- Row bytes RB. -/
def Shape.rowBytes (sh : Shape) : Nat :=
  match sh.fmt with
  | 0 | 1 => if sh.awm < 8 then sh.ext1 else 2 * sh.ext1
  | 2 => sh.ext1 / 4
  | 3 | 4 => 2 * sh.ext1
  | 5 | 6 => sh.ext1
  | 11 | 12 | 13 => sh.ext1 / 16 * sxBytes sh.fmt
  | _ => sh.ext1 * mxBits sh.fmt / 8
/-- Alignment of the base. -/
def Shape.baseAlign (sh : Shape) : Nat :=
  match sh.fmt with
  | 0 | 1 => if sh.awm < 8 then 1 else 2
  | 3 | 4 => 2
  | 7 | 8 | 9 | 10 => 4
  | 11 | 12 | 13 => 2
  | _ => 1

/-- Lanes a layer holds: U × 2^LGBK. -/
def layerLanes (u lgbk : Nat) : Nat := u * 2 ^ lgbk
/-- NROWS of R333. -/
def Shape.nrows (sh : Shape) (u : Nat) : Nat :=
  let n := layerLanes u sh.lgbk
  sh.w * ceilDiv sh.elems n + 16 * ceilDiv sh.blocks n

/-- Data layers of a tile. -/
def Tile.layers (t : Tile) : Nat := ceilDiv t.shape.elems (layerLanes t.usable t.shape.lgbk)
/-- Banks of a tile. -/
def Tile.banks (t : Tile) : List Nat := (List.range (2 ^ t.shape.lgbk)).map (t.fbank + ·)

/-- Checks 1 to 15 of R334 in order; `held`: the bank group is wholly held by the task; `operand`: without checks 5, 6 and
11, as check 22 of R355 has them. -/
def shapeCheck (sh : Shape) (r : Nat) (fb : Word) (held : Bool) (operand : Bool := false) : Option Nat :=
  if 14 ≤ sh.fmt then some 1
  else if (sh.awm ≠ 0 ∧ (sh.fmt = 2 ∨ 7 ≤ sh.fmt)) ∨ (sh.raw ∧ sh.awm ≠ 15) then some 2
  else if sh.comp = 3 ∨ (sh.comp ≠ 0 ∧ 1 < sh.fmt) then some 3
  else if sh.spm ∧ sh.comp ≠ 0 then some 4
  else if !operand ∧ !sh.ro ∧ (!(sh.fmt ≤ 1 || sh.fmt == 3 || sh.fmt == 4) ∨ sh.comp ≠ 0 ∨ sh.spm) then some 5
  else if !operand ∧ (fb.toNat % 64 % 2 ^ sh.lgbk ≠ 0 ∨ !held) then some 6
  else if sh.ext0 = 0 then some 7
  else if sh.ext1 = 0 ∨ (sh.bs ≠ 0 ∧ sh.ext1 % sh.bs ≠ 0) ∨ (sh.fmt = 2 ∧ sh.ext1 % 4 ≠ 0)
      ∨ (sh.comp = 1 ∧ sh.ext1 % 64 ≠ 0) then some 8
  else if (sh.comp = 1 ∧ (sh.frq < 2 ∨ 32 < sh.frq)) ∨ (sh.comp ≠ 1 ∧ sh.frq ≠ 0) then some 9
  else if !canonical sh.base ∨ sh.base.toNat % sh.baseAlign ≠ 0 then some 10
  else if !operand ∧ !sh.ro ∧ sh.stride < sh.rowBytes then some 11
  else if (7 ≤ sh.fmt ∧ sh.fmt ≤ 10 ∧ !canonical sh.scb)
      ∨ (¬ (7 ≤ sh.fmt ∧ sh.fmt ≤ 10) ∧ (sh.scb ≠ 0 ∨ sh.sstride ≠ 0)) then some 12
  else if (sh.spm ∧ (sh.mdb.toNat % 4 ≠ 0 ∨ !canonical sh.mdb)) ∨ (!sh.spm ∧ sh.mdb ≠ 0) then some 13
  else if (sh.comp = 1 ∧ sh.escb.toNat % 64 ≠ 0) ∨ (sh.comp ≠ 1 ∧ sh.escb ≠ 0) then some 14
  else if shapeReserved r ∨ 64 ≤ fb.toNat then some 15
  else none

/-! Rows of tiles. -/

/-- One plane of a list of lane values. -/
def planeOf (j : Nat) (vs : List Nat) : Row := BitVec.ofNat 2048 (vs.foldr (fun v n => 2 * n + b2n (bitOf v j)) 0)
/-- The planes of a list of lane values. -/
def planesOf (w : Nat) (vs : List Nat) : List Row := (List.range w).map fun j => planeOf j vs

/-- Write values `vs`, in layers of `w` planes from row `r0` up, over the tile's banks (R333). -/
def Tile.writeLayers (t : Tile) (w r0 layers : Nat) (vs : List Nat) (c : Core) : Core :=
  let n := layerLanes t.usable t.shape.lgbk
  (List.range layers).foldl (fun c l =>
    (t.banks.zipIdx).foldl (fun c b =>
      c.writeRows b.1 (r0 + w * l) (planesOf w ((vs.drop (l * n + b.2 * t.usable)).take t.usable))) c) c

/-- Write a tile's lane integers and scale words (R133, R333). -/
def Tile.write (t : Tile) (lanes scales : List Nat) (c : Core) : Core :=
  let n := layerLanes t.usable t.shape.lgbk
  let ld := ceilDiv t.shape.elems n
  t.writeLayers 16 (t.frow + t.shape.w * ld) (ceilDiv t.shape.blocks n) scales (t.writeLayers t.shape.w t.frow ld lanes c)

/-- Bank, lane and first row of entry `i` in layers of `w` planes from row `r0`. -/
def Tile.at_ (t : Tile) (w r0 i : Nat) : Nat × Nat × Nat :=
  let n := layerLanes t.usable t.shape.lgbk
  (t.fbank + i % n / t.usable, i % n % t.usable, r0 + w * (i / n))

/-- Element `e` of a tile: its lane integer. -/
def Tile.elem (t : Tile) (c : Core) (e : Nat) : Nat :=
  let (b, l, r) := t.at_ t.shape.w t.frow e
  elemOf ((List.range t.shape.w).map fun j => c.row b (r + j)) l

/-- Scale word of block `b` of a tile. -/
def Tile.scale (t : Tile) (c : Core) (b : Nat) : Nat :=
  let (k, l, r) := t.at_ 16 (t.frow + t.shape.w * t.layers) b
  elemOf ((List.range 16).map fun j => c.row k (r + j)) l

/-! Fills (R144, R178, R181, R182, R199 to R202, R333). -/

/-- Elements from bytes, `n` bits each, from bit 0. -/
def bitElems (n cnt : Nat) (bs : List Byte) : List Nat :=
  let v := leNat bs
  (List.range cnt).map fun i => v / 2 ^ (n * i) % 2 ^ n

/-- Bits of one element in memory, for the formats with an element encoding of their own. -/
def Shape.elemBits (sh : Shape) : Nat :=
  match sh.fmt with
  | 0 | 1 => if sh.awm < 8 then 8 else 16
  | 2 => 2 | 3 | 4 => 16 | 5 | 6 => 8
  | _ => mxBits sh.fmt

/-- A memory element as a lane integer, for formats without alignment. -/
def Shape.laneOf (sh : Shape) (v : Nat) : Nat :=
  match sh.fmt with
  | 7 | 8 | 9 | 10 => mxLane sh.fmt v
  | _ => v % 2 ^ sh.w

/-- Align the groups of 16 of a list of raw elements. -/
def alignAll (f : Fmt) (aw : Nat) : Nat → List Nat → List Nat × List Nat × BitVec 8
  | 0, _ => ([], [], 0)
  | k + 1, vs =>
    let (ls, sc, fl) := alignGroup f aw (vs.take 16)
    let r := alignAll f aw k (vs.drop 16)
    (ls ++ r.1, sc :: r.2.1, fl ||| r.2.2)

/-- Lane integers, scale words and flags of raw elements in element order; MX scale words are read elsewhere. -/
def Shape.convert (sh : Shape) (vs : List Nat) : List Nat × List Nat × BitVec 8 :=
  if 3 ≤ sh.fmt ∧ sh.fmt ≤ 6 ∧ sh.ro then alignAll (fmtFloat sh.fmt) (sh.awm + 1) (vs.length / 16) vs
  else (vs.map sh.laneOf, [], 0)

/-- MX scale words: row r's scale bytes at SCB + r × SSTRIDE (R177, R333). -/
def State.mxScales (s : State) (w : Who) (sh : Shape) (scb : Word) : Except EngErr (List Nat × State) :=
  (List.range sh.ext0).foldlM (fun r i =>
    match r.2.engRead w (scb + word (i * sh.sstride)) (sh.ext1 / 32) with
    | .error e => .error e
    | .ok (bs, s) => .ok (r.1 ++ bs.map (fun x => mxScale sh.fmt x.toNat), s)) ([], s)

/-- One row's raw elements, or SX blocks. -/
def State.fillRows (s : State) (w : Who) (sh : Shape) (base : Word) : Except EngErr (List Byte × State) :=
  (List.range sh.ext0).foldlM (fun r i =>
    match r.2.engRead w (base + word (i * sh.stride)) sh.rowBytes with
    | .error e => .error e
    | .ok (bs, s) => .ok (r.1 ++ bs, s)) ([], s)

/-- Elements `e0` to `e0 + n - 1` of a sparse tile: packed length and bitmap whole, and the packed elements among them
(R333, R144). -/
def State.fillSparse (s : State) (w : Who) (sh : Shape) (base mdb : Word) (e0 n : Nat) : Except EngErr (List Nat × State) := do
  let (h, s) ← s.engRead w mdb 4
  let (m, s) ← s.engRead w (mdb + 4) (ceilDiv sh.elems 8)
  let npk := leNat h
  let bm := leNat m % 2 ^ sh.elems
  if popNat sh.elems bm ≠ npk then .error .metadata
  else
    let below := popNat e0 bm
    let cnt := popNat n (bm / 2 ^ e0)
    let bit0 := below * sh.elemBits
    let (bs, s) ← s.engRead w (base + word (bit0 / 8)) (ceilDiv ((below + cnt) * sh.elemBits) 8 - bit0 / 8)
    let v := leNat bs / 2 ^ (bit0 % 8)
    let vs := (List.range cnt).map fun i => v / 2 ^ (sh.elemBits * i) % 2 ^ sh.elemBits
    let step (r : List Nat × List Nat) (e : Nat) : List Nat × List Nat :=
      if bitOf bm (e0 + e) then ((r.2.headD 0) :: r.1, r.2.drop 1) else (0 :: r.1, r.2)
    .ok (((List.range n).foldl step ([], vs)).1.reverse, s)

/-- Fixed-rate blocks `b0` to `b0 + n - 1` of the run at BASE, escapes at ESCB: no other block is read (R199, R333). -/
def State.fillBlocks (s : State) (w : Who) (sh : Shape) (base : Word) (b0 n : Nat) : Except EngErr (List Nat × State) :=
  let t := 4 * sh.frq
  let sg := sh.fmt == 0
  (List.range n).foldlM (fun r i =>
    let va := base + word ((b0 + i) * t)
    match r.2.engRead w va t with
    | .error e => .error e
    | .ok (bs, s) =>
      match frDecode sg (sh.awm + 1) bs with
      | .bad => .error (.fault (engReason 6) va)
      | .vals xs => .ok (r.1 ++ xs.map (ofSigned (sh.awm + 1)), s)
      | .esc n =>
        match s.engRead w (sh.escb + word (128 * n)) 128 with
        | .error .hold => .error .hold
        | .error _ => .error (.fault (engReason 6) (sh.escb + word (128 * n)))
        | .ok (raw, s) =>
          let xs := rawVals sg raw
          if xs.all (inRange sg (sh.awm + 1)) then .ok (r.1 ++ xs.map (ofSigned (sh.awm + 1)), s)
          else .error (.fault (engReason 6) (sh.escb + word (128 * n)))) ([], s)

/-- An Orcel stream at BASE (R200 to R202, R333). -/
def State.fillOrcel (s : State) (w : Who) (sh : Shape) (base : Word) : Except EngErr (List Nat × State) := do
  let bad : EngErr := .fault (engReason 6) base
  let (h, s) ← s.engRead w base 12
  let w0 := leNat (h.take 4)
  let nl := w0 % 4096 + 1
  let cnt := leNat (sub h 4 4)
  let nw := leNat (sub h 8 4)
  if bitsOf w0 31 17 ≠ 0 ∨ 2048 < nl ∨ nl * cnt ≠ sh.elems then .error bad
  else
    let (ks, s) ← s.engRead w (base + 12) (4 * ceilDiv nl 8)
    let (ds, s) ← s.engRead w (base + 12 + word (4 * ceilDiv nl 8)) (4 * nw)
    let k := leNat ks
    match orcelRun (bitOf w0 16) (bitsOf w0 15 12 + 1) ((List.range nl).map fun n => k / 2 ^ (4 * n) % 16) cnt
        ((List.range nl).map fun _ => (0, 0)) (words32 ds nw) with
    | none => .error bad
    | some vs =>
      if vs.all (inRange (sh.fmt == 0) (sh.awm + 1)) then .ok (vs.map (ofSigned (sh.awm + 1)), s) else .error bad

/-- SX blocks, row by row. -/
def sxFill (fmt n : Nat) (bs : List Byte) : List Nat × List Nat :=
  let k := sxBytes fmt
  let blk (b : Nat) : Nat := leNat (sub bs (k * b) k)
  ((List.range n).flatMap (fun b => (List.range 16).map (sxLane fmt (blk b))), (List.range n).map fun b => sxScale fmt (blk b))

/-- Rows `r0` to `r0 + n - 1` of a plain shape. -/
def Shape.part (sh : Shape) (r0 n : Nat) : Shape :=
  { sh with ext0 := n, base := sh.base + word (r0 * sh.stride), scb := sh.scb + word (r0 * sh.sstride) }

/-- The lane integers, scale words and flags of rows `r0` to `r0 + n - 1` of a shape, with offsets added to BASE and to SCB or
MDB: nothing is read but what they need. Packed values of a sparse SX tile have no stated form: they are free values (log
entry 23). -/
def State.fillPart (s : State) (w : Who) (sh : Shape) (off soff : Word) (r0 n : Nat) :
    Except EngErr (List Nat × List Nat × BitVec 8 × State) := do
  let base := sh.base + off
  let p := sh.part r0 n
  let e0 := r0 * sh.ext1
  if sh.comp = 1 then
    let (vs, s) ← s.fillBlocks w sh base (e0 / 64) (p.elems / 64)
    .ok (vs, [], 0, s)
  else if sh.comp = 2 then
    let (vs, s) ← s.fillOrcel w sh base
    .ok ((vs.drop e0).take p.elems, [], 0, s)
  else if sh.spm then
    let (vs, s) ← s.fillSparse w sh base (sh.mdb + soff) e0 p.elems
    if 11 ≤ sh.fmt then
      let fr (i : Nat) : Nat := (Config.freeWord (s.free + i)).toNat
      .ok (vs.zipIdx.map (fun q => if q.1 = 0 then 0 else fr (e0 + q.2) % 2 ^ sh.w),
        (List.range p.blocks).map (fun b => fr (sh.elems + e0 / sh.bs + b) % 2 ^ 16), 0,
        { s with free := s.free + sh.elems + sh.blocks })
    else
      let (ls, sc, fl) := sh.convert vs
      if 7 ≤ sh.fmt then
        let (sc, s) ← s.mxScales w p p.scb
        .ok (ls, sc, fl, s)
      else .ok (ls, sc, fl, s)
  else
    let (bs, s) ← s.fillRows w p (p.base + off)
    if 11 ≤ sh.fmt then
      let (ls, sc) := sxFill sh.fmt (p.elems / 16) bs
      .ok (ls, sc, 0, s)
    else
      let (ls, sc, fl) := sh.convert (bitElems sh.elemBits p.elems bs)
      if 7 ≤ sh.fmt then
        let (sc, s) ← s.mxScales w p (p.scb + soff)
        .ok (ls, sc, fl, s)
      else .ok (ls, sc, fl, s)

/-- A fill of a whole shape, once BASE and MDB with their offsets have their alignment (R337, log entry 74). -/
def State.fill (s : State) (w : Who) (sh : Shape) (off soff : Word) :
    Except EngErr (List Nat × List Nat × BitVec 8 × State) :=
  if (sh.base + off).toNat % sh.baseAlign ≠ 0 then .error (.fault (engReason 5) (sh.base + off))
  else if sh.comp = 0 ∧ sh.spm ∧ (sh.mdb + soff).toNat % 4 ≠ 0 then .error (.fault (engReason 5) (sh.mdb + soff))
  else s.fillPart w sh off soff 0 sh.ext0

/-- The runs of memory that a fill reads, as far as the shape record tells them: blocks, packed data of `npk` elements, rows,
metadata and MX scales (R333). -/
def Shape.runs (sh : Shape) (off soff : Word) (npk : Nat) : List (Word × Nat) :=
  let rows (a : Word) (stride n : Nat) : List (Word × Nat) := (List.range sh.ext0).map fun r => (a + word (r * stride), n)
  let base := sh.base + off
  if sh.comp = 1 then [(base, 4 * sh.frq * (sh.elems / 64))]
  else if sh.comp = 2 then [(base, 12 + 2 * sh.elems)]
  else
    (if sh.spm then [(sh.mdb + soff, 4 + ceilDiv sh.elems 8), (base, ceilDiv (npk * sh.elemBits) 8)]
      else rows base sh.stride sh.rowBytes)
      ++ (if 7 ≤ sh.fmt ∧ sh.fmt ≤ 10 then rows (sh.scb + if sh.spm then 0 else soff) sh.sstride (sh.ext1 / 32) else [])

/-- The bytes that a drain writes for row `r` (R333). -/
def Tile.rowOut (t : Tile) (c : Core) (r : Nat) : List Byte :=
  let sh := t.shape
  (List.range sh.ext1).flatMap fun k =>
    let v := t.elem c (r * sh.ext1 + k)
    let n := sh.elemBits
    leBytes (n / 8) (if sh.fmt = 0 then ofSigned n (toSigned sh.w v) else v)

/-! Binding (R335). -/

/-- The row ranges of bound entries in a common bank never overlap: rows [fr, fr + n) are free in every bank of a group. -/
def Core.rowsFree (c : Core) (fb lgbk fr n : Nat) : Bool :=
  c.tiles.all fun p => match p.2 with
    | none => true
    | some t => !(overlaps fb (2 ^ lgbk) t.fbank (2 ^ t.shape.lgbk) && overlaps fr n t.frow t.nrows)

/-- The lowest free entry and the lowest free rows for a tile of `n` rows. -/
def Core.findTile (c : Core) (fb lgbk n : Nat) : Option (Nat × Nat) :=
  match findBelow (fun i => (c.tile? i).isNone) 64,
      findBelow (fun r => decide (272 ≤ r) && decide (r + n ≤ 512) && c.rowsFree fb lgbk r n) 512 with
  | some i, some r => some (i, r)
  | _, _ => none

/-- The fewest usable lanes of a bank group at TCFG (R333). -/
def Core.groupLanes (c : Core) (fb lgbk : Nat) : Nat := c.fewest ((List.range (2 ^ lgbk)).map (fb + ·))

/-- Bind a new EMPTY entry. -/
def Core.newTile (c : Core) (sh : Shape) (fb owner : Nat) (q : Option Nat) : Option (Nat × Core) :=
  let u := c.groupLanes fb sh.lgbk
  let n := sh.nrows u
  match c.findTile fb sh.lgbk n with
  | none => none
  | some (i, r) =>
    some (i, c.setTile i (some { st := .empty, flt := false, stream := q, owner, frow := r, nrows := n, fbank := fb
                                 shape := sh, usable := u }))

/-- Whether a group of banks is wholly held by the executing thread's task (mvlcore). -/
def State.groupHeld (s : State) (fb lgbk : Nat) : Bool :=
  let held := s.taskBanks
  decide (fb + 2 ^ lgbk ≤ 64) && (List.range (2 ^ lgbk)).all fun i => held.contains (fb + i)

/-- TSTAT's view of an entry (R136). -/
def Tile.word (t : Tile) : Word :=
  let st := match t.st with | .empty => 0 | .filling => 1 | .ready => 2 | .draining => 3
  Sys2Proof.word (st + 4 * b2n t.flt + 8 * b2n t.stream.isSome + 16 + 32 * t.owner + 2 ^ 8 * t.frow + 2 ^ 17 * t.nrows
    + 2 ^ 25 * t.fbank + 2 ^ 31 * t.shape.lgbk + 2 ^ 34 * (t.stream.getD 0) + 2 ^ 37 * min t.rdrs 255)

/-! Traps of the tile instructions. -/

/-- TILE_STATE (R338). -/
def State.tileState (s : State) (reason entry h : Nat) : Out :=
  s.trap 28 0 (word (reason + 2 ^ 8 * entry + 2 ^ 14 * h))

/-- SHAPE_FAULT with the number of the failing check (R334). -/
def State.shapeFault (s : State) (n : Nat) : Out := s.trap 26 0 (word n)

/-- What reading a record in memory gives a thread: its bytes, a wait, or a trap (cause, mtval, mtrapx). -/
inductive Got where
  | ok (v : Nat) (s : State)
  | wait
  | bad (cause : Nat) (tval info : Word)

/-- Read a record of `n` bytes, aligned to its size, as a scalar load of the thread (R334, R291). -/
def State.getRecord (s : State) (va : Word) (n align : Nat) : Got :=
  if va.toNat % align ≠ 0 then .bad 4 va 0
  else match s.xlateMe .read va with
    | .error .hold => .wait
    | .error (.home ea e) => .bad 5 va (accessInfo ea (e == .mem) (e == .link))
    | .error _ => .bad 13 va 0
    | .ok pa =>
      if !inMemory pa n then .bad 5 va (accessInfo pa false false)
      else match (linesOf pa n).findSome? fun l => s.homeErr (dieOf s.cur) true (l * 64) with
      | some e => .bad 5 va (accessInfo pa (e == .mem) (e == .link))
      | none =>
      if s.pathHolds (dieOf s.cur) pa || (linesOf pa n).any s.owned then .wait
      else .ok (leNat (s.bytesOf s.cur pa n)) ((linesOf pa n).foldl (fun s l => s.observe (dieOf s.cur) l) s)

/-! The instructions (R336). -/

/-- TCFG (R334, R335). -/
def execTcfg (h rs1 rs2 : Reg) (s : State) : Out :=
  match s.me.handle h.toNat with
  | some e => s.tileState 6 e h.toNat
  | none =>
    if s.ovtHolds s.cur then s.stall else
    match s.getRecord (s.rd rs1) 64 64 with
    | .bad c v i => s.trap c v i
    | .wait => s.stall
    | .ok r s =>
      let sh := Shape.of r
      let fb := s.rd rs2
      match shapeCheck sh r fb (s.groupHeld (fb.toNat % 64) sh.lgbk) with
      | some n => s.shapeFault n
      | none =>
        if 240 < sh.nrows (s.myCore.groupLanes fb.toNat sh.lgbk) then s.shapeFault 16
        else match s.myCore.newTile sh fb.toNat (thrOf s.cur) none with
          | none => s.shapeFault 17
          | some (i, c) => .next ((s.setCore (coreOf s.cur) c).updMe fun t => t.bind h.toNat (some i)).advance

/-- The tile a handle names, for an instruction that needs it READY: R138. -/
inductive Named where
  | ready (i : Nat) (t : Tile)
  | stall
  | bad (reason entry : Nat)

/-- Resolve a handle for a reader (R138). -/
def State.named (s : State) (h : Nat) : Named :=
  match s.me.handle h with
  | none => .bad 2 0
  | some i =>
    match s.myCore.tile? i with
    | none => .bad 2 i
    | some t =>
      match t.st with
      | .ready => .ready i t
      | .filling | .draining => .stall
      | .empty => .bad 1 i

/-- Resolve a handle for a fill into it: EMPTY or READY, no readers (R137). -/
def State.namedDst (s : State) (h : Nat) : Named :=
  match s.me.handle h with
  | none => .bad 2 0
  | some i =>
    match s.myCore.tile? i with
    | none => .bad 2 i
    | some t =>
      match t.st with
      | .filling | .draining => .stall
      | _ => if t.rdrs = 0 then .ready i t else .stall

/-- The translations that a fill pins at its issue: those of every run that it may read, its escapes among them (R151). -/
def State.fillPages (s : State) (sh : Shape) (off soff : Word) : List PagePin :=
  ((sh.runs off soff sh.elems ++ if sh.comp = 1 then [(sh.escb, 2 * sh.elems)] else []).flatMap fun x =>
    s.engPages s.whoMe .read x.1 x.2).eraseDups

/-- TLOAD: a fill begins (R336, R137). -/
def execTload (h rs1 rs2 : Reg) (s : State) : Out :=
  match s.namedDst h.toNat with
  | .bad r e => s.tileState r e h.toNat
  | .stall => s.stall
  | .ready i t =>
    if s.engineWaits || s.me.joinStalls 0 then s.stall
    else
      let s1 := s.updMyCore fun c => c.updTile i fun t => { t with st := .filling, flt := false }
      .next (s1.issueOp 0 [] (s.fillPages t.shape (s.rd rs1) (s.rd rs2))
        (.fill (coreOf s.cur) i (s.rd rs1) (s.rd rs2))).advance

/-- TSTORE: a drain begins (R336, R137). Its destination lines are owned from issue (R169). -/
def execTstore (h rs1 : Reg) (s : State) : Out :=
  match s.named h.toNat with
  | .bad r e => s.tileState r e h.toNat
  | .stall => s.stall
  | .ready i t =>
    if t.shape.ro then s.tileState 3 i h.toNat
    else if t.rdrs ≠ 0 || s.engineWaits || s.me.joinStalls 1 then s.stall
    else
      let off := s.rd rs1
      let row (r : Nat) : Word := t.shape.base + off + word (r * t.shape.stride)
      let owns := (List.range t.shape.ext0).flatMap fun r => s.engLines s.whoMe (row r) t.shape.rowBytes
      let pages := ((List.range t.shape.ext0).flatMap fun r => s.engPages s.whoMe .write (row r) t.shape.rowBytes).eraseDups
      if s.linesPending s.cur owns then s.stall
      else
        let s1 := s.updMyCore fun c => c.updTile i fun t => { t with st := .draining }
        .next (s1.issueOp 1 owns pages (.drain (coreOf s.cur) i off)).advance

/-- A stream slot that its consumer gives back (R137, R340). -/
def Core.releaseSlot (c : Core) (i : Nat) : Core := c.updTile i fun t => { t with st := .empty }

/-- A stream slot that TFREE gives back: FLT is cleared too (R136). -/
def Core.freeSlot (c : Core) (i : Nat) : Core := c.updTile i fun t => { t with st := .empty, flt := false }

/-- TFREE (R137, R138, R340). -/
def execTfree (h : Reg) (s : State) : Out :=
  match s.me.handle h.toNat with
  | none => s.tileState 2 0 h.toNat
  | some i =>
    match s.myCore.tile? i with
    | none => .next (s.updMe fun t => t.bind h.toNat none).advance
    | some t =>
      match t.st with
      | .filling | .draining => s.stall
      | _ =>
        if t.rdrs ≠ 0 then s.stall
        else
          let s1 := s.updMyCore fun c => if t.stream.isSome then c.freeSlot i else c.setTile i none
          .next (s1.updMe fun t => t.bind h.toNat none).advance

/-- TSTAT (R336). -/
def execTstat (rd h : Reg) (s : State) : Out :=
  let v : Word := match s.me.handle h.toNat with
    | none => 0
    | some i => match s.myCore.tile? i with | none => 0 | some t => t.word
  s.ret rd v

/-- TCOPY (R336). -/
def execTcopy (hd hs : Reg) (s : State) : Out :=
  match s.named hs.toNat with
  | .bad r e => s.tileState r e hs.toNat
  | .stall => s.stall
  | .ready i t =>
    match s.me.handle hd.toNat with
    | none => s.tileState 2 0 hd.toNat
    | some j =>
      if i = j then s.tileState 9 i hd.toNat
      else match s.namedDst hd.toNat with
        | .bad r e => s.tileState r e hd.toNat
        | .stall => s.stall
        | .ready j d =>
          if d.shape.lgbk ≠ t.shape.lgbk ∨ d.nrows ≠ t.nrows ∨ d.shape.w ≠ t.shape.w ∨ d.usable ≠ t.usable then
            s.tileState 4 j hd.toNat
          else if t.rdrs ≠ 0 || s.engineWaits || s.me.joinStalls 2 then s.stall
          else
            let s1 := s.updMyCore fun c => (c.updTile j fun t => { t with st := .filling }).updTile i
              fun t => { t with st := .draining }
            .next (s1.issueOp 2 [] [] (.tcopy (coreOf s.cur) j i)).advance

/-! Completions (R137, R169). -/

/-- TILE_FILL_COMPLETE: the tile becomes READY, or EMPTY with FLT set; the fill waits for lines that another command owns and
for channels that retrain (R52, R169). -/
def execTileFillComplete (s : State) : Out :=
  match s.op? s.ev.idx with
  | some o =>
    match o.op with
    | .fill core i off soff =>
      match (s.core core).tile? i with
      | none => .next (s.setOp s.ev.idx none)
      | some t =>
        match s.fill (o.who s.ev.idx) t.shape off soff with
        | .error .hold => .next s
        | .error e =>
          .next ((s.updCore core fun c => c.updTile i fun t => { t with st := .empty, flt := true }).finishOp
            s.ev.idx (some (e.trap (some i))) 0)
        | .ok (ls, sc, fl, s) =>
          .next ((s.updCore core fun c => (t.write ls sc c).updTile i fun t => { t with st := .ready }).finishOp
            s.ev.idx none fl)
    | _ => .next s
  | none => .next s

/-- All rows of a drain, or the first failing line; nothing is written before every line translates. -/
def State.drainRows (s : State) (w : Who) (core i : Nat) (off : Word) : State × Option EngErr :=
  match (s.core core).tile? i with
  | none => (s, none)
  | some t =>
    let addr (r : Nat) : Word := t.shape.base + off + word (r * t.shape.stride)
    if (t.shape.base + off).toNat % t.shape.baseAlign ≠ 0 then (s, some (.fault (engReason 5) (t.shape.base + off)))
    else
      match (List.range t.shape.ext0).findSome? fun r =>
          match s.engCheck w (addr r) t.shape.rowBytes with | .error e => some e | .ok _ => none with
      | some e => (s, some e)
      | none => (List.range t.shape.ext0).foldl (fun (x : State × Option EngErr) r =>
          match x.2 with
          | some _ => x
          | none => x.1.engWrite w (addr r) (t.rowOut (s.core core) r)) (s, none)

/-- TILE_DRAIN_COMPLETE: the drain writes its lines, and once all are written at their homes the tile is READY again, with FLT
set when the drain faulted. -/
def execTileDrainComplete (s : State) : Out :=
  match s.op? s.ev.idx with
  | some o =>
    match o.op with
    | .drain core i off =>
      match s.drainRows (o.who s.ev.idx) core i off with
      | (_, some .hold) => .next s
      | (s1, e) => .next (s1.posted s.ev.idx o core (some i) (e.map fun e => e.trap (some i)) 0)
    | .posting _ (some _) _ _ => .next (s.endPost s.ev.idx)
    | _ => .next s
  | none => .next s

/-- Copy every row of a tile to another of the same form (R336). -/
def copyTile (d t : Tile) (c : Core) : Core :=
  (t.banks.zip d.banks).foldl (fun c b =>
    (List.range t.nrows).foldl (fun c r => c.setRow b.2 (d.frow + r) (c.row b.1 (t.frow + r))) c) c

/-- The end of a TCOPY: the copy is READY, and the source READY again, or EMPTY if it is a stream slot (R137). -/
def State.finishTcopy (s : State) (id : Nat) (core j i : Nat) : State :=
  let s1 := s.updCore core fun c =>
    let c := match c.tile? j, c.tile? i with | some d, some t => copyTile d t c | _, _ => c
    (c.updTile j fun t => { t with st := .ready }).updTile i fun t => { t with st := if t.stream.isSome then .empty else .ready }
  s1.finishOp id none 0

end Sys2Proof.Machine
end

