-- ==== Sys2Proof/Machine/Access.lean ====
section
/-! DEFINITION. Scalar accesses: where one goes, what it waits for, its fault; atomics at a home slice; what fences wait
for (R15, R102, R156 to R162). -/

namespace Sys2Proof.Machine

/-- Where a scalar access of the executing thread goes: a place in memory, a word of the register space or of the
Campanile window, a wait, or a trap (cause, mtval, mtrapx). -/
inductive Place where
  | mem (pa : Nat)
  | dev (pa : Nat)
  | wait
  | bad (cause : Nat) (tval info : Word)

/-- Causes of a kind of access: misaligned, page fault, access fault. -/
structure Causes where
  mis  : Nat
  page : Nat
  acc  : Nat

def loadCauses : Causes := ⟨4, 13, 5⟩
def storeCauses : Causes := ⟨6, 15, 7⟩

/-- The address is not naturally aligned for `n` bytes, and is no physical address of the register space or the Campanile
window, where R17 gives the access fault instead (R102). -/
def State.misaligned (s : State) (va : Word) (n : Nat) : Bool :=
  decide (va.toNat % n ≠ 0) && !(s.me.mode == .m && (region va.toNat == .registers || region va.toNat == .campanile))

/-- Resolve a scalar access of `n` bytes (R15, R17, R52, R53, R55, R102, R150, R159). -/
def State.place (s : State) (need : Need) (cs : Causes) (va : Word) (n : Nat) (reads writes : Bool) : Place :=
  if s.misaligned va n then .bad cs.mis va 0
  else match s.xlateMe need va with
    | .error .hold => .wait
    | .error (.home ea e) => .bad cs.acc va (accessInfo ea (e == .mem) (e == .link))
    | .error _ => .bad cs.page va 0
    | .ok pa =>
      if s.ovtHolds s.cur then .wait
      else match region pa with
      | .hole => .bad cs.acc va (accessInfo pa false false)
      | .registers | .campanile =>
        if s.cut (dieOf s.cur) (homeDie pa) then .bad cs.acc va (accessInfo pa false true) else .dev pa
      | .memory =>
        match s.homeErr (dieOf s.cur) reads pa with
        | some e => .bad cs.acc va (accessInfo pa (e == .mem) (e == .link))
        | none =>
        if s.pathHolds (dieOf s.cur) pa || (if writes then s.writeWaits (lineOf pa) s.cur else s.owned (lineOf pa)) then .wait
        else .mem pa

/-- The access fault of an address that a device range does not serve (R17). -/
def State.accessFault (s : State) (cs : Causes) (va : Word) (pa : Nat) : Out := s.trap cs.acc va (accessInfo pa false false)

/-- An atomic of a thread at the home slice (R162): the old value, and the state after the write. A bound barrier on the
line breaks first, so the atomic reads its image with BOUND = 0 (R383). The die observes what it read and its clock goes
with what it wrote. -/
def State.atomicAt (s : State) (tid pa n : Nat) (f : Nat → Nat) : Nat × State :=
  let s := s.breakBar (lineOf pa)
  let old := s.homeNum pa n
  let s := s.observe (dieOf tid) (lineOf pa)
  (old, (s.homeWrite tid pa (leBytes n (f old))).stampLine (lineOf pa) (s.die (dieOf tid)).clock)

/-- An atomic of an agent that is no thread, acting from a die. -/
def State.atomicAt' (s : State) (die agent pa n : Nat) (f : Nat → Nat) : Nat × State :=
  let s := s.breakBar (lineOf pa)
  let old := s.homeNum pa n
  let s := s.observe die (lineOf pa)
  (old, (s.homeWrite agent pa (leBytes n (f old))).stampLine (lineOf pa) (s.die die).clock)

/-- An atomic waits for earlier writes of its die, and its thread's own stores, to the location, and for the reports before it
in its class (R19, R156, R162). -/
def State.atomicWaits (s : State) (tid pa n : Nat) : Bool :=
  s.syncQueued (dieOf tid) (homeDie pa) || s.pendingTo (dieOf tid) pa n || (s.thread tid).sb.any fun e => overlaps e.addr e.bytes.length pa n

/-- The integer operation of an AMO or a VAMO on `n` bits (R326, R377). -/
def intAtomic (op : AtomOp) (n : Nat) (old x : Nat) : Nat :=
  let a := old % 2 ^ n
  let b := x % 2 ^ n
  match op with
  | .add => (a + b) % 2 ^ n
  | .swap => b
  | .and => a &&& b
  | .or => a ||| b
  | .xor => a ^^^ b
  | .min => if toSigned n a ≤ toSigned n b then a else b
  | .max => if toSigned n a ≥ toSigned n b then a else b
  | .minu => min a b
  | .maxu => max a b
  | _ => b

/-- The FP operation of an atomic (R192, R327, R375), rounded RNE: the new value and its flags. -/
def fpAtomic (op : AtomOp) (f : Fmt) (old x : Nat) : Nat × BitVec 8 :=
  match op with
  | .fadd => f.add RNE (f.read old) (f.read x)
  | .fmin => f.minmax false old x
  | .fmax => f.minmax true old x
  | .fminn => f.minmaxNum false old x
  | .fmaxn => f.minmaxNum true old x
  | _ => (x, 0)

def FpKind.fmt : FpKind → Fmt
  | .fp16 => FP16 | .bf16 => BF16 | .fp32 => FP32

/-- Vector stores, atomics on memory and loads (R282): VIXPROBE stores its lists and loads its records, the other words
of R402 load. -/
def storeWord (w : BitVec 64) : Bool := (decide (0x55 ≤ vwOp w) && decide (vwOp w ≤ 0x58)) || vwOp w == 0x64
def amoWord (w : BitVec 64) : Bool := (vwOp w == 0x59 && decide (vwFn w < 8)) || vwOp w == 0x5A
def loadWord (w : BitVec 64) : Bool :=
  (decide (0x50 ≤ vwOp w) && decide (vwOp w ≤ 0x54)) || (decide (0x64 ≤ vwOp w) && decide (vwOp w ≤ 0x67))

/-- Every element store and vector atomic that the thread queued has performed at a scope (R168, R349). -/
def State.vecQuiet (s : State) (tid scope : Nat) : Bool :=
  !s.queued tid (fun w => storeWord w || amoWord w) && (s.thread tid).held.isEmpty && s.flushed tid scope

end Sys2Proof.Machine
end

