-- ==== Sys2Proof/Machine/Copies.lean ====
section
/-! DEFINITION. Streams, copies, Awl transforms, line operations, batches, WAIT, watermarks and publishing (R146, R147,
R339 to R349). -/

namespace Sys2Proof.Machine

/-! Streams (R339 to R341). -/

def Core.stream (c : Core) (q : Nat) : Stream := Tab.get {} c.streams q
def Core.setStream (c : Core) (q : Nat) (x : Stream) : Core := { c with streams := Tab.set {} c.streams q x }

/-- STREAM_FAULT (R341). -/
def State.streamFault (s : State) (code q : Nat) : Out := s.trap 29 0 (word (code + 2 ^ 16 * q))

/-- Bind the slots of a stream, one after another; none where one cannot be placed (check 17). -/
def Core.newSlots (sh : Shape) (fb owner q : Nat) : Nat → Core → Option (List Nat × Core)
  | 0, c => some ([], c)
  | k + 1, c =>
    match c.newTile sh fb owner (some q) with
    | none => none
    | some (i, c) => (Core.newSlots sh fb owner q k c).map fun p => (i :: p.1, p.2)

/-- What configuring a stream gives: the core after it, a STREAM_FAULT code, a SHAPE_FAULT check, a wait, or a trap. -/
inductive StrCfg where
  | ok (s : State)
  | code (n : Nat)
  | shape (n : Nat)
  | wait
  | bad (cause : Nat) (tval info : Word)

/-- Reserved bits of a stream record (R339); NSM + 1 slots, 1 to 8. -/
def streamReserved (r : Nat) : Bool := bitsOf r 63 48 != 0 || bitsOf r 511 229 != 0

/-- STRCFG for the executing thread with the record at `va` (R339, R340). The spec names no bank group for the slots:
they lie in the aligned group of the shape's size that holds the thread's first bank (log entry 20). -/
def State.strcfg (s : State) (q : Nat) (va : Word) : StrCfg :=
  if va.toNat % 64 ≠ 0 then .code 1
  else match s.getRecord va 64 64 with
  | .bad c v i => .bad c v i
  | .wait => .wait
  | .ok r s =>
    let nsm := bitsOf r 226 224
    if streamReserved r then .code 1
    else match s.getRecord (va48 (bitsOf r 47 0)) 64 64 with
      | .bad c v i => .bad c v i
      | .wait => .wait
      | .ok sr s =>
        let sh := Shape.of sr
        let fb := ctxFirst s.me.csr.vctx / 2 ^ sh.lgbk * 2 ^ sh.lgbk
        match shapeCheck sh sr (word fb) (s.groupHeld fb sh.lgbk) with
        | some n => .shape n
        | none =>
          if !sh.ro then .code 1
          else if 240 < sh.nrows (s.myCore.groupLanes fb sh.lgbk) then .shape 16
          else match Core.newSlots sh fb (thrOf s.cur) q (nsm + 1) s.myCore with
            | none => .code 4
            | some (sl, c) =>
              .ok (s.setCore (coreOf s.cur) (c.setStream q
                { st := .idle, owner := thrOf s.cur, slots := sl, step := word (bitsOf r 127 64)
                  mstep := word (bitsOf r 191 128), nwin := bitsOf r 223 192, nsm
                  last := decide (bitsOf r 228 227 = 2), mode := s.me.mode, root := s.me.csr.vptbase }))

def execStrcfg (q : BitVec 3) (rs1 : Reg) (s : State) : Out :=
  if (s.myCore.stream q.toNat).st ≠ .uncfg then s.streamFault 2 q.toNat
  else if s.ovtHolds s.cur then s.stall
  else match s.strcfg q.toNat (s.rd rs1) with
  | .ok s => .next s.advance
  | .code n => s.streamFault n q.toNat
  | .shape n => s.shapeFault n
  | .wait => s.stall
  | .bad c v i => s.trap c v i

/-- A stream of another thread (R340 code 2). -/
def State.notMine (s : State) (q : Nat) : Bool :=
  let x := s.myCore.stream q
  x.st ≠ .uncfg && x.owner ≠ thrOf s.cur

/-- STRSTART (R340). -/
def execStrstart (q : BitVec 3) (s : State) : Out :=
  let x := s.myCore.stream q.toNat
  if s.notMine q.toNat then s.streamFault 2 q.toNat
  else match x.st with
    | .uncfg => s.streamFault 3 q.toNat
    | .idle =>
      if s.engineWaits then s.stall
      else .next (s.updMyCore fun c => c.setStream q.toNat { x with st := .run }).advance
    | _ => .next s.advance

/-- STRSTOP (R340): every handle on the slots is unbound, and their entries are free. -/
def execStrstop (q : BitVec 3) (s : State) : Out :=
  let x := s.myCore.stream q.toNat
  if s.notMine q.toNat then s.streamFault 2 q.toNat
  else if x.slots.any fun i => match s.myCore.tile? i with | some t => t.rdrs != 0 || t.st == .filling || t.st == .draining | none => false then
    s.stall
  else
    let s1 := s.updMyCore fun c => (x.slots.foldl (fun c i => c.setTile i none) c).setStream q.toNat {}
    let unbind (t : Thread) : Thread := { t with handles := t.handles.filter fun p => !x.slots.contains (p.2 - 1) }
    .next (s1.updMe unbind).advance

/-- STRSTAT (R340). -/
def execStrstat (rd : Reg) (q : BitVec 3) (s : State) : Out :=
  let x := s.myCore.stream q.toNat
  let st := match x.st with | .uncfg => 0 | .idle => 1 | .run => 2 | .fault => 3
  s.ret rd (word (st + 4 * b2n x.atEnd + 8 * x.owner + 64 * x.nsm + 2 ^ 16 * (x.dlv % 2 ^ 32)))

/-- STRBIND (R340); a stream in FAULT fills no further slot, so one that is not READY is EMPTY with no fill pending (R138). -/
def execStrbind (hd : Reg) (q : BitVec 3) (s : State) : Out :=
  let x := s.myCore.stream q.toNat
  let h := hd.toNat
  let mine := match s.me.handle h with | none => true | some i => x.slots.contains i
  if s.notMine q.toNat then s.streamFault 2 q.toNat
  else if x.st = .uncfg ∨ x.st = .idle then s.streamFault 3 q.toNat
  else if !mine then s.tileState 5 ((s.me.handle h).getD 0) h
  else
    let held := s.me.handle h
    let busy := match held with
      | none => false
      | some i => match s.myCore.tile? i with | some t => t.rdrs != 0 || t.st == TileSt.draining | none => false
    if busy then s.stall
    else
      let s1 := match held with
        | none => s
        | some i => (s.updMyCore (·.releaseSlot i)).updMe fun t => t.bind h none
      if x.nwin ≠ 0 ∧ x.nwin ≤ x.dlv then
        .next (s1.updMyCore fun c => c.setStream q.toNat { x with atEnd := true }).advance
      else
        let slot := x.slots.getD (x.dlv % (x.nsm + 1)) 0
        let ready : Bool := match s1.myCore.tile? slot with
          | some t => decide (t.st = .ready) && decide (x.dlv < x.filled)
          | none => false
        if ready = true then
          .next ((s1.updMyCore fun c => c.setStream q.toNat
            { x with dlv := x.dlv + 1, atEnd := decide (x.nwin ≠ 0) && decide (x.nwin ≤ x.dlv + 1) }).updMe fun t =>
              t.bind h (some slot)).advance
        else if x.st = .fault then s.tileState 1 slot h
        else .next (s1.updMe Thread.block)

/-- The thread that owns stream `q` of a core. -/
def State.streamOwner (s : State) (core q : Nat) : Nat := core * 8 + ((s.core core).stream q).owner

/-- The trap of a stream's fill: STREAM_FAULT code 5 with the local reason of R337, or METADATA_MISMATCH with the slot's
tile-table entry (R144, R340, R341; log entry 83). -/
def EngErr.streamTrap (e : EngErr) (q slot : Nat) (slots : List Nat) : Trap :=
  let tr : Trap := match e with
    | .fault i va => { cause := 29, tval := va, info := word (5 + 256 * (i / 256 % 256) + 2 ^ 16 * q + i / 2 ^ 60 * 2 ^ 60) }
    | .metadata | .hold => { cause := 27, tval := 0, info := word (2 ^ 16 * (slot % 64)) }
  { tr with names := slots, strm := some q }

/-- STREAM_FILL (R339, R340): a running stream fills its next window into an EMPTY slot, or enters FAULT. -/
def execStreamFill (s : State) : Out :=
  let c := s.ev.core
  let q := s.ev.unit
  let x := (s.core c).stream q
  let slot := x.slots.getD (x.filled % (x.nsm + 1)) 0
  if x.st ≠ .run ∨ (x.nwin ≠ 0 ∧ x.nwin ≤ x.filled) then .next s
  else match (s.core c).tile? slot with
    | none => .next s
    | some t =>
      if t.st ≠ .empty ∨ t.rdrs ≠ 0 then .next s
      else
        let tid := s.streamOwner c q
        let w : Who := { tid, mode := x.mode, root := x.root, last := x.last, id := s.nextOp }
        match s.fill w t.shape (x.step * word x.filled) (x.mstep * word x.filled) with
        | .error .hold => .next s
        | .error e =>
          let s1 := s.updCore c fun k => (k.updTile slot fun t => { t with flt := true }).setStream q { x with st := .fault }
          .next (s1.engineTrap tid (e.streamTrap q slot x.slots))
        | .ok (ls, sc, fl, s) =>
          let s1 := s.updCore c fun k => ((t.write ls sc k).updTile slot fun t => { t with st := .ready, flt := false }).setStream
            q { x with filled := x.filled + 1 }
          .next (s1.updThread tid fun t => if t.present then t.mergeFlags fl else t)

/-! Copies (R342, R42). -/

/-- A peer address descriptor (R42): connection, window, key, offset; none when a reserved bit is set. -/
structure Peer where
  conn : Nat
  win  : Nat
  key  : BitVec 32
  ofs  : Nat

def Peer.of (r : Nat) : Option Peer :=
  if bitsOf r 31 20 ≠ 0 ∨ bitsOf r 127 104 ≠ 0 then none
  else some ⟨bitsOf r 15 0, bitsOf r 19 16, BitVec.ofNat 32 (bitsOf r 63 32), bitsOf r 103 64⟩

/-- Pieces of at most 1 MiB: offset and length (R33). -/
def pieces : Nat → Nat → Nat → List (Nat × Nat)
  | 0, _, _ => []
  | fuel + 1, off, n => if n = 0 then [] else (off, min n 0x100000) :: pieces fuel (off + min n 0x100000) (n - 0x100000)

/-- A remote WRITE message with CPL set. -/
def remoteWrite (p : Peer) (off : Nat) (bs : List Byte) (tag : BitVec 32) : List Packet :=
  segments 129 true 0 { packet0 with typ := 2, cpl := true, addr := remoteAddr p.win (p.ofs + off), key := p.key, tag } bs

/-- A remote READ message. -/
def remoteRead (p : Peer) (off n : Nat) (tag : BitVec 32) : List Packet :=
  [{ packet0 with typ := 1, addr := remoteAddr p.win (p.ofs + off), key := p.key, tag, payload := beBytes 8 n }]

/-- A copy operation that fails at issue completes at once with its fault. -/
def State.failNow (s : State) (e : EngErr) : Out :=
  let id := s.nextOp
  let w := s.whoMe
  let o : Op := { tid := w.tid, mode := w.mode, root := w.root, owns := [], pins := [], op := .xcopy 0 0 0 false }
  .next ((s.issueOp 2 [] [] o.op).finishOp id (some (e.trap none)) 0).advance

/-- A page of a run of bytes cannot be translated yet: a line of the table is owned, or its channel or a link retrains (R20,
R52, R169). -/
def State.pagesWait (s : State) (w : Who) (need : Need) (va : Word) (n : Nat) : Bool :=
  w.mode == .u && n != 0 && (List.range ((va.toNat % 65536 + n - 1) / 65536 + 1)).any fun k =>
    match s.xlate (dieOf w.tid) w.mode w.root need (word ((va.toNat / 65536 + k) * 65536)) with
    | .error .hold => true
    | _ => false

/-- XCOPY (R342): it pins the translations of the pages it copies (R151). -/
def execXcopy (ropt rs1 rs2 : Reg) (s : State) : Out :=
  let opt := (s.rd ropt).toNat
  let dst := s.rd rs1
  let src := s.rd rs2
  let len := bitsOf opt 31 0
  let drem := bitOf opt 34
  let srem := bitOf opt 35
  let last := decide (bitsOf opt 33 32 = 2)
  if bitsOf opt 63 36 ≠ 0 ∨ (drem ∧ srem) then s.illegal
  else if s.engineWaits || s.me.joinStalls 2 then s.stall
  else if len = 0 then
    let o : Op := { tid := s.cur, mode := .u, root := 0, owns := [], pins := [], op := .xcopy 0 0 0 false }
    .next ((s.issueOp 2 [] [] o.op).finishOp s.nextOp none 0).advance
  else if drem || srem then
    match s.engRead s.whoMe (if drem then dst else src) 16 with
    | .error .hold => s.stall
    | .error e => s.failNow e
    | .ok (bs, s) =>
      match Peer.of (leNat bs) with
      | none => s.failNow (.fault (engReason 7) (if drem then dst else src))
      | some p =>
        if (s.conn p.conn).st ≠ .opened then s.failNow (.fault (engReason 7) (if drem then dst else src))
        else
          let id := s.nextOp
          let ps := pieces 4097 0 len
          let tag0 := (s.conn p.conn).nextTag
          let reqs := ps.zipIdx.map fun x => (tag0 + BitVec.ofNat 32 x.2, dst + word x.1.1)
          if drem then
            match s.engRead { s.whoMe with last } src len with
            | .error .hold => s.stall
            | .error e => s.failNow e
            | .ok (data, s) =>
              let s1 := s.issueOp 2 [] [] (.remote p.conn last reqs none)
              .next (ps.foldl (fun s x => s.request p.conn (.op id) (remoteWrite p x.1 (sub data x.1 x.2))) s1).advance
          else if s.linesPending s.cur (s.engLines s.whoMe dst len) || s.pagesWait s.whoMe .write dst len then s.stall
          else
            let s1 := s.issueOp 2 (s.engLines s.whoMe dst len) (s.engPages s.whoMe .write dst len) (.remote p.conn last reqs none)
            .next (ps.foldl (fun s x => s.request p.conn (.read id) (remoteRead p x.1 x.2)) s1).advance
  else if s.linesPending s.cur (s.engLines s.whoMe dst len) || s.pagesWait s.whoMe .read src len
      || s.pagesWait s.whoMe .write dst len then s.stall
  else .next (s.issueOp 2 (s.engLines s.whoMe dst len) (s.engPages s.whoMe .read src len ++ s.engPages s.whoMe .write dst len)
    (.xcopy dst src len last)).advance

/-- The copy itself, line by line of the destination: the state, the bytes written, and what stopped it; lines before a fault
are written (R342). -/
def State.runCopy (s : State) (w : Who) (dst src : Word) (len : Nat) : State × Nat × Option EngErr :=
  (lineChunks dst len).foldl (fun r c =>
    match r.2.2 with
    | some _ => r
    | none =>
      match r.1.engRead w (src + word c.2.1) c.2.2 with
      | .error e => (r.1, r.2.1, some e)
      | .ok (bs, s) =>
        match s.engWrite w (word c.1) bs with
        | (_, some e) => (r.1, r.2.1, some e)
        | (s, none) => (s, r.2.1 + c.2.2, none)) (s, 0, none)

/-- A turn of a copy: the lines it can write now; it goes on later from the line that has to wait (R52, R145, R164, R169). -/
def State.copyTurn (s : State) (id : Nat) (o : Op) (dst src : Word) (len : Nat) (last : Bool) : State :=
  match s.runCopy (o.who id) dst src len with
  | (s1, n, some .hold) => s1.setOp id (some { o with op := .xcopy (dst + word n) (src + word n) (len - n) last })
  | (s1, _, e) => s1.posted id o 0 none (e.map (·.trap none)) 0

/-- What a finished remote transfer posts: DONE, with the first status or fault that an answer brought (R42, R337). -/
def remoteTrap (bad : Option (Nat × Word × Nat)) : Option Trap :=
  bad.map fun b => { cause := 51, tval := b.2.1, info := word (b.1 + b.2.2) }

/-- ENGINE_COMMAND_DONE (R169): a copy, a tile copy or a finished remote transfer, every line of it written at its home, posts
DONE. -/
def execEngineCommandDone (s : State) : Out :=
  match s.op? s.ev.idx with
  | some o =>
    match o.op with
    | .xcopy dst src len last => .next (s.copyTurn s.ev.idx o dst src len last)
    | .tcopy core j i => .next (s.finishTcopy s.ev.idx core j i)
    | .remote _ _ [] bad => .next (s.posted s.ev.idx o 0 none (remoteTrap bad) 0)
    | .posting _ none _ _ => .next (s.endPost s.ev.idx)
    | _ => .next s
  | none => .next s

/-- A remote request of an operation has been answered: its data, if any, is written where the request points; a status
other than OK stays with the operation (R42). The answer waits, none, while a line it writes is held. -/
def State.remoteAnswer (s : State) (id : Nat) (tag : BitVec 32) (status : Nat) (data : List Byte) : Option State :=
  match s.op? id with
  | some o =>
    match o.op with
    | .remote c last reqs bad =>
      let rest := reqs.filter (·.1 ≠ tag)
      let va := ((reqs.find? (·.1 == tag)).map (·.2)).getD 0
      let r := if data.isEmpty then (s, none) else s.engWrite (o.who id) va data
      match r.2 with
      | some .hold => none
      | e =>
        let bad := match bad with
          | some b => some b
          | none => if status ≠ 0 then some (status, 0, 0) else
            match e with
            | some (.fault i v) => some (0, v, i)
            | _ => none
        some (r.1.setOp id (some { o with op := .remote c last rest bad }))
    | _ => some s
  | none => some s

/-! Awl transforms (R146, R147, R343). -/

def xfCmd (r : BitVec 256) : Nat := bitsOf r.toNat 3 0
def xfTgt (r : BitVec 256) : Bool := bitOf r.toNat 4
def xfW (r : BitVec 256) : Nat := bitsOf r.toNat 13 10 + 1
def xfSg (r : BitVec 256) : Bool := bitOf r.toNat 14
def xfFrq (r : BitVec 256) : Nat := bitsOf r.toNat 21 15
def xfAddr (r : BitVec 256) : Word := word (bitsOf r.toNat 127 64)
def xfLen (r : BitVec 256) : Nat := bitsOf r.toNat 191 128
def xfPat (r : BitVec 256) : Word := word (bitsOf r.toNat 255 192)

/-- A combination of command, target, width, rate and length that R343 allows. -/
def xfOk (r : BitVec 256) : Bool :=
  bitsOf r.toNat 63 22 == 0 &&
  (match xfCmd r with
   | 0 | 1 => !xfTgt r
   | 2 | 3 => !xfTgt r && decide (xfW r ≤ 15)
   | 4 | 5 => !xfTgt r && decide (2 ≤ xfFrq r) && decide (xfFrq r ≤ 32)
   | 6 => xfTgt r
   | 7 => true
   | _ => false)
  && (xfTgt r || xfLen r % 64 == 0)

/-- Bytes of one group of a transform of memory, in and out. -/
def xfGroup (r : BitVec 256) : Nat :=
  match xfCmd r with | 0 | 1 => 8 * xfW r | _ => 128

/-- Transpose 64 bit-packed elements of `w` bits into `w` planes of 64 bits, or back. -/
def transposeIn (w : Nat) (bs : List Byte) : List Byte :=
  let v := leNat bs
  leBytes (8 * w) ((List.range w).foldl (fun n j =>
    n + 2 ^ (64 * j) * ((List.range 64).foldl (fun m i => m + 2 ^ i * b2n (bitOf v (w * i + j))) 0)) 0)
def transposeOut (w : Nat) (bs : List Byte) : List Byte :=
  let v := leNat bs
  leBytes (8 * w) ((List.range 64).foldl (fun n i =>
    n + 2 ^ (w * i) * ((List.range w).foldl (fun m j => m + 2 ^ j * b2n (bitOf v (64 * j + i))) 0)) 0)

/-- Write a run of bytes, or nothing of it when a line faults or has to wait. -/
def State.engPut (s : State) (w : Who) (dst : Word) (bs : List Byte) : Except EngErr State := do
  let _ ← s.engCheck w dst bs.length
  match s.engWrite w dst bs with
  | (s, none) => .ok s
  | (_, some e) => .error e

/-- One step of a transform: read `n` bytes at `src`, write what `f` makes of them at `dst`. -/
def State.xfStep (s : State) (w : Who) (src dst : Word) (n : Nat) (f : List Byte → Except EngErr (List Byte)) :
    Except EngErr State := do
  let (bs, s) ← s.engRead w src n
  let out ← f bs
  s.engPut w dst out

/-- Values of a 128-byte group of two-byte elements, in the w-bit range. -/
def groupVals (r : BitVec 256) (bs : List Byte) : List Int := rawVals (xfSg r) bs

/-- The whole transform of memory; a fault leaves nothing written (R147). -/
def State.xfMemory (s : State) (w : Who) (r : BitVec 256) : Except EngErr State :=
  let a := xfAddr r
  let len := xfLen r
  let g := xfGroup r
  let t := 4 * xfFrq r
  let bad (va : Word) : EngErr := .fault (engReason 6) va
  let inPlace (f : Nat → Word → List Byte → Except EngErr (List Byte)) : Except EngErr State :=
    if len % g ≠ 0 then .error (.fault (engReason 7) a)
    else (List.range (len / g)).foldlM (fun s i => let p := a + word (g * i); s.xfStep w p p g (f i p)) s
  match xfCmd r with
  | 0 => inPlace fun _ _ bs => .ok (transposeIn (xfW r) bs)
  | 1 => inPlace fun _ _ bs => .ok (transposeOut (xfW r) bs)
  | 2 => inPlace fun _ p bs =>
      let xs := groupVals r bs
      if xs.all (inRange (xfSg r) (xfW r)) then
        match frEncode 128 xs with | some b => .ok b | none => .error (bad p)
      else .error (bad p)
  | 3 => inPlace fun _ p bs =>
      match frDecode (xfSg r) (xfW r) bs with
      | .vals xs => .ok (rawBytes xs)
      | _ => .error (bad p)
  | 4 =>
    if len % 128 ≠ 0 then .error (.fault (engReason 7) a)
    else (List.range (len / 128)).foldlM (fun s i => do
      let src := a + word (128 * i)
      let (bs, s) ← s.engRead w src 128
      let xs := groupVals r bs
      if !xs.all (inRange (xfSg r) (xfW r)) then .error (bad src)
      else match frEncode t xs with
        | some b => s.engPut w (a + word (t * i)) b
        | none => do
          let s ← s.engPut w (xfPat r + word (128 * i)) bs
          s.engPut w (a + word (t * i)) (frEscape t i)) s
  | 5 =>
    if len % 128 ≠ 0 then .error (.fault (engReason 7) a)
    else (List.range (len / 128)).reverse.foldlM (fun s i => do
      let src := a + word (t * i)
      let (bs, s) ← s.engRead w src t
      let dst := a + word (128 * i)
      match frDecode (xfSg r) (xfW r) bs with
      | .vals xs => s.engPut w dst (rawBytes xs)
      | .esc n =>
        match s.engRead w (xfPat r + word (128 * n)) 128 with
        | .error .hold => .error .hold
        | .error _ => .error (bad src)
        | .ok (raw, s) =>
          if (groupVals r raw).all (inRange (xfSg r) (xfW r)) then s.engPut w dst raw else .error (bad src)
      | .bad => .error (bad src)) s
  | _ =>
    if len % 64 ≠ 0 then .error (.fault (engReason 7) a)
    else (List.range (len / 64)).foldlM (fun s i =>
      s.engPut w (a + word (64 * i)) ((List.range 8).flatMap fun _ => leBytes 8 (xfPat r).toNat)) s

/-- FILL of a tile: row FROW + j of every lane takes bit j mod 64 of PAT; the summaries follow the rows. -/
def Tile.fillPat (t : Tile) (pat : Word) (c : Core) : Core :=
  t.banks.foldl (fun c b => (List.range t.nrows).foldl (fun c j =>
    let ones : Row := BitVec.ofNat 2048 (2 ^ c.usable b - 1)
    c.setRow b (t.frow + j) (if pat.getLsbD (j % 64) then ones else 0)) c) c

/-- Runs of memory that a transform writes: its range, and for FRPACK the escape area of its groups (R343). -/
def xfRuns (r : BitVec 256) : List (Word × Nat) :=
  (xfAddr r, xfLen r) :: (if xfCmd r = 4 then [(xfPat r, xfLen r)] else [])

/-- The lines that a transform of memory owns (R147). -/
def State.xfLines (s : State) (r : BitVec 256) : List (Nat × Nat) := (xfRuns r).flatMap fun x => s.engLines s.whoMe x.1 x.2

/-- The translations that it pins (R151): every run for reads and for writes, and the escape area that FRUNPACK reads. -/
def State.xfPages (s : State) (r : BitVec 256) : List PagePin :=
  ((xfRuns r).flatMap fun x => s.engPages s.whoMe .read x.1 x.2 ++ s.engPages s.whoMe .write x.1 x.2)
    ++ (if xfCmd r = 5 then s.engPages s.whoMe .read (xfPat r) (xfLen r) else [])

/-- XFORM (R343): the Awl command issues; a tile target is held FILLING while it runs. -/
def execXform (rs1 : Reg) (s : State) : Out :=
  let va := s.rd rs1
  if s.engineWaits || s.me.joinStalls 2 then s.stall
  else match s.getRecord va 32 32 with
  | .bad c v i => s.trap c v i
  | .wait => s.stall
  | .ok rec s =>
    let r := BitVec.ofNat 256 rec
    if !xfOk r then s.failNow (.fault (engReason 7) va)
    else if !xfTgt r && (xfAddr r).toNat % 64 != 0 then s.failNow (.fault (engReason 5) (xfAddr r))
    else if xfTgt r then
      let h := bitsOf rec 9 5
      match s.named h with
      | .bad x e => s.tileState x e h
      | .stall => s.stall
      | .ready i t =>
        if t.rdrs ≠ 0 then s.stall
        else
          let s1 := s.updMyCore fun c => c.updTile i fun t => { t with st := .filling }
          .next (s1.issueOp 2 [] [] (.awl (coreOf s.cur) r (some i))).advance
    else if s.linesPending s.cur (s.xfLines r) then s.stall
    else .next (s.issueOp 2 (s.xfLines r) (s.xfPages r) (.awl (coreOf s.cur) r none)).advance

/-- AWL_COMMAND (R147): the transform performs as one access, or faults and writes nothing. -/
def execAwlCommand (s : State) : Out :=
  match s.op? s.ev.idx with
  | some o =>
    match o.op with
    | .awl core r (some i) =>
      let s1 := s.updCore core fun c =>
        let c := match c.tile? i with
          | some t => if xfCmd r = 7 then t.fillPat (xfPat r) c else c
          | none => c
        c.updTile i fun t => { t with st := .ready }
      .next (s1.finishOp s.ev.idx none 0)
    | .awl _ r none =>
      match s.xfMemory { o.who s.ev.idx with atHome := true } r with
      | .ok s1 => .next (s1.posted s.ev.idx o 0 none none 0)
      | .error .hold => .next s
      | .error e => .next (s.finishOp s.ev.idx (some (e.trap none)) 0)
    | _ => .next s
  | none => .next s

/-! Line operations (R344, R170). -/

/-- Lines that LINE acts on: x0 one, otherwise x[rc] with 65,536 at most. -/
def State.lineCount (s : State) (rc : Reg) : Nat := if rc = 0 then 1 else min 65536 (s.rd rc).toNat

/-- Act on lines in ascending order; the first that fails traps after those before it have acted. -/
def lineRun (need : Need) (act : Nat → State → State) : Nat → Word → State → Out
  | 0, _, s => .next s.advance
  | k + 1, va, s =>
    match s.xlateMe need va with
    | .error (.home ea e) => s.trap 7 va (accessInfo ea (e == .mem) (e == .link))
    | .error _ => s.trap 15 va 0
    | .ok pa =>
      if !inMemory pa 1 then s.trap 7 va (accessInfo pa false false)
      else match s.homeErr (dieOf s.cur) false pa with
      | some e => s.trap 7 va (accessInfo pa (e == .mem) (e == .link))
      | none => lineRun need act k (va + 64) (act (lineOf pa) s)

/-- What a LINE of `n` lines waits for: the thread's own and its die's earlier writes to a line to perform at the home (R156),
and lines that are owned, pinned, deferred or held by a window. -/
def State.linesBusy (s : State) (need : Need) (va : Word) (n : Nat) : Bool :=
  (List.range n).any fun i => match s.xlateMe need (va + word (64 * i)) with
    | .ok pa => s.writeWaits (lineOf pa) s.cur || s.pathHolds (dieOf s.cur) pa || s.pendingTo (dieOf s.cur) (lineOf pa * 64) 64
    | .error .hold => true
    | .error _ => false

/-- One LINE operation (R344). -/
def State.lineOp (s : State) (need : Need) (rc rs1 : Reg) (act : Nat → State → State) : Out :=
  let va := s.rd rs1 &&& ~~~(63 : Word)
  let n := s.lineCount rc
  if s.ovtHolds s.cur || s.linesBusy need va n || !(s.thread s.cur).sb.isEmpty then s.stall
  else lineRun need act n va s

def execLineClean (rc rs1 : Reg) (s : State) : Out := s.lineOp .read rc rs1 fun l s => s.writeBack l
def execLineFlush (rc rs1 : Reg) (s : State) : Out := s.lineOp .read rc rs1 fun l s => s.writeBack l
/-- INVAL writes the core's copy back to its home and drops it: no value and no backing value changes. -/
def execLineInval (rc rs1 : Reg) (s : State) : Out := s.lineOp .read rc rs1 fun _ s => s
def execLineLastuse (rc rs1 : Reg) (s : State) : Out := s.lineOp .read rc rs1 fun l s => s.writeBack l
def execLineDiscard (rc rs1 : Reg) (s : State) : Out := s.lineOp .write rc rs1 fun l s => s.discard s.cur l

/-! Batches and waits (R345, R346). -/

/-- The four classes. -/
def classes : List (Fin 4) := [0, 1, 2, 3]

/-- CLOSE (R346). -/
def execClose (m : BitVec 4) (s : State) : Out :=
  if m = 0 then s.illegal
  else if classes.any fun c => m.getLsbD c.val && !(s.me.open_ c).isEmpty && !(s.me.open_ c).complete && s.me.closeFull c then
    s.stall
  else .next (s.updMe fun t => classes.foldl (fun t c => if m.getLsbD c.val then t.closeBatch c else t) t).advance

/-- Field of WAIT for a class: loads, stores, copies, tile operations. -/
def waitField (ld st cp ti : BitVec 3) (c : Fin 4) : Nat :=
  match c.val with | 0 => ld.toNat | 1 => st.toNat | 2 => cp.toNat | _ => ti.toNat

/-- WAIT (R346): it closes, waits, takes the first pending engine trap (the others are due after it), and acquires. -/
def execWait (ld st cp ti : BitVec 3) (s : State) : Out :=
  let f := waitField ld st cp ti
  if classes.any fun c => decide (f c < 7) && !(s.me.open_ c).isEmpty && !(s.me.open_ c).complete && s.me.closeFull c then
    s.waits
  else
    let s := s.updMe fun t => classes.foldl (fun t c => if f c < 7 then t.closeBatch c else t) t
    if classes.any fun c => decide (f c < 7) && decide (f c < s.me.incomplete c) then s.waits
    else
      match s.me.engTraps with
      | [] => .next s.advance
      | tr :: rest =>
        let s := s.advance
        let s := s.updMe fun t => { t with engTraps := rest.map fun x => { x with due := true }, frozen := true }
        .next (s.takeException tr s.me.pc)

/-- BATCH_COMPLETE (R345): the completed batches of a thread leave its list. -/
def execBatchComplete (s : State) : Out :=
  .next (s.updThread s.ev.tid fun t =>
    { t with closedB := t.closedB.map fun bs => bs.filter fun b => !Batch.complete b })

/-! Watermarks (R348). -/

/-- The unsigned 64-bit progress word, as the executing thread reads it. -/
def State.progress (s : State) (pa : Nat) : Word := word (leNat (s.bytesOf s.cur pa 8))

/-- Monitor entries of a core in use (R329). -/
def State.monitorsUsed (s : State) (core : Nat) : Nat :=
  (s.live.filter fun p => coreOf p.1 == core).foldl (fun n p =>
    n + (match p.2.armed with | some a => a.2.length | none => 0)
      + (match p.2.wait with | .monitor _ _ => 1 | _ => 0)
      + (match p.2.water with | some w => b2n w.hold | none => 0)) 0

/-- Scope of a reserved code (R5). -/
def scopeBad (sp : BitVec 3) : Bool := decide (6 ≤ sp.toNat)

/-- WMWAIT (R348): waits until the word has reached its bound, then acquires; a monitor entry is held meanwhile. -/
def execWmwait (sp : BitVec 3) (rs1 rs2 : Reg) (s : State) : Out :=
  if scopeBad sp then s.illegal
  else match s.place .read loadCauses (s.rd rs1) 8 true false with
  | .bad c v i => s.trap c v i
  | .wait => s.stall
  | .dev pa => s.accessFault loadCauses (s.rd rs1) pa
  | .mem pa =>
    let b := s.rd rs2 &&& 0x7FFFFFFFFFFFFFFF
    if b.toNat ≤ (s.progress pa).toNat then .next (s.observe (dieOf s.cur) (lineOf pa)).advance
    else if s.monitorsUsed (coreOf s.cur) < 256 then .next (s.updMe fun t => { t with wait := .monitor pa b })
    else s.stall

/-- WMWAIT that arms the strip watermark (R348). -/
def execWmwaitArm (sp : BitVec 3) (rs1 rs2 : Reg) (s : State) : Out :=
  if scopeBad sp then s.illegal
  else match s.place .read loadCauses (s.rd rs1) 8 false false with
  | .bad c v i => s.trap c v i
  | .wait => s.stall
  | .dev pa => s.accessFault loadCauses (s.rd rs1) pa
  | .mem _ =>
    let b := s.rd rs2 &&& 0x7FFFFFFFFFFFFFFF
    .next (s.updMe fun t => { t with water := some { va := s.rd rs1, mode := t.mode, scope := sp, bound := b } }).advance

/-- WMWAIT that disarms it (R348). -/
def execWmwaitDisarm (sp : BitVec 3) (s : State) : Out :=
  if scopeBad sp then s.illegal
  else .next (s.updMe fun t => { t with water := none }).advance

/-- Where the word of a strip watermark lies at a check, or the fault that a load of it takes (R150, R348); none while the
table or the word has to be waited for. -/
def State.waterPlace (s : State) (tid : Nat) (w : Watermark) : Option (Except Trap Nat) :=
  let bad (cause : Nat) (info : Word) : Option (Except Trap Nat) := some (.error { cause, tval := w.va, info, due := true })
  match s.xlate (dieOf tid) w.mode (s.thread tid).csr.vptbase .read w.va with
  | .error .hold => none
  | .error (.home ea e) => bad 5 (accessInfo ea (e == .mem) (e == .link))
  | .error _ => bad 13 0
  | .ok pa =>
    if !inMemory pa 8 then bad 5 (accessInfo pa false false)
    else match s.homeErr (dieOf tid) true pa with
      | some e => bad 5 (accessInfo pa (e == .mem) (e == .link))
      | none => if s.pathHolds (dieOf tid) pa || s.owned (lineOf pa) then none else some (.ok pa)

/-- A strip check: the thread acquires and goes on once the word has reached T; the fault of a check is a trap that the
thread takes at its next instruction (R348; log entry 110). -/
def State.stripWatch (s : State) (tid : Nat) (w : Watermark) : State :=
  if !w.hold then s
  else match s.waterPlace tid w with
    | none => s
    | some (.error tr) => if (s.thread tid).engTraps.contains tr then s else s.engineTrap tid tr
    | some (.ok pa) =>
      if w.bound.toNat ≤ leNat (s.bytesOf tid pa 8) then
        (s.observe (dieOf tid) (lineOf pa)).updThread tid fun t => { t with water := some { w with hold := false } }
      else s

/-- WATERMARK_PASSED (R348): a monitored word has reached its bound, so its thread acquires and goes on. A WMWAIT whose word
can no longer be read issues again, and faults (R21, R55). -/
def execWatermarkPassed (s : State) : Out :=
  let tid := s.ev.tid
  let t := s.thread tid
  let s1 := match t.wait with
    | .monitor pa b =>
      if (s.homeErr (dieOf tid) true pa).isSome then s.updThread tid fun t => { t with wait := .none }
      else if b.toNat ≤ leNat (s.bytesOf tid pa 8) then
        (s.observe (dieOf tid) (lineOf pa)).updThread tid fun t => { t with wait := .none }
      else s
    | _ => s
  match t.water with
  | some w => .next (s1.stripWatch tid w)
  | none => .next s1

/-! Publishing (R349). -/

/-- What WMPUB releases has performed at the scope. -/
def State.released (s : State) (scope : Nat) : Bool := s.quiet s.cur scope && s.vecQuiet s.cur scope

/-- WMPUB (R349). -/
def execWmpub (sp : BitVec 3) (rs1 rs2 : Reg) (s : State) : Out :=
  if scopeBad sp then s.illegal
  else match s.place .write storeCauses (s.rd rs1) 8 true true with
  | .bad c v i => s.trap c v i
  | .wait => s.stall
  | .dev pa => s.accessFault storeCauses (s.rd rs1) pa
  | .mem pa =>
    if !s.released sp.toNat || s.atomicWaits s.cur pa 8 then s.stall
    else .next ((s.atomicAt s.cur pa 8 fun old => max old (s.rd rs2).toNat).2).advance

/-- WMPUB to a peer (R349, R42): an ATOMIC MAXU joins the copies class. -/
def execWmpubRemote (rs1 rs2 : Reg) (s : State) : Out :=
  let va := s.rd rs1 - 1
  if s.ir.extractLsb' 7 5 ≠ 5 then s.illegal
  else if !s.released 5 || s.engineWaits || s.me.joinStalls 2 then s.stall
  else match s.getRecord va 16 16 with
  | .bad c v i => s.trap c v i
  | .wait => s.stall
  | .ok r s =>
    match Peer.of r with
    | none => s.failNow (.fault (engReason 7) va)
    | some p =>
      if (s.conn p.conn).st ≠ .opened then s.failNow (.fault (engReason 7) va)
      else
        let id := s.nextOp
        let tag := (s.conn p.conn).nextTag
        let s1 := s.issueOp 2 [] [] (.remote p.conn false [(tag, 0)] none)
        .next (s1.request p.conn (.atomic id) fun tag => [maxuPacket p.win p.ofs p.key (s.rd rs2) tag]).advance

end Sys2Proof.Machine
end

