-- ==== Sys2Proof/Machine/Belfry.lean ====
section
/-! DEFINITION. The Belfry scheduler: taking and validating records, dependences, arbitration and claims, placement and the
lane allocator, starting, pre-emption, save and restore, completion, cancelling (R57, R58, R76 to R100). -/

namespace Sys2Proof.Machine

/-! Reference time: the 100 MHz reference counts 10 ns (R50). -/
def msTicks : Nat := 100000
def usTicks : Nat := 100

/-! Retired lanes (R57). -/

/-- Lanes a bank will have once its marked lanes are retired at its next allocation. -/
def Core.usableNext (c : Core) (b : Nat) : Nat :=
  min 2048 (2080 - (Tab.get [] c.retired b).length - (Tab.get [] c.marked b).length)

/-- Logical lanes of a row that stay when lane `l` (logical) leaves: every lane above moves up by one. -/
def dropLane (r : Row) (l : Nat) : Row :=
  let v := r.toNat
  BitVec.ofNat 2048 (v % 2 ^ l + v / 2 ^ (l + 1) * 2 ^ l)

/-- The logical lane of a physical one. -/
def logicalLane (retired : List Nat) (phys : Nat) : Nat := phys - (retired.filter (· < phys)).length

/-- Retire one marked lane of a bank that is being allocated: its map shifts, lanemapver rises, the retirement list of the
die takes it while it has room, and a black-box entry is written (R57, R294). The bank's rows keep their places by
physical lane. -/
def State.retireLane (s : State) (core bank phys : Nat) : State :=
  let c := s.core core
  let old := Tab.get [] c.retired bank
  let l := logicalLane old phys
  let new := old.filter (· < phys) ++ [phys] ++ old.filter (phys < ·)
  let rows := c.rows.map fun p => if p.1 / 512 = bank then (p.1, dropLane p.2 l) else p
  let s := s.setCore core { c with retired := Tab.set [] c.retired bank new, mapVer := c.mapVer + 1
                                   rows := rows.filter fun p => p.2 != 0 }
  let die := core / 256
  let lst := Tab.get [] s.camp.lanes die
  let s := if lst.length < 256 then
      { s with camp := { s.camp with lanes := Tab.set [] s.camp.lanes die (lst ++ [(core, bank, phys)]) } }
    else s
  s.blackBox 0x10 (core * 8) 0 (laneInfo bank phys 0) (word (32 - min 32 new.length))

/-- Retirement takes effect for every marked lane of banks that are being allocated. -/
def State.retireBanks (s : State) (core : Nat) (banks : List Nat) : State :=
  banks.foldl (fun s b =>
    let marked := Tab.get [] (s.core core).marked b
    let s := marked.foldl (fun s p => s.retireLane core b p) s
    if marked.isEmpty then s else s.updCore core fun c => { c with marked := Tab.set [] c.marked b [] }) s

/-! The lane allocator (R86). -/

/-- Whether a hart is free: no live thread, and no store or notify of an earlier one still to perform. -/
def State.hartFree (s : State) (tid : Nat) : Bool :=
  let t := s.thread tid
  !t.present && t.sb.isEmpty && t.held.isEmpty && t.notifies.isEmpty && !s.outOf tid && !(s.belfry.recs.any fun p => match p.2 with
    | some r => r.st == .place && r.seats.any (·.tid == tid)
    | none => false)

/-- What a search for a placement sees as taken, beside what the state holds. -/
structure Taken where
  /-- harts and (core, bank) pairs that the search has granted -/
  harts : List Nat := []
  banks : List (Nat × Nat) := []
  /-- harts, banks and accumulator groups that stand for other records (R84, R94) -/
  keptH : List Nat := []
  keptB : List (Nat × Nat) := []
  keptG : List (Nat × Nat) := []
  /-- harts, banks and accumulator groups to regard as free although they are held -/
  freeH : List Nat := []
  freeB : List (Nat × Nat) := []
  freeE : List Nat := []
  /-- the module taken as idle -/
  idle  : Bool := false
  /-- the lane maps taken as they are, with no marked lane retired (R88) -/
  asIs  : Bool := false

/-- The bank is granted: to a task, or by the search (R86). -/
def State.bankGranted (s : State) (k : Taken) (core b : Nat) : Bool :=
  (!k.idle && (Tab.get none (s.core core).bankOf b).isSome && !k.freeB.contains (core, b)) || k.banks.contains (core, b)
def State.bankFree (s : State) (k : Taken) (core b : Nat) : Bool :=
  !s.bankGranted k core b && !k.keptB.contains (core, b) && (k.idle || !(s.core core).tiles.any fun p => match p.2 with
    | some t => t.owner == noHart && t.banks.contains b
    | none => false)
def State.hartOpen (s : State) (k : Taken) (tid : Nat) : Bool :=
  (k.idle || s.hartFree tid || k.freeH.contains tid) && !k.harts.contains tid && !k.keptH.contains tid

/-- mvl that a group of banks will have, once their marked lanes have retired (R57). -/
def State.groupMvl (s : State) (core fb lgb : Nat) : Nat :=
  2 ^ lgb * (List.range (2 ^ lgb)).foldl (fun m i => min m ((s.core core).usableNext (fb + i))) 2048
/-- mvl that a group of banks has with the lane maps as they are (R88). -/
def State.groupMvlNow (s : State) (core fb lgb : Nat) : Nat :=
  2 ^ lgb * (List.range (2 ^ lgb)).foldl (fun m i => min m ((s.core core).usable (fb + i))) 2048

/-- The group that the allocator grants (R86): free, wide enough, in the enclosing group with the most banks granted,
lowest first. -/
def State.grant (s : State) (k : Taken) (core lgb vlc : Nat) : Option Nat :=
  let n := 2 ^ lgb
  let mvl (fb : Nat) : Nat := if k.asIs then s.groupMvlNow core fb lgb else s.groupMvl core fb lgb
  let ok := (List.range (64 / n)).map (· * n) |>.filter fun fb =>
    (List.range n).all (fun i => s.bankFree k core (fb + i)) && decide (vlc ≤ mvl fb)
  let full (fb : Nat) : Nat :=
    if lgb = 6 then 0
    else ((List.range (2 * n)).filter fun i => s.bankGranted k core (fb / (2 * n) * (2 * n) + i)).length
  ok.foldl (fun best fb => match best with
    | none => some fb
    | some b => if full b < full fb then some fb else some b) none

/-- Seats of one core for a gang: harts ascending, a group for each (R85, R86). -/
def State.seatCore (s : State) (core lgb vlc ordinal : Nat) : Nat → Taken → Option (List Seat × Taken)
  | 0, k => some ([], k)
  | n + 1, k =>
    match (List.range 8).find? fun h => s.hartOpen k (core * 8 + h), s.grant k core lgb vlc with
    | some h, some fb =>
      let k := { k with harts := (core * 8 + h) :: k.harts
                        banks := (List.range (2 ^ lgb)).map (fun i => (core, fb + i)) ++ k.banks }
      (s.seatCore core lgb vlc ordinal n k).map fun p =>
        ({ tid := core * 8 + h, vctx := BitVec.ofNat 10 (fb + 64 * lgb), ordinal } :: p.1, p.2)
    | _, _ => none

/-- What the restore of one saved core needs (R97): bank numbers, accumulator groups, tile entries and stream units free;
and each thread's context and vl. -/
structure RestoreNeed where
  banks   : List Nat
  groups  : List Nat
  tiles   : Nat
  streams : List Nat
  ctxs    : List (BitVec 10 × Nat)

/-- Shape of a gang (R71). -/
structure GangShape where
  tpc : Nat
  cpc : Nat
  cup : Bool
  cpd : Nat
  dies : List Nat
  lgb : Nat
  vlc : Nat
  /-- for a restore: the saved cores in the order of R96 -/
  restore : Option (List RestoreNeed) := none

def shapeOf (r : BitVec 1024) : GangShape :=
  { tpc := recTpc r + 1, cpc := recCpc r + 1, cup := recCup r, cpd := recCpd r + 1
    dies := (List.range 4).filter fun d => bitOf (recDies r) d, lgb := recLgb r, vlc := recVlc r }

/-- Threads of a gang on one cluster. -/
def GangShape.perClu (g : GangShape) : Nat := g.cpc * g.tpc + b2n g.cup

/-- The number, in the order of R96, of the core that held the thread of a rank; none for a Cupola thread. -/
def GangShape.coreOfRank (g : GangShape) (rank : Nat) : Option Nat :=
  let j := rank % g.perClu
  if j < g.cpc * g.tpc then some (rank / g.perClu * g.cpc + j / g.tpc) else none

/-- Free harts of a core. -/
def State.openHarts (s : State) (k : Taken) (core : Nat) : List Nat :=
  (List.range 8).filter fun h => s.hartOpen k (core * 8 + h)

/-- A core fits a fresh gang: enough free harts, and a grantable group for each thread (R85). -/
def State.coreFits (s : State) (g : GangShape) (k : Taken) (core : Nat) : Bool :=
  (s.seatCore core g.lgb g.vlc 0 g.tpc k).isSome

/-- A core fits a saved one: enough free harts, and its banks, accumulator groups, tile entries and stream units free (R85,
R97). -/
def State.coreSuits (s : State) (g : GangShape) (k : Taken) (n : RestoreNeed) (core : Nat) : Bool :=
  decide (g.tpc ≤ (s.openHarts k core).length)
    && n.banks.all (fun b => s.bankFree k core b)
    && n.groups.all (fun i => !k.keptG.contains (core, i) && match Tab.get none (s.core core).accOwner i with
        | none => true | some e => k.idle || k.freeE.contains e)
    && (k.idle || decide (n.tiles + ((s.core core).tiles.filter fun p => !k.freeH.contains (core * 8 + (p.2.map Tile.owner).getD 0)).length ≤ 64))
    && (k.idle || n.streams.all fun q =>
        let x := Tab.get {} (s.core core).streams q
        x.st == .uncfg || k.freeH.contains (core * 8 + x.owner))

/-- How far the banks of a core fall short of the vl of a saved core's threads, once marked lanes have retired (R58, R97). -/
def State.shortfall (s : State) (core : Nat) (n : RestoreNeed) : Nat :=
  (n.ctxs.map fun p => p.2 - (if p.1.getLsbD 9 then p.2 else s.groupMvl core (ctxFirst p.1) (ctxLgn p.1))).foldl (· + ·) 0

/-- Banks of a core that nothing has been granted. -/
def State.freeBanks (s : State) (k : Taken) (core : Nat) : Nat :=
  ((List.range 64).filter fun b => !s.bankGranted k core b).length

/-- Insert in ascending order of a measure, equal measures after (for stable sorting). -/
def insertBy (m : Nat → Nat) (x : Nat) : List Nat → List Nat
  | [] => [x]
  | y :: r => if m x < m y then x :: y :: r else y :: insertBy m x r
def sortBy (m : Nat → Nat) (l : List Nat) : List Nat := l.foldl (fun a x => insertBy m x a) []

/-- Sum of a measure. -/
def sumBy (m : Nat → Nat) (l : List Nat) : Nat := (l.map m).foldl (· + ·) 0

/-- Costs that count one before the other. -/
def costs (a b : Nat) : Nat := a * 2 ^ 40 + b

/-- How a placement prefers cores and clusters, from how far their banks fall short of a saved context's vl (0 for a fresh
gang); the lesser is taken first, the lower number of equals. -/
structure Prefer where
  core : Nat → Nat → Nat
  /-- of a cluster, from the cores that would be taken there -/
  clu  : Nat → Nat → List Nat → Nat

/-- R85, R97: for a restore the least shortfall, then ascending order of free banks. -/
def State.prefer (s : State) (k : Taken) : Prefer :=
  { core := fun sf c => costs sf (s.freeBanks k c)
    clu := fun sf c _ => costs sf (sumBy (fun i => s.freeBanks k (c * 32 + i)) (List.range 16)) }

/-- Threads that run on a core. -/
def State.threadsOn (s : State) (core : Nat) : Nat := (s.live.filter fun p => coreOf p.1 == core).length

/-- R84: ascending order of the running threads on the cores that are taken, the Cupola core among them; ties go as R85 and
R97 would have them. -/
def State.preferIdle (s : State) (g : GangShape) : Prefer :=
  let p := s.prefer {}
  { core := fun sf c => costs (s.threadsOn c) 0 * 2 ^ 40 + p.core sf c
    clu := fun sf c cs =>
      costs (sumBy s.threadsOn cs + (if g.cup then s.threadsOn (c * 32 + 16) else 0)) 0 * 2 ^ 40 + p.clu sf c cs }

/-- Give each of a list its own choice at the least cost in all; of equals the earliest candidates first. -/
def assignMin {α : Type} (cand : α → List (Nat × Nat)) : List α → List Nat → Option (Nat × List Nat)
  | [], _ => some (0, [])
  | x :: xs, used => (cand x).foldl (fun best c =>
      if used.contains c.2 then best
      else match assignMin cand xs (c.2 :: used) with
        | none => best
        | some r => match best with
          | some b => if c.1 + r.1 < b.1 then some (c.1 + r.1, c.2 :: r.2) else best
          | none => some (c.1 + r.1, c.2 :: r.2)) none

/-- The choices of least cost in all (R58, R84, R85, R97). Where all have the same candidates at the same costs the cheapest do. -/
def assign {α : Type} (cost : α → Nat → Nat) (cand : α → List Nat) (xs : List α) : Option (List Nat) :=
  let priced (x : α) : List (Nat × Nat) := (sortBy (cost x) (cand x)).map fun c => (cost x c, c)
  match xs with
  | [] => some []
  | x :: _ =>
    if xs.all fun y => priced y == priced x then
      if (priced x).length < xs.length then none else some (((priced x).take xs.length).map (·.2))
    else (assignMin priced xs []).map (·.2)

/-- Cores of a cluster that a gang takes: for a fresh one in ascending number (R85 step 2), for a restore one for each saved
core, at the least cost in all. -/
def State.pickCores (s : State) (g : GangShape) (k : Taken) (f : Prefer) (needs : List RestoreNeed) (clu : Nat) :
    Option (List Nat) :=
  let all := (List.range 16).map (clu * 32 + ·)
  if g.cup && !s.hartOpen k (clu * 256 + 128) then none
  else match g.restore with
    | none =>
      let fit := all.filter (s.coreFits g k)
      if fit.length < g.cpc then none else some (sortBy id ((sortBy (f.core 0) fit).take g.cpc))
    | some _ =>
      assign (fun n c => f.core (s.shortfall c n) c) (fun n => all.filter (s.coreSuits g k n)) needs

/-- Saved cores of the `i`-th cluster of the `d`-th die of a gang. -/
def GangShape.needsOf (g : GangShape) (d i : Nat) : List RestoreNeed :=
  ((g.restore.getD []).drop ((d * g.cpd + i) * g.cpc)).take g.cpc

/-- Clusters of a die that a gang takes, with their cores: for a fresh one in ascending number (R85 step 1), for a restore
one for each saved cluster. `d` numbers the die among the gang's. -/
def State.pickClusters (s : State) (g : GangShape) (k : Taken) (f : Prefer) (d die : Nat) : Option (List (Nat × List Nat)) :=
  let all := (List.range 8).map (die * 8 + ·)
  match g.restore with
  | none =>
    let fit := all.filterMap fun c => (s.pickCores g k f [] c).map fun cs => (c, cs)
    let order := sortBy (fun c => f.clu 0 c ((fit.lookup c).getD [])) (fit.map (·.1))
    if fit.length < g.cpd then none
    else some ((sortBy id (order.take g.cpd)).map fun c => (c, (fit.lookup c).getD []))
  | some _ =>
    let cost (i c : Nat) : Nat := match s.pickCores g k f (g.needsOf d i) c with
      | some cs => f.clu (((g.needsOf d i).zip cs).foldl (fun n p => n + s.shortfall p.2 p.1) 0) c cs
      | none => 0
    let cand (i : Nat) : List Nat := all.filter fun c => (s.pickCores g k f (g.needsOf d i) c).isSome
    (assign cost cand (List.range g.cpd)).map fun cl =>
      cl.zipIdx.map fun p => (p.1, (s.pickCores g k f (g.needsOf d p.2) p.1).getD [])

/-- Seats of a restored core: harts ascending; bank groups stay as the threads saved them. -/
def State.restoreSeats (s : State) (k : Taken) (core ordinal n : Nat) : List Seat :=
  ((s.openHarts k core).take n).map fun h => { tid := core * 8 + h, vctx := 0x200, ordinal }

/-- All seats of a gang in rank order (R90), or none. -/
def State.findSeats (s : State) (g : GangShape) (k : Taken) (f : Prefer) : Option (List Seat) :=
  let per := g.dies.zipIdx.map fun d => s.pickClusters g k f d.2 d.1
  if per.any (·.isNone) || (!k.idle && g.dies.any fun d => (s.die d).stopIss != 0) then none
  else
    let cl := per.flatMap fun x => x.getD []
    let step (r : List Seat × Nat) (c : Nat × List Nat) : List Seat × Nat :=
      let r := c.2.foldl (fun (r : List Seat × Nat) core =>
        let seats := match g.restore with
          | none => match s.seatCore core g.lgb g.vlc r.2 g.tpc k with | some p => p.1 | none => []
          | some _ => s.restoreSeats k core r.2 g.tpc
        (r.1 ++ seats, r.2 + 1)) r
      if g.cup then (r.1 ++ [{ tid := c.1 * 256 + 128, vctx := 0x200, ordinal := r.2 }], r.2 + 1) else r
    some (cl.foldl step ([], 0)).1

/-- The record could be placed on an idle module (check 15 of R88). -/
def State.fitsIdle (s : State) (r : BitVec 1024) : Bool :=
  let k : Taken := { idle := true, asIs := true }
  (s.findSeats (shapeOf r) k (s.prefer k)).isSome

/-! The pending set. -/

def Rec.queued (r : Rec) : Bool := match r.st with | .ready | .saved => true | _ => false
def Rec.running (r : Rec) : Bool := match r.st with | .run => true | _ => false
/-- Effective priority is fixed at take; the level grows with the wait (R83). -/
def Rec.level (r : Rec) (now : Nat) : Nat := min 7 (r.prio + (now - r.since) / msTicks)

/-- Harts and banks of seats. -/
def seatBanks (seats : List Seat) : List (Nat × Nat) :=
  seats.flatMap fun x => (ctxBanks x.vctx).map fun b => (coreOf x.tid, b)
def seatHarts (seats : List Seat) : List Nat := seats.map (·.tid)

/-- Keys of the saves of gang `e`: thread of rank `i`, and core number `c` of R96 at 32768 + c. -/
def saveKey (e i : Nat) : Nat := 2 * (e * 65536 + i)

/-- Saves of a gang. -/
def State.savesOf (s : State) (e : Nat) : List (Nat × Saved) :=
  s.saves.filterMap fun p => if saveOf e p.1 then p.2.map fun v => (p.1 / 2 % 65536, v) else none

/-- The gang has been saved, so its next start is a restore. -/
def State.restoring (s : State) (e : Nat) : Bool := !(s.savesOf e).isEmpty

/-- Shape of a record; a SAVED one needs what each of its cores was saved with. -/
def State.recShape (s : State) (e : Nat) (r : Rec) : GangShape :=
  let g := shapeOf r.bits
  match r.st with
  | .saved =>
    let v := s.savesOf e
    let need (i : Nat) : RestoreNeed :=
      let c : Saved := (v.lookup (32768 + i)).getD { base := 0 }
      let ths := v.filter fun p => p.1 < 32768 && g.coreOfRank p.1 == some i
      { banks := c.banks, groups := c.groups, tiles := sumBy id (ths.map fun p => p.2.tiles.length)
        streams := ths.flatMap fun p => p.2.streams.map Prod.fst
        ctxs := ths.map fun p => (p.2.thread.csr.vctx, p.2.thread.csr.vl.toNat) }
    { g with restore := some ((List.range (g.dies.length * g.cpd * g.cpc)).map need) }
  | _ => g

/-- First seat of each occupied core that is no Cupola core. -/
def coreHeads (seats : List Seat) : List Seat :=
  seats.foldl (fun a x => if isCup x.tid || a.any fun y => coreOf y.tid == coreOf x.tid then a else a ++ [x]) []

/-- Banks that a placed gang takes on the core of seat `x`. -/
def State.banksFor (s : State) (e : Nat) (restore : Bool) (seats : List Seat) (x : Seat) : List Nat :=
  if restore then
    match Tab.get none s.saves (saveKey e (32768 + (coreHeads seats).findIdx fun y => y.tid == x.tid)) with
    | some v => v.banks
    | none => []
  else (seats.filter fun y => coreOf y.tid == coreOf x.tid).flatMap fun y => ctxBanks y.vctx

/-- What the targets of claims and the resources of victims keep from a record (R84, R94). -/
def State.claimed (s : State) (e : Nat) : Taken :=
  s.recList.foldl (fun k p =>
    if p.1 = e then k
    else
      let seats := p.2.claim.getD []
      { k with
        keptH := seatHarts seats ++ p.2.keptH ++ k.keptH
        keptB := (coreHeads seats).flatMap (fun x => (s.banksFor p.1 (s.restoring p.1) seats x).map fun b =>
          (coreOf x.tid, b)) ++ p.2.keptB ++ k.keptB
        keptG := p.2.keptG ++ k.keptG }) {}

/-- The groups of a fresh claim's target are still wide enough (R86); a target that lanes marked since have made too narrow
lets the claim end (log entry 116). -/
def State.targetWide (s : State) (g : GangShape) (seats : List Seat) : Bool :=
  g.restore.isSome || seats.all fun x =>
    x.vctx.getLsbD 9 || decide (g.vlc ≤ s.groupMvl (coreOf x.tid) (ctxFirst x.vctx) (ctxLgn x.vctx))

/-- The seats of a claim's target are free (R84). -/
def State.targetFree (s : State) (g : GangShape) (k : Taken) (seats : List Seat) : Bool :=
  s.targetWide g seats && seats.all (fun x => s.hartOpen k x.tid && (seatBanks [x]).all (fun b => s.bankFree k b.1 b.2))
    && (match g.restore with
        | none => true
        | some ns => ((coreHeads seats).zip ns).all fun p => s.coreSuits g k p.2 (coreOf p.1.tid))
    && !g.dies.any (fun d => (s.die d).stopIss != 0)

/-- The placement of a record with more taken as free; a claim is placed on its own target as soon as that is free
(R84, R85). -/
def State.placeWith (s : State) (e : Nat) (r : Rec) (x : Taken) : Option (List Seat) :=
  let k := { s.claimed e with freeH := x.freeH, freeB := x.freeB, freeE := x.freeE }
  let g := s.recShape e r
  match r.claim with
  | none => s.findSeats g k (s.prefer k)
  | some seats => if s.targetFree g k seats then some seats else none

/-- A victim still stands in the way: it has neither reached SAVED, at which its record forgets it, nor completed (R94). -/
def State.standing (s : State) (v : Nat) : Bool :=
  match s.rec? v with
  | some r => r.st == .stop || r.st == .run
  | none => false

/-- The placement of a record under R85, once its victims are gone. -/
def State.place? (s : State) (e : Nat) (r : Rec) : Option (List Seat) :=
  if r.victims.any s.standing then none else s.placeWith e r {}

/-! Taking records (R74, R79, R88). -/

/-- Entries of the pending set that a queue holds. -/
def State.quota (s : State) (q : Nat) : Nat := (s.recList.filter fun p => p.2.q == q).length

/-- A queue Belfry can take from. -/
def State.takeable (s : State) (q : Nat) : Bool :=
  let k := s.queue q
  (k.st == .on || k.st == .draining) && k.head != k.tail && decide (s.quota q < 64) && !k.cancelled.contains k.head

/-- The next queue in round-robin order that Belfry can take from. -/
def State.nextQueue (s : State) : Option Nat :=
  ((List.range 96).map fun i => (s.belfry.takeAt + i) % 96).find? s.takeable

/-- A record's local dependence word lies at its own completion word: code 16 (R82). -/
def selfDep (r : BitVec 1024) : Bool :=
  !recRmt r && recCplw r != 0 && (List.range 4).any fun i =>
    decide (i < recNdep r) && recDep r i % 4 == 1 && bitsOf (recDep r i) 45 3 * 8 == recCplw r

/-- A KIND 2 dependence whose descriptor is not a live sequence (R82). -/
def State.deadDep (s : State) (r : BitVec 1024) : Bool :=
  (List.range 4).any fun i => decide (i < recNdep r) && recDep r i % 4 == 2
    && !s.seqs.contains (bitsOf (recDep r i) 45 3 * 8)

/-- A taken record that is not run: LASTERR, REJ, and its completion at RECORD_COMPLETE. -/
def State.rejectRec (s : State) (e code : Nat) : State :=
  match s.rec? e with
  | none => s
  | some r => (s.updQueue r.q fun k => { k with lasterr := BitVec.ofNat 8 code, rej := satAdd16 k.rej 1 }).endGang e 3 code

/-- RECORD_TAKE (R74, R79, R81, R82, R88). That a slot behind a failed adjacency or on a failed channel counts as one that an
uncorrectable error keeps from being read (R69) is this model's choice (log entry 113). -/
def execRecordTake (s : State) : Out :=
  match s.nextQueue with
  | none => .next s
  | some q =>
    if !s.serving then .next s
    else
    let k := s.queue q
    let pa := k.slot k.head
    if (linesOf pa 128).any fun l => (s.homeErr 0 true (l * 64)).isSome then
      .next (s.updQueue q fun k => { k with st := .error, lasterr := 12 })
    else if (linesOf pa 128).any fun l => s.owned l || s.pathHolds 0 (l * 64) then .next s
    else
      let r := s.slotRec pa
      let s := { (s.passHead q) with belfry := { s.belfry with takeAt := (q + 1) % 96 } }
      match recCheck k r with
      | some code => .next (s.reject q r code)
      | none =>
        if !s.fitsIdle r then .next (s.reject q r 15)
        else if selfDep r then .next (s.reject q r 16)
        else if s.deadDep r then .next (s.reject q r 18)
        else
          let e := s.belfry.nextRec
          let s := { s with belfry := { s.belfry with nextRec := e + 1 } }
          let s := s.setRec e (some { bits := r, q, prio := min (recPrio r) k.qprio.toNat, st := .wait, taken := s.now })
          .next (s.evalDeps e)

/-- DEPENDENCE_PASS (R80, R81). -/
def execDependencePass (s : State) : Out :=
  match s.rec? s.ev.idx with
  | some r => if r.st = .wait then (if s.deadDep r.bits then .next (s.rejectRec s.ev.idx 18) else .next (s.evalDeps s.ev.idx)) else .next s
  | none => .next s

/-- DEPENDENCE_TIMEOUT (R82). -/
def execDependenceTimeout (s : State) : Out :=
  match s.rec? s.ev.idx with
  | some r =>
    if r.st = .wait ∧ s.belfry.depto ≠ 0 ∧ s.belfry.depto.toNat * msTicks ≤ s.now - r.taken then
      .next (s.rejectRec s.ev.idx 17)
    else .next s
  | none => .next s

/-! Claims (R84). -/

/-- Dies of a record. -/
def Rec.dies (r : Rec) : List Nat := (shapeOf r.bits).dies

/-- The claim's target: of the placements that R85 allows on idle dies, the one whose cores the fewest threads run on. -/
def State.claimTarget (s : State) (e : Nat) (r : Rec) : Option (List Seat) :=
  let g := s.recShape e r
  s.findSeats g { idle := true } (s.preferIdle g)

/-- A claim that stands: its target can still hold the record. -/
def State.claims (s : State) (e : Nat) (r : Rec) : Bool :=
  match r.claim with | some seats => s.targetWide (s.recShape e r) seats | none => false

/-- A record that has waited 4 ms and may claim: no die of it carries a claim. -/
def State.mayClaim (s : State) (e : Nat) (r : Rec) : Bool :=
  r.queued && decide (4 * msTicks ≤ s.now - r.since) && !s.claims e r
    && !s.recList.any fun p => p.1 != e && s.claims p.1 p.2 && p.2.dies.any r.dies.contains

/-- Of records that qualify at once the one of the higher level goes first, then the one that has waited longer (R84). -/
def State.claimsBefore (s : State) (a b : Nat × Rec) : Bool :=
  let la := a.2.level s.now
  let lb := b.2.level s.now
  if la ≠ lb then decide (lb < la) else if a.2.since ≠ b.2.since then decide (a.2.since < b.2.since) else decide (a.1 < b.1)

/-- CLAIM_FORMED (R84): the record claims its target, unless another that qualifies on one of its dies goes first. -/
def execClaimFormed (s : State) : Out :=
  match s.rec? s.ev.idx with
  | some r =>
    let first := !s.recList.any fun p =>
      p.1 ≠ s.ev.idx && s.mayClaim p.1 p.2 && p.2.dies.any r.dies.contains && s.claimsBefore p (s.ev.idx, r)
    if s.mayClaim s.ev.idx r && first then
      .next (s.setRec s.ev.idx (some { r with claim := s.claimTarget s.ev.idx r }))
    else .next s
  | none => .next s

/-! Placement and starting (R85, R89, R90). -/

/-- Order of arbitration (R83): higher level first; within a level, queues in round-robin order, then the earliest taken. -/
def State.before (s : State) (a b : Nat × Rec) : Bool :=
  let la := a.2.level s.now
  let lb := b.2.level s.now
  let qa := (a.2.q + 96 - s.belfry.placeAt) % 96
  let qb := (b.2.q + 96 - s.belfry.placeAt) % 96
  if la ≠ lb then decide (lb < la) else if qa ≠ qb then decide (qa < qb) else decide (a.1 < b.1)

/-- The record to be placed next: the first in order that has a placement. -/
def State.nextPlaced (s : State) : Option (Nat × Rec × List Seat) :=
  let cand := (s.recList.filter fun p => p.2.queued).filterMap fun p => (s.place? p.1 p.2).map fun st => (p.1, p.2, st)
  cand.foldl (fun best x => match best with
    | none => some x
    | some y => if s.before (x.1, x.2.1) (y.1, y.2.1) then some x else some y) none

/-- Segment descriptors of banks granted to a task that did not hold them read zero (R134). -/
def Core.zeroSegs (c : Core) (banks : List Nat) : Core := { c with seg := c.seg.filter fun p => !banks.contains (p.1 / 16) }

/-- Reserve the banks of seats for gang `e`, retiring marked lanes first (R57, R86). -/
def State.reserve (s : State) (e : Nat) (core : Nat) (banks : List Nat) : State :=
  let s := s.retireBanks core banks
  s.updCore core fun c =>
    { c.zeroSegs banks with bankOf := banks.foldl (fun t b => Tab.set none t b (some e)) c.bankOf }

/-- What a thread starts with (R90): U mode at ENTRY with its registers. -/
def freshThread (r : BitVec 1024) (e rank nt : Nat) (x : Seat) : Thread :=
  let regs := (((Vector.replicate 32 (0 : Word)).set 10 (word rank)).set 11 (word nt)).set 12 (word x.ordinal)
  let regs := regs.set 13 (word (recTag r))
  { x := regs, pc := word (recEntry r), npc := word (recEntry r), gang := e, rank, vlc := BitVec.ofNat 18 (recVlc r)
    csr := { vptbase := BitVec.ofNat 30 (recRoot r), vasid := BitVec.ofNat 16 (recAsid r), vctx := x.vctx } }

/-- Threads of a gang are loaded on their harts, not live yet; mtvec stays with the hart (log entry 8). -/
def State.loadThreads (s : State) (e : Nat) (r : BitVec 1024) (seats : List Seat) : State :=
  seats.zipIdx.foldl (fun s p =>
    let old := s.thread p.1.tid
    let t := freshThread r e p.2 seats.length p.1
    s.setThread p.1.tid { t with csr := { t.csr with mtvec := old.csr.mtvec, mscratch := old.csr.mscratch } }) s

/-- Configure and start the prefetch streams of a record that have not started (R72, R89), each on its unit of the core's
first thread. One whose record has to be waited for stays; one whose unit is configured already, or whose record or shape
is refused, faults (R340, R341). -/
def State.startStreams (s : State) (e : Nat) : State :=
  match s.rec? e with
  | none => s
  | some r => r.prefetch.foldl (fun (s : State) p =>
      let q := recPre r.bits p.2.2 % 8
      let done (x : Rec) : Rec := { x with prefetch := x.prefetch.erase p }
      let bad (s : State) : State := match s.rec? e with
        | some x => s.setRec e (some { done x with badStream := true })
        | none => s
      if ((s.core (coreOf p.1)).stream q).st ≠ .uncfg then bad s
      else match ({ s with cur := p.1 }).strcfg q (word (recPre r.bits p.2.2 / 64 * 64)) with
        | .ok s' =>
          let s' : State := { s' with cur := s.cur }
          let s' := s'.updCore (coreOf p.1) fun c => c.setStream q { c.stream q with st := .run }
          (match s'.rec? e with | some x => s'.setRec e (some (done x)) | none => s')
        | .wait => s
        | _ => bad s) s

/-- Completions that check 15 forces when a lane map has changed (R88). -/
def State.recheck (s : State) : State :=
  (s.recList.filter fun p => p.2.queued || p.2.st == .wait).foldl (fun s p =>
    if s.fitsIdle p.2.bits then s else s.rejectRec p.1 15) s

/-- Lane-map versions of the cores. -/
def State.mapVers (s : State) : List (BitVec 32) := s.cores.map fun (p : Nat × Core) => p.2.mapVer

/-- Accumulator groups that a restored gang takes there. -/
def State.takeGroups (s : State) (e : Nat) (seats : List Seat) (x : Seat) : State :=
  match Tab.get none s.saves (saveKey e (32768 + (coreHeads seats).findIdx fun y => y.tid == x.tid)) with
  | some v => s.updCore (coreOf x.tid) fun c =>
      { c with accOwner := v.groups.foldl (fun t i => Tab.set none t i (some e)) c.accOwner
               zeroing := c.zeroing.filter fun i => !v.groups.contains i }
  | none => s

/-- PLACEMENT (R85, R86, R89): the record to be placed enters PLACE. -/
def execPlacement (s : State) : Out :=
  match s.nextPlaced with
  | none => .next s
  | some (e, r, seats) =>
    if !s.serving then .next s
    else
      let restore := s.restoring e
      let ver := s.mapVers
      let s := (coreHeads seats).foldl (fun (s : State) x => s.reserve e (coreOf x.tid) (s.banksFor e restore seats x)) s
      let s := (coreHeads seats).foldl (fun (s : State) x => s.takeGroups e seats x) s
      let streams := if restore then [] else (coreHeads seats).flatMap fun x =>
        (List.range (recNpre r.bits)).map fun i => (x.tid, recPre r.bits i % 8, i)
      let s := s.setRec e (some { r with st := .place, seats, claim := none, victims := [], keptH := [], keptB := [], keptG := []
                                         prefetch := streams })
      let s := { s with belfry := { s.belfry with placeAt := (r.q + 1) % 96 } }
      let s : State := if restore then s else (s.loadThreads e r.bits seats).startStreams e
      .next (if decide (s.mapVers = ver) then s else s.recheck)

end Sys2Proof.Machine
end

