-- ==== Sys2Proof/Machine/Gangs.lean ====
section
/-! DEFINITION. Gangs in flight: starting and restoring, pre-emption, stopping and saving threads, the save area,
completion, cancelling (R58, R76, R78, R89, R94 to R98, R151, R172, R293, R387). -/

namespace Sys2Proof.Machine

/-! The save area (R96). -/

def saveBase (r : BitVec 1024) : Nat := recSave r * 65536
/-- Region of the thread of a rank. -/
def threadRegion (r : BitVec 1024) (rank : Nat) : Nat := saveBase r + 0x10000 + rank * 0x2000
/-- BS: bytes of the banks region of one core. -/
def coreBytes (r : BitVec 1024) : Nat := (recTpc r + 1) * 2 ^ recLgb r * 0x20000
/-- Banks region and accumulator region of core number `c`, for NT threads and NC cores. -/
def bankRegion (r : BitVec 1024) (nt c : Nat) : Nat := threadRegion r nt + c * coreBytes r
def accRegion (r : BitVec 1024) (nt nc c : Nat) : Nat := bankRegion r nt nc + c * 0x80000
/-- The whole area lies in one memory region of one die, every die of the gang reaches it, its channels answer, and for a
restore none of its lines is poisoned (R53, R55, R96). -/
def State.areaOk (s : State) (r : Rec) (restore : Bool) : Bool :=
  let nt := r.seats.length
  let nc := (coreHeads r.seats).length
  let base := saveBase r.bits
  let n := accRegion r.bits nt nc nc - base
  let h := homeDie base
  inMemory base n && !r.dies.any (fun d => s.cut d h) && (s.die h).failed.isNone
    && !(restore && s.poison.any fun l => base / 64 ≤ l && decide (l * 64 < base + n))

/-- A save or restore of a die's region waits: a channel there retrains, or a link on the way does (R20, R52). -/
def State.regionWaits (s : State) (die pa : Nat) : Bool := (s.die (homeDie pa)).window.isSome || s.training die (homeDie pa)

/-- The save or restore of a gang waits for its area. -/
def State.areaWaits (s : State) (r : Rec) : Bool := r.dies.any fun d => s.regionWaits d (saveBase r.bits)

/-- Number of a seat's core among the gang's cores (R96). -/
def coreNo (seats : List Seat) (core : Nat) : Nat := (coreHeads seats).findIdx fun x => coreOf x.tid == core

/-- Bytes of a row in a save area. -/
def rowBytes (r : Row) : List Byte := leBytes 256 r.toNat

/-! What a thread saves (R95, R130, R280). -/

/-- Rows of a named register that hold planes (R135). -/
def Core.keptRows (c : Core) (b v : Nat) : List Nat :=
  (List.range (min 32 (segKeep (c.segd b v)))).map (16 * v + ·)

/-- A pair of which vlive names one register alone is saved as that register: the other reads zero after the restore
(R280). -/
def Core.unpair (c : Core) (banks : List Nat) (vlive : Word) : Core :=
  banks.foldl (fun c b => (List.range 8).foldl (fun (c : Core) k =>
    match segPr (c.segd b (2 * k)), vlive.getLsbD (2 * k), vlive.getLsbD (2 * k + 1) with
    | true, true, false => c.splitPair b (2 * k + 1)
    | true, false, true => c.splitPair b (2 * k)
    | _, _, _ => c) c) c

/-- Rows of a bank of the context that vlive names: registers and masks. -/
def Core.liveRows (c : Core) (b : Nat) (vlive : Word) : List Nat :=
  (List.range 16).flatMap (fun v => if vlive.getLsbD v then c.keptRows b v else [])
    ++ ((List.range 8).filter fun m => m ≠ 0 && vlive.getLsbD (16 + m)).map (256 + ·)

/-- Every row of a bank that a save may hold: all but the temporaries, rows 264 to 271 (R95, R132). -/
def fullRows : List Nat := (List.range 512).filter fun r => r < 264 || 272 ≤ r

/-- Entries of hart `h` that a save keeps: all when forced, else those bound to a handle that vlive names. -/
def Thread.keepsTile (t : Thread) (forced : Bool) (i : Nat) : Bool :=
  forced || (List.range 32).any fun h => t.handle h == some i && t.csr.vlive.getLsbD (32 + h)

/-- The rows that a thread saves: of its context's banks, and of the tiles it keeps. -/
def Core.savedRows (c : Core) (h : Nat) (t : Thread) (forced : Bool) : List (Nat × Nat) :=
  (ctxBanks t.csr.vctx).flatMap (fun b =>
      (if forced then fullRows else c.liveRows b t.csr.vlive).map fun r => (b, r))
    ++ c.tiles.flatMap fun p => match p.2 with
      | some x => if x.owner = h ∧ t.keepsTile forced p.1 then
          x.banks.flatMap fun b => (List.range x.nrows).map fun r => (b, x.frow + r) else []
      | none => []

/-- A tile entry as a restore rebuilds it: EMPTY when it was not named (R280). -/
def Tile.restored (x : Tile) (keep : Bool) : Tile :=
  if keep then { x with rdrs := 0 } else { x with st := .empty, flt := false, rdrs := 0 }

/-- A stream as a restore rebuilds it: windows filled and not delivered are fetched again. -/
def Stream.restored (x : Stream) : Stream := { x with filled := min x.filled x.dlv }

/-- The thread as it is saved: its wait stands as R387 says, monitors and reservation are dropped. -/
def Thread.forSave (t : Thread) : Thread :=
  { t with
    resv := none, prq := false, frc := false, stopNow := false, stopped := false, live := false, armed := none
    wait := .none }

/-- What saving a thread puts together: the device's bytes, the thread, descriptors, entries, streams and rows. -/
def State.makeSave (s : State) (tid : Nat) (forced : Bool) (base bankAt : Nat) (banks : List Nat) (epc : Word) : Saved :=
  let t := s.thread tid
  let h := thrOf tid
  let ctx := ctxBanks t.csr.vctx
  let c := if forced then s.core (coreOf tid) else (s.core (coreOf tid)).unpair ctx t.csr.vlive
  { base, image := (List.range 0x2000).map (Config.freeByte (s.free * 2 ^ 64 + base)), thread := t.forSave, epc
    lgn := if t.csr.vctx.getLsbD 9 then 7 else ctxLgn t.csr.vctx, banks, bankAt
    rows := (c.savedRows h t forced).foldl (fun x p => Tab.insert x (p.1 * 512 + p.2) (c.row p.1 p.2)) []
    seg := c.seg.filter fun p => ctx.contains (p.1 / 16) && (forced || t.csr.vlive.getLsbD (p.1 % 16))
    tiles := c.tiles.filterMap fun p => match p.2 with
      | some x => if x.owner = h then some (p.1, some (x.restored (t.keepsTile forced p.1))) else none
      | none => none
    streams := (c.streams.filter fun p => p.2.owner == h).map fun p => (p.1, p.2.restored) }

/-- Address of a bank's row in a save. -/
def Saved.rowAt (v : Saved) (k : Nat) : Nat := v.bankAt + v.banks.findIdx (· == k / 512) * 0x20000 + 256 * (k % 512)

/-- Write a save into its area. -/
def State.putSave (s : State) (key : Nat) (v : Saved) : State :=
  let s := s.writeHome noThread v.base v.image
  let s := v.rows.foldl (fun (s : State) p => s.writeHome noThread (v.rowAt p.1) (rowBytes p.2)) s
  { s.tick with saves := Tab.set none s.saves key (some v) }

/-- Save a stopped thread of a gang. -/
def State.saveThread (s : State) (tid : Nat) : State :=
  let t := s.thread tid
  match s.rec? t.gang with
  | none => s
  | some r =>
    let nt := r.seats.length
    let banks := (List.range 64).filter fun b => Tab.get none (s.core (coreOf tid)).bankOf b = some t.gang
    s.putSave (saveKey t.gang t.rank) (s.makeSave tid t.frc (threadRegion r.bits t.rank)
      (bankRegion r.bits nt (coreNo r.seats (coreOf tid))) (if isCup tid then [] else banks) t.pc)

/-! Stopping (R94, R95). -/

/-- The thread can be saved: every write that it made or saw has reached its home, so that it finds them on any core, and no
engine, Lantern or reader uses its rows (R95, R161, R172, R242, R368). Other engine work is left in place. -/
def State.quietStop (s : State) (tid : Nat) : Bool :=
  let t := s.thread tid
  t.sb.isEmpty && s.flushed tid 5 && !s.rowOps tid && !s.jobsOf tid
    && !((s.core (coreOf tid)).tiles.any fun p => match p.2 with
      | some x => x.owner == thrOf tid && !isCup tid && x.rdrs != 0
      | none => false)

/-- A pre-emption request is in force: the thread is in U mode (R129). -/
def Thread.asked (t : Thread) : Bool := t.live && t.prq && t.mode == .u

/-- A thread with a request is blocked in a wait that a stop may end (R95, R273, R387), which a stall is not (R92); ATTNCANCEL
returns first (R391). -/
def Thread.blocked (t : Thread) : Bool :=
  (match t.wait with | .none | .stalled | .cancelling _ => false | _ => true)
    || (match t.water with | some w => w.hold | none => false)

/-- The pre-emption request stops the thread only after every job it issued has completed (R242), and after an ATTNCANCEL or
an operation that was sent to a unit has returned (R391, R401). -/
def State.mayStop (s : State) (tid : Nat) : Bool :=
  (s.thread tid).asked && !s.jobsOf tid && (match (s.thread tid).wait with | .cancelling _ | .sent _ => false | _ => true)

/-- THREAD_STOP_SAVE (R95): the thread has reached its PREEMPTPT or strip boundary, is blocked in a wait, or is being
forced. It stops, and once its rows and stores are quiet its state is saved. -/
def execThreadStopSave (s : State) : Out :=
  let tid := s.ev.tid
  let t := s.thread tid
  let ok := match s.rec? t.gang with | some r => s.areaOk r false && !s.areaWaits r | none => false
  if s.mayStop tid && (t.stopNow || t.blocked || t.frc) && ok then
    let s := s.updThread tid fun t => { t.finishAccepted with live := false, stopped := true, resv := none }
    .next (if s.quietStop tid then s.saveThread tid else s)
  else .next s

/-- PREEMPT_FORCE_EXPIRE (R95): 20 µs have passed since the request, the return to U mode or the completion of the last job
(R129, R242); the thread stops at its next convoy boundary. -/
def execPreemptForceExpire (s : State) : Out :=
  let tid := s.ev.tid
  let t := s.thread tid
  if s.mayStop tid && !t.stopNow && !t.frc && decide (20 * usTicks ≤ s.now - t.prqAt) then
    let b := s.belfry
    .next { (s.updThread tid fun t => { t with frc := true }) with belfry := { b with forced := satAdd16 b.forced 1 } }
  else .next s

/-- Harts, banks and gangs that go free without the gangs `vs`. -/
def State.freed (s : State) (vs : List Nat) : Taken :=
  vs.foldl (fun k e => match s.rec? e with
    | some r =>
      let banks := s.cores.flatMap fun (p : Nat × Core) => (p.2.bankOf.filter fun q => q.2 == some e).map fun q => (p.1, q.1)
      let harts := (seatHarts r.seats).filter fun tid => (s.thread tid).present && (s.thread tid).gang == e
      { k with freeH := harts ++ k.freeH, freeB := banks ++ k.freeB, freeE := e :: k.freeE }
    | none => k) {}

/-- A running gang holds a hart or a bank of another record's claim target (R94). -/
def State.onClaim (s : State) (e v : Nat) (x : Rec) : Bool :=
  s.recList.any fun p => p.1 != e && (match p.2.claim with
    | some seats =>
      (x.seats.any fun z => (s.thread z.tid).present && (s.thread z.tid).gang == v && (seatHarts seats).contains z.tid)
        || (coreHeads seats).any fun y => (s.banksFor p.1 (s.restoring p.1) seats y).any fun b =>
          Tab.get none (s.core (coreOf y.tid)).bankOf b == some v
    | none => false)

/-- Candidates in the order of R94: ascending effective priority, then latest start. -/
def State.candidates (s : State) (e : Nat) (r : Rec) : List Nat :=
  let c := s.recList.filter fun p => p.2.running && recSave p.2.bits != 0 && decide (p.2.prio < r.prio)
    && p.2.dies.any r.dies.contains && !s.onClaim e p.1 p.2
  sortBy (fun i => match s.rec? i with | some x => x.prio * 2 ^ 64 + (s.now - x.started) | none => 0) (c.map (·.1))

/-- Add candidates until the record could be placed. -/
def State.addVictims (s : State) (e : Nat) (r : Rec) : List Nat → List Nat → Option (List Nat)
  | _, [] => none
  | vs, c :: cs => if (s.placeWith e r (s.freed (vs ++ [c]))).isSome then some (vs ++ [c]) else s.addVictims e r (vs ++ [c]) cs

/-- Drop victims that are not needed, last added first. -/
def State.dropVictims (s : State) (e : Nat) (r : Rec) (vs : List Nat) : List Nat :=
  vs.reverse.foldl (fun (k : List Nat) v =>
    let k' := k.filter (· ≠ v)
    if (s.placeWith e r (s.freed k')).isSome then k' else k) vs

/-- The record that R94 looks at: READY or SAVED, of the highest level. -/
def State.topRecord (s : State) : Option (Nat × Rec) :=
  (s.recList.filter fun p => p.2.queued).foldl (fun best x => match best with
    | none => some x
    | some y => if s.before x y then some x else some y) none

/-- Ask one gang to stop (R95). -/
def State.stopGang (s : State) (e : Nat) : State :=
  match s.rec? e with
  | none => s
  | some r =>
    let s := s.setRec e (some { r with st := .stop })
    r.seats.foldl (fun s x => s.updThread x.tid fun t =>
      if t.live && t.gang == e then { t with prq := true, prqAt := s.now } else t) s

/-- Accumulator groups of a gang on a core. -/
def Core.groupsOf (c : Core) (e : Nat) : List Nat := (List.range 16).filter fun i => Tab.get none c.accOwner i = some e

/-- PREEMPT_REQUEST (R94): victims are chosen and asked to stop, and all that they free is kept for the record. -/
def execPreemptRequest (s : State) : Out :=
  match s.topRecord with
  | none => .next s
  | some (e, r) =>
    if s.belfry.nopre || !s.serving || r.victims.any s.standing || (s.place? e r).isSome then .next s
    else match s.addVictims e r [] (s.candidates e r) with
      | none => .next s
      | some vs =>
        let vs := s.dropVictims e r vs
        let k := s.freed vs
        let groups := s.cores.flatMap fun (p : Nat × Core) => (vs.flatMap p.2.groupsOf).map fun i => (p.1, i)
        let s := s.setRec e (some { r with victims := vs, keptH := k.freeH ++ r.keptH, keptB := k.freeB ++ r.keptB
                                           keptG := groups ++ r.keptG })
        .next (vs.foldl (fun s v => s.stopGang v) s)

/-- Banks that the task holds on a core and no thread of it does: rows 0 to 263 in full (R95). -/
def State.orphans (s : State) (e core : Nat) : List Nat :=
  let held := (s.threads.filter fun p => p.2.present && coreOf p.1 == core && p.2.gang == e).flatMap fun p =>
    ctxBanks p.2.csr.vctx
  (List.range 64).filter fun b => Tab.get none (s.core core).bankOf b = some e && !held.contains b

/-- A victim has reached SAVED: no record waits for it any more (R94). -/
def State.forgetVictim (s : State) (v : Nat) : State :=
  { s with belfry := { s.belfry with recs := s.belfry.recs.map fun p =>
      (p.1, p.2.map fun r => { r with victims := r.victims.erase v }) } }

/-- Key of the gang header of a save. -/
def headerKey (e : Nat) : Nat := saveKey e 49152

/-- Bytes of an accumulator row group. -/
def groupBytes (acc : Tab (BitVec 32)) (g : Nat) : List Byte :=
  (List.range 8192).flatMap fun i => leBytes 4 (Tab.get 0 acc (g * 8192 + i)).toNat

/-- Save what a core holds beside its threads: orphan banks and accumulator groups (R95, R96). -/
def State.saveCore (s : State) (e : Nat) (r : Rec) (core : Nat) : State :=
  let c := s.core core
  let n := coreNo r.seats core
  let nt := r.seats.length
  let nc := (coreHeads r.seats).length
  let orph := s.orphans e core
  let banks := (List.range 64).filter fun b => Tab.get none c.bankOf b = some e
  let groups := c.groupsOf e
  let v : Saved :=
    { base := accRegion r.bits nt nc n, banks, bankAt := bankRegion r.bits nt n, groups
      rows := orph.foldl (fun x b => (List.range 264).foldl (fun x i => Tab.insert x (b * 512 + i) (c.row b i)) x) []
      seg := c.seg.filter fun p => orph.contains (p.1 / 16)
      acc := c.acc.filter fun p => groups.contains (p.1 / 8192) }
  let s := s.putSave (saveKey e (32768 + n)) v
  groups.foldl (fun s g => s.writeHome noThread (v.base + g * 0x8000) (groupBytes c.acc g)) s

/-- The gang header (R96): the device's own bytes. -/
def State.saveHeader (s : State) (e : Nat) (r : Rec) : State :=
  s.putSave (headerKey e)
    { base := saveBase r.bits, image := (List.range 0x10000).map (Config.freeByte (s.free * 2 ^ 64 + 2 ^ 63 + e)) }

/-- GANG_SAVED (R78, R95, R96): every thread has stopped or halted, and what uses their rows has ended; the save is complete
and the resources free. -/
def execGangSaved (s : State) : Out :=
  let e := s.ev.idx
  match s.rec? e with
  | none => .next s
  | some r =>
    let tids := (r.seats.map Seat.tid).filter fun tid => (s.thread tid).gang == e
    let stopped := tids.filter fun tid => (s.thread tid).stopped
    if r.st ≠ .stop ∨ tids.any (fun tid => (s.thread tid).live) ∨ stopped.isEmpty ∨ !stopped.all s.quietStop
        ∨ !s.areaOk r false ∨ s.areaWaits r then .next s
    else
      let s := s.saveHeader e r
      let s := stopped.foldl (fun s tid => s.saveThread tid) s
      let s := (coreHeads r.seats).foldl (fun (s : State) x => s.saveCore e r (coreOf x.tid)) s
      let kept := s.saves
      let s := { s.freeGang e with saves := kept }
      let s := (s.setRec e (some { r with st := .saved, since := s.now, claim := none })).forgetVictim e
      .next { s with belfry := { s.belfry with preempt := satAdd16 s.belfry.preempt 1 } }

/-! Restoring (R97, R58, R151). -/

/-- The device's bytes of a save still stand in memory. -/
def State.imageStands (s : State) (v : Saved) : Bool := Memory.readList s.mem v.base v.image.length == v.image

/-- Undefined state of a thread whose save was modified, confined to its task (R96): free values in its registers, its
own address space, gang and banks. -/
def Thread.scrambled (t : Thread) (k : Nat) : Thread :=
  { t with
    x := Vector.ofFn (fun i => Config.freeWord (k + i.val)), pc := Config.freeWord (k + 32), mode := .u
    vq := [], banks := [], fx := [], held := [], notifies := [], convTrap := none, laneTraps := [], engTraps := []
    frozen := false, handles := [], bars := []
    csr := { t.csr with vl := (Config.freeWord (k + 33)).setWidth 18, vw := (Config.freeWord (k + 34)).setWidth 12 } }

/-- Rows of a save as they stand in its area, in the lanes that their banks have now: an unmodified row is the saved one, a
modified one, or any of a save whose header was modified, is undefined (R58, R96). -/
def State.restoreRows (s : State) (core : Nat) (v : Saved) (whole : Bool) : State :=
  v.rows.foldl (fun (s : State) p =>
    let same := whole && Memory.readList s.mem (v.rowAt p.1) 256 == rowBytes p.2
    let x := if same then p.2 else Config.freeRow s.free
    s.tick.updCore core fun c => c.setRow (p.1 / 512) (p.1 % 512) (x &&& c.lanes (p.1 / 512))) s

/-- Accumulators of a save, group by group, as they stand in its area: a modified group is undefined (R96). -/
def State.restoreGroups (s : State) (core : Nat) (v : Saved) (whole : Bool) : State :=
  v.groups.foldl (fun (s : State) g =>
    let same := whole && Memory.readList s.mem (v.base + g * 0x8000) 0x8000 == groupBytes v.acc g
    let x (i : Nat) : BitVec 32 := if same then Tab.get 0 v.acc i else (Config.freeWord (s.free * 2 ^ 64 + i)).setWidth 32
    s.tick.updCore core fun c =>
      { c with acc := (List.range 8192).foldl (fun t i => Tab.set 0 t (g * 8192 + i) (x (g * 8192 + i))) c.acc }) s

/-- Translate one held element of a word in a mode again (R151). -/
def State.retranslate (s : State) (tid : Nat) (mode : Mode) (root : BitVec 30) (x : Elem) : Except (XErr × Word) Elem :=
  (s.bytePas (dieOf tid) mode root .write x.pas.length x.va).map fun pas => { x with pas }

/-- The held words `which` under the current table; the first element that fails to translate raises VECTOR_ACCESS before
the next instruction (R151). -/
def Thread.retranslated (s : State) (tid : Nat) (which : Held → Bool) (t : Thread) : Thread :=
  let bad := t.held.findSome? fun h => if !which h then none else h.elems.findSome? fun x =>
    match s.retranslate tid h.mode t.csr.vptbase x with | .error e => some (h, x.idx, e) | .ok _ => none
  let anew (h : Held) : Held :=
    if which h then
      { h with asid := t.csr.vasid
               pins := (h.elems.flatMap fun x => s.vpages h.mode t.csr.vptbase x.va x.pas.length).eraseDups
               elems := h.elems.map fun x => (s.retranslate tid h.mode t.csr.vptbase x).toOption.getD x }
    else h
  match bad with
  | none => { t with held := t.held.map anew }
  | some (h, i, e) => { t with
      frozen := true
      convTrap := some { cause := 25, tval := e.2
                         info := word (e.1.code + e.1.flags + 2 ^ 8 * (h.addr.toNat % 2 ^ 48) + 2 ^ 60) }
      csr := { t.csr with ffst := BitVec.ofNat 40 (i % 2 ^ 32 + 2 ^ 32 * e.1.code) } }

/-- Translating the held words `which` has to wait for a line of the table (R52, R169). -/
def Thread.retransWaits (s : State) (tid : Nat) (which : Held → Bool) (t : Thread) : Bool :=
  t.held.any fun h => which h && h.elems.any fun x =>
    match s.retranslate tid h.mode t.csr.vptbase x with | .error (.hold, _) => true | _ => false

/-- A smaller mvl than the saved vl raises LANE_ERROR at the first convoy (R58), behind those of marked lanes; a restore
decides anew on what an earlier restore raised so and no convoy has reached. -/
def Thread.checkMvl (t : Thread) (mvl : Nat) : Thread :=
  let old := t.laneTraps.filter fun tr => !tr.info.getLsbD 63
  { t with laneTraps :=
      if mvl < t.csr.vl.toNat then old ++ [{ cause := 49, tval := 0, info := word (mvl + 2 ^ 63) }] else old }

/-- Place the saved tile entries of a thread on a core: the same banks and rows, the lowest free entries. Gives the
pairs of old and new entries. -/
def Core.placeTiles (c : Core) (h : Nat) (tiles : Tab (Option Tile)) : Core × List (Nat × Nat) :=
  tiles.foldl (fun (r : Core × List (Nat × Nat)) p => match p.2, findBelow (fun i => (r.1.tile? i).isNone) 64 with
    | some x, some i => (r.1.setTile i (some { x with owner := h }), (p.1, i) :: r.2)
    | _, _ => r) (c, [])

def remap (m : List (Nat × Nat)) (i : Nat) : Nat := (m.lookup i).getD i

/-- A pending engine trap after a restore: due before the first instruction, its tile entries where they now are (R126,
R130). -/
def Trap.restored (m : List (Nat × Nat)) (tr : Trap) : Trap := { tr with due := true, names := tr.names.map (remap m) }

/-- Put a saved thread, its entries, streams, descriptors and rows on hart `tid`; `whole`: the gang header stands. -/
def State.putThread (s : State) (tid : Nat) (v : Saved) (whole : Bool) : State :=
  let h := thrOf tid
  let t := if whole && s.imageStands v then v.thread else v.thread.scrambled s.free
  let s := { s with free := s.free + 64 }
  let (c, m) := (s.core (coreOf tid)).placeTiles h v.tiles
  let c := v.streams.foldl (fun (c : Core) p =>
    { c with streams := Tab.set {} c.streams p.1 { p.2 with owner := h, slots := p.2.slots.map (remap m) } }) c
  let c := v.seg.foldl (fun (c : Core) p => { c with seg := Tab.set 0 c.seg p.1 p.2 }) c
  let s := (s.setCore (coreOf tid) c).restoreRows (coreOf tid) v whole
  let t := { t with
    live := true, handles := t.handles.map fun p => (p.1, remap m (p.2 - 1) + 1), engTraps := t.engTraps.map (Trap.restored m) }
  let t := (Thread.retranslated s tid (fun _ => true) t).checkMvl ((s.core (coreOf tid)).mvl t.csr.vctx)
  s.setThread tid t

/-- Rows of banks read zero before a restore writes the saved ones (R280). -/
def Core.clearBanks (c : Core) (banks : List Nat) : Core :=
  { c with rows := c.rows.filter (fun p => !banks.contains (p.1 / 512)) }

/-- Restore the gang's cores and threads (R97). -/
def State.restoreGang (s : State) (e : Nat) (r : Rec) : State :=
  let whole := match Tab.get none s.saves (headerKey e) with | some v => s.imageStands v | none => true
  let s := (coreHeads r.seats).zipIdx.foldl (fun (s : State) p =>
    match Tab.get none s.saves (saveKey e (32768 + p.2)) with
    | none => s
    | some v =>
      let core := coreOf p.1.tid
      let s := s.updCore core fun c => c.clearBanks v.banks
      let s := s.updCore core fun c => { c with seg := v.seg.foldl (fun t x => Tab.set 0 t x.1 x.2) c.seg }
      (s.restoreGroups core v whole).restoreRows core v whole) s
  let s := r.seats.zipIdx.foldl (fun (s : State) p =>
    match Tab.get none s.saves (saveKey e p.2) with
    | none => s
    | some v => s.putThread p.1.tid v whole) s
  { s with saves := s.saves.filter (fun p => !saveOf e p.1) }

/-- A thread of the gang cannot be restored yet: translating its held stores has to wait. -/
def State.restoreWaits (s : State) (e : Nat) (r : Rec) : Bool :=
  r.seats.zipIdx.any fun p => match Tab.get none s.saves (saveKey e p.2) with
    | some v => v.thread.retransWaits s p.1.tid fun _ => true
    | none => false

/-! Starting (R81, R89). -/

/-- Every prefetch stream of the record has its first window resident. -/
def State.primed (s : State) (r : Rec) : Bool :=
  r.prefetch.isEmpty && !r.badStream && (coreHeads r.seats).all fun x => (List.range (recNpre r.bits)).all fun i =>
    let q := (s.core (coreOf x.tid)).stream (recPre r.bits i % 8)
    q.st == .run && decide (1 ≤ q.filled)

/-- A prefetch stream of the record has faulted. -/
def State.streamDead (s : State) (r : Rec) : Bool :=
  r.badStream || (coreHeads r.seats).any fun x => (List.range (recNpre r.bits)).any fun i =>
    let q := (s.core (coreOf x.tid)).stream (recPre r.bits i % 8)
    q.st == .fault && q.owner == thrOf x.tid

/-- The gang acquires the values that passed its dependences (R81). -/
def State.acquireDeps (s : State) (r : Rec) : State :=
  r.dies.foldl (fun s d => (List.range (recNdep r.bits)).foldl (fun (s : State) i =>
    s.observe d (lineOf (bitsOf (recDep r.bits i) 45 3 * 8))) s) s

/-- GANG_START (R89, R90, R92): every context is loaded or restored, so all threads become ready at once; a prefetch stream
that had to wait is started first. -/
def execGangStart (s : State) : Out :=
  let e := s.ev.idx
  match s.rec? e with
  | none => .next s
  | some r =>
    if r.st ≠ .place then .next s
    else if s.restoring e then
      if s.areaOk r true && !s.areaWaits r && !s.restoreWaits e r then
        .next ((s.restoreGang e r).setRec e (some { r with st := .run, started := s.now }))
      else .next s
    else if !r.prefetch.isEmpty then .next (s.startStreams e)
    else if !s.primed r then .next s
    else
      let s := r.seats.foldl (fun (s : State) x => s.updThread x.tid fun t => { t with live := true }) s
      .next ((s.acquireDeps r).setRec e (some { r with st := .run, started := s.now }))

/-- PREFETCH_FAULT (R78): the record completes FAULT with DETAIL 29 and its reservations are freed. -/
def execPrefetchFault (s : State) : Out :=
  match s.rec? s.ev.idx with
  | none => .next s
  | some r =>
    if r.st = .place ∧ !s.restoring s.ev.idx ∧ s.streamDead r then .next (s.endGang s.ev.idx 1 29) else .next s

/-- SAVE_RESTORE_FAIL (R78): a save or restore access fails; the record completes FAULT with DETAIL 51. -/
def execSaveRestoreFail (s : State) : Out :=
  match s.rec? s.ev.idx with
  | none => .next s
  | some r =>
    let busy := r.st == .stop || (r.st == .place && s.restoring s.ev.idx)
    if busy && !s.areaOk r (r.st == .place) then .next (s.endGang s.ev.idx 1 51) else .next s

/-! Ends (R76, R87, R98). -/

/-- A thread halts: its hart and banks free, and the record completes DONE with its last thread (R87, R78). -/
def State.haltThread (s : State) (tid : Nat) : State :=
  let t := s.thread tid
  let s := s.endThread tid
  match s.rec? t.gang with
  | none => s
  | some r =>
    let halted := t.rank :: r.halted
    let s := s.setRec t.gang (some { r with halted })
    if r.seats.length ≤ halted.length then s.endGang t.gang 0 0 else s

/-- Everything that a gang's threads issued has performed: their stores, and the commands and jobs that run on after an end
(R76, R98, R129, R172). A hart that another gang has taken has nothing of this one left. -/
def State.gangQuiet (s : State) (e : Nat) (r : Rec) : Bool :=
  (r.seats.all fun x =>
    let t := s.thread x.tid
    t.gang != e || (t.sb.isEmpty && t.held.all (·.elems.isEmpty) && t.notifies.isEmpty && !s.outOf x.tid))
    && !(s.ops.any fun p => match p.2 with | some o => o.gang == e | none => false)
    && !(s.clusters.any fun p => p.2.jobs.any (·.gang == e))

/-- The record names no completion word. -/
def noWord (r : BitVec 1024) : Bool := !recRmt r && recCplw r == 0

/-- RECORD_COMPLETE (R76, R78): a record without a completion word frees its entry at once; for another the word is written
after every store of the gang, and the entry frees with it. Words that had to wait for their lines are written. -/
def execRecordComplete (s : State) : Out :=
  let s := s.writeWords
  match s.rec? s.ev.idx with
  | none => .next s
  | some r =>
    match r.st with
    | .ending status detail =>
      if noWord r.bits then .next (s.setRec s.ev.idx none)
      else if s.gangQuiet s.ev.idx r && (recRmt r.bits || !s.wordWaits (recCplw r.bits)) then
        .next (s.writeCompletion r.q r.bits status detail (some s.ev.idx))
      else .next s
    | _ => .next s

/-- SCHCANCEL (R98, R99): records of one queue, by tag or all, complete CANCELLED; with RUN also those in PLACE, RUN,
STOP and SAVED. -/
def State.schcancel (s : State) (v : Word) (all : Bool) : State :=
  let qn := Fld v 5 0
  let dev := v.getLsbD 6
  let run := v.getLsbD 8
  let tag := Fld v 63 32
  if dev ∧ 31 < qn then { s with belfry := { s.belfry with canc := 0 } }
  else
    let q := qn + (if dev then 64 else 0)
    let hits := s.recList.filter fun p => p.2.q == q && (all || recTag p.2.bits == tag) &&
      (match p.2.st with
       | .wait | .ready => true
       | .place | .run | .stop | .saved => run
       | .ending _ _ | .posted => false)
    let s := hits.foldl (fun (s : State) p => s.endGang p.1 2 0 true) s
    { s with belfry := { s.belfry with canc := BitVec.ofNat 16 hits.length } }

/-- SCHCANCEL_TAG (R98). -/
def execSchcancelTag (s : State) : Out := if s.ev.value.getLsbD 7 then .next s else .next (s.schcancel s.ev.value false)
/-- SCHCANCEL_ALL (R98). -/
def execSchcancelAll (s : State) : Out := if s.ev.value.getLsbD 7 then .next (s.schcancel s.ev.value true) else .next s

end Sys2Proof.Machine
end

