-- ==== Sys2Proof/Machine/Registers.lean ====
section
/-! DEFINITION. The register space of the dies and the Campanile window (R17, R22, R41, R43, R54, R59, R60, R66 to R69, R75,
R99, R152, R430): which register an address names, reads, read-to-clear fields, stores. -/

namespace Sys2Proof.Machine

/-- An 8-byte word of the register space. -/
inductive DevReg where
  | devst | bbhead | chainst (die : Nat) | memhlth (die : Nat) | portst | portcfg | addrLo | addrHi
  | window (n k : Nat) | xlinv | xlva | queue (q k : Nat) | schcfg | schst | schcancel | schcanc
  | camp (off : Nat)
deriving DecidableEq, Repr

/-- The register at an 8-byte aligned physical address; none where the offset is unassigned. -/
def devReg (pa : Nat) : Option DevReg :=
  let die := homeDie pa
  let o := pa % 2 ^ 44
  match region pa with
  | .registers =>
    let r := o - 0x80000000000
    if r = 0x1000 then some (.chainst die)
    else if r = 0x4000 then some (.memhlth die)
    else if die ≠ 0 then none
    else if r = 0 then some .devst
    else if r = 8 then some .bbhead
    else if r = 0x2000 then some .portst
    else if r = 0x2008 then some .portcfg
    else if r = 0x2010 then some .addrLo
    else if r = 0x2018 then some .addrHi
    else if 0x3000 ≤ r ∧ r < 0x3200 then some (.window ((r - 0x3000) / 32) (r % 32 / 8))
    else if r = 0x5000 then some .xlinv
    else if r = 0x5008 then some .xlva
    else if 0x10000 ≤ r ∧ r < 0x11000 then some (.queue ((r - 0x10000) / 64) (r % 64 / 8))
    else if 0x11000 ≤ r ∧ r < 0x11800 then some (.queue (64 + (r - 0x11000) / 64) (r % 64 / 8))
    else if r = 0x20000 then some .schcfg
    else if r = 0x20008 then some .schst
    else if r = 0x20010 then some .schcancel
    else if r = 0x20018 then some .schcanc
    else none
  | .campanile =>
    let r := o - 0x80040000000
    if r < 0x10001000 then some (.camp r) else none
  | _ => none

/-- DEVST (R60). -/
def State.devst (s : State) : Nat :=
  let c := s.camp
  b2n c.ready + 2 * b2n c.safe + 4 * b2n c.warm + 8 * b2n (s.port.link == 2) + 2 ^ 4 * c.step.toNat
    + 2 ^ 8 * c.wfail.toNat + 2 ^ 10 * c.cfail.toNat + 2 ^ 12 * c.cause.toNat + 2 ^ 16 * c.svn.toNat

def State.winEntry (s : State) (n : Nat) : Window := Tab.get {} s.port.windows n
def State.setWindow (s : State) (n : Nat) (w : Window) : State :=
  { s with port := { s.port with windows := Tab.set {} s.port.windows n w } }

def QSt.code : QSt → Nat
  | .off => 0 | .on => 1 | .draining => 2 | .error => 3

/-- Gangs in PLACE, RUN or STOP (R99). -/
def State.nrun (s : State) : Nat :=
  (s.recList.filter fun p => match p.2.st with | .place | .run | .stop => true | _ => false).length

/-- What a load of a register returns. -/
def State.devValue (s : State) (r : DevReg) : Nat :=
  match r with
  | .devst => s.devst
  | .bbhead => s.camp.bbHead.toNat
  | .chainst d =>
    let x := s.die d
    x.lnkLo.toNat + 2 ^ 2 * x.lnkHi.toNat + 2 ^ 4 * x.modLo.toNat + 2 ^ 8 * x.modHi.toNat + 2 ^ 16 * x.retrn.toNat
      + 2 ^ 32 * x.replay.toNat
  | .memhlth d =>
    let x := s.die d
    x.rtcnt.toNat + 2 ^ 16 * x.rtretry.toNat + 2 ^ 32 * x.mcorr.toNat + 2 ^ 48 * x.secorr.toNat
  | .portst =>
    let p := s.port
    p.link.toNat + 4 * b2n p.msec + 8 * b2n p.owner.isSome + 2 ^ 16 * p.feccor.toNat + 2 ^ 32 * p.drop.toNat
      + 2 ^ 48 * p.retx.toNat
  | .portcfg => s.port.dscp.toNat + 2 ^ 6 * b2n s.port.msreq + 2 ^ 7 * b2n s.port.msen
  | .addrLo => s.port.addr.toNat % 2 ^ 64
  | .addrHi => s.port.addr.toNat / 2 ^ 64
  | .window n k =>
    let w := s.winEntry n
    if k = 0 then w.base.toNat else if k = 1 then w.size.toNat
    else if k = 2 then w.key.toNat + 2 ^ 32 * w.perm.toNat else 0
  | .xlinv => 0
  | .xlva => (s.die 0).xlva.toNat * 65536
  | .queue q k =>
    let x := s.queue q
    if k = 0 then x.base.toNat * 4096
    else if k = 1 then b2n x.qen + 2 * x.lgsize.toNat + 2 ^ 5 * x.qprio.toNat
    else if k = 2 then x.tail.toNat + 2 ^ 32 * x.head.toNat
    else if k = 3 then x.conn.toNat + 2 ^ 16 * x.win.toNat + 2 ^ 32 * x.key.toNat
    else if k = 4 then x.st.code + 2 ^ 8 * x.lasterr.toNat + 2 ^ 16 * x.rej.toNat + 2 ^ 32 * x.canc.toNat
    else 0
  | .schcfg => s.belfry.depto.toNat + 2 ^ 16 * b2n s.belfry.nopre
  | .schst => s.recList.length + 2 ^ 14 * s.nrun + 2 ^ 32 * s.belfry.preempt.toNat + 2 ^ 48 * s.belfry.forced.toNat
  | .schcancel => 0
  | .schcanc => s.belfry.canc.toNat
  | .camp off => leNat (s.camp.bytes off 8)

/-- Read-to-clear fields that a read of the low or high half clears. -/
def State.devClear (s : State) (r : DevReg) (lo hi : Bool) : State :=
  match r with
  | .chainst d => s.updDie d fun x => { x with retrn := if lo then 0 else x.retrn, replay := if hi then 0 else x.replay }
  | .memhlth d => s.updDie d fun x =>
      { x with rtcnt := if lo then 0 else x.rtcnt, rtretry := if lo then 0 else x.rtretry
               mcorr := if hi then 0 else x.mcorr, secorr := if hi then 0 else x.secorr }
  | .portst => { s with port := { s.port with
      feccor := if lo then 0 else s.port.feccor, drop := if hi then 0 else s.port.drop
      retx := if hi then 0 else s.port.retx } }
  | .queue q k => if k = 4 ∧ lo then s.updQueue q fun x => { x with rej := 0 } else s
  | .schst => if hi then { s with belfry := { s.belfry with preempt := 0, forced := 0 } } else s
  | _ => s

/-- What a 4-byte store merges with: the staged copy, zero for a write-only register, else what a load returns. -/
def State.devMerge (s : State) (r : DevReg) : Nat :=
  match r with
  | .window n k => if k = 0 then (s.winEntry n).sbase.toNat else if k = 1 then (s.winEntry n).ssize.toNat
      else s.devValue r
  | .addrLo => s.port.staged.toNat
  | _ => s.devValue r

/-- Fields of QCTL stored: LGSIZE only while OFF, QPRIO in any state, QEN as R69 says. -/
def State.storeQctl (s : State) (q v : Nat) : State :=
  let s := s.updQueue q fun x =>
    { x with lgsize := if x.st = .off then BitVec.ofNat 4 (v / 2) else x.lgsize, qprio := BitVec.ofNat 3 (v / 32) }
  if v % 2 = 1 then s.queueEnable q else s.queueDisable q

/-- A window entry is committed (R41): the staged words and the stored one enter together. -/
def State.commitWindow (s : State) (n v : Nat) : State :=
  let w := s.winEntry n
  s.setWindow n { w with base := w.sbase, size := w.ssize, key := BitVec.ofNat 32 v, perm := BitVec.ofNat 3 (v / 2 ^ 32) }

/-- Bytes committed to Campanile's storage (R430). -/
def State.campStore (s : State) (off : Nat) (bytes : List Byte) : State :=
  { s with camp := { s.camp with store := Memory.writeList s.camp.store off bytes } }

/-- A store of a whole 8-byte word. Read-only registers ignore it. -/
def State.devStore (s : State) (r : DevReg) (v : Nat) : State :=
  match r with
  | .portcfg => { s with port := { s.port with dscp := BitVec.ofNat 6 v, msreq := bitOf v 6, msen := bitOf v 7 } }
  | .addrLo => { s with port := { s.port with staged := BitVec.ofNat 64 v } }
  | .addrHi => { s with port := { s.port with addr := BitVec.ofNat 128 (s.port.staged.toNat + 2 ^ 64 * v) } }
  | .window n k =>
    let w := s.winEntry n
    if k = 0 then s.setWindow n { w with sbase := word v }
    else if k = 1 then s.setWindow n { w with ssize := word v }
    else if k = 2 then s.commitWindow n v
    else s
  | .xlva => s.updDie 0 fun d => { d with xlva := BitVec.ofNat 32 (v / 65536) }
  | .queue q k =>
    if k = 0 then s.updQueue q fun x => if x.st = .off then { x with base := BitVec.ofNat 34 (v / 4096) } else x
    else if k = 1 then s.storeQctl q v
    else if k = 3 then s.updQueue q fun x => if x.st = .off then
      { x with conn := BitVec.ofNat 16 v, win := BitVec.ofNat 4 (v / 65536), key := BitVec.ofNat 32 (v / 2 ^ 32) } else x
    else if k = 5 then s.qcancel q (if bitOf v 32 then none else some (BitVec.ofNat 32 v))
    else s
  | .schcfg => { s with belfry := { s.belfry with depto := BitVec.ofNat 16 v, nopre := bitOf v 16 } }
  | .schcancel => s.schcancel (word v) (bitOf v 7)
  | .camp off => s.campStore off (leBytes 8 v)
  | _ => s

/-- Held words that could not perform while a trap is handled hold no pins: those that the banks of a frozen thread have not
all passed, and those that a home refuses (R152, log entry 93). -/
def State.unpinned (s : State) (tid : Nat) (h : Held) : Bool :=
  let t := s.thread tid
  t.frozen && (decide (t.settled < h.need) || h.elems.any fun e => (s.elemBad tid h.atomic e.pas).isSome)

/-- XLINV waits until every pin that it matches is released (R152): those of commands, of vector words with an access still
to perform, and of Lantern jobs, by address space and page, a large page whole. -/
def State.xlinvWaits (s : State) (v : Nat) : Bool :=
  let space (a : BitVec 16) : Bool := bitOf v 16 || a.toNat == v % 65536
  let page (p : VPage) : Bool := bitOf v 17 || p.hit (s.die 0).xlva.toNat
  (s.ops.any fun p => match p.2 with
    | some o => space o.asid && o.pages.any fun q => page ⟨q.page % 2 ^ 32, q.lg⟩
    | none => false)
    || (s.threads.any fun p => p.2.held.any fun h =>
        space h.asid && !h.elems.isEmpty && !s.unpinned p.1 h && h.pins.any page)
    || (s.clusters.any fun p => p.2.jobs.any fun j => space j.asid && j.vas.any page)

/-- A store to a register has to wait. -/
def State.devWaits (s : State) (r : DevReg) (v : Nat) : Bool :=
  match r with | .xlinv => s.xlinvWaits v | _ => false

/-- An access of 4 or 8 bytes: the register and which halves it names; none for another width, a misaligned or an
unassigned one. -/
def devAccess (pa n : Nat) : Option (DevReg × Bool × Bool) :=
  if (n = 4 ∨ n = 8) ∧ pa % n = 0 then
    (devReg (pa / 8 * 8)).map fun r => (r, decide (n = 8) || decide (pa % 8 = 0), decide (n = 8) || decide (pa % 8 = 4))
  else none

/-- A load of a register: the value, and the fields that the read clears cleared. -/
def State.devRead (s : State) (pa n : Nat) : Option (Nat × State) :=
  (devAccess pa n).map fun (r, lo, hi) =>
    let v := s.devValue r
    ((if n = 8 then v else v / 2 ^ (8 * (pa % 8)) % 2 ^ 32), s.devClear r lo hi)

/-- The whole word that a store of `n` bytes gives a register. -/
def State.devWord (s : State) (r : DevReg) (pa n v : Nat) : Nat :=
  if n = 8 then v % 2 ^ 64
  else
    let old := s.devMerge r
    if pa % 8 = 0 then old / 2 ^ 32 * 2 ^ 32 + v % 2 ^ 32 else old % 2 ^ 32 + v % 2 ^ 32 * 2 ^ 32

/-- A 4-byte store to an upper half that holds reserved bits alone, beside a half whose store acts: it is ignored (R10). -/
def devIgnores (r : DevReg) (lo : Bool) : Bool := match r with | .queue _ k => k == 1 && !lo | .xlinv => !lo | _ => false

/-- What a store to the register space gives. -/
inductive DevOut where
  | done (s : State)
  | wait
  | unassigned

/-- A store to a register. -/
def State.devWrite (s : State) (pa n v : Nat) : DevOut :=
  match devAccess pa n with
  | none => .unassigned
  | some (r, lo, _) =>
    let w := s.devWord r pa n v
    if devIgnores r lo then .done s else if s.devWaits r w then .wait else .done (s.devStore r w)

/-! The register accesses of the opcode table: the owner's WRITE or an M-mode thread's access reaches the register named
by the event; a load's value stands on the bus. -/

/-- Perform the store of the event when the register is the one a row is for. -/
def State.storeRow (s : State) (p : DevReg → Nat → Bool) : Out :=
  let e := s.ev
  match devAccess e.addr e.width with
  | none => .next s
  | some (r, lo, _) =>
    let w := s.devWord r e.addr e.width e.value.toNat
    if p r w && !devIgnores r lo && !s.devWaits r w then .next (s.devStore r w) else .next s

/-- Perform the load of the event when the register is the one a row is for. -/
def State.loadRow (s : State) (p : DevReg → Bool) : Out :=
  let e := s.ev
  match devAccess e.addr e.width, s.devRead e.addr e.width with
  | some (r, _, _), some (v, s1) => if p r then .next { s1 with bus := word v } else .next s
  | _, _ => .next s

/-- A store to QCTL changes QEN against the queue's state. -/
def State.qenEdge (s : State) (q w : Nat) : Bool :=
  match (s.queue q).st with
  | .off => w % 2 == 1
  | .on | .error => w % 2 == 0
  | .draining => false

/-- REGISTER_WRITE (R17): a store whose register has no behaviour of its own changes its field. -/
def execRegisterWrite (s : State) : Out :=
  s.storeRow fun r w => match r with
    | .addrHi | .xlinv | .schcancel | .camp _ => false
    | .window _ k => k != 2
    | .queue q k => k != 5 && (k != 1 || !s.qenEdge q w)
    | _ => true

/-- WINDOW_COMMIT (R41). -/
def execWindowCommit (s : State) : Out := s.storeRow fun r _ => match r with | .window _ k => k == 2 | _ => false
/-- PORTADDR_COMMIT (R43). -/
def execPortaddrCommit (s : State) : Out := s.storeRow fun r _ => match r with | .addrHi => true | _ => false
/-- CAMPANILE_STORE (R430): only the bytes stored change. -/
def execCampanileStore (s : State) : Out := s.storeRow fun r _ => match r with | .camp _ => true | _ => false
/-- XLINV_PAGE (R152). -/
def execXlinvPage (s : State) : Out :=
  s.storeRow fun r w => match r with | .xlinv => !bitOf w 16 && !bitOf w 17 | _ => false
/-- XLINV_ASID (R152). -/
def execXlinvAsid (s : State) : Out :=
  s.storeRow fun r w => match r with | .xlinv => !bitOf w 16 && bitOf w 17 | _ => false
/-- XLINV_ALL (R152). -/
def execXlinvAll (s : State) : Out := s.storeRow fun r w => match r with | .xlinv => bitOf w 16 | _ => false
/-- QUEUE_ENABLE (R69). -/
def execQueueEnable (s : State) : Out :=
  s.storeRow fun r w => match r with | .queue q k => k == 1 && w % 2 == 1 && s.qenEdge q w | _ => false
/-- QUEUE_DISABLE (R69). -/
def execQueueDisable (s : State) : Out :=
  s.storeRow fun r w => match r with | .queue q k => k == 1 && w % 2 == 0 && s.qenEdge q w | _ => false
/-- QCANCEL_TAG (R75). -/
def execQcancelTag (s : State) : Out :=
  s.storeRow fun r w => match r with | .queue _ k => k == 5 && !bitOf w 32 | _ => false
/-- QCANCEL_ALL (R75). -/
def execQcancelAll (s : State) : Out :=
  s.storeRow fun r w => match r with | .queue _ k => k == 5 && bitOf w 32 | _ => false

/-- CHAINST_READ (R22). -/
def execChainstRead (s : State) : Out := s.loadRow fun r => match r with | .chainst _ => true | _ => false
/-- PORTST_READ (R43). -/
def execPortstRead (s : State) : Out := s.loadRow fun r => match r with | .portst => true | _ => false
/-- MEMHLTH_READ (R54). -/
def execMemhlthRead (s : State) : Out := s.loadRow fun r => match r with | .memhlth _ => true | _ => false
/-- QSTAT_READ (R67). -/
def execQstatRead (s : State) : Out := s.loadRow fun r => match r with | .queue _ k => k == 4 | _ => false
/-- SCHST_READ (R99). -/
def execSchstRead (s : State) : Out := s.loadRow fun r => match r with | .schst => true | _ => false

/-- UNASSIGNED_ACCESS (R17): an access of a thread to an unassigned offset takes the access fault of R15; `up` of the
event tells a store. -/
def execUnassignedAccess (s : State) : Out :=
  let e := s.ev
  if (s.thread e.tid).live && (devAccess e.addr e.width).isNone
      && (region e.addr == .registers || region e.addr == .campanile) then
    { s with cur := e.tid }.accessFault (if e.up then storeCauses else loadCauses) (word e.addr) e.addr
  else .next s

end Sys2Proof.Machine
end

