-- ==== Sys2Proof/Machine/Chain.lean ====
section
/-! DEFINITION. The chain between the dies (R18 to R22) and the causal application of cross-die writes (R163, R164). -/

namespace Sys2Proof.Machine

/-- LINK_CRC_REPLAY (R20, R22): the link layer replays a flit; only the die's REPLAY count shows it. -/
def execLinkCrcReplay (s : State) : Out := .next (s.updDie s.ev.die fun d => { d with replay := satAdd16 d.replay 1 })

/-- LINK_RETRAIN (R20, R22): the link of adjacency `idx` begins to retrain, which RETRN counts and LNKLO and LNKHI show as 1,
and its traffic stalls; the next such step brings it up again, and what was queued is delivered in order. -/
def execLinkRetrain (s : State) : Out :=
  let k := s.ev.idx
  if 3 ≤ k then .next s
  else
    let set (s : State) (n : BitVec 2) (count : Nat) : State :=
      (s.updDie k fun d => { d with lnkHi := n, retrn := satAdd16 d.retrn count }).updDie (k + 1)
        fun d => { d with lnkLo := n, retrn := satAdd16 d.retrn count }
    if (s.die k).lnkHi = 2 then .next (set s 1 1)
    else if (s.die k).lnkHi = 1 then .next (set s 2 0)
    else .next s

/-- UCIE_MODULE_LOST (R20): a module leaves adjacency `idx`; the loss of the last one is ADJACENCY_FAILED. -/
def execUcieModuleLost (s : State) : Out :=
  let k := s.ev.idx
  if 3 ≤ k ∨ (s.die k).modHi.toNat ≤ 1 then .next s
  else .next ((s.updDie k fun d => { d with modHi := d.modHi - 1 }).updDie (k + 1) fun d => { d with modLo := d.modLo - 1 })

/-- What an access to an address meets when adjacency `k` has failed and it must cross it (R21). -/
def crosses (k die pa : Nat) : Option HomeErr :=
  if min (die % 4) (homeDie pa) ≤ k ∧ k < max (die % 4) (homeDie pa) then some .link else none

/-- ADJACENCY_FAILED (R21): every outstanding access that must cross completes with the access fault and mtrapx bit 63,
later ones fault too, a black-box entry is written, and a warm start with cause 2 is forced; safe mode stays (R48; log entry
80). -/
def execAdjacencyFailed (s : State) : Out :=
  let k := s.ev.idx
  if 3 ≤ k ∨ s.dead.contains k then .next s
  else
    let s := (s.updDie k fun d => { d with lnkHi := 3, modHi := 0 }).updDie (k + 1) fun d => { d with lnkLo := 3, modLo := 0 }
    let s := { s with dead := k :: s.dead }.failWrites (crosses k)
    .next ((s.blackBox 0x30 (k * 2048) 4 (word k) (word (s.devValue (.chainst k)))).askStart
      { cause := 2, warm := true, keep := false })

/-- A die learns how far another's writes are applied. -/
def Die.learn (d : Die) (src : Nat) (upto : BitVec 24) : Die :=
  let v := seqMax (d.applied[src % 4]'(Nat.mod_lt _ (by decide))) upto
  { d with applied := d.applied.set (src % 4) v (Nat.mod_lt _ (by decide)) }

/-- A flit arrives at a die: it is delivered, or forwarded in the order of its class (R18, R19). A write that a failure has
stopped goes no further (R21, R53). -/
def State.deliver (s : State) (at_ : Nat) (f : Flit) : State :=
  match f with
  | .wr dst w =>
    if !(s.die w.src).out.any (·.seq == w.seq) then s
    else if dst = at_ then s.updDie at_ fun d => { d with inb := d.inb ++ [w] } else s.sendFlit at_ f
  | .report dst src upto =>
    if dst = at_ then s.updDie at_ (·.learn src upto)
    else s.sendFlit at_ f

/-- FLIT_RECEIVE (R19): the oldest flit of one class on link `idx` (2 k upward, 2 k + 1 downward over adjacency k). -/
def execFlitReceive (s : State) : Out :=
  let l := s.ev.idx
  let key := 4 * l + (match s.ev.cls with | .wr => 0 | .sync => 1 | .req => 2 | .rsp => 3)
  match Tab.get [] s.links key with
  | [] => .next s
  | f :: rest =>
    if s.dead.contains (l / 2) ∨ (s.die (l / 2)).lnkHi = 1 then .next s
    else .next ({ s with links := Tab.set [] s.links key rest }.deliver (if l % 2 = 0 then l / 2 + 1 else l / 2) f)

/-- The home may apply an inbound write: every write its stamp covers has been applied, and no owner, pin or deferral
holds the line, and its channel does not retrain (R52, R164). -/
def State.mayApply (s : State) (die : Nat) (w : Outw) : Bool :=
  let a := (s.die die).applied
  (List.range 4).all (fun t =>
    let known := a.toList.getD t 0
    let need := w.stamp.toList.getD t 0
    seqLe (if t = w.src then need - 1 else need) known)
    && !s.writeWaits (lineOf w.addr) w.tid && !s.windowHolds w.addr

/-- CAUSAL_WRITE_APPLY (R163, R164): the home applies one inbound write and observes it. -/
def execCausalWriteApply (s : State) : Out :=
  match (s.die s.ev.die).inb[s.ev.idx]? with
  | none => .next s
  | some w =>
    if s.mayApply s.ev.die w then
      let s1 := s.updDie s.ev.die fun d =>
        { d with inb := d.inb.eraseIdx s.ev.idx, clock := Vector.ofFn fun i => seqMax d.clock[i] w.stamp[i] }
      let s2 := (s1.homeMerge w.tid w.addr w.bytes w.mask).stampLine (lineOf w.addr) w.stamp
      let last := (s2.die w.src).out.any fun x => x.seq == w.seq && x.last
      let s3 := if last then s2.writeBack (lineOf w.addr) else s2
      .next (s3.updDie w.src fun d => d.ackWrite w.src w.seq)
    else .next s

/-- SEQUENCE_REPORT (R164): a die tells the others how far its writes have been applied. -/
def execSequenceReport (s : State) : Out :=
  let d := s.ev.die % 4
  let upto := (s.die d).applied[d]'(Nat.mod_lt _ (by decide))
  .next ((List.range 4).foldl (fun (s : State) t =>
    if t = d || s.cut d t then s else s.sendFlit d (.report t d upto)) s)

end Sys2Proof.Machine
end

