-- ==== Sys2Proof/Machine/Port.lean ====
section
/-! DEFINITION. The Ethernet port and the Isachepel transport (R26 to R43, R48, R63, R64, R73): arrival, acknowledgement,
PSN order, messages and their completions, management, timers. -/

namespace Sys2Proof.Machine

/-! Acknowledgement (R34, R35). -/

/-- Packets of the device that an arriving APSN acknowledges. -/
def ackedBy (apsn psn : BitVec 32) : Bool := decide (0 < (apsn - psn).toNat) && decide ((apsn - psn).toNat ≤ 2 ^ 31)

/-- Received packets above one of the device's, by SBMP. -/
def aboveCount (apsn : BitVec 32) (sbmp : BitVec 64) (psn : BitVec 32) : Nat :=
  ((List.range 64).filter fun i => sbmp.getLsbD i && decide ((psn - apsn).toNat < i + 1)).length

/-- A packet that SBMP shows received. -/
def inSbmp (apsn : BitVec 32) (sbmp : BitVec 64) (psn : BitVec 32) : Bool :=
  let d := (psn - apsn).toNat
  decide (1 ≤ d) && decide (d ≤ 64) && sbmp.getLsbD (d - 1)

/-- Congestion window after an acknowledgement: halved on ECNE at most once per round trip, grown by one packet per
acknowledged window. -/
def Conn.congest (k : Conn) (p : Packet) (n : Nat) : Conn :=
  let past : Bool := match k.cut with | none => true | some m => decide ((p.apsn - m).toNat < 2 ^ 31)
  if p.ecne ∧ past then { k with cwnd := max 16 (k.cwnd / 2), acked := 0, cut := some k.tx }
  else
    let a := k.acked + n
    if k.cwnd ≤ a then { k with cwnd := k.cwnd + 1, acked := a - k.cwnd } else { k with acked := a }

/-- Retransmit one packet: RETX counts, and the packet carries the current acknowledgement fields. -/
def State.resend (s : State) (c : Nat) (psn : BitVec 32) : State :=
  let k := s.conn c
  match k.unacked.find? (·.pkt.psn == psn) with
  | none => s
  | some x =>
    let p := k.ackFields { x.pkt with retx := true }
    let k := { k with unacked := k.unacked.map fun y => if y.pkt.psn = psn then { y with tries := y.tries + 1 } else y
                      ackDue := false, ce := false }
    let s := (s.setConn c k).emit p
    { s with port := { s.port with retx := satAdd16 s.port.retx 1 } }

/-- What an arriving packet acknowledges (R35): packets leave, the credit and the window move, and a packet that SBMP
shows three above it received is sent again at once. -/
def State.takeAck (s : State) (c : Nat) (p : Packet) : State :=
  let k := s.conn c
  let rest : List Sent := k.unacked.filter fun x => !ackedBy p.apsn x.pkt.psn
  let n := k.unacked.length - rest.length
  let k := { k with unacked := rest, credit := match p.sack with | some x => x.2 | none => k.credit }
  let s : State := s.setConn c (k.congest p n)
  let s := match p.sack with
    | none => s
    | some (m, _) =>
      (rest.filter fun (x : Sent) => !inSbmp p.apsn m x.pkt.psn && decide (3 ≤ aboveCount p.apsn m x.pkt.psn)).foldl
        (fun (s : State) (x : Sent) => s.resend c x.pkt.psn) s
  s.flush c

/-- Send an ACK packet. -/
def State.sendAck (s : State) (c : Nat) : State :=
  let k := s.conn c
  let p := k.ackFields { packet0 with typ := 6, conn := k.sconn, src := k.addr, sport := k.sport, here := k.here }
  (s.setConn c { k with ackDue := false, ce := false }).emit p

/-! Ends of connections (R30). -/

/-- OWNED clears when the owner's last OWNER connection has closed (R29, R30). -/
def State.checkOwner (s : State) : State :=
  if s.port.conns.any fun p => p.2.owner && (p.2.st == .opened || p.2.st == .failed) then s
  else { s with port := { s.port with owner := none } }

/-- Outbound operations outstanding on a connection complete with fault (R30, R42, R76); that mtrapx[7:0] of a transfer then
holds 7 (LINK) is this model's choice (log entry 115). -/
def State.failRequests (s : State) (c : Nat) : State :=
  let reqs := (s.conn c).reqs
  let s := s.updConn c fun k => { k with reqs := [] }
  reqs.foldl (fun (s : State) r => match r.2 with
    | .op id | .atomic id | .read id => (s.remoteAnswer id r.1 7 []).getD s
    | .queue q => s.wordLost q none
    | .record q e => s.wordLost q (some e)) s

/-- The connection reaches its retry limit (R30). -/
def State.failConn (s : State) (c : Nat) : State :=
  ((s.updConn c fun k => { k with st := .failed, buf := [], part := [], waiting := [], unacked := [] }).failRequests
    c).checkOwner

/-! Messages (R33, R36 to R40). -/

/-- A reserved bit or field of a packet is not zero, or LEN is not the length of its payload (R32, R33). -/
def badFields (p : Packet) : Bool :=
  p.rsv || p.sackRsv != 0 || p.len.toNat != p.payload.length || (p.typ != 0 && p.qw != 0)

/-- The reserved operations and fields, lengths and order of a message whose packets are given (R33). That the ADDR of the
packets of a WRITE advances by the bytes already sent is R33's own sentence; that a message whose packets break it is
MALFORMED is this model's reading (log entry 85), and so is that a KEY on an OWNER connection is not looked at (log entry
115). -/
def malformed (ps : List Packet) : Bool :=
  match ps with
  | [] => true
  | h :: _ =>
    let len := (ps.map (·.payload.length)).foldl (· + ·) 0
    let single := ps.length == 1
    let lasts := (ps.map (·.last)).dropLast.any id
    let addrs := (ps.foldl (fun (r : Bool × Word) p => (r.1 && p.addr == r.2, r.2 + word p.payload.length)) (true, h.addr)).1
    !h.first || lasts || ps.any (fun p => badFields p || decide (8192 < p.payload.length) || p.typ != h.typ || p.op != h.op)
    || (match h.typ.toNat with
        | 0 => !single || h.op != 0 || h.addr != 0 || len != 128
        | 1 => !single || h.op != 0 || len != 8
            || !(decide (1 ≤ beNat h.payload) && decide (beNat h.payload ≤ 0x100000))
        | 2 => h.op != 0 || decide (0x100000 < len) || ps.any (fun p => p.payload.isEmpty) || !addrs
        | 3 => !single || decide (4 < h.op.toNat) || len != (if h.op = 2 then 16 else 8)
        | 4 => decide (0x100000 < len)
        | 5 => !single || decide (5 < h.op.toNat) || h.addr != 0
            || len != (match h.op.toNat with | 0 => 16 | 2 => 32 | 5 => 48 | _ => 8)
        | _ => true)

/-- What performing a message gives: the state and the completion, nothing yet, or a WRITE whose lines are on their way to
other dies. -/
inductive Msg where
  | done (s : State) (status : Nat) (data : List Byte)
  | wait
  | begun (s : State)

/-- A window entry that messages may use (R41). -/
def Window.usable (w : Window) : Bool :=
  w.base.toNat % 65536 == 0 && decide (w.base.toNat < 2 ^ 46) && w.size != 0 && w.size.toNat % 65536 == 0
    && decide (w.size.toNat ≤ 2 ^ 40) && inMemory w.base.toNat w.size.toNat

/-- The physical address of a message, or its status (R36); `perm` is the permission bit it needs in a window. That a message
outside its window gets ADDRESS whatever its key is this model's choice (log entry 115). -/
def State.msgAddr (s : State) (k : Conn) (p : Packet) (len perm : Nat) : Except Nat Nat :=
  let a := p.addr.toNat
  if k.owner then if 2 ^ 46 ≤ a then .error 1 else .ok a
  else
    let w := s.winEntry (a / 2 ^ 60)
    let o := a % 2 ^ 40
    if bitsOf a 59 40 ≠ 0 ∨ !w.usable ∨ w.size.toNat < o + len then .error 1
    else if w.key ≠ p.key ∨ !w.perm.getLsbD perm then .error 2
    else .ok (w.base.toNat + o)

/-- The 8- and 4-byte accesses that a message makes to the register space (R17): offset and width. One that begins at an
address of 4 mod 8 begins with a 4-byte access, a point that R17 leaves open (log entry 86). -/
def devPieces : Nat → Nat → Nat → Nat → List (Nat × Nat)
  | 0, _, _, _ => []
  | fuel + 1, pa, off, n =>
    if n = 0 then [] else
      let k := if 8 ≤ n ∧ (pa + off) % 8 = 0 then 8 else 4
      (off, k) :: devPieces fuel pa (off + k) (n - k)

/-- The service that a message meets: everything, or management and the Campanile window only: in safe mode (R48), and, as
this model has it, after a thermal trip, whose statuses R25 does not give (log entry 87). -/
def State.limited (s : State) : Bool := s.camp.safe || s.camp.tripped

/-- Where a READ or WRITE of `len` bytes goes. -/
inductive Target where
  | mem (pa : Nat)
  | dev (pa : Nat)
  | bad (status : Nat)

/-- A message to `n` bytes of memory cannot be performed: an adjacency failed, or a memory error is reported (R38). -/
def State.linkBad (s : State) (pa n : Nat) (reads : Bool) : Bool :=
  (linesOf pa n).any fun l => (s.homeErr 0 reads (l * 64)).isSome

def State.target? (s : State) (k : Conn) (p : Packet) (len perm : Nat) : Target :=
  match s.msgAddr k p len perm with
  | .error e => .bad (if s.limited then 1 else e)
  | .ok pa =>
    if s.limited && region pa != .campanile then .bad 1
    else if inMemory pa len then (if s.linkBad pa len (perm == 0) then .bad 7 else .mem pa)
    else if (region pa == .registers || region pa == .campanile) && region pa == region (pa + len - 1)
        && homeDie pa == homeDie (pa + len - 1) then
      if pa % 4 ≠ 0 ∨ len % 4 ≠ 0 then .bad 3
      else if (devPieces (len / 4) pa 0 len).any fun x => (devAccess (pa + x.1) x.2).isNone then .bad 1
      else if s.cut 0 (homeDie pa) then .bad 7
      else .dev pa
    else .bad 1

/-- READ (R37). -/
def State.msgRead (s : State) (_ : Nat) (k : Conn) (p : Packet) : Msg :=
  let len := beNat p.payload
  match s.target? k p len 0 with
  | .bad e => .done s e []
  | .dev pa =>
    let (s, bs) := (devPieces (len / 4) pa 0 len).foldl (fun (r : State × List Byte) x =>
      match r.1.devRead (pa + x.1) x.2 with
      | some (v, s) => (s, r.2 ++ leBytes x.2 v)
      | none => r) (s, [])
    .done s 0 bs
  | .mem pa =>
    if (linesOf pa len).any fun l => s.owned l || s.pathHolds 0 (l * 64) then .wait
    else .done ((linesOf pa len).foldl (fun (s : State) l => s.observe 0 l) s) 0 (s.bytesAt 0 pa len)

/-- Stores of a WRITE to the register space, in ascending order; a store that has to wait stops the message. -/
def State.devWrites (s : State) (pa : Nat) (data : List Byte) : List (Nat × Nat) → Option State
  | [] => some s
  | x :: rest =>
    match s.devWrite (pa + x.1) x.2 (leNat (sub data x.1 x.2)) with
    | .done s => s.devWrites pa data rest
    | .wait => none
    | .unassigned => s.devWrites pa data rest

/-- The lines of a WRITE can be written: nothing holds one, and die 0 has room for those of other dies (R40, R52, R164). -/
def State.writeReady (s : State) (c pa n : Nat) : Bool :=
  !((linesOf pa n).any fun l => s.writeWaits l (connAgent c) || s.pathHolds 0 (l * 64))
    && (homeDie pa == 0 || decide ((s.die 0).out.length + (linesOf pa n).length ≤ 2 ^ 20))

/-- WRITE (R37, R40). One to another die has performed once its lines are applied there; a failure on the way gives LINK
(R38). -/
def State.msgWrite (s : State) (c : Nat) (k : Conn) (p : Packet) (data : List Byte) : Msg :=
  let away (s : State) : Bool := (s.die 0).out.any fun w => w.tid == connAgent c
  if k.wrote then
    if away s then .wait
    else .done (s.updConn c fun k => { k with wrote := false, lost := false }) (if k.lost then 7 else 0) []
  else match s.target? k p data.length 1 with
  | .bad e => .done s e []
  | .dev pa =>
    match s.devWrites pa data (devPieces (data.length / 4) pa 0 data.length) with
    | some s => .done s 0 []
    | none => .wait
  | .mem pa =>
    if s.writeReady c pa data.length then
      let s := s.writeFrom 0 (connAgent c) pa data
      if away s then .begun s else .done s 0 []
    else .wait

/-- ATOMIC (R37): 64-bit operations, and FADD.S on the low 32 bits of its operand, rounded RNE. To the register space it
completes with ALIGN (R17). A CAS on the word of a bound barrier compares with, and returns, the image before the break
(R383; log entry 109). For an unassigned offset, where R17 gives ADDRESS too, ALIGN is this model's choice (log entry
86). That the old value of FADD.S comes in 8 bytes is its choice too (log entry 85). -/
def State.msgAtomic (s : State) (c : Nat) (k : Conn) (p : Packet) : Msg :=
  let op := p.op.toNat
  let n := if op = 4 then 4 else 8
  if s.limited then .done s 1 []
  else match s.msgAddr k p n 2 with
  | .error e => .done s e []
  | .ok pa =>
    if region pa == .hole then .done s 1 []
    else if !inMemory pa 1 ∨ pa % n ≠ 0 then .done s 3 []
    else if s.linkBad pa n true then .done s 7 []
    else if s.writeWaits (lineOf pa) (connAgent c) || s.pendingTo 0 pa n || s.pathHolds 0 pa || s.syncQueued 0 (homeDie pa) then .wait
    else
      let x := beNat (p.payload.take 8)
      let y := beNat (p.payload.drop 8)
      let old := s.homeNum pa n
      if op = 2 ∧ old ≠ x then .done (s.observe 0 (lineOf pa)) 0 (beBytes 8 old)
      else
        let f (old : Nat) : Nat :=
          match op with
          | 0 => (old + x) % 2 ^ 64
          | 1 => x
          | 2 => y
          | 3 => max old x
          | _ => (fpAtomic .fadd FP32 old (x % 2 ^ 32)).1
        let r := s.atomicAt' 0 (connAgent c) pa n f
        .done r.2 0 (beBytes 8 (if op = 2 then old else r.1))

/-- POST (R73): QOFF in safe mode whatever the class (R48), KEY on a PEER connection. The ring write waits at its line as a
WRITE does (R40). -/
def State.msgPost (s : State) (k : Conn) (p : Packet) : Msg :=
  if s.limited then .done s 6 []
  else if !k.owner then .done s 2 []
  else if 64 ≤ p.qw.toNat then .done s 1 []
  else if s.appendWaits p.qw.toNat then .wait
  else let r := s.append p.qw.toNat p.payload; .done r.2 r.1 []

/-- The attestation report of R63. -/
def State.report (s : State) (nonce : List Byte) : List Byte :=
  let m (i : Fin 3) : List Byte := leBytes 64 s.camp.meas[i].toNat
  let key (name : Nat) (input : List Byte) (n : Nat) : List Byte := (leBytes 114 (Config.keyBytes name input).toNat).take n
  let idkey := key 0 [] 57
  let akey := key 1 (m 0) 57
  let head := beBytes 4 1 ++ beBytes 4 s.devst ++ nonce ++ idkey ++ List.replicate 3 0
    ++ beBytes 8 ((s.now - s.camp.cold) * 10) ++ m 0 ++ m 1 ++ m 2 ++ akey ++ List.replicate 71 0
    ++ key 2 (akey ++ m 0) 114
  head ++ key 3 head 114

/-- MANAGE on a numbered connection (R29, R30, R31, R64). -/
def State.msgManage (s : State) (c : Nat) (k : Conn) (p : Packet) : Msg :=
  let v := beNat p.payload
  match p.op.toNat with
  | 1 =>
    if v ≠ 0 then .done s 4 []
    else
      let s := (s.updConn c fun k => { k with st := .held, buf := [], part := [] }).failRequests c
      .done s.checkOwner 0 []
  | 2 =>
    let s1 := s.blackBox 0x40 0 0 (word (beNat (p.payload.take 8))) 0
    .done s1 0 (s.report p.payload)
  | 3 =>
    if !k.owner then .done s 2 []
    else if v / 2 ^ 24 ≠ 0 then .done s 4 []
    else .done s 0 ((List.range (bitsOf v 23 12 + 1)).flatMap fun i =>
      leBytes 32 (Tab.get 0 s.camp.bb ((v + i) % 4096)).toNat)
  | 4 =>
    if !k.owner then .done s 2 []
    else if 3 ≤ v then .done s 4 []
    else .done (s.askStart { cause := 1, warm := v != 2, keep := v == 1, by_ := some (c, p.tag), at_ := s.now }) 0 []
  | 5 =>
    if s.limited then .done s 1 []
    else if !k.owner ∨ (s.port.msen ∧ !p.macsec) then .done s 2 []
    else .done { s with camp := { s.camp with cak := some p.payload } } 0 []
  | _ => if k.owner then .done s 4 [] else .done s 2 []

/-- A COMPLETION arrives: the outbound operation it answers goes on (R38, R42, R76); none while the lines that take its data
have to be waited for (R52, R169). -/
def State.msgCompletion (s : State) (c : Nat) (p : Packet) (data : List Byte) : Option State :=
  match (s.conn c).reqs.find? (·.1 == p.tag) with
  | none => some s
  | some r =>
    let s := s.updConn c fun k => { k with reqs := k.reqs.filter fun x => x.1 != p.tag }
    match r.2 with
    | .read id => s.remoteAnswer id p.tag p.op.toNat data
    | .op id | .atomic id => s.remoteAnswer id p.tag p.op.toNat []
    | .queue q => some (if p.op = 0 then s else s.wordLost q none)
    | .record q e => some (if p.op = 0 then s.setRec e none else s.wordLost q (some e))

/-- The completion that a message gets: a WRITE's only on request (R37), none for a COMPLETION. -/
def State.answer (s : State) (c : Nat) (h : Packet) (status : Nat) (data : List Byte) : State :=
  if h.typ = 2 ∧ !h.cpl ∧ status ≠ 4 then s else s.complete c h.tag status data

/-- A MANAGE that a PEER connection may not send: it completes with KEY, however it is formed (R29). -/
def forbidden (k : Conn) (h : Packet) : Bool := !k.owner && h.typ == 5 && h.op != 1 && h.op != 2

/-- A tag of a connection is that of a READ of the device: its COMPLETION may span several packets (R33). -/
def State.answersRead (s : State) (c : Nat) (tag : BitVec 32) : Bool :=
  (s.conn c).reqs.any fun r => r.1 == tag && match r.2 with | .read _ => true | _ => false

/-- A COMPLETION of several packets that answers no READ (R33). -/
def State.longAnswer (s : State) (c : Nat) (ps : List Packet) : Bool :=
  match ps with | h :: _ :: _ => h.typ == 4 && !s.answersRead c h.tag | _ => false

/-- Perform one whole message (R33, R37, R39). A MALFORMED one is not performed and gets COMPLETION MALFORMED. -/
def State.perform (s : State) (c : Nat) (ps : List Packet) : Msg :=
  match ps with
  | [] => .done s 0 []
  | h :: _ =>
    let k := s.conn c
    let data := ps.flatMap (·.payload)
    if forbidden k h then .done (s.complete c h.tag (if s.limited && h.op == 5 then 1 else 2)) 0 []
    else if malformed ps || s.longAnswer c ps then .done (s.complete c h.tag 4) 0 []
    else
      let r : Msg := match h.typ.toNat with
        | 0 => s.msgPost k h
        | 1 => s.msgRead c k h
        | 2 => s.msgWrite c k h data
        | 3 => s.msgAtomic c k h
        | 4 => match s.msgCompletion c h data with | some s => .done s 0 [] | none => .wait
        | _ => s.msgManage c k h
      match r with
      | .done s st d => .done (if h.typ = 4 then s else s.answer c h st d) st d
      | r => r

/-- Take the packets of a connection in PSN order while their messages can perform (R34, R39). A packet whose message has to
wait stays the expected one, so that APSN does not acknowledge it meanwhile (log entry 85). -/
def drainConn (c : Nat) : Nat → State → State
  | 0, s => s
  | fuel + 1, s =>
    let k := s.conn c
    if k.st ≠ .opened then s
    else match k.buf.find? (·.psn == k.rx) with
      | none => s
      | some p =>
        let s1 := s.setConn c { k with rx := k.rx + 1, buf := k.buf.filter fun q => q.psn != p.psn }
        let broken := !k.part.isEmpty && p.first
        let s2 := if broken then
            let s2 := s1.updConn c fun k => { k with part := [] }
            match k.part.head? with
            | some h => s2.complete c h.tag 4
            | none => s2
          else s1
        let part := if broken then [] else k.part
        if p.last then
          match (s2.updConn c fun k => { k with part := [] }).perform c (part ++ [p]) with
          | .done s3 _ _ => drainConn c fuel s3
          | .wait => s
          | .begun s3 => s3.updConn c fun x => { x with rx := k.rx, buf := k.buf, part, wrote := true }
        else drainConn c fuel (s2.updConn c fun k => { k with part := part ++ [p] })

/-- A sequenced packet on an open connection (R34): every one is acknowledged, within 2 µs or at once if it asks (R35). -/
def State.sequenced (s : State) (c : Nat) (p : Packet) : State :=
  let s := s.updConn c fun k => { k with ackDue := true }
  let k := s.conn c
  let d := (p.psn - k.rx).toNat
  let s :=
    if 1023 < d then s
    else
      let buf := if k.buf.any (·.psn == p.psn) then k.buf else k.buf ++ [p]
      let s := s.updConn c fun k => { k with buf }
      drainConn c buf.length s
  if p.ackreq && (s.conn c).ackDue then s.sendAck c else s

/-! MANAGE OPEN (R29, R31). -/

/-- The reply to an OPEN, on the connection number of the requester. -/
def State.replyOpen (s : State) (p : Packet) (sconn : BitVec 16) (status : Nat) (data : List Byte) : State :=
  s.emit { packet0 with typ := 4, op := BitVec.ofNat 8 status, tag := p.tag, conn := sconn, src := p.src
                        here := p.here, sport := p.sport, payload := data }

def openedData (c : Nat) (disn : BitVec 32) : List Byte := beBytes 2 c ++ [0, 0] ++ beBytes 4 disn.toNat

/-- OPEN: malformed, a repeat, refused, or a new connection whose first PSN the device chooses (a free value). The order of the
checks (repeat, OWNER, KEY, NOCONN) and that the lowest closed number is given are this model's choice (log entry 85). -/
def State.openConn (s : State) (p : Packet) : State :=
  let b := p.payload
  let cls := (b.getD 0 0).toNat
  let sconn := BitVec.ofNat 16 (beNat (sub b 2 2))
  let isn := BitVec.ofNat 32 (beNat (sub b 4 4))
  let bad := malformed [p] || !p.last || p.psn != 0 || p.apsn != 0 || p.key != 0 || p.ackreq || p.sack.isSome
    || decide (1 < cls) || b.getD 1 0 != 0 || (b.drop 8).any (· != 0) || sconn == 0
  if bad then s.replyOpen p sconn 4 []
  else
    let same (k : Conn) : Bool := k.st == .opened && !k.got && k.addr == p.src && k.sport == p.sport
      && k.sconn == sconn && k.isn == isn
    match s.port.conns.find? (fun x => same x.2) with
    | some x => s.replyOpen p sconn 0 (openedData x.1 x.2.disn)
    | none =>
      let foreign : Bool := match s.port.owner with | some a => a != p.src | none => false
      if cls = 0 ∧ foreign then s.replyOpen p sconn 8 []
      else if s.port.msreq ∧ !p.macsec then s.replyOpen p sconn 2 []
      else match (List.range 1024).find? fun i => (s.conn (i + 1)).st == .closed with
        | none => s.replyOpen p sconn 9 []
        | some i =>
          let disn := (Config.freeWord s.free).setWidth 32
          let k : Conn := { st := .opened, owner := cls == 0, addr := p.src, sport := p.sport, sconn, isn, disn
                            rx := isn, tx := disn, here := p.here }
          let s := s.tick.setConn (i + 1) k
          let s := if cls = 0 then { s with port := { s.port with owner := some p.src } } else s
          s.replyOpen p sconn 0 (openedData (i + 1) disn)

/-! Arrival (R27 to R32, R44). -/

/-- The port is up for Isachepel: the ready flag is set, or safe mode. -/
def State.portUp (s : State) : Bool := s.camp.power && (s.camp.ready || s.camp.safe)

/-- A frame that the filters of R27 drop before they look at an Isachepel header. -/
def State.badFrame (s : State) (p : Packet) : Bool :=
  !([0x86DD, 0x8100, 0x88E5, 0x888E].contains p.eth) || p.ext || p.sumBad
    || !(p.here == linkLocal s.port.mac || (s.port.addr != 0 && p.here == s.port.addr))

/-- A frame or packet that the filters of R27 drop and count. -/
def State.filtered (s : State) (p : Packet) : Bool := s.badFrame p || p.ver != 1 || decide (7 ≤ p.typ.toNat)

/-- A packet comes on a connection: it ends the time in which its OPEN may be repeated, and a CE mark is noted (R31, R32). -/
def Conn.hear (k : Conn) (p : Packet) : Conn := { k with got := true, ce := k.ce || p.ecn == 3 }

/-- An ACK that breaks R33. -/
def badAck (p : Packet) : Bool :=
  badFields p || p.op != 0 || p.addr != 0 || !p.payload.isEmpty || !p.first || !p.last

/-- A packet arrives. A closed connection drops it, counted, and takes acknowledgements while its number is held; a CLOSE
frees a failed one (R30, R31). A MALFORMED ACK is dropped and counted, and acknowledges nothing (R33). -/
def State.arrive (s : State) (p : Packet) : State :=
  let c := p.conn.toNat
  if !s.portUp then s
  else if s.filtered p then s.dropCount
  else if s.port.msen ∧ !p.macsec then s
  else if c = 0 then if p.typ = 5 ∧ p.op = 0 then s.openConn p else s.dropCount
  else
    let k := s.conn c
    match k.st with
    | .closed => s.dropCount
    | .failed => if p.typ = 5 ∧ p.op = 1 ∧ !malformed [p] then (s.setConn c {}).checkOwner else s
    | .held =>
      if p.typ = 6 ∧ badAck p then s.dropCount
      else
        let s := s.takeAck c p
        if p.typ = 6 then s else s.dropCount
    | .opened =>
      let s := s.setConn c (k.hear p)
      if p.typ = 6 ∧ badAck p then s.dropCount
      else
        let s := s.takeAck c p
        if p.typ = 6 then s else s.sequenced c p

/-- The packet of a message row arrives, when it is one. -/
def State.arriveIf (s : State) (ok : Packet → Bool) : Out :=
  match s.ev.pkt with
  | some p => if ok p then .next (s.arrive p) else .next s
  | none => .next s

def execPost (s : State) : Out := s.arriveIf fun p => p.typ == 0
def execRead (s : State) : Out := s.arriveIf fun p => p.typ == 1
def execWrite (s : State) : Out := s.arriveIf fun p => p.typ == 2
def execAtomicAdd (s : State) : Out := s.arriveIf fun p => p.typ == 3 && (p.op == 0 || decide (4 < p.op.toNat))
def execAtomicSwap (s : State) : Out := s.arriveIf fun p => p.typ == 3 && p.op == 1
def execAtomicCas (s : State) : Out := s.arriveIf fun p => p.typ == 3 && p.op == 2
def execAtomicMaxu (s : State) : Out := s.arriveIf fun p => p.typ == 3 && p.op == 3
def execAtomicFaddS (s : State) : Out := s.arriveIf fun p => p.typ == 3 && p.op == 4
def execCompletion (s : State) : Out := s.arriveIf fun p => p.typ == 4
def execAck (s : State) : Out := s.arriveIf fun p => p.typ == 6
def execManageOpen (s : State) : Out := s.arriveIf fun p => p.typ == 5 && (p.op == 0 || decide (5 < p.op.toNat))
def execManageClose (s : State) : Out := s.arriveIf fun p => p.typ == 5 && p.op == 1
def execManageAttest (s : State) : Out := s.arriveIf fun p => p.typ == 5 && p.op == 2
def execManageBbread (s : State) : Out := s.arriveIf fun p => p.typ == 5 && p.op == 3
/-- RESET with a kind that no other row takes is malformed and is answered here. -/
def execManageResetWarm (s : State) : Out :=
  s.arriveIf fun p => p.typ == 5 && p.op == 4 && beNat p.payload != 1 && beNat p.payload != 2
def execManageResetKeep (s : State) : Out := s.arriveIf fun p => p.typ == 5 && p.op == 4 && beNat p.payload == 1
def execManageResetCold (s : State) : Out := s.arriveIf fun p => p.typ == 5 && p.op == 4 && beNat p.payload == 2
def execManageCakset (s : State) : Out := s.arriveIf fun p => p.typ == 5 && p.op == 5

/-- FRAME_DROP (R27): a frame or packet that breaks the filters is dropped and counted, once the link is up or the port
serves; before it serves, an Isachepel packet is dropped uncounted (R44). A frame that carries no packet is one of another
EtherType. -/
def execFrameDrop (s : State) : Out :=
  if !(s.portUp || (s.camp.power && s.port.link == 2)) then .next s
  else match s.ev.pkt with
    | none => .next s.dropCount
    | some p => if (if s.portUp then s.filtered p else s.badFrame p) then .next s.dropCount else .next s

/-- MKA_KEY_CHANGE (R28): a new secure association key takes effect, no frame lost. -/
def execMkaKeyChange (s : State) : Out :=
  if s.camp.power && s.camp.cak.isSome then
    .next { s with port := { s.port with msec := true, key := s.port.key + 1 } }
  else .next s

/-- ICMPV6_ND_ANSWER (R26): Campanile answers; no state that a program or a message reads changes. -/
def execIcmpv6NdAnswer (s : State) : Out := .next s

/-- ACK_DELAY_EXPIRE (R35): the receiver sends what it owes; messages that waited at a home are tried again. -/
def execAckDelayExpire (s : State) : Out :=
  let c := s.ev.idx
  let k := s.conn c
  let s := if k.st = .opened then drainConn c k.buf.length s else s
  if (s.conn c).ackDue then .next (s.sendAck c) else .next s

/-- RETRANSMISSION_TIMER_EXPIRE (R35): the packet is sent again; after 12 retransmissions the connection fails. -/
def execRetransmissionTimerExpire (s : State) : Out :=
  let c := s.ev.idx
  match (s.conn c).unacked.find? (·.pkt.psn == s.ev.psn) with
  | none => .next s
  | some x =>
    if x.tries < 12 then .next (s.resend c s.ev.psn)
    else if (s.conn c).st = .opened then .next (s.failConn c)
    else .next s

/-- CONNECTION_HOLD_EXPIRE (R30, R31): 10 ms after a CLOSE, or in FAILED, the number is freed. -/
def execConnectionHoldExpire (s : State) : Out :=
  match (s.conn s.ev.idx).st with
  | .held | .failed => .next (s.setConn s.ev.idx {}).checkOwner
  | _ => .next s

/-- OUTBOUND_TRANSFER_SEND (R42): what waits on a connection is sent, in the order it was issued. -/
def execOutboundTransferSend (s : State) : Out := .next (s.flush s.ev.idx)

end Sys2Proof.Machine
end

