-- ==== Sys2Proof/Machine/Base.lean ====
section
/-! DEFINITION. The base instructions (R272): RV64I, M, Zba and Zbb arithmetic, jumps and branches, as the RISC-V
unprivileged specification defines them (log entry 7), and the encodings that no instruction has (R245, R257). -/

namespace Sys2Proof.Machine

/-- A 32-bit result, sign-extended. -/
def sextW (v : Word) : Word := (v.setWidth 32).signExtend 64
def sext12 (i : BitVec 12) : Word := i.signExtend 64
def boolW (b : Bool) : Word := if b then 1 else 0

/-- Shift amounts. -/
def shamt (v : Word) : Nat := v.toNat % 64
def shamt32 (v : Word) : Nat := v.toNat % 32

/-- Branch conditions. -/
def brTaken (c : BrCond) (a b : Word) : Bool :=
  match c with
  | .eq => a == b
  | .ne => a != b
  | .lt => BitVec.slt a b
  | .ge => !BitVec.slt a b
  | .ltu => BitVec.ult a b
  | .geu => !BitVec.ult a b

def immResult (op : ImmOp) (a i : Word) : Word :=
  match op with
  | .addi => a + i
  | .slti => boolW (BitVec.slt a i)
  | .sltiu => boolW (BitVec.ult a i)
  | .xori => a ^^^ i
  | .ori => a ||| i
  | .andi => a &&& i
  | .addiw => sextW (a + i)

def shiftResult (op : ShiftOp) (a : Word) (n : Nat) : Word :=
  match op with
  | .slli => a <<< n
  | .srli => a >>> n
  | .srai => BitVec.sshiftRight a n
  | .rori => a.rotateRight n
  | .slliuw => (a &&& 0xFFFFFFFF) <<< n
  | .slliw => sextW (a <<< n)
  | .srliw => ((a.setWidth 32) >>> n).signExtend 64
  | .sraiw => (BitVec.sshiftRight (a.setWidth 32) n).signExtend 64
  | .roriw => ((a.setWidth 32).rotateRight n).signExtend 64

/-- The high 64 bits of a product of two integers. -/
def mulHigh (x y : Int) : Word := BitVec.ofInt 64 (x * y / (2 ^ 64 : Nat))

/-- Division and remainder: by zero the quotient is all ones and the remainder the dividend; overflow wraps. -/
def divS {n : Nat} (a b : BitVec n) : BitVec n := if b = 0 then BitVec.allOnes n else BitVec.sdiv a b
def divU {n : Nat} (a b : BitVec n) : BitVec n := if b = 0 then BitVec.allOnes n else a / b
def remS {n : Nat} (a b : BitVec n) : BitVec n := if b = 0 then a else BitVec.srem a b
def remU {n : Nat} (a b : BitVec n) : BitVec n := if b = 0 then a else a % b

def aluResult (op : AluOp) (a b : Word) : Word :=
  let aw := a.setWidth 32
  let bw := b.setWidth 32
  let zx := a &&& 0xFFFFFFFF
  match op with
  | .add => a + b
  | .sub => a - b
  | .sll => a <<< shamt b
  | .slt => boolW (BitVec.slt a b)
  | .sltu => boolW (BitVec.ult a b)
  | .xor => a ^^^ b
  | .srl => a >>> shamt b
  | .sra => BitVec.sshiftRight a (shamt b)
  | .or => a ||| b
  | .and => a &&& b
  | .addw => sextW (a + b)
  | .subw => sextW (a - b)
  | .sllw => sextW (a <<< shamt32 b)
  | .srlw => (aw >>> shamt32 b).signExtend 64
  | .sraw => (BitVec.sshiftRight aw (shamt32 b)).signExtend 64
  | .mul => a * b
  | .mulh => mulHigh a.toInt b.toInt
  | .mulhsu => mulHigh a.toInt b.toNat
  | .mulhu => mulHigh a.toNat b.toNat
  | .div => divS a b
  | .divu => divU a b
  | .rem => remS a b
  | .remu => remU a b
  | .mulw => sextW (a * b)
  | .divw => (divS aw bw).signExtend 64
  | .divuw => (divU aw bw).signExtend 64
  | .remw => (remS aw bw).signExtend 64
  | .remuw => (remU aw bw).signExtend 64
  | .sh1add => (a <<< 1) + b
  | .sh2add => (a <<< 2) + b
  | .sh3add => (a <<< 3) + b
  | .adduw => zx + b
  | .sh1adduw => (zx <<< 1) + b
  | .sh2adduw => (zx <<< 2) + b
  | .sh3adduw => (zx <<< 3) + b
  | .andn => a &&& ~~~b
  | .orn => a ||| ~~~b
  | .xnor => ~~~(a ^^^ b)
  | .min => if BitVec.slt a b then a else b
  | .minu => if BitVec.ult a b then a else b
  | .max => if BitVec.slt a b then b else a
  | .maxu => if BitVec.ult a b then b else a
  | .rol => a.rotateLeft (shamt b)
  | .ror => a.rotateRight (shamt b)
  | .rolw => (aw.rotateLeft (shamt32 b)).signExtend 64
  | .rorw => (aw.rotateRight (shamt32 b)).signExtend 64

/-- The bytes of a word in reverse order. -/
def rev8 (a : Word) : Word := word (beNat (leBytes 8 a.toNat))
/-- Each byte all ones when any of its bits is set. -/
def orcb (a : Word) : Word := word (leNat ((leBytes 8 a.toNat).map fun b => if b = 0 then 0 else 0xFF))

def unaryResult (op : UnaryOp) (a : Word) : Word :=
  match op with
  | .clz => word (clzNat 64 a.toNat)
  | .ctz => word (ctzNat 64 a.toNat)
  | .cpop => word (popNat 64 a.toNat)
  | .clzw => word (clzNat 32 (a.toNat % 2 ^ 32))
  | .ctzw => word (ctzNat 32 (a.toNat % 2 ^ 32))
  | .cpopw => word (popNat 32 a.toNat)
  | .sextb => (a.setWidth 8).signExtend 64
  | .sexth => (a.setWidth 16).signExtend 64
  | .zexth => a &&& 0xFFFF
  | .rev8 => rev8 a
  | .orcb => orcb a

/-- BASE_INSTRUCTION (R272): the result is written and the pc moves on, or control moves to the target. -/
def execBaseInstruction (op : BaseOp) (s : State) : Out :=
  match op with
  | .lui rd imm => s.ret rd ((imm ++ (0 : BitVec 12)).signExtend 64)
  | .auipc rd imm => s.ret rd (s.me.pc + (imm ++ (0 : BitVec 12)).signExtend 64)
  | .jal rd off => .next ((s.wr rd s.me.npc).jump (s.me.pc + (off ++ (0 : BitVec 1)).signExtend 64))
  | .jalr rd rs1 imm => .next ((s.wr rd s.me.npc).jump ((s.rd rs1 + sext12 imm) &&& ~~~(1 : Word)))
  | .branch c rs1 rs2 off =>
    if brTaken c (s.rd rs1) (s.rd rs2) then .next (s.jump (s.me.pc + (off ++ (0 : BitVec 1)).signExtend 64))
    else .next s.advance
  | .imm op rd rs1 i => s.ret rd (immResult op (s.rd rs1) (sext12 i))
  | .shift op rd rs1 sh => s.ret rd (shiftResult op (s.rd rs1) sh.toNat)
  | .alu op rd rs1 rs2 => s.ret rd (aluResult op (s.rd rs1) (s.rd rs2))
  | .unary op rd rs1 => s.ret rd (unaryResult op (s.rd rs1))

/-- ILLEGAL_INSTRUCTION (R245): mcause 2 with the instruction bits in mtval. -/
def execIllegalInstruction (bits : BitVec 32) (s : State) : Out := s.trap 2 (bits.setWidth 64) 0

end Sys2Proof.Machine
end

