-- ==== Sys2Proof/Machine/ScalarMem.lean ====
section
/-! DEFINITION. Scalar loads, stores, LR/SC, atomics and fences (R102, R109, R156 to R162, R372 to R378). -/

namespace Sys2Proof.Machine

def loadBytes : LoadKind → Nat
  | .lb | .lbu => 1 | .lh | .lhu => 2 | .lw | .lwu => 4 | .ld => 8
def loadSigned : LoadKind → Bool
  | .lb | .lh | .lw | .ld => true | _ => false
def storeBytes : StoreKind → Nat
  | .sb => 1 | .sh => 2 | .sw => 4 | .sd => 8

/-- A value of `n` bytes extended to a register. -/
def extendTo (signed : Bool) (n v : Nat) : Word := word (if signed then ofSigned 64 (toSigned (8 * n) v) else v % 2 ^ (8 * n))

/-- SCALAR_LOAD (R102, R156): memory as the thread sees it, or a register of the device. -/
def execScalarLoad (k : LoadKind) (rd rs1 : Reg) (off : BitVec 12) (s : State) : Out :=
  let va := s.rd rs1 + sext12 off
  let n := loadBytes k
  match s.place .read loadCauses va n true false with
  | .bad c v i => s.trap c v i
  | .wait => s.stall
  | .dev pa =>
    match s.devRead pa n with
    | some (v, s1) => s1.ret rd (extendTo (loadSigned k) n v)
    | none => s.accessFault loadCauses va pa
  | .mem pa => (s.observe (dieOf s.cur) (lineOf pa)).ret rd (extendTo (loadSigned k) n (leNat (s.bytesOf s.cur pa n)))

/-- A FENCE of the base set stands before the thread's next write, or before one that is still in its store buffer: an
access that performs at once, and that it orders, waits for everything before the fence (R157). -/
def State.fenceWaits (s : State) : Bool :=
  (s.me.wfence || s.me.sb.any (·.fence)) && !s.quiet s.cur 5

/-- A store enters the store buffer, behind a fence that stands before it (R156, R157). -/
def Thread.bufferStore (t : Thread) (pa : Nat) (bytes : List Byte) (va : Word) : Thread :=
  { t with sb := t.sb ++ [{ addr := pa, bytes, va, fence := t.wfence }], wfence := false }

/-- SCALAR_STORE (R102, R156): the store enters the store buffer; a store to a register performs at once. -/
def execScalarStore (k : StoreKind) (rs1 rs2 : Reg) (off : BitVec 12) (s : State) : Out :=
  let va := s.rd rs1 + sext12 off
  let n := storeBytes k
  let v := (s.rd rs2).toNat
  match s.place .write storeCauses va n false false with
  | .bad c v i => s.trap c v i
  | .wait => s.stall
  | .dev pa =>
    if s.fenceWaits then s.stall
    else match s.devWrite pa n v with
    | .done s1 => .next s1.advance
    | .wait => s.stall
    | .unassigned => s.accessFault storeCauses va pa
  | .mem pa => .next (s.updMe fun t => t.bufferStore pa (leBytes n v) va).advance

/-- Width of a doubleword or word atomic. -/
def atomBytes (dbl : Bool) : Nat := if dbl then 8 else 4

/-- An atomic waits: with rl until every earlier access has performed at sys, and for a fence that stands before it (R157). -/
def State.rlWaits (s : State) (rl : Bool) : Bool := (rl && !s.quiet s.cur 5) || s.fenceWaits

/-- An atomic that stores has performed: the fence that stood before it stands no more. -/
def State.unfence (s : State) : State := s.updMe fun t => { t with wfence := false }

/-- The home defers other agents' writes to the line, once per reservation (R378). -/
def State.defer (s : State) (line : Nat) : State :=
  { s with deferred := (line, s.cur) :: s.deferred.filter (fun p => p.2 != s.cur) }
def State.undefer (s : State) : State := { s with deferred := s.deferred.filter (fun p => p.2 != s.cur) }

/-- LR (R377, R378). -/
def execLr (dbl aq rl : Bool) (rd rs1 : Reg) (s : State) : Out :=
  let va := s.rd rs1
  let n := atomBytes dbl
  match s.place .read loadCauses va n true false with
  | .bad c v i => s.trap c v i
  | .wait => s.stall
  | .dev pa => s.accessFault loadCauses va pa
  | .mem pa =>
    if s.rlWaits (rl && (aq || rl)) || s.atomicWaits s.cur pa n then s.stall
    else
      let s1 := (s.observe (dieOf s.cur) (lineOf pa)).defer (lineOf pa)
      (s1.updMe fun t => { t with resv := some ⟨lineOf pa, pa, n⟩ }).ret rd (extendTo true n (s.homeNum pa n))

/-- SC (R378): it stores and writes 0 when the thread's reservation covers the same address and size; else it writes 1.
Either way the reservation ends. -/
def execSc (dbl aq rl : Bool) (rd rs1 rs2 : Reg) (s : State) : Out :=
  let va := s.rd rs1
  let n := atomBytes dbl
  match s.place .write storeCauses va n false true with
  | .bad c v i => s.trap c v i
  | .wait => s.stall
  | .dev pa => s.accessFault storeCauses va pa
  | .mem pa =>
    if s.rlWaits (rl && (aq || rl)) || s.atomicWaits s.cur pa n then s.stall
    else
      let ok := match s.me.resv with
        | some r => decide (r.addr = pa) && decide (r.size = n)
        | none => false
      let s1 := (s.updMe fun t => { t with resv := none }).undefer.unfence
      if ok then ((s1.atomicAt s.cur pa n fun _ => (s.rd rs2).toNat % 2 ^ (8 * n)).2).ret rd 0 else s1.ret rd 1

def amoAtom : AmoOp → AtomOp
  | .swap => .swap | .add => .add | .xor => .xor | .and => .and | .or => .or
  | .min => .min | .max => .max | .minu => .minu | .maxu => .maxu

/-- An atomic of the thread on memory: place it, wait for what stands before it, and perform `f` at the home (R162). -/
def State.amo (s : State) (va : Word) (n : Nat) (rl : Bool) (rd : Reg) (f : Nat → Nat × BitVec 8) : Out :=
  match s.place .write storeCauses va n true true with
  | .bad c v i => s.trap c v i
  | .wait => s.stall
  | .dev pa => s.accessFault storeCauses va pa
  | .mem pa =>
    if s.rlWaits rl || s.atomicWaits s.cur pa n then s.stall
    else
      let r := s.atomicAt s.cur pa n fun old => (f old).1
      (r.2.updMe fun t => { t.mergeFlags (f r.1).2 with wfence := false }).ret rd (extendTo true n r.1)

/-- AMO (R377). -/
def execAmo (op : AmoOp) (dbl aq rl : Bool) (rd rs1 rs2 : Reg) (s : State) : Out :=
  let n := atomBytes dbl
  s.amo (s.rd rs1) n (rl && (aq || rl)) rd fun old => (intAtomic (amoAtom op) (8 * n) old (s.rd rs2).toNat, 0)

/-- The FP atomics (R374, R375): FP32 at the home, rounded RNE; flags merge into vxstat. -/
def State.fpAmo (s : State) (op : AtomOp) (rd rs1 rs2 : Reg) : Out :=
  s.amo (s.rd rs1) 4 false rd fun old => fpAtomic op FP32 old ((s.rd rs2).toNat % 2 ^ 32)
def execAfaddS (rd rs1 rs2 : Reg) (s : State) : Out := s.fpAmo .fadd rd rs1 rs2
def execAfminS (rd rs1 rs2 : Reg) (s : State) : Out := s.fpAmo .fmin rd rs1 rs2
def execAfmaxS (rd rs1 rs2 : Reg) (s : State) : Out := s.fpAmo .fmax rd rs1 rs2
def execAfminnS (rd rs1 rs2 : Reg) (s : State) : Out := s.fpAmo .fminn rd rs1 rs2
def execAfmaxnS (rd rs1 rs2 : Reg) (s : State) : Out := s.fpAmo .fmaxn rd rs1 rs2

/-! Fences (R157, R373). -/

/-- FENCE (R157): loads and atomics have returned when they issued, and accesses to devices performed. Of writes before it,
those before reads or device accesses are waited for at sys; those before writes only stand before the thread's next write. -/
def execFence (pred succ : BitVec 4) (s : State) : Out :=
  let now := succ.getLsbD 1 || succ.getLsbD 2 || succ.getLsbD 3
  if pred.getLsbD 0 && now && !s.quiet s.cur 5 then s.waits
  else
    let later := !(pred.getLsbD 0 && now) && (pred.getLsbD 0 || pred.getLsbD 1) && succ.getLsbD 0
    .next (s.updMe fun t => { t with wfence := t.wfence || later }).advance

/-- FENCE.TSO (R157): reads and writes before it against writes after it, reads before it against reads after it. -/
def execFenceTso (s : State) : Out := .next (s.updMe fun t => { t with wfence := true }).advance

/-- FENCE.I (R109): the thread's stores have performed for its die, and the core's instruction cache is empty. -/
def execFenceI (s : State) : Out :=
  if s.me.sb.isEmpty then .next (s.updMyCore fun c => { c with icache := [] }).advance else s.waits

/-- SCFENCE (R373). -/
def execScfence (sp : BitVec 3) (s : State) : Out :=
  if scopeBad sp then s.illegal else if s.quiet s.cur sp.toNat then .next s.advance else s.waits
/-- ACQFENCE (R373): every earlier load and atomic returned its value when it issued. -/
def execAcqfence (sp : BitVec 3) (s : State) : Out := if scopeBad sp then s.illegal else .next s.advance
/-- RELFENCE (R373). -/
def execRelfence (sp : BitVec 3) (s : State) : Out :=
  if scopeBad sp then s.illegal else if s.quiet s.cur sp.toNat then .next s.advance else s.waits

/-- LR_WRITE_DEFERRAL_END (R378): the deferral that thread `tid` holds runs out. -/
def execLrWriteDeferralEnd (s : State) : Out :=
  .next { s with deferred := s.deferred.filter (fun p => p.2 != s.ev.tid) }

end Sys2Proof.Machine
end

