-- ==== Sys2Proof/Machine/Sync.lean ====
section
/-! DEFINITION. Barriers (R379 to R386). -/

namespace Sys2Proof.Machine

/-- The barrier unit of a line: one for each L2 slice. -/
def barUnit (line : Nat) : Nat := homeDie (line * 64) * 8 + homeSlice (line * 64)

def State.bar? (s : State) (line : Nat) : Option Bar := Tab.get none s.bars line
/-- The unit writes the image at each change (R379). -/
def State.setBar (s : State) (line : Nat) (b : Bar) : State :=
  { s.writeImage line b true with bars := Tab.set none s.bars line (some b) }

/-- Whether a thread lies in a barrier's domain (R379). -/
def inDomain (scope home tid : Nat) : Bool :=
  match scope with
  | 1 => coreOf home == coreOf tid
  | 2 => cluOf home == cluOf tid
  | 3 => dieOf home == dieOf tid
  | _ => true

/-- BARRIER_FAULT (R385). -/
def State.barFault (s : State) (code : Nat) (b : BitVec 4) (line : Nat) : Out :=
  s.trap 50 0 (word (code + 2 ^ 8 * b.toNat + 2 ^ 12 * (line % 2 ^ 40)))

/-- A handle is unbound, or bound anew: an arrival still pending through it performs, and concerns the handle no more (R381). -/
def Thread.rebind (t : Thread) (b : Nat) (h : Option BarHandle) : Thread :=
  { t.setBarHandle b h with arrivals := t.arrivals.map fun a => if a.handle = b then { a with handle := 16 } else a }

/-- The bound barrier that a handle still names. -/
def State.barOf (s : State) (h : BarHandle) : Option Bar :=
  match s.bar? h.line with
  | some b => if b.id = h.id then some b else none
  | none => none

/-- Parameters of BARINIT out of range (code 2). -/
def barParamsBad (va v : Word) : Bool :=
  Fld v 15 0 == 0 || Fld v 18 16 == 0 || decide (6 ≤ Fld v 18 16) || Fld v 63 20 != 0 || va.toNat % 64 != 0

/-- Initialise a line as a barrier (R381): the unit takes the line and writes it, so that every reservation there is lost
(R378). -/
def State.initBar (s : State) (b : BitVec 4) (line : Nat) (v va : Word) : State :=
  let u := barUnit line
  let id := Tab.get 0 s.barCnt u
  let bar : Bar := { target := Fld v 15 0, scope := Fld v 18 16, arr := 0, phase := 0, id, home := s.cur }
  let s := s.homeWrite noThread (line * 64) (leBytes 64 (bar.image true))
  let s := { s with bars := Tab.set none s.bars line (some bar), barCnt := Tab.set 0 s.barCnt u (id + 1) }
  s.updMe fun t => t.rebind b.toNat (some ⟨line, id, 0, false, va⟩)

/-- BARINIT (R381). -/
def execBarinit (b : BitVec 4) (rs1 rs2 : Reg) (s : State) : Out :=
  let va := s.rd rs1
  let v := s.rd rs2
  match s.place .write storeCauses va 1 false true with
  | .bad c v i => s.trap c v i
  | .wait => s.stall
  | .dev pa => s.accessFault storeCauses va pa
  | .mem pa =>
    let line := lineOf pa
    if barParamsBad va v then s.barFault 2 b line
    else if s.atomicWaits s.cur (line * 64) 64 then s.stall
    else match s.bar? line with
    | some bar =>
      if v.getLsbD 19 then .next (s.initBar b line v va).advance
      else if bar.target ≠ Fld v 15 0 ∨ bar.scope ≠ Fld v 18 16 then s.barFault 2 b line
      else if !inDomain bar.scope bar.home s.cur then s.barFault 3 b line
      else .next (s.updMe fun t => t.rebind b.toNat (some ⟨line, bar.id, bar.phase, false, va⟩)).advance
    | none =>
      if 1024 ≤ (s.bars.filter fun p => barUnit p.1 == barUnit line).length then s.barFault 4 b line
      else .next (s.initBar b line v va).advance

/-- Blocks of the queue that hold element stores or vector atomics: the arrival releases up to the last (R168). -/
def State.storeBlocks (s : State) (tid : Nat) : Nat :=
  if s.queued tid (fun w => storeWord w || amoWord w) then (s.thread tid).vq.length else 0

/-- The arrival through a bound handle issues: it stays pending until it performs. -/
def State.arrive_ (s : State) (b : BitVec 4) (h : BarHandle) (scope : Nat) : State :=
  let blocks := s.storeBlocks s.cur
  s.updMe fun t =>
    { t.setBarHandle b.toNat (some { h with pending := true }) with
      arrivals := t.arrivals ++ [{ handle := b.toNat, line := h.line, id := h.id, scope
                                   held := t.held.map (·.id), stores := t.sb.length, blocks, va := h.va }] }

/-- BARARRIVE (R382). -/
def execBararrive (b : BitVec 4) (s : State) : Out :=
  match s.me.bar? b.toNat with
  | none => s.barFault 1 b 0
  | some h =>
    match s.barOf h with
    | none => .next (s.post s.cur 22 true).advance
    | some bar =>
      if !inDomain bar.scope bar.home s.cur then s.barFault 3 b h.line
      else .next (s.arrive_ b h bar.scope).advance

/-- The wait part of BARWAIT and BARARRWAIT (R382): a thread that has to wait has a waiter at the unit, which the phase that
it awaits or a break returns (R383, R387). A wait that cannot reach its home takes the access fault (R21, R53). -/
def State.barWait (s : State) (b : BitVec 4) : Out :=
  match s.me.bar? b.toNat with
  | none => s.barFault 1 b 0
  | some h =>
    match s.barOf h with
    | none => .next (s.post s.cur 22 true).advance
    | some bar =>
      if !inDomain bar.scope bar.home s.cur then s.barFault 3 b h.line
      else match s.homeErr (dieOf s.cur) false (h.line * 64) with
      | some e => s.trap 7 h.va (accessInfo (h.line * 64) (e == .mem) (e == .link))
      | none =>
      if h.pending || !BitVec.slt 0 (bar.phase - h.exp) then .next (s.updMe fun t => { t with wait := .barrier b.toNat })
      else .next ((s.updMe fun t => t.setBarHandle b.toNat (some { h with exp := bar.phase })).post s.cur 22 false).advance

/-- BARWAIT (R382). -/
def execBarwait (b : BitVec 4) (s : State) : Out := s.barWait b

/-- BARARRWAIT (R382): the arrival, once, then the wait. -/
def execBararrwait (b : BitVec 4) (s : State) : Out :=
  if s.me.arrived.contains (s.me.mode, s.me.pc) then s.barWait b
  else match s.me.bar? b.toNat with
  | none => s.barFault 1 b 0
  | some h =>
    match s.barOf h with
    | none => .next (s.post s.cur 22 true).advance
    | some bar =>
      if !inDomain bar.scope bar.home s.cur then s.barFault 3 b h.line
      else .next ((s.arrive_ b h bar.scope).updMe fun t => { t with wait := .barrier b.toNat, arrived := (t.mode, t.pc) :: t.arrived })

/-- BARINV (R384, R385): through a live handle it needs write permission at the address that its BARINIT named, and takes the
faults of a store there (log entry 58). -/
def execBarinv (b : BitVec 4) (s : State) : Out :=
  match s.me.bar? b.toNat with
  | none => s.barFault 1 b 0
  | some h =>
    let unbound := s.updMe fun t => { t.rebind b.toNat none with wait := .none }
    match s.barOf h with
    | none => .next (unbound.post s.cur 22 true).advance
    | some _ =>
      match s.xlateMe .write h.va with
      | .error .hold => s.stall
      | .error (.home ea e) => s.trap 7 h.va (accessInfo ea (e == .mem) (e == .link))
      | .error _ => s.trap 15 h.va 0
      | .ok _ =>
      match s.homeErr (dieOf s.cur) false (h.line * 64) with
      | some e => s.trap 7 h.va (accessInfo (h.line * 64) (e == .mem) (e == .link))
      | none =>
      if s.writeWaits h.line s.cur || s.pathHolds (dieOf s.cur) (h.line * 64) || s.atomicWaits s.cur (h.line * 64) 64 then s.stall
      else .next (unbound.homeWrite s.cur (h.line * 64) (List.replicate 64 0)).advance

/-- What an arrival releases has performed at its scope (R168). -/
def State.arrivalReady (s : State) (tid : Nat) (a : Arrival) : Bool :=
  let t := s.thread tid
  decide (a.stores = 0) && decide (a.blocks = 0) && !(t.held.any fun h => a.held.contains h.id && !h.elems.isEmpty)
    && s.flushed tid a.scope && !s.pathHolds (dieOf tid) (a.line * 64) && !s.syncQueued (dieOf tid) (homeDie (a.line * 64))

/-- One arrival at its home (R382): the phase it arrived in, and the barrier after it. -/
def Bar.arrive (b : Bar) : Bar :=
  if b.arr + 1 = b.target then { b with arr := 0, phase := b.phase + 1 } else { b with arr := b.arr + 1 }

/-- BARRIER_ARRIVAL_PERFORM (R382, R383): arrival `idx` of thread `tid` performs, or posts c22 when its barrier is gone. One
that cannot reach its home completes with the access fault of a store (R21, R53). -/
def execBarrierArrivalPerform (s : State) : Out :=
  let tid := s.ev.tid
  match (s.thread tid).arrivals[s.ev.idx]? with
  | none => .next s
  | some a =>
    if !s.arrivalReady tid a then .next s
    else
      let rest := (s.thread tid).arrivals.eraseIdx s.ev.idx
      let more := rest.any fun x => x.handle == a.handle && x.id == a.id && x.line == a.line
      let upd (exp : Option (BitVec 32)) (t : Thread) : Thread :=
        let t := { t with arrivals := rest }
        match t.bar? a.handle with
        | some h =>
          if h.line = a.line ∧ h.id = a.id then
            t.setBarHandle a.handle (some { h with pending := more, exp := exp.getD h.exp })
          else t
        | none => t
      match s.homeErr (dieOf tid) false (a.line * 64) with
      | some e => .next ((s.updThread tid (upd none)).failWrite { tid, addr := a.line * 64, bytes := [], org := { va := a.va } } e)
      | none =>
      match s.bar? a.line with
      | some bar =>
        if bar.id = a.id then
          .next (((s.setBar a.line bar.arrive).updThread tid (upd (some bar.phase))).wakeBar a.line bar.arrive false)
        else .next ((s.updThread tid (upd none)).post tid 22 true)
      | none => .next ((s.updThread tid (upd none)).post tid 22 true)

end Sys2Proof.Machine
end

