-- ==== Sys2Proof/Machine/Sequences.lean ====
section
/-! DEFINITION. Grow-only sequences at the sequence unit (R203 to R214, R388 to R396): descriptors, block tables, frames and
pools in memory, and the instructions on them. -/

namespace Sys2Proof.Machine

/-! What the unit reads and writes. -/

/-- A descriptor (R203). -/
structure Sq where
  rlen    : Nat
  clen    : Nat
  st      : Nat
  scope   : Nat
  refcnt  : Nat
  forkpos : Nat
  parent  : Nat
  btbase  : Nat
  btcap   : Nat
  kbu     : Nat
  vbu     : Nat
  pool    : Nat
  fill    : Nat
deriving DecidableEq, Repr

/-- The fields of a descriptor's low 640 bits; addresses as byte addresses. -/
def Sq.of (v : Nat) : Sq :=
  { rlen := bitsOf v 31 0, clen := bitsOf v 63 32, st := bitsOf v 65 64, scope := bitsOf v 68 66,
    refcnt := bitsOf v 95 80, forkpos := bitsOf v 127 96, parent := bitsOf v 165 128 * 256,
    btbase := bitsOf v 225 192 * 4096, btcap := bitsOf v 270 256, kbu := bitsOf v 295 288, vbu := bitsOf v 303 296,
    pool := bitsOf v 343 304 * 64, fill := bitsOf v 639 384 }

/-- The low 640 bits of a descriptor. -/
def Sq.image (q : Sq) : Nat :=
  q.rlen % 2 ^ 32 + 2 ^ 32 * (q.clen % 2 ^ 32) + 2 ^ 64 * (q.st % 4) + 2 ^ 66 * (q.scope % 8)
    + 2 ^ 80 * (q.refcnt % 2 ^ 16) + 2 ^ 96 * (q.forkpos % 2 ^ 32) + 2 ^ 128 * (q.parent / 256 % 2 ^ 38)
    + 2 ^ 192 * (q.btbase / 4096 % 2 ^ 34) + 2 ^ 256 * (q.btcap % 2 ^ 15) + 2 ^ 288 * (q.kbu % 256)
    + 2 ^ 296 * (q.vbu % 256) + 2 ^ 304 * (q.pool / 64 % 2 ^ 40) + 2 ^ 384 * (q.fill % 2 ^ 256)

/-- The descriptor at an address. -/
def State.sq (s : State) (d : Nat) : Sq := Sq.of (s.homeNum d 80)

/-- A write of a unit to structures it owns: it loses reservations and barriers on the line and goes with the clock of a
die, and it breaks no sequence and no table. A structure that lies outside memory takes no write. -/
def State.unitWrite (s : State) (die pa : Nat) (bytes : List Byte) : State :=
  (splitLines pa bytes).foldl (fun (s : State) p =>
    if inMemory p.1 1 then
      let s := s.beforeWrite (lineOf p.1) noThread
      let s := { s with mem := Memory.writeList s.mem p.1 p.2
                        poison := if p.2.length = 64 then s.poison.erase (lineOf p.1) else s.poison }
      s.stampLine (lineOf p.1) (s.die die).clock
    else s) s

/-- A write of the unit at its own die. -/
def State.putAtHome (s : State) (pa n v : Nat) : State := s.unitWrite (homeDie pa) pa (leBytes n v)

/-- The unit writes a descriptor, with the clock of a die. -/
def State.putSq (s : State) (die d : Nat) (q : Sq) : State := s.unitWrite die d (leBytes 80 q.image)

/-! Block-table entries and frames (R204). -/

def Sq.entryAt (q : Sq) (b : Nat) : Nat := q.btbase + 8 * b
def entV (e : Nat) : Bool := bitOf e 0
def entSh (e : Nat) : Bool := bitOf e 1
def entFrame (e : Nat) : Nat := bitsOf e 45 12 * 4096
/-- An entry that names a frame. -/
def entMake (frame : Nat) (sh : Bool) : Nat := 1 + 2 * b2n sh + frame / 4096 % 2 ^ 34 * 4096

def State.entry (s : State) (q : Sq) (b : Nat) : Nat := s.homeNum (q.entryAt b) 8
/-- The unit writes an entry and keeps a copy of it (R211). -/
def State.putEntry (s : State) (q : Sq) (b e : Nat) : State :=
  let s := s.putAtHome (q.entryAt b) 8 e
  { s with btab := Tab.set 0 s.btab (q.entryAt b) (word e) }

/-- A frame header. -/
structure Frame where
  surv   : Nat
  refcnt : Nat
  sealed_ : Bool
  ver    : Nat
deriving DecidableEq, Repr

def State.frame (s : State) (f : Nat) : Frame :=
  let v := s.homeNum f 16
  { surv := bitsOf v 63 0, refcnt := bitsOf v 79 64, sealed_ := bitOf v 80, ver := bitsOf v 127 96 }
/-- The unit writes a header; a frame newly taken gets a whole one. -/
def State.putFrame (s : State) (f : Nat) (h : Frame) : State :=
  s.putAtHome f 16 (h.surv % 2 ^ 64 + 2 ^ 64 * (h.refcnt % 2 ^ 16) + 2 ^ 80 * b2n h.sealed_ + 2 ^ 96 * (h.ver % 2 ^ 32))
def State.newFrame (s : State) (f : Nat) (h : Frame) : State := (s.putAtHome f 64 0).putFrame f h

/-- The K and the V of packed slots of a frame. -/
def Sq.kAt (q : Sq) (f i : Nat) : Nat := f + 64 + 64 * q.kbu * i
def Sq.vAt (q : Sq) (f i : Nat) : Nat := f + 64 + 64 * q.kbu * 64 + 64 * q.vbu * i
/-- Copy the K and V of one slot to a slot of another frame. -/
def State.copySlot (s : State) (q : Sq) (src i dst j : Nat) : State :=
  let s := s.unitWrite (homeDie dst) (q.kAt dst j) (Memory.readList s.mem (q.kAt src i) (64 * q.kbu))
  s.unitWrite (homeDie dst) (q.vAt dst j) (Memory.readList s.mem (q.vAt src i) (64 * q.vbu))

/-! The frame pool (R205). -/

def State.poolTop (s : State) (pool : Nat) : Nat := s.homeNum pool 4
/-- Entry `i` of the stack at an address. -/
def State.stackAt (s : State) (stack i : Nat) : Nat := entFrame (s.homeNum (stack + 8 * i) 8)

/-- A pool as its header gives it: what a unit learns when the pool is first named. -/
def State.poolHeader (s : State) (pool : Nat) : Pool :=
  let v := s.homeNum (pool + 8) 8
  let cap := s.homeNum (pool + 4) 4
  { stack := bitsOf v 33 0 * 4096, cap, size := bitsOf v 49 34 * 4096
    free := (List.range (min (s.poolTop pool) cap)).map (s.stackAt (bitsOf v 33 0 * 4096)) }
/-- A pool as the units know it. -/
def State.pool (s : State) (pool : Nat) : Pool := (Tab.get none s.pools pool).getD (s.poolHeader pool)
def State.poolStack (s : State) (pool : Nat) : Nat := (s.pool pool).stack
/-- Bytes of a frame of the pool. -/
def State.poolSize (s : State) (pool : Nat) : Nat := (s.pool pool).size
/-- A sequence names a pool. -/
def State.namePool (s : State) (pool : Nat) : State := { s with pools := Tab.set none s.pools pool (some (s.pool pool)) }

/-- The top `n` frames of the stack, first the topmost. -/
def State.topFrames (s : State) (pool n : Nat) : List Nat :=
  (List.range n).map fun i => s.stackAt (s.poolStack pool) (s.poolTop pool - 1 - i)
/-- The pool can supply `n` frames. Software must not write the stack once the pool has been named (R205): an entry that it
wrote there all the same supplies no frame, so that nothing but the pool's own free frames is ever taken (R6; log entry 44). -/
def State.poolHas (s : State) (pool n : Nat) : Bool :=
  let fs := s.topFrames pool n
  n ≤ s.poolTop pool && s.poolTop pool ≤ (s.pool pool).cap && decide fs.Nodup && fs.all (s.pool pool).free.contains

/-- The free frames of a pool change. -/
def State.updFree (s : State) (pool : Nat) (f : List Nat → List Nat) : State :=
  let p := s.pool pool
  { s with pools := Tab.set none s.pools pool (some { p with free := f p.free }) }
/-- Take the frame on top of the stack. -/
def State.popFrame (s : State) (pool : Nat) : Nat × State :=
  let top := s.poolTop pool
  let f := s.stackAt (s.poolStack pool) (top - 1)
  (f, (s.updFree pool (·.erase f)).putAtHome pool 4 (top - 1))
/-- Give a frame back; a stack that software filled beyond its capacity takes none. -/
def State.pushFrame (s : State) (pool f : Nat) : State :=
  let top := s.poolTop pool
  if (s.pool pool).cap ≤ top then s
  else (((s.updFree pool (f :: ·)).putAtHome (s.poolStack pool + 8 * top) 8 f)).putAtHome pool 4 (top + 1)

/-- A job's pin names the frame, or the entry (R151, R234). -/
def State.framePinned (s : State) (f : Nat) : Bool :=
  s.clusters.any fun p => p.2.jobs.any fun j => j.pins.any fun e => entFrame e.2.toNat == f
def State.entryPinned (s : State) (pa : Nat) : Bool :=
  s.clusters.any fun p => p.2.jobs.any fun j => j.pins.any fun e => e.1 == pa

/-- A frame's REFCNT falls by one; at 0 it returns to its pool once no pin holds it (R210, R211). -/
def State.dropRef (s : State) (d pool f : Nat) : State :=
  let h := s.frame f
  let s := s.putFrame f { h with refcnt := h.refcnt - 1 }
  if h.refcnt ≤ 1 then
    if s.framePinned f then { s with frames := s.frames ++ [(f, pool, d)] } else s.pushFrame pool f
  else s

/-! The operations (R206 to R213). -/

/-- What an operation of the unit gives: a fault code, a wait, or a result and the state after it. -/
inductive SqOut where
  | fault (code : Nat)
  | wait
  | done (v : Word) (s : State)

/-- Template limits of R207 that a fork template shares apart. -/
def templateBad (v : Nat) : Bool :=
  let q := Sq.of v
  let keep : Sq := { q with rlen := 0, clen := 0, st := 0, refcnt := 0, forkpos := 0, parent := 0, fill := 0 }
  keep.image != v % 2 ^ 512 || decide (q.scope < 2) || decide (5 < q.scope) || q.btcap == 0 || decide (16384 < q.btcap)
    || q.kbu == 0 || q.vbu == 0 || !inMemory q.btbase (8 * q.btcap) || !inMemory q.pool 64

/-- SQCREATE of a template (R207). -/
def State.sqCreate (s : State) (d t : Nat) : SqOut :=
  let st := (s.sq d).st
  if st = 1 ∨ st = 3 then .fault 8
  else if st = 2 ∧ s.frames.any (·.2.2 == d) then .wait
  else
    let v := s.homeNum t 64
    let q := Sq.of v
    if templateBad v || decide (s.poolSize q.pool < 64 + 64 * 64 * (q.kbu + q.vbu)) then .fault 8
    else
      let q : Sq := { q with refcnt := 1, st := 1 }
      let s := (List.range q.btcap).foldl (fun (s : State) b =>
        let e := s.entry q b
        if entV e then s.putEntry q b (e - 1) else { s with btab := Tab.set 0 s.btab (q.entryAt b) 0 }) s
      let s := (s.namePool q.pool).putSq (homeDie d) d q
      .done 0 { s with seqs := d :: s.seqs.erase d }

/-- A block enters the sequence: a copy of the shared block, or a fresh frame (R210). -/
def State.enterBlock (s : State) (d : Nat) (q : Sq) (b : Nat) : State :=
  let e := s.entry q b
  let (f, s) := s.popFrame q.pool
  if entV e && entSh e then
    let o := entFrame e
    let s := s.newFrame f { s.frame o with sealed_ := false, refcnt := 1 }
    let s := (List.range (q.forkpos % 64)).foldl (fun (s : State) i => s.copySlot q o i f i) s
    (s.putEntry q b (entMake f false)).dropRef d q.pool o
  else (s.newFrame f ⟨2 ^ 64 - 1, 1, false, 0⟩).putEntry q b (entMake f false)

/-- Blocks that SQRES of `n` slots enters, of those from the one RLEN stands in. -/
def State.resBlocks (s : State) (q : Sq) (n : Nat) : List Nat :=
  ((List.range ((q.rlen + n - 1) / 64 + 1 - q.rlen / 64)).map (q.rlen / 64 + ·)).filter fun b =>
    !entV (s.entry q b) || entSh (s.entry q b)

/-- SQRES of `n` slots (R206). -/
def State.sqRes (s : State) (d n : Nat) : SqOut :=
  let q := s.sq d
  let top := q.rlen + n
  let need := s.resBlocks q n
  if 64 * (q.clen / 64 + 4) < top ∨ 64 * q.btcap < top ∨ s.poolHas q.pool need.length = false then .done (-1) s
  else
    let s := need.foldl (fun (s : State) b => s.enterBlock d q b) s
    .done (word q.rlen) (s.putSq (homeDie d) d { q with rlen := top })

/-- CLEN after slot CLEN is committed: past every slot in a row whose FILL bit is set. -/
def closeHole (fill base rlen : Nat) : Nat → Nat → Nat
  | 0, c => c
  | k + 1, c => if c < rlen ∧ bitOf fill (c - base) then closeHole fill base rlen k (c + 1) else c

/-- A commit's effect on the lengths and the bitmaps (R208). -/
def Sq.commit (q : Sq) (i : Nat) : Sq :=
  let base := 64 * (q.clen / 64)
  let fill := q.fill ||| 2 ^ (i - base)
  let c := if i = q.clen then closeHole fill base q.rlen 256 q.clen else q.clen
  { q with clen := c, fill := fill / 2 ^ (64 * (c / 64 - q.clen / 64)) }

/-- SQCOMMIT of slot `i` by a thread of a die (R208); dependences on the length and waiters look at once (R80, R212). -/
def State.sqCommit (s : State) (die d i : Nat) : SqOut :=
  let q := s.sq d
  if q.rlen ≤ i then .done 1 s
  else if i < q.clen ∨ bitOf q.fill (i - 64 * (q.clen / 64)) then .fault 2
  else .done 0 (((s.putSq die d (q.commit i)).watch 2 d 8).wakeWaiters d)

/-- Slots from `i` upward are dropped (R209). -/
def Sq.abandon (q : Sq) (i : Nat) : Sq := { q with rlen := i, fill := q.fill % 2 ^ (i - 64 * (q.clen / 64)) }

/-- SQABANDON of slot `i` (R209). -/
def State.sqAbandon (s : State) (d i : Nat) : SqOut :=
  let q := s.sq d
  if i < q.clen ∨ q.rlen < i then .fault 3
  else
    let first := ceilDiv i 64
    let s := ((List.range (ceilDiv q.rlen 64 - first)).map (first + ·)).foldl (fun (s : State) b =>
      let e := s.entry q b
      if entV e then (s.putEntry q b (e - 1)).dropRef d q.pool (entFrame e) else s) s
    .done (word (q.rlen - i)) (s.putSq (homeDie d) d (q.abandon i))

/-- Fork template limits (R395). -/
def forkBad (v btcap : Nat) : Bool :=
  let q := Sq.of v
  v % 2 ^ 512 != 2 ^ 96 * q.forkpos + 2 ^ 192 * (q.btbase / 4096) || !inMemory q.btbase (8 * btcap)

/-- One whole block passes to a child: sealed, its entry copied, its frame named once more (R210). -/
def State.shareBlock (s : State) (q c : Sq) (b : Nat) (seal_ : Bool) : State :=
  let e := s.entry q b
  let h := s.frame (entFrame e)
  (s.putFrame (entFrame e) { h with sealed_ := h.sealed_ || seal_, refcnt := h.refcnt + 1 }).putEntry c b
    (if seal_ then e else entMake (entFrame e) true)

/-- SQFORK of parent `d` into child `c` by the template at `t` (R210, R395). -/
def State.sqFork (s : State) (d c t : Nat) : SqOut :=
  let q := s.sq d
  let v := s.homeNum t 64
  let p := (Sq.of v).forkpos
  if forkBad v q.btcap || decide ((s.sq c).st ≠ 0) then .fault 8
  else if q.clen < p then .fault 4
  else
    let blocks := List.range (ceilDiv p 64)
    if 0xFFFF ≤ q.refcnt ∨ blocks.any (fun b => decide (0xFFFF ≤ (s.frame (entFrame (s.entry q b))).refcnt)) then .fault 9
    else
      let n : Sq := { q with rlen := p, clen := p, forkpos := p, parent := d, refcnt := 1, btbase := (Sq.of v).btbase
                             fill := 2 ^ (p % 64) - 1 }
      let s := s.putSq (homeDie d) d { q with refcnt := q.refcnt + 1 }
      let s := blocks.foldl (fun (s : State) b => s.shareBlock q n b (decide (b < p / 64))) s
      let s := s.putSq (homeDie c) c n
      .done 0 { s with seqs := c :: s.seqs.erase c }

/-- SQSEAL of block `b` (R206). -/
def State.sqSeal (s : State) (d b : Nat) : SqOut :=
  let q := s.sq d
  if q.btcap ≤ b then .fault 11
  else if q.clen < 64 * b + 64 then .fault 5
  else
    let f := entFrame (s.entry q b)
    .done 0 (s.putFrame f { s.frame f with sealed_ := true })

/-- The block is sealed: its entry names a sealed frame. -/
def State.isSealed (s : State) (q : Sq) (b : Nat) : Bool := entV (s.entry q b) && (s.frame (entFrame (s.entry q b))).sealed_

/-- What an accepted or waiting operation holds up at its unit: later operations on its table, or later SQEVICT and BTINV of
its block (R391). The buckets that an IXREHASH has still to move hold nothing up (R226). -/
def UnitOp.holdsUp : UnitOp → Option (Nat × Option Nat)
  | .btinv d b _ _ _ _ => some (d, some b)
  | .ixcreate d _ | .ixfamily d _ => some (d, none)
  | .sent d b _ q => (match q with | .moving _ _ => none | _ => some (d, b))
  | _ => none

/-- An operation on a block, or on a table, is held up at its unit; or by one before number `id`. -/
def State.unitBusy (s : State) (d : Nat) (b : Option Nat) : Bool :=
  s.ops.any fun p => match p.2 with | some o => o.op.holdsUp == some (d, b) | none => false
def State.behind (s : State) (d : Nat) (b : Option Nat) (id : Nat) : Bool :=
  s.ops.any fun p => decide (p.1 < id) && match p.2 with | some o => o.op.holdsUp == some (d, b) | none => false
def State.btinvBusy (s : State) (d b : Nat) : Bool := s.unitBusy d (some b)

/-- Packed slot of logical slot `i` under survivors `surv` (R211). -/
def packedSlot (surv i : Nat) : Nat := popNat 64 (surv % 2 ^ i)

/-- Copy the survivors `keep` of a frame into consecutive slots of a new one. -/
def State.thin (s : State) (q : Sq) (old new surv keep : Nat) : State :=
  ((List.range 64).filter (bitOf keep)).foldl
    (fun (s : State) i => s.copySlot q old (packedSlot surv i) new (packedSlot keep i)) s

/-- SQEVICT of block `b` with bitmap `k` (R211). -/
def State.sqEvict (s : State) (d b : Nat) (k : Word) : SqOut :=
  let q := s.sq d
  if q.btcap ≤ b then .fault 11
  else if !s.isSealed q b then .fault 6
  else if !s.poolHas q.pool 1 then .fault 7
  else
    let e := s.entry q b
    let old := entFrame e
    let h := s.frame old
    let keep := h.surv &&& k.toNat
    let (f, s) := s.popFrame q.pool
    let s := s.thin q old f h.surv keep
    let s := s.newFrame f ⟨keep, 1, true, (h.ver + 1) % 2 ^ 32⟩
    .done (word ((h.ver + 1) % 2 ^ 32)) ((s.putEntry q b (entMake f (entSh e))).dropRef d q.pool old)

/-- KIND 2 dependences on a sequence that is released are rejected (R82, R213). -/
def State.rejectDeps (s : State) (d : Nat) : State :=
  (s.recList.filter fun p => p.2.watches 2 d 8).foldl (fun (s : State) p => s.rejectRec p.1 18) s

/-- One reference of a sequence is given up; at none it is DEAD, its frames lose their references, its table is cleared,
its waiters return, dependences on it are rejected, and its parent is released in the same way (R213). Of a BROKEN sequence
the unit's own copies of the entries count, not what software wrote over them (R6, R211). -/
def State.sqDrop (s : State) : Nat → Nat → State
  | 0, _ => s
  | fuel + 1, d =>
    let q := s.sq d
    if (q.st ≠ 1 ∧ q.st ≠ 3) ∨ q.refcnt = 0 then s
    else if 1 < q.refcnt then s.putSq (homeDie d) d { q with refcnt := q.refcnt - 1 }
    else
      let s := s.putSq (homeDie d) d { q.abandon q.clen with refcnt := 0, st := 2 }
      let s := { s with seqs := s.seqs.erase d }
      let s := (List.range q.btcap).foldl (fun (s : State) b =>
        let e := if q.st = 3 then (Tab.get 0 s.btab (q.entryAt b)).toNat else s.entry q b
        let s := if s.entry q b = 0 ∧ e = 0 then s else s.putEntry q b 0
        if entV e then s.dropRef d q.pool (entFrame e) else s) s
      let s := (s.rejectDeps d).wakeWaiters d
      if q.parent = 0 then s else s.sqDrop fuel q.parent

/-- SQRELEASE (R213). A chain of parents is no longer than the bytes of memory that are listed: each descriptor of it has a
listed ST and leaves LIVE or BROKEN. -/
def State.sqRelease (s : State) (d : Nat) : SqOut :=
  let q := s.sq d
  if q.refcnt = 0 then .fault 10 else .done (word (q.refcnt - 1)) (s.sqDrop (s.mem.length + 1) d)

/-- The unit takes a BTINV: its copy of the entry becomes the entry, and the old one is given (R211). -/
def State.btinvTake (s : State) (d b : Nat) : Word × State :=
  let pa := (s.sq d).entryAt b
  (Tab.get 0 s.btab pa, { s with btab := Tab.set 0 s.btab pa (word (s.entry (s.sq d) b)) })

/-- A BTINV completes: the entry's reference has moved from the old frame to the new one (R211). -/
def State.btinvDone (s : State) (d pool : Nat) (old new : Word) : State :=
  if entV old.toNat && entFrame old.toNat != entFrame new.toNat then s.dropRef d pool (entFrame old.toNat) else s

/-! What an operation of the unit reads (R55, R169, R208). -/

/-- The first line of some runs of bytes that cannot be read from a die (R21, R53, R55). -/
def State.readsFail (s : State) (die : Nat) (rs : List (Nat × Nat)) : Option (Nat × HomeErr) :=
  (rs.flatMap fun r => linesOf r.1 r.2).findSome? fun l => (s.homeErr die true (l * 64)).map fun e => (l * 64, e)

/-- A read of the unit waits: a write to the bytes is still on its way from the thread or from a die, an engine owns a line,
or its channel retrains (R52, R155, R163, R169). -/
def State.readsWait (s : State) (rs : List (Nat × Nat)) : Bool :=
  rs.any fun r =>
    ((List.range 4).any fun d => s.pendingTo d r.1 r.2) || (s.me.sb.any fun e => overlaps e.addr e.bytes.length r.1 r.2)
      || (linesOf r.1 r.2).any fun l => s.owned l || s.pathHolds (dieOf s.cur) (l * 64)

/-- An operation of the unit at descriptor `d` whose reads are given: it takes the access fault of a line that cannot be
read, or waits. -/
def State.withReads (s : State) (d : Nat) (va : Word) (rs : List (Nat × Nat)) (k : Out) : Out :=
  match s.readsFail (homeDie d) rs with
  | some (pa, e) => s.trap 7 va (accessInfo pa (e == .mem) (e == .link))
  | none => if s.syncQueued (dieOf s.cur) (homeDie d) || s.readsWait rs then s.stall else k

/-- Entries of blocks, and the headers of the frames that they name. -/
def State.blockReads (s : State) (q : Sq) (bs : List Nat) : List (Nat × Nat) :=
  bs.flatMap fun b => (q.entryAt b, 8) :: (if entV (s.entry q b) then [(entFrame (s.entry q b), 16)] else [])
/-- K and V of `n` packed slots of a frame from slot `i`. -/
def Sq.slotReads (q : Sq) (f i n : Nat) : List (Nat × Nat) := [(q.kAt f i, 64 * q.kbu * n), (q.vAt f i, 64 * q.vbu * n)]
/-- The pool header and the top `n` entries of its stack. -/
def State.poolReads (s : State) (pool n : Nat) : List (Nat × Nat) :=
  [(pool, 16), (s.poolStack pool + 8 * (s.poolTop pool - n), 8 * min n (s.poolTop pool))]

/-- What SQRES reads: the entries of the blocks; where it enters some, the pool, and what it copies of a shared block (R206). -/
def State.resReads (s : State) (d n : Nat) : List (Nat × Nat) :=
  let q := s.sq d
  let top := q.rlen + n
  let need := s.resBlocks q n
  (d, 80) :: (if 64 * (q.clen / 64 + 4) < top ∨ 64 * q.btcap < top then [] else
    (List.range ((top - 1) / 64 + 1 - q.rlen / 64)).map (fun b => (q.entryAt (q.rlen / 64 + b), 8))
      ++ (if need.isEmpty then [] else s.poolReads q.pool need.length)
      ++ (if s.poolHas q.pool need.length then need.flatMap fun b =>
        let e := s.entry q b
        if entV e && entSh e then (entFrame e, 16) :: q.slotReads (entFrame e) 0 (q.forkpos % 64) else [] else []))
/-- What SQEVICT reads: the entry and the header; of a sealed block the pool, and the K and V of every survivor (R211). -/
def State.evictReads (s : State) (d b : Nat) (k : Word) : List (Nat × Nat) :=
  let q := s.sq d
  let h := s.frame (entFrame (s.entry q b))
  (d, 80) :: (if q.btcap ≤ b then [] else
    s.blockReads q [b] ++ (if s.isSealed q b then s.poolReads q.pool 1 else [])
      ++ (if s.isSealed q b && s.poolHas q.pool 1 then ((List.range 64).filter (bitOf (h.surv &&& k.toNat))).flatMap fun i =>
        q.slotReads (entFrame (s.entry q b)) (packedSlot h.surv i) 1 else []))
/-- What an operation on some blocks of a sequence reads. -/
def State.seqReads (s : State) (d : Nat) (bs : List Nat) : List (Nat × Nat) :=
  (d, 80) :: s.blockReads (s.sq d) (bs.filter (· < (s.sq d).btcap))

/-! The scalar instructions (R388 to R396). -/

/-- Resolve an operand that names an object of `n` bytes: where it lies, once nothing of the thread or of another agent
stands before it (R389). `chg`: the operation may change it. -/
def State.withObject (s : State) (chg : Bool) (va : Word) (n : Nat) (f : Nat → Out) : Out :=
  let cs := if chg then storeCauses else loadCauses
  match s.place (if chg then .write else .read) cs va 1 true chg with
  | .bad c v i => s.trap c v i
  | .wait => s.stall
  | .dev pa => s.accessFault cs va pa
  | .mem pa => if s.atomicWaits s.cur pa n then s.stall else f pa

/-- SEQUENCE_FAULT or INDEX_FAULT: the code and the descriptor's address bits [45:8] (R214, R230). -/
def State.unitFault (s : State) (cause code pa : Nat) : Out := s.trap cause 0 (word (code + pa / 256 % 2 ^ 38 * 256))
def State.seqFault (s : State) (code pa : Nat) : Out := s.unitFault 30 code pa

/-- A descriptor operand of a sequence instruction, 256-byte aligned (R390). -/
def State.withSeq (s : State) (chg : Bool) (va : Word) (f : Nat → Out) : Out :=
  s.withObject chg va 256 fun d => if va.toNat % 256 ≠ 0 then s.seqFault 12 d else f d

/-- The operation's result, fault or wait becomes the instruction's. -/
def State.sqEnd (s : State) (rd : Reg) (d : Nat) (r : SqOut) : Out :=
  match r with
  | .fault c => s.seqFault c d
  | .wait => s.stall
  | .done v t => t.ret rd v

/-- An operation on a LIVE sequence (R206), with what it reads. -/
def State.onLive (s : State) (rd rs1 : Reg) (bad : Bool) (reads : Nat → List (Nat × Nat)) (op : Nat → SqOut) : Out :=
  s.withSeq true (s.rd rs1) fun d =>
    if bad then s.seqFault 12 d
    else if (s.sq d).st ≠ 1 then s.seqFault 1 d
    else s.withReads d (s.rd rs1) (reads d) (s.sqEnd rd d (op d))

/-- SQCREATE (R207, R392). -/
def execSqcreate (rd rs1 rs2 : Reg) (s : State) : Out :=
  let va := s.rd rs1
  s.withObject true va 256 fun d =>
    if va.toNat % 256 ≠ 0 then s.seqFault 8 d
    else s.withObject false (s.rd rs2) 64 fun t =>
      if t % 64 ≠ 0 then s.seqFault 8 d
      else
        let q := Sq.of (s.homeNum t 64)
        s.withReads d va ([(d, 80), (t, 64), (q.pool, 16)] ++ if templateBad (s.homeNum t 64) then [] else [(q.btbase, 8 * q.btcap)])
          (s.sqEnd rd d (s.sqCreate d t))

/-- SQRES (R206, R392). -/
def execSqres (rd rs1 rs2 : Reg) (s : State) : Out :=
  let n := (s.rd rs2).toNat
  s.onLive rd rs1 (n == 0 || decide (256 < n)) (fun d => s.resReads d n) fun d => s.sqRes d n

/-- SQCOMMIT (R208, R393): it is sent once everything the thread did before has performed at SCOPE. -/
def execSqcommit (rd rs1 rs2 : Reg) (s : State) : Out :=
  let i := (s.rd rs2).toNat
  s.onLive rd rs1 (decide (2 ^ 32 ≤ i)) (fun d => [(d, 80)]) fun d =>
    let scope := (s.sq d).scope
    if s.quiet s.cur scope && s.vecQuiet s.cur scope then s.sqCommit (dieOf s.cur) d i else .wait

/-- SQABANDON (R209). -/
def execSqabandon (rd rs1 rs2 : Reg) (s : State) : Out :=
  let i := (s.rd rs2).toNat
  let reads (d : Nat) : List (Nat × Nat) :=
    s.seqReads d ((List.range (ceilDiv (s.sq d).rlen 64 - ceilDiv i 64)).map (ceilDiv i 64 + ·))
  s.onLive rd rs1 (decide (2 ^ 32 ≤ i)) reads fun d => s.sqAbandon d i

/-- SQFORK (R210, R395): register `rt` is a source, and no register is written. -/
def execSqfork (rt rs1 rs2 : Reg) (s : State) : Out :=
  s.withSeq true (s.rd rs1) fun d =>
    s.withObject true (s.rd rs2) 256 fun c =>
      s.withObject false (s.rd rt) 64 fun t =>
        if c % 256 ≠ 0 ∨ t % 64 ≠ 0 then s.seqFault 8 d
        else if (s.sq d).st ≠ 1 then s.seqFault 1 d
        else
          let blocks := List.range (ceilDiv (Sq.of (s.homeNum t 64)).forkpos 64)
          s.withReads d (s.rd rs1) ([(c, 80), (t, 64)] ++ s.seqReads d blocks) (s.sqEnd 0 d (s.sqFork d c t))

/-- CLEN is returned with an acquire of the descriptor's line, and c23 := 0 (R208, R212). -/
def State.sqAcquired (s : State) (rd : Reg) (d : Nat) : Out :=
  ((s.observe (dieOf s.cur) (lineOf d)).post s.cur 23 false).ret rd (word (s.sq d).clen)
/-- CLEN is returned without one, and c23 := 1. -/
def State.sqMissed (s : State) (rd : Reg) (d : Nat) : Out := (s.post s.cur 23 true).ret rd (word (s.sq d).clen)

/-- SQLEN (R206, R212). -/
def execSqlen (rd rs1 : Reg) (s : State) : Out :=
  s.withSeq false (s.rd rs1) fun d =>
    match (s.sq d).st with
    | 0 => s.seqFault 1 d
    | 1 => s.sqAcquired rd d
    | _ => s.sqMissed rd d

/-- SQWAIT (R212, R394). -/
def execSqwait (rd rs1 rs2 : Reg) (s : State) : Out :=
  let bound := Fld (s.rd rs2) 31 0
  let limit := Fld (s.rd rs2) 63 32
  s.withSeq false (s.rd rs1) fun d =>
    match (s.sq d).st with
    | 0 => s.seqFault 1 d
    | 1 =>
      if bound ≤ (s.sq d).clen then s.sqAcquired rd d
      else match s.me.wait with
        | .deadline (some t) _ _ _ => if t ≤ s.now then s.sqMissed rd d else s.stall
        | .deadline none _ _ _ => s.stall
        | _ =>
          if limit = 0 then s.sqMissed rd d
          else
            let t := if limit = 0xFFFFFFFF then none else some (s.now + limit)
            .next (s.updMe fun x => { x with wait := .deadline t rd d bound })
    | _ => s.sqMissed rd d

/-- SQWAIT_TIMEOUT (R212): the limit of a waiting SQWAIT has passed. A wait whose bound CLEN meets returns with its acquire
instead. -/
def execSqwaitTimeout (s : State) : Out :=
  let tid := s.ev.tid
  match (s.thread tid).wait with
  | .deadline (some t) rd d bound =>
    let q := s.sq d
    if q.st = 1 ∧ bound ≤ q.clen then .next (s.wakeWaiters d)
    else if t ≤ s.now then .next (s.updThread tid fun t => t.sqReturn rd q.clen true)
    else .next s
  | _ => .next s

/-- SQSEAL (R206, R392). -/
def execSqseal (rd rs1 rs2 : Reg) (s : State) : Out := 
  s.onLive rd rs1 false (fun d => s.seqReads d [(s.rd rs2).toNat]) fun d => s.sqSeal d (s.rd rs2).toNat

/-- SQRELEASE (R213). -/
def execSqrelease (rd rs1 : Reg) (s : State) : Out :=
  s.withSeq true (s.rd rs1) fun d =>
    let st := (s.sq d).st
    if st = 1 ∨ st = 3 then
      s.withReads d (s.rd rs1) (if 1 < (s.sq d).refcnt then [(d, 80)] else s.seqReads d (List.range (s.sq d).btcap))
        (s.sqEnd rd d (s.sqRelease d))
    else s.seqFault 1 d

/-- An operation stands at a unit under the next number and owns the lines that it will write (R169, R378, R391). -/
def State.enlist (s : State) (owns : List (Nat × Nat)) (op : UnitOp) : State :=
  let id := s.nextOp
  let w := s.whoMe
  { s with nextOp := id + 1
           ops := Tab.set none s.ops id (some { tid := w.tid, mode := w.mode, root := w.root, owns, pins := [], op
                                                asid := s.me.csr.vasid, gang := s.me.gang }) }.takeOwned owns

/-- A unit accepts an operation that it finishes on its own; the thread waits for it. -/
def State.accept (s : State) (rd : Reg) (owns : List (Nat × Nat)) (op : UnitOp) : Out :=
  .next ((s.enlist owns op).updMe fun t => { t with wait := .accepted s.nextOp rd })

/-- An operation is sent to a unit and does not return at once; it completes whatever happens to its thread (R391). -/
def State.send (s : State) (d : Nat) (b : Option Nat) (va : Word) (q : SentOp) : Out :=
  .next ((s.enlist [] (.sent d b va q)).updMe fun t => { t with wait := .sent s.nextOp })

/-- The result of an accepted operation, when the unit has finished it. -/
def State.awaitOp (s : State) (rd : Reg) (id : Nat) : Out := if (s.op? id).isSome then s.stall else s.ret rd 0

/-- The thread's sent operation `id` goes on when nothing stands before it at its unit; it leaves the unit with its result. -/
def State.resume (s : State) (id : Nat) (k : Nat → Word → SentOp → Out) : Out :=
  match (s.op? id).map Op.op with
  | some (.sent d b va q) =>
    if s.behind d b id then s.stall
    else match k d va q with
      | .next t => .next (if t.me.wait = .sent id then t else t.setOp id none)
      | r => r
  | _ => s.stall

/-- The thread that issued an operation has ended (R227, R391): the unit goes on with it as for a thread of the same space
whose result nobody reads; a fault changes nothing. -/
def State.onBehalf (s : State) (id : Nat) (o : Op) (k : State → Out) : State :=
  if (s.thread o.tid).wait = .sent id then s
  else
    let g : Thread := { live := true, mode := o.mode, gang := o.gang, wait := .sent id
                        csr := { vptbase := o.root, vasid := o.asid } }
    match k ({ s with cur := o.tid }.setThread o.tid g) with
    | .next t =>
      if t.me.live && t.me.mode == o.mode then { t with cur := s.cur }.setThread o.tid (s.thread o.tid) else s.setOp id none
    | _ => s

/-- SQEVICT and BTINV of a block at the sequence unit (R211, R391). -/
def State.sqBlock (s : State) (rd : Reg) (d : Nat) (va : Word) (q : SentOp) : Out :=
  if (s.sq d).st ≠ 1 then s.seqFault 1 d
  else match q with
    | .evict b k => s.withReads d va (s.evictReads d b k) (s.sqEnd rd d (s.sqEvict d b k))
    | .inv b =>
      let x := s.sq d
      if x.btcap ≤ b then s.seqFault 11 d
      else s.withReads d va (s.seqReads d [b]) <|
        if !s.isSealed x b then s.seqFault 6 d
        else
          let new := word (s.entry x b)
          let (old, s) := s.btinvTake d b
          if s.entryPinned (x.entryAt b) then s.accept rd [] (.btinv d b (x.entryAt b) x.pool old new)
          else (s.btinvDone d x.pool old new).ret rd 0
    | _ => s.stall

/-- An operation on block `b` goes to the sequence unit: behind a BTINV of the block it waits there (R391). -/
def State.onBlock (s : State) (rd : Reg) (va : Word) (b : Nat) (q : SentOp) : Out :=
  match s.me.wait with
  | .sent id => s.resume id (s.sqBlock rd)
  | _ => s.withSeq true va fun d =>
    if s.btinvBusy d b then s.send d (some b) va q else s.sqBlock rd d va q

/-- SQEVICT (R211, R396): register `rk` holds the bitmap and receives the version. -/
def execSqevict (rk rs1 rs2 : Reg) (s : State) : Out :=
  s.onBlock rk (s.rd rs1) (s.rd rs2).toNat (.evict (s.rd rs2).toNat (s.rd rk))

/-- BTINV (R211, R391). -/
def execBtinv (rd rs1 rs2 : Reg) (s : State) : Out :=
  match s.me.wait with
  | .accepted id _ => s.awaitOp rd id
  | _ => s.onBlock rd (s.rd rs1) (s.rd rs2).toNat (.inv (s.rd rs2).toNat)

/-- BTINV_COMPLETE (R211, R391): every holder of the entry's pin has retired; the operation completes whatever has become of
the sequence. An operation behind it whose thread has ended goes on. -/
def execBtinvComplete (s : State) : Out :=
  let id := s.ev.idx
  match s.op? id with
  | some o => (match o.op with
    | .btinv d _ entry pool old new =>
      if s.entryPinned entry then .next s
      else .next ((s.setOp id none).btinvDone d pool old new)
    | .sent _ (some _) _ _ => .next (s.onBehalf id o fun s => s.resume id (s.sqBlock 0))
    | _ => .next s)
  | none => .next s

/-- FRAME_RETURN (R210): entry `idx` of the frames that wait for their pins. -/
def execFrameReturn (s : State) : Out :=
  match s.frames[s.ev.idx]? with
  | none => .next s
  | some (f, pool, _) =>
    if s.framePinned f then .next s
    else .next ({ s with frames := s.frames.eraseIdx s.ev.idx }.pushFrame pool f)

end Sys2Proof.Machine
end

