-- ==== Sys2Proof/Machine/Index.lean ====
section
/-! DEFINITION. Index tables at the Eyelet unit (R215 to R230, R389 to R391, R397, R398): descriptors, families, buckets,
hashing, filing, rehash, probing, and the scalar instructions on them. -/

namespace Sys2Proof.Machine

/-! Descriptors and families (R215, R216). -/

/-- A family record. -/
structure Fam where
  seed : Nat
  kb   : Nat
  l    : Nat
  den  : Nat
  fmt  : Nat
  d    : Nat
  fam  : Nat
  base : Nat
deriving DecidableEq, Repr

def Fam.of (v : Nat) : Fam :=
  { seed := bitsOf v 63 0, kb := bitsOf v 68 64, l := bitsOf v 72 69 + 1, den := bitsOf v 75 73, fmt := bitsOf v 79 76,
    d := bitsOf v 95 80 + 1, fam := bitsOf v 97 96, base := bitsOf v 127 98 * 65536 }

/-- An index-table descriptor; CUR and NEW as the 128 bits of their records. -/
structure Ix where
  st      : Nat
  ovp     : Nat
  nrows   : Nat
  keybase : Nat
  kstride : Nat
  ovbase  : Nat
  ovcap   : Nat
  ovnext  : Nat
  ndrop   : Nat
  nevict  : Nat
  split   : Nat
  mbmp    : Nat
  cur     : Nat
  new     : Nat
deriving DecidableEq, Repr

def Ix.of (v : Nat) : Ix :=
  { st := bitsOf v 1 0, ovp := bitsOf v 3 2, nrows := bitsOf v 63 32, keybase := bitsOf v 101 64 * 256,
    kstride := bitsOf v 151 128, ovbase := bitsOf v 231 192 * 64, ovcap := bitsOf v 287 256, ovnext := bitsOf v 319 288,
    ndrop := bitsOf v 351 320, nevict := bitsOf v 383 352, split := bitsOf v 415 384, mbmp := bitsOf v 455 416 * 64,
    cur := bitsOf v 639 512, new := bitsOf v 767 640 }

/-- The low 768 bits of a descriptor. -/
def Ix.image (x : Ix) : Nat :=
  x.st % 4 + 2 ^ 2 * (x.ovp % 4) + 2 ^ 32 * (x.nrows % 2 ^ 32) + 2 ^ 64 * (x.keybase / 256 % 2 ^ 38)
    + 2 ^ 128 * (x.kstride % 2 ^ 24) + 2 ^ 192 * (x.ovbase / 64 % 2 ^ 40) + 2 ^ 256 * (x.ovcap % 2 ^ 32)
    + 2 ^ 288 * (x.ovnext % 2 ^ 32) + 2 ^ 320 * (x.ndrop % 2 ^ 32) + 2 ^ 352 * (x.nevict % 2 ^ 32)
    + 2 ^ 384 * (x.split % 2 ^ 32) + 2 ^ 416 * (x.mbmp / 64 % 2 ^ 40) + 2 ^ 512 * (x.cur % 2 ^ 128)
    + 2 ^ 640 * (x.new % 2 ^ 128)

/-- The table at a descriptor. One that no unit has made is FREE, or BROKEN by the plain store that wrote its ST (R218). -/
def State.ix (s : State) (d : Nat) : Ix :=
  let x := Ix.of (s.homeNum d 96)
  if s.tables.contains d || x.st == 0 then x else { x with st := 3 }
def State.putIx (s : State) (die d : Nat) (x : Ix) : State := s.unitWrite die d (leBytes 96 x.image)

/-- The family under which rows are filed: CUR, or NEW in REHASH (R221). -/
def Ix.fam (x : Ix) : Fam := Fam.of (if x.st = 2 then x.new else x.cur)

/-- Bytes of a key row or an input. -/
def Fam.bytes (f : Fam) : Nat :=
  match f.fmt with
  | 3 | 4 => 2 * f.d
  | 11 | 12 | 13 => f.d / 16 * sxBytes f.fmt
  | _ => f.d
/-- Buckets of the family. -/
def Fam.buckets (f : Fam) : Nat := f.l * 2 ^ f.kb
/-- Address of bucket `j` of sub-table `t`. -/
def Fam.bucketAt (f : Fam) (t j : Nat) : Nat := f.base + 64 * (t * 2 ^ f.kb + j)

/-! Hashing (R220). -/

/-- Exact elements (significand, exponent) of a vector in memory; none when one is NaN or infinite. -/
def Fam.elems (f : Fam) (bs : List Byte) : Option (List (Int × Int)) :=
  match f.fmt with
  | 0 => some ((bs.take f.d).map fun b => (toSigned 8 b.toNat, 0))
  | 1 => some ((bs.take f.d).map fun b => ((b.toNat : Int), 0))
  | 11 | 12 | 13 =>
    let n := sxBytes f.fmt
    ((List.range (f.d / 16)).mapM fun i =>
      let blk := leNat (sub bs (n * i) n)
      let sc := sxScale f.fmt blk
      if scaleIsNan sc then none
      else some ((List.range 16).map fun k => (laneVal f.fmt 0 (sxLane f.fmt blk k), scaleExp sc))).map List.flatten
  | _ =>
    let n := f.bytes / f.d
    (List.range f.d).mapM fun i =>
      match (fmtFloat f.fmt).read (leNat (sub bs (n * i) n)) with
      | .fin neg m e => some (if neg then -(m : Int) else (m : Int), e)
      | _ => none

/-- Elements as integers at their smallest exponent. -/
def alignElems (xs : List (Int × Int)) : List Int :=
  let e0 := xs.foldl (fun m x => min m x.2) 0
  xs.map fun x => x.1 * ((2 ^ (x.2 - e0).toNat : Nat) : Int)

/-- One projection of a vector: the signed sum over the elements that the mixer selects. -/
def Fam.project (f : Fam) (t i : Nat) (xs : List Int) : Int :=
  xs.zipIdx.foldl (fun (y : Int) p =>
    let z := (mix (word f.seed) (word (t * 2 ^ 40 + i * 2 ^ 32 + p.2))).toNat
    if z % 2 ^ f.den = 0 then (if bitOf z 63 then y - p.1 else y + p.1) else y) 0

/-- Bucket of sub-table `t`. -/
def Fam.hash (f : Fam) (t : Nat) (xs : List Int) : Nat :=
  (List.range f.kb).foldl (fun n i => if 0 < f.project t i xs then n + 2 ^ i else n) 0

/-- The buckets of a vector in every sub-table: 0 for a vector with a NaN or an infinity. -/
def Fam.hashes (f : Fam) (xs : Option (List (Int × Int))) : List Nat :=
  (List.range f.l).map fun t => match xs with | none => 0 | some xs => f.hash t (alignElems xs)

/-! Buckets and chains (R217, R226). -/

/-- A bucket: its address, MV, OF and DR, its link and its row IDs. -/
structure Bucket where
  addr : Nat
  fl   : Nat
  link : Nat
  ids  : List Nat
deriving DecidableEq, Repr

def Bucket.value (b : Bucket) : Nat :=
  b.ids.length % 2 ^ 16 + 2 ^ 16 * (b.fl % 8) + 2 ^ 32 * (b.link % 2 ^ 32)
    + b.ids.zipIdx.foldl (fun n p => n + 2 ^ (64 + 32 * p.2) * (p.1 % 2 ^ 32)) 0

/-- A bucket's line; none when it is malformed. -/
def State.bucket (s : State) (x : Ix) (a : Nat) : Option Bucket :=
  let v := s.homeNum a 64
  let cnt := bitsOf v 15 0
  let link := bitsOf v 63 32
  if 14 < cnt ∨ bitsOf v 31 19 ≠ 0 ∨ x.ovnext < link then none
  else some ⟨a, bitsOf v 18 16, link, (List.range cnt).map fun i => bitsOf v (95 + 32 * i) (64 + 32 * i)⟩

/-- A chain from its head; none when a bucket is malformed or more than 8 overflow buckets follow. -/
def State.chain (s : State) (x : Ix) : Nat → Nat → Option (List Bucket)
  | 0, _ => none
  | k + 1, a =>
    match s.bucket x a with
    | none => none
    | some b => if b.link = 0 then some [b] else (s.chain x k (x.ovbase + 64 * (b.link - 1))).map (b :: ·)

/-- The chain of bucket `j` of sub-table `t`. -/
def State.chainOf (s : State) (x : Ix) (f : Fam) (t j : Nat) : Option (List Bucket) := s.chain x 9 (f.bucketAt t j)

/-- The unit writes a bucket, for a thread of a die. -/
def State.putBucket (s : State) (die : Nat) (b : Bucket) : State := s.unitWrite die b.addr (leBytes 64 b.value)

/-! Filing and deleting (R221, R222). -/

/-- What filing has come to: the state, the descriptor, and bits [15:0] and [31:16] of the result. -/
structure Filing where
  s  : State
  x  : Ix
  lo : Nat := 0
  hi : Nat := 0

/-- A row is dropped from a chain. -/
def Filing.drop (r : Filing) (die t : Nat) (head : Bucket) : Filing :=
  { r with s := r.s.putBucket die { head with fl := head.fl ||| 4 }, x := { r.x with ndrop := satAdd32 r.x.ndrop 1 }
           hi := r.hi ||| 2 ^ t }

/-- File row `row` in the chain of sub-table `t`. -/
def Filing.file (r : Filing) (die row t : Nat) (ch : List Bucket) : Filing :=
  let done := { r with lo := r.lo ||| 2 ^ t }
  let head := ch.headD ⟨0, 0, 0, []⟩
  if ch.any (·.ids.contains row) then done
  else
    let free := if r.x.ovp = 2 then ch.find? (·.ids.length < 14) else if head.ids.length < 14 then some head else none
    match free with
    | some b => { done with s := r.s.putBucket die { b with ids := b.ids ++ [row] } }
    | none =>
      match r.x.ovp with
      | 1 => { done with s := r.s.putBucket die { head with ids := head.ids.drop 1 ++ [row] }
                         x := { r.x with nevict := satAdd32 r.x.nevict 1 }, hi := r.hi ||| 2 ^ t }
      | 2 =>
        if ch.length < 9 ∧ r.x.ovnext < r.x.ovcap then
          let last := ch.getLastD head
          let n := r.x.ovnext
          { done with s := (r.s.putBucket die ⟨r.x.ovbase + 64 * n, 2, 0, [row]⟩).putBucket die { last with link := n + 1 }
                      x := { r.x with ovnext := n + 1 }, hi := r.hi ||| 2 ^ t }
        else r.drop die t head
      | _ => r.drop die t head

/-- Where a key row lies. -/
def Ix.keyRow (x : Ix) (f : Fam) (row : Nat) : Nat × Nat := (x.keybase + row * x.kstride, f.bytes)

/-- Key row `row` hashed under a family; none for a NaN or an infinity in it. -/
def State.keyHash (s : State) (x : Ix) (f : Fam) (row : Nat) : Option (List Nat) :=
  (f.elems (Memory.readList s.mem (x.keyRow f row).1 f.bytes)).map fun xs => f.hashes (some xs)

/-- File a row in every sub-table of a family, or the fault code: 7 for its key row, 6 for a chain. -/
def Filing.fileAll (r : Filing) (die row : Nat) (f : Fam) : Except Nat Filing :=
  match r.s.keyHash r.x f row with
  | none => .error 7
  | some hs =>
    if hs.zipIdx.any fun p => (r.s.chainOf r.x f p.2 p.1).isNone then .error 6
    else .ok (hs.zipIdx.foldl (fun (r : Filing) p => r.file die row p.2 ((r.s.chainOf r.x f p.2 p.1).getD [])) r)

/-- The moved-row bitmap. -/
def State.moved (s : State) (x : Ix) (row : Nat) : Bool := bitOf (s.homeNum (x.mbmp + row / 8) 1) (row % 8)
def State.setMoved (s : State) (die : Nat) (x : Ix) (row : Nat) : State :=
  s.unitWrite die (x.mbmp + row / 8) [BitVec.ofNat 8 (s.homeNum (x.mbmp + row / 8) 1 ||| 2 ^ (row % 8))]

/-- Result of an operation of the unit: a fault code, or a result, whether c24 posts, and the state. -/
inductive IxOut where
  | fault (code : Nat)
  | done (v : Nat) (post : Bool) (s : State)

/-- IXINS of a row (R221). -/
def State.ixIns (s : State) (die d row : Nat) : IxOut :=
  let x := s.ix d
  match (Filing.mk s x 0 0).fileAll die row x.fam with
  | .error c => .fault c
  | .ok r =>
    let t := if x.st = 2 then r.s.setMoved die x row else r.s
    .done (r.lo + 2 ^ 16 * r.hi) (r.hi != 0) (t.putIx die d r.x)

/-- Remove a row from a chain: the state, and whether it was there. -/
def State.unfile (s : State) (die row : Nat) (ch : List Bucket) : State × Bool :=
  ch.foldl (fun (r : State × Bool) b =>
    if b.ids.contains row then (r.1.putBucket die { b with ids := b.ids.filter (· ≠ row) }, true) else r) (s, false)

/-- Remove a row from the chains of a family, or the fault code. -/
def State.unfileAll (s : State) (die : Nat) (x : Ix) (f : Fam) (row : Nat) : Except Nat (State × Nat) :=
  match s.keyHash x f row with
  | none => .error 7
  | some hs =>
    if hs.zipIdx.any fun p => (s.chainOf x f p.2 p.1).isNone then .error 6
    else .ok (hs.zipIdx.foldl (fun (r : State × Nat) p =>
      let u := r.1.unfile die row ((r.1.chainOf x f p.2 p.1).getD [])
      (u.1, r.2 + (if u.2 then 2 ^ p.2 else 0))) (s, 0))

/-- IXDEL of a row (R222): the result names the sub-tables of the family that files it. -/
def State.ixDel (s : State) (die d row : Nat) : IxOut :=
  let x := s.ix d
  match s.unfileAll die x x.fam row with
  | .error c => .fault c
  | .ok (t, n) =>
    if x.st = 2 then
      match t.unfileAll die x (Fam.of x.cur) row with
      | .error c => .fault c
      | .ok (u, _) => .done n false u
    else .done n false t

/-! Rehash (R223). -/

/-- Old buckets still to move. -/
def Ix.left (x : Ix) : Nat := if x.st = 2 then (Fam.of x.cur).buckets - x.split else 0

/-- Move the rows of a chain that have not moved. -/
def Filing.moveRows (r : Filing) (die : Nat) : List Nat → Except Nat Filing
  | [] => .ok r
  | row :: rows =>
    if r.s.moved r.x row then r.moveRows die rows
    else match r.fileAll die row (Fam.of r.x.new) with
      | .error c => .error c
      | .ok r => Filing.moveRows { r with s := r.s.setMoved die r.x row } die rows

/-- Address of the old bucket at SPLIT. -/
def Ix.splitAt (x : Ix) : Nat := (Fam.of x.cur).base + 64 * x.split

/-- Move the old bucket at SPLIT. -/
def Filing.move (r : Filing) (die : Nat) : Except Nat Filing :=
  match r.s.chain r.x 9 r.x.splitAt with
  | none => .error 6
  | some ch =>
    match r.moveRows die (ch.flatMap (·.ids)) with
    | .error c => .error c
    | .ok r =>
      let head := ch.headD ⟨0, 0, 0, []⟩
      .ok { r with s := r.s.putBucket die { head with fl := head.fl ||| 1, link := 0, ids := [] }
                   x := { r.x with split := r.x.split + 1 } }

/-- IXREHASH moves one bucket of a table in REHASH; after the last the table is LIVE (R218, R223). -/
def State.ixMove (s : State) (die d : Nat) : IxOut :=
  match (Filing.mk s (s.ix d) 0 0).move die with
  | .error c => .fault c
  | .ok r =>
    let left := r.x.left
    let x := if left = 0 then { r.x with cur := r.x.new, new := 0, split := 0, st := 1 } else r.x
    .done left (r.hi != 0) (r.s.putIx die d x)

/-! What an operation of the unit reads (R55, R169, R226). -/

/-- The lines of a chain, as far as its buckets are well formed. -/
def State.chainReads (s : State) (x : Ix) : Nat → Nat → List (Nat × Nat)
  | 0, _ => []
  | k + 1, a => (a, 64) :: (match s.bucket x a with
    | some b => if b.link = 0 then [] else s.chainReads x k (x.ovbase + 64 * (b.link - 1))
    | none => [])

/-- The key row, and the chains that its hash names under a family. -/
def State.rowReads (s : State) (x : Ix) (f : Fam) (row : Nat) : List (Nat × Nat) :=
  x.keyRow f row :: (match s.keyHash x f row with
    | some hs => hs.zipIdx.flatMap fun p => s.chainReads x 9 (f.bucketAt p.2 p.1)
    | none => [])

/-- What IXINS or IXDEL of a row reads. -/
def State.onRowReads (s : State) (d row : Nat) : List (Nat × Nat) :=
  let x := s.ix d
  (d, 96) :: s.rowReads x x.fam row
    ++ (if x.st = 2 then (x.mbmp + row / 8, 1) :: s.rowReads x (Fam.of x.cur) row else [])

/-- What a moved bucket reads: its chain, and the key row, the bit and the chains of every row in it. -/
def State.moveReads (s : State) (d : Nat) : List (Nat × Nat) :=
  let x := s.ix d
  let rows := ((s.chain x 9 x.splitAt).getD []).flatMap (·.ids)
  (d, 96) :: s.chainReads x 9 x.splitAt ++ rows.flatMap fun row => (x.mbmp + row / 8, 1) :: s.rowReads x (Fam.of x.new) row

/-- What a probe of a vector reads: every bucket of the chains it consults. -/
def State.probeReads (s : State) (d : Nat) (x : Ix) (cs : List (Fam × Nat × Nat)) : List (Nat × Nat) :=
  (d, 96) :: cs.flatMap fun q => s.chainReads x 9 (q.1.bucketAt q.2.1 q.2.2)

/-! Probing (R224, R225). -/

/-- A probe record. -/
structure Probe where
  table : Word
  inp   : Word
  list  : Word
  cap   : Nat
  bad   : Bool
deriving DecidableEq, Repr

/-- A probe record from its 256 bits, with the limits that need no table. -/
def Probe.of (v : Nat) : Probe :=
  let table := va48 (bitsOf v 47 0)
  let list := va48 (bitsOf v 175 128)
  { table, inp := va48 (bitsOf v 111 64), list, cap := bitsOf v 207 192,
    bad := bitsOf v 63 48 != 0 || bitsOf v 127 112 != 0 || bitsOf v 191 176 != 0 || bitsOf v 255 208 != 0
      || table.toNat % 256 != 0 || list.toNat % 4 != 0 || bitsOf v 207 192 == 0 }

/-- Alignment of the input: the element container of the family's format. -/
def Fam.align (f : Fam) : Nat := if f.fmt ≤ 1 ∨ f.fmt = 5 ∨ f.fmt = 6 then 1 else 2

/-- The chains that a probe consults: of CUR those not yet moved, and of NEW in REHASH. -/
def Ix.consulted (x : Ix) (xs : Option (List (Int × Int))) : List (Fam × Nat × Nat) :=
  let c := Fam.of x.cur
  let old := ((c.hashes xs).zipIdx.filter fun p => x.st ≠ 2 || decide (x.split ≤ p.2 * 2 ^ c.kb + p.1)).map fun p =>
    (c, p.2, p.1)
  if x.st = 2 then old ++ ((Fam.of x.new).hashes xs).zipIdx.map fun p => (Fam.of x.new, p.2, p.1) else old

/-- An ID joins an ascending list once. -/
def insertId (i : Nat) : List Nat → List Nat
  | [] => [i]
  | j :: r => if i < j then i :: j :: r else if i = j then j :: r else j :: insertId i r

/-- The candidate set in ascending order and the lines read; none for a malformed chain (R225, R226). -/
def State.candidateSet (s : State) (x : Ix) (xs : Option (List (Int × Int))) : Option (List Nat × List Nat) :=
  ((x.consulted xs).mapM fun q => s.chainOf x q.1 q.2.1 q.2.2).map fun chs =>
    (chs.foldl (fun ids ch => ch.foldl (fun ids b => b.ids.foldl (fun l i => insertId i l) ids) ids) [],
      chs.flatMap fun ch => ch.map fun b => lineOf b.addr)

/-- A die observes lines. -/
def State.observeLines (s : State) (die : Nat) (ls : List Nat) : State :=
  ls.foldl (fun (s : State) l => s.observe die l) s

/-! Creation (R218, R219). -/

/-- Zero whole lines: lines that hold anything are written, and poison and reservations go (R218). -/
def State.zeroRange (s : State) (pa n : Nat) : State :=
  let hit (a : Nat) : Bool := decide (pa ≤ a) && decide (a < pa + n)
  let lines := ((s.mem.filter fun c => hit c.1).map fun c => lineOf c.1).eraseDups
  let s := lines.foldl (fun (s : State) l => s.unitWrite (homeDie pa) (l * 64) (List.replicate 64 0)) s
  { s with poison := s.poison.filter (fun l => !hit (l * 64))
           threads := s.threads.map fun p => match p.2.resv with
             | some r => if hit (r.line * 64) then (p.1, { p.2 with resv := none }) else p
             | none => p }

/-- A run of bytes lies in the memory of one die. -/
def onDie (die pa n : Nat) : Bool := inMemory pa n && homeDie pa == die

/-- A family record breaks its limits, for a table of a die (R216, R219). -/
def famBad (die : Nat) (f : Fam) : Bool :=
  f.kb == 0 || decide (24 < f.kb) || f.fam != 0 || f.fmt == 2 || (decide (7 ≤ f.fmt) && decide (f.fmt ≤ 10)) || decide (14 ≤ f.fmt)
    || (decide (11 ≤ f.fmt) && f.d % 16 != 0) || !onDie die f.base (64 * f.buckets)

/-- A template of IXCREATE breaks its limits (R219). -/
def tableBad (die v : Nat) : Bool :=
  let x := Ix.of v
  let f := Fam.of x.cur
  let keep : Ix := { x with st := 0, ovnext := 0, ndrop := 0, nevict := 0, split := 0, new := 0 }
  keep.image != v || x.ovp == 3 || x.nrows == 0 || decide (2 ^ 28 < x.nrows) || x.kstride % 64 != 0 || famBad die f
    || decide (x.kstride < f.bytes) || !inMemory x.keybase ((x.nrows - 1) * x.kstride + f.bytes)
    || !(x.ovcap == 0 || onDie die x.ovbase (64 * x.ovcap)) || !onDie die x.mbmp (ceilDiv x.nrows 8)

/-- IXCREATE completes: buckets zero, the descriptor written, the table LIVE. -/
def State.ixCreated (s : State) (d : Nat) (image : List Byte) : State :=
  let f := Fam.of (Ix.of (leNat image)).cur
  let s := (s.zeroRange f.base (64 * f.buckets)).unitWrite (homeDie d) d image
  { s with tables := d :: s.tables.erase d }

/-- IXFAMILY completes: NEW, its buckets and the bitmap zero, the table in REHASH. -/
def State.ixFamilied (s : State) (d : Nat) (fam : BitVec 128) : State :=
  let x := s.ix d
  let f := Fam.of fam.toNat
  let s := (s.zeroRange f.base (64 * f.buckets)).unitWrite (homeDie d) x.mbmp (List.replicate (ceilDiv x.nrows 8) 0)
  s.putIx (homeDie d) d { x with new := fam.toNat, st := 2, split := 0 }

/-! What the instructions share (R389, R391). -/

/-- INDEX_FAULT (R230). -/
def State.ixFault (s : State) (code pa : Nat) : Out := s.unitFault 31 code pa
/-- INDEX_FAULT code 5: mtval names the probe record. -/
def State.probeFault (s : State) (va : Word) : Out := s.trap 31 va 5

/-- A descriptor operand of an index instruction, 256-byte aligned, once the thread's stores have performed (R160). -/
def State.withTable (s : State) (chg : Bool) (va : Word) (f : Nat → Out) : Out :=
  s.withObject chg va 256 fun d =>
    if va.toNat % 256 ≠ 0 then s.ixFault 8 d else if !s.drained s.cur then s.stall else f d

/-- The table is LIVE or in REHASH. -/
def Ix.ready (x : Ix) : Bool := x.st == 1 || x.st == 2

/-- The unit's result becomes the instruction's. -/
def State.ixEnd (s : State) (rd : Reg) (d : Nat) (r : IxOut) : Out :=
  match r with
  | .fault c => s.ixFault c d
  | .done v p t => (if p then t.post t.cur 24 true else t).ret rd (word v)

/-- Bytes of a thread's operand, or why not: the scalar fault (cause, address, mtrapx), or a wait. -/
def State.operandBytes (s : State) (need : Need) (cs : Causes) (va : Word) (n : Nat) : Except Place (List (Nat × Nat)) :=
  (lineChunks va n).mapM fun c =>
    match s.place need cs (word c.1) 1 (need == .read) (need == .write) with
    | .mem pa => if s.atomicWaits s.cur pa c.2.2 then .error .wait else .ok (pa, c.2.2)
    | .dev pa => .error (.bad cs.acc (word c.1) (accessInfo pa false false))
    | p => .error p

/-- A place that stops an instruction. -/
def State.stopAt (s : State) (p : Place) : Out :=
  match p with | .bad c v i => s.trap c v i | _ => s.stall

/-- Bytes at their homes. -/
def State.gather (s : State) (ps : List (Nat × Nat)) : List Byte := ps.flatMap fun p => Memory.readList s.mem p.1 p.2

/-- Lines that the unit is about to own (start, number): a write to them is still on its way, or something else owns or pins
one of them. -/
def State.rangesWait (s : State) (rs : List (Nat × Nat)) : Bool :=
  rs.any fun r =>
    ((List.range 4).any fun d => s.pendingTo d (r.1 * 64) (r.2 * 64))
      || (s.ops.any fun p => match p.2 with
        | some o => (o.owns.any fun q => overlaps q.1 q.2 r.1 r.2) || o.pins.any fun l => overlaps l 1 r.1 r.2
        | none => false)
      || s.clusters.any fun p => p.2.jobs.any fun j => match j.stw with
        | some pa => overlaps (lineOf pa) 1 r.1 r.2
        | none => false

/-- The unit accepts an operation on descriptor `d` and owns the descriptor and the lines that the Awl units zero for it
(R169, R218, R391). -/
def State.acceptIx (s : State) (rd : Reg) (d : Nat) (zeroed : List (Nat × Nat)) (op : UnitOp) : Out :=
  let owns := (lineOf d, 4) :: zeroed
  if s.rangesWait owns then s.stall else s.accept rd owns op

/-- Lines of a family's bucket array, and of the bitmap. -/
def Fam.lines (f : Fam) : Nat × Nat := (lineOf f.base, f.buckets)
def Ix.bitmapLines (x : Ix) : Nat × Nat :=
  (lineOf x.mbmp, lineOf (x.mbmp + ceilDiv x.nrows 8 - 1) + 1 - lineOf x.mbmp)

/-- A record operand of `n` bytes, for the unit of descriptor `d`: translated, then read. -/
def State.withRecord (s : State) (va : Word) (n : Nat) (f : Nat → Out) : Out :=
  match s.operandBytes .read loadCauses va n with
  | .error p => s.stopAt p
  | .ok ps => f (leNat (s.gather ps))

/-- The word that IXSTAT returns (R398). -/
def Ix.stat (x : Ix) (sel : Nat) : Nat :=
  let c := Fam.of x.cur
  match sel with
  | 0 => x.st + 4 * x.ovp + 2 ^ 4 * (c.l - 1) + 2 ^ 8 * c.kb + 2 ^ 32 * x.left
  | 1 => x.ndrop + 2 ^ 32 * x.nevict
  | 2 => x.ovnext + 2 ^ 32 * x.ovcap
  | _ => 0

/-- Write bytes at their homes for a thread, with its die's clock. -/
def State.scatter (s : State) (tid : Nat) (ps : List (Nat × Nat)) (bytes : List Byte) : State :=
  (ps.foldl (fun (r : State × List Byte) p =>
    ((r.1.homeWrite tid p.1 (r.2.take p.2)).stampLine (lineOf p.1) (r.1.die (dieOf tid)).clock, r.2.drop p.2)) (s, bytes)).1

/-! What the Eyelet unit does with an operation, for the executing thread (R218 to R226). -/

/-- IXCREATE with a template (R218, R219). -/
def State.ixCreate (s : State) (rd : Reg) (d : Nat) (va : Word) (v : Nat) : Out :=
  s.withReads d va [(d, 96)] <|
    if (s.ix d).ready then s.ixFault 8 d
    else if tableBad (homeDie d) v then s.ixFault 3 d
    else s.acceptIx rd d [(Fam.of (Ix.of v).cur).lines] (.ixcreate d (leBytes 256 (v + 1)))

/-- IXFAMILY with a family record (R218, R219). -/
def State.ixFamily (s : State) (rd : Reg) (d : Nat) (va : Word) (v : Nat) : Out :=
  s.withReads d va [(d, 96)] <|
    let x := s.ix d
    let f := Fam.of v
    let c := Fam.of x.cur
    if x.st = 2 then s.ixFault 4 d
    else if x.st ≠ 1 then s.ixFault 1 d
    else if famBad (homeDie d) f then s.ixFault 3 d
    else if f.fmt ≠ c.fmt ∨ f.d ≠ c.d then s.ixFault 4 d
    else s.acceptIx rd d [f.lines, x.bitmapLines] (.ixfamily d (BitVec.ofNat 128 v))

/-- An operation on one row (codes 1 and 2 of R230). -/
def State.onRow (s : State) (rd : Reg) (d : Nat) (va : Word) (row : Nat) (op : Nat → Nat → Nat → IxOut) : Out :=
  s.withReads d va [(d, 96)] <|
    let x := s.ix d
    if !x.ready then s.ixFault 1 d
    else if x.nrows ≤ row then s.ixFault 2 d
    else s.withReads d va (s.onRowReads d row) (s.ixEnd rd d (op (dieOf s.cur) d row))

/-- The next `k` moves of a table as it stands: what they read up to the first that faults, and its code. -/
def State.tryMoves (s : State) (die d : Nat) : Nat → List (Nat × Nat) × Option Nat
  | 0 => ([], none)
  | k + 1 =>
    if (s.ix d).st ≠ 2 then ([], none)
    else match s.ixMove die d with
      | .fault c => (s.moveReads d, some c)
      | .done _ _ t => let r := t.tryMoves die d k; (s.moveReads d ++ r.1, r.2)

/-- IXREHASH of `n` buckets (R223): the unit accepts it when none of its moves would fault, so that a fault leaves the table
unchanged (R230, R389), and settles the number of buckets. -/
def State.ixRehash (s : State) (rd : Reg) (d : Nat) (va : Word) (n : Nat) : Out :=
  s.withReads d va [(d, 96)] <|
    let x := s.ix d
    let k := min (min n 256) x.left
    let m := s.tryMoves (dieOf s.cur) d k
    if !x.ready then s.ixFault 1 d
    else if k = 0 then s.ret rd (word x.left)
    else s.withReads d va m.1 <|
      match m.2 with
      | some c => s.ixFault c d
      | none => s.send d none va (.moving k false)

/-- An accepted IXREHASH, operation `id`, `k` buckets before its end (R223, R226): one bucket moves, whole, and other
operations may come before the next. It returns the old buckets still to move; c24 posts after a drop, an eviction or a new
overflow bucket. -/
def State.ixMoving (s : State) (rd : Reg) (id d : Nat) (va : Word) (k : Nat) (ov : Bool) : Out :=
  if (s.ix d).st ≠ 2 ∨ k = 0 then s.ixEnd rd d (.done (s.ix d).left ov s)
  else s.withReads d va (s.moveReads d) <|
    match s.ixMove (dieOf s.cur) d with
    | .fault c => s.ixFault c d
    | .done left p t =>
      if k = 1 then s.ixEnd rd d (.done left (ov || p) t)
      else .next (t.setOp id ((t.op? id).map fun o => { o with op := .sent d none va (.moving (k - 1) (ov || p)) }))

/-- IXPROBE of a record at `va` for the table at `d` (R224, R225): the IDs are at their homes before it returns. -/
def State.probeAt (s : State) (rd : Reg) (d : Nat) (va : Word) (v : Nat) : Out :=
  let r := Probe.of v
  s.withReads d r.table [(d, 96)] <|
    let x := s.ix d
    let f := Fam.of x.cur
    if !x.ready then s.ixFault 1 d
    else if r.inp.toNat % f.align ≠ 0 then s.probeFault va
    else match s.operandBytes .read loadCauses r.inp f.bytes with
      | .error p => s.stopAt p
      | .ok ins =>
        let xs := f.elems (s.gather ins)
        s.withReads d r.table (s.probeReads d x (x.consulted xs)) <|
          match s.candidateSet x xs with
          | none => s.ixFault 6 d
          | some (ids, lines) =>
            let n := min ids.length r.cap
            match s.operandBytes .write storeCauses r.list (4 * n) with
            | .error p => s.stopAt p
            | .ok out =>
              let t := (s.observeLines (dieOf s.cur) lines).scatter s.cur out ((ids.take n).flatMap (leBytes 4))
              let t := if xs.isNone then t.updMe (·.mergeFlags fNAN) else t
              t.ret rd (word (n + (if r.cap < ids.length then 2 ^ 63 else 0)))

/-- An operation at the Eyelet unit of descriptor `d`; `id` is its number where it has one. -/
def State.atEyelet (s : State) (rd : Reg) (id d : Nat) (va : Word) (q : SentOp) : Out :=
  match q with
  | .ins row => s.onRow rd d va row s.ixIns
  | .del row => s.onRow rd d va row s.ixDel
  | .rehash n => s.ixRehash rd d va n
  | .moving k ov => s.ixMoving rd id d va k ov
  | .create v => s.ixCreate rd d va v
  | .family v => s.ixFamily rd d va v
  | .probe v => s.probeAt rd d va v
  | .stat sel => s.withReads d va [(d, 96)] (s.ret rd (word ((s.ix d).stat sel)))
  | _ => s.stall

/-! The scalar instructions (R389, R391, R397, R398). -/

/-- The descriptor of an index instruction that its unit holds up behind an accepted operation on the same table (R391). -/
def State.heldUpAt (s : State) (chg : Bool) (va : Word) : Option Nat :=
  if s.ovtHolds s.cur || !s.drained s.cur || va.toNat % 256 != 0 then none
  else match s.xlateMe (if chg then .write else .read) va with
    | .ok pa =>
      if s.unitBusy pa none && region pa == .memory && (s.homeErr (dieOf s.cur) true pa).isNone
        && !s.pathHolds (dieOf s.cur) pa && !s.atomicWaits s.cur pa 256 then some pa else none
    | .error _ => none

/-- An index instruction goes to the Eyelet unit of its descriptor: at once, or behind what holds its table up. `rec` reads
what the instruction takes with it. -/
def State.onTable (s : State) (chg : Bool) (rd : Reg) (va : Word) (rec : Nat → (SentOp → Out) → Out) : Out :=
  match s.me.wait with
  | .sent id => s.resume id (s.atEyelet rd id)
  | _ =>
    match s.heldUpAt chg va with
    | some d => rec d (s.send d none va)
    | none => s.withTable chg va fun d => rec d (s.atEyelet rd 0 d va)

/-- IXCREATE (R218, R219). -/
def execIxcreate (rd rs1 rs2 : Reg) (s : State) : Out :=
  let t := s.rd rs2
  match s.me.wait with
  | .accepted id _ => s.awaitOp rd id
  | _ => s.onTable true rd (s.rd rs1) fun d k =>
    s.withRecord t 256 fun v => if t.toNat % 64 ≠ 0 then s.ixFault 3 d else k (.create v)

/-- IXFAMILY (R218, R219). -/
def execIxfamily (rd rs1 rs2 : Reg) (s : State) : Out :=
  let t := s.rd rs2
  match s.me.wait with
  | .accepted id _ => s.awaitOp rd id
  | _ => s.onTable true rd (s.rd rs1) fun d k =>
    s.withRecord t 16 fun v => if t.toNat % 16 ≠ 0 then s.ixFault 3 d else k (.family v)

/-- INDEX_ZEROING_COMPLETE (R391): the unit finishes an accepted IXCREATE or IXFAMILY; its writes wait for a retraining
window of its die (R52). An operation at the unit whose thread has ended goes on (R227). -/
def execIndexZeroingComplete (s : State) : Out :=
  let waits (d : Nat) : Bool := (s.die (homeDie d)).window.isSome
  let id := s.ev.idx
  match s.op? id with
  | some o => (match o.op with
    | .ixcreate d image => .next (if waits d then s else (s.setOp id none).ixCreated d image)
    | .ixfamily d fam => .next (if waits d then s else (s.setOp id none).ixFamilied d fam)
    | .sent _ none _ _ => .next (s.onBehalf id o fun s => s.resume id (s.atEyelet 0 id))
    | _ => .next s)
  | none => .next s

/-- IXINS (R221). -/
def execIxins (rd rs1 rs2 : Reg) (s : State) : Out := s.onTable true rd (s.rd rs1) fun _ k => k (.ins (s.rd rs2).toNat)
/-- IXDEL (R222). -/
def execIxdel (rd rs1 rs2 : Reg) (s : State) : Out := s.onTable true rd (s.rd rs1) fun _ k => k (.del (s.rd rs2).toNat)
/-- IXREHASH (R223). -/
def execIxrehash (rd rs1 rs2 : Reg) (s : State) : Out := s.onTable true rd (s.rd rs1) fun _ k => k (.rehash (s.rd rs2).toNat)
/-- IXSTAT (R398). -/
def execIxstat (rd rs1 rs2 : Reg) (s : State) : Out := s.onTable false rd (s.rd rs1) fun _ k => k (.stat (s.rd rs2).toNat)

/-- IXPROBE (R224, R225). -/
def execIxprobe (rd rs1 : Reg) (s : State) : Out :=
  let va := s.rd rs1
  match s.me.wait with
  | .sent id => s.resume id (s.atEyelet rd id)
  | _ =>
    if va.toNat % 32 ≠ 0 then s.probeFault va
    else if !s.drained s.cur then s.stall
    else s.withRecord va 32 fun v =>
      let r := Probe.of v
      if r.bad then s.probeFault va
      else match s.heldUpAt false r.table with
        | some d => s.send d none va (.probe v)
        | none => s.withObject false r.table 256 fun d => s.probeAt rd d va v

end Sys2Proof.Machine
end

