-- ==== Sys2Proof/Machine/Matrix.lean ====
section
/-! DEFINITION. Matrix operations on a Cupola thread: configuration, acceptance and its checks, what an operation does when
it completes, status and fence, accumulator rows and their owners (R139, R140, R145, R193, R194, R350 to R368). -/

namespace Sys2Proof.Machine

/-! Configuration (R350, R351). -/

def mcfgKg (m : BitVec 9) : Nat := 256 * 2 ^ (m.extractLsb' 0 2).toNat
def mcfgCm (m : BitVec 9) : Nat := 2 ^ (m.extractLsb' 2 2).toNat
def mcfgCn (m : BitVec 9) : Nat := 2 ^ (m.extractLsb' 4 1).toNat
def mcfgBase (m : BitVec 9) : Nat := (m.extractLsb' 5 4).toNat
def mcfgP (m : BitVec 9) : Nat := mcfgCm m * mcfgCn m

/-- A cluster's core by its number. -/
def clusterCore (tid k : Nat) : Nat := cluOf tid * 32 + k
/-- The engaged cores of a configuration, by number in the cluster. -/
def engaged (m : BitVec 9) : List Nat := (List.range (mcfgP m)).map (mcfgBase m + ·)

/-- The thread is a Cupola thread, or the instruction is illegal (R123, R352). -/
def State.cupolaOnly (s : State) (k : Out) : Out := if isCup s.cur then k else s.illegal

/-- A configuration that MMCFG rejects. -/
def mcfgBad (v : Word) : Bool :=
  let m : BitVec 9 := v.setWidth 9
  v.toNat / 512 != 0 || v.toNat % 4 == 3 || mcfgBase m % mcfgP m != 0 || decide (16 < mcfgBase m + mcfgP m)

/-- MMCFG (R352). -/
def execMmcfg (rd rs1 : Reg) (s : State) : Out :=
  s.cupolaOnly <|
  let v := s.rd rs1
  if mcfgBad v then s.shapeFault 20
  else
    let old := s.me.mcfg
    (s.updMe fun t => { t with mcfg := v.setWidth 9 }).ret rd (old.setWidth 64)

/-! Operand words (R353). -/

def cHart (c : Word) : Nat := Fld c 2 0
def cHandle (c : Word) : Nat := Fld c 7 3
def cRow (c : Word) : Nat := Fld c 15 8
def cCol (c : Word) : Nat := Fld c 24 16
def cAcc (c : Word) : Bool := c.getLsbD 25
def rRow (a : Word) : Nat := Fld a 7 0
def rCol (a : Word) : Nat := Fld a 16 8
def rRows (a : Word) : Nat := Fld a 24 17 + 1
def rCols (a : Word) : Nat := Fld a 33 25 + 1

/-- Reserved bits of an address word and of a C word. -/
def aWordBad (a : Word) : Bool := Fld a 5 0 != 0 || Fld a 63 48 != 0
def cWordBad (c : Word) : Bool := Fld c 63 26 != 0
def regionBad (a : Word) : Bool := Fld a 63 34 != 0 || decide (256 < rRow a + rRows a) || decide (512 < rCol a + rCols a)

/-! Gather records (R359). -/

def gW (g : Nat) : Word := word (bitsOf g 47 0)
def gX (g : Nat) : Word := word (bitsOf g 111 64)
def gList (g : Nat) : Word := word (bitsOf g 175 128)
def gCnt (g : Nat) : Nat := bitsOf g 223 192
def gCap (g : Nat) : Nat := bitsOf g 239 224

/-- The part of check 28 that needs the record alone. -/
def gatherBad (g : Nat) : Bool :=
  bitsOf g 63 48 != 0 || bitsOf g 127 112 != 0 || bitsOf g 191 176 != 0 || bitsOf g 511 240 != 0
    || bitsOf g 5 0 != 0 || bitsOf g 69 64 != 0 || bitsOf g 129 128 != 0
    || !canonical (gW g) || !canonical (gX g) || !canonical (gList g) || decide (gCap g < gCnt g) || gCap g == 0

/-! What an operation is. -/

/-- Function codes of the operations (R352). -/
def fIssue : Nat := 1
def fSparse : Nat := 2
def fGather : Nat := 3
def fRet : Nat := 4
def fZero : Nat := 5
def fScale : Nat := 6

/-- A shape as an operand reads it: RO decides nothing there. -/
def Shape.asOperand (sh : Shape) : Shape := { sh with ro := true }

/-- k-block size (R193). -/
def kBlock (b1 b2 kg : Nat) : Nat :=
  if b1 = 0 ∧ b2 = 0 then kg else if b1 = 0 ∨ b2 = 0 then 16 else min b1 b2

/-- Shape of the staging operand (R360, R361). -/
def stageShape (funct : Nat) (m : BitVec 9) (g : Nat) (w st : Shape) : Shape :=
  if funct = fGather then
    { st with ext0 := w.ext1 / mcfgP m, ext1 := ceilDiv (gCap g) (mcfgKg m) * mcfgKg m }
  else { st with ext0 := ceilDiv (gCap g) (mcfgP m), ext1 := w.ext1 }

/-- The depth of an operation, and the two formats' block sizes. -/
def opDepth (funct : Nat) (m : BitVec 9) (g : Nat) (w : Shape) : Nat :=
  if funct = fGather then ceilDiv (gCap g) (mcfgKg m) * mcfgKg m else w.ext1

/-- Rows and columns of the target on one core. -/
structure AccRange where
  row  : Nat
  rows : Nat
  col  : Nat
  cols : Nat
deriving DecidableEq, Repr

/-- The target of an operation; `b` is the B tile's shape. -/
def targetOf (funct : Nat) (m : BitVec 9) (g : Nat) (w x : Shape) (a c : Word) (bcols : Nat) : AccRange :=
  if funct = fZero ∨ funct = fScale then ⟨rRow a, rRows a, rCol a, rCols a⟩
  else if funct = fGather then ⟨cRow c, x.ext0, cCol c, w.ext1 / mcfgP m⟩
  else if funct = fRet then ⟨cRow c, x.ext0, cCol c, ceilDiv (gCap g) (mcfgP m)⟩
  else ⟨cRow c, w.ext0 / mcfgCm m, cCol c, bcols⟩

/-- Row groups of a target (R96, R139). -/
def AccRange.groups (t : AccRange) : List Nat := (List.range 16).filter fun i => t.row < 16 * i + 16 && 16 * i < t.row + t.rows

/-- The rows that an operation in flight writes on a core (R140): first row and number. -/
def UnitOp.rowsOn (core : Nat) : UnitOp → Option (Nat × Nat)
  | .matrix cores funct rec w x a c mcfg _ _ _ =>
    if cores.contains core then
      let t := targetOf funct mcfg rec.toNat w x a c 0
      some (t.row, t.rows)
    else none
  | _ => none

/-- An operation in flight writes some row of a run on a core. -/
def State.rowsBusy (s : State) (core : Nat) (rows : List Nat) : Bool :=
  s.ops.any fun p => match p.2 with
    | some o => (match o.op.rowsOn core with | some (r, n) => rows.any (fun i => r ≤ i && i < r + n) | none => false)
    | none => false

/-! Acceptance (R354, R355). -/

/-- What an instruction's checks give. -/
inductive Accept where
  | ok
  | stall
  | trap (cause : Nat) (tval info : Word)

/-- SHAPE_FAULT of check `n`, with more of mtrapx. -/
def checkFails (n extra : Nat) : Accept := .trap 26 0 (word (n + extra))

/-- Check 22: checks 1 to 4 and 7 to 15 of R334 on an operand, check 11 as for RO = 1. -/
def operandCheck (sh : Shape) (r : Nat) : Option Nat := shapeCheck sh r 0 true true

/-- The tile that the C word names on a core. -/
def State.namedOn (s : State) (core hart h : Nat) : Option (Nat × Tile) :=
  match (s.thread (core * 8 + hart)).handle h with
  | none => none
  | some i => ((s.core core).tile? i).map fun t => (i, t)

/-- The named tiles that exist on the engaged cores. -/
def State.cTiles (s : State) (m : BitVec 9) (c : Word) : List (Nat × Tile) :=
  (engaged m).filterMap fun k => (s.namedOn (clusterCore s.cur k) (cHart c) (cHandle c)).map fun p => (k, p.2)

/-- Check 24. -/
def check24 (funct : Nat) (m : BitVec 9) (w x : Shape) (ts : List Tile) : Bool :=
  if funct = fGather then x.ext1 != w.ext0
  else if funct = fRet then x.ext1 != w.ext1 || w.ext1 % mcfgKg m != 0
  else ts.any (fun t => t.shape.ext1 != w.ext1) || w.ext1 % mcfgKg m != 0

/-- Check 26. -/
def check26 (funct : Nat) (m : BitVec 9) (g : Nat) (w : Shape) (c : Word) (ts : List Tile) : Bool :=
  if funct = fGather then w.ext1 % mcfgP m != 0 || decide (512 - cCol c < w.ext1 / mcfgP m)
  else if funct = fRet then decide (512 - cCol c < ceilDiv (gCap g) (mcfgP m))
  else ts.any fun t => decide (512 - cCol c < t.shape.ext0)

/-- Check 27. -/
def check27 (funct : Nat) (m : BitVec 9) (ts : List Tile) : Bool :=
  match ts with
  | [] => false
  | t0 :: _ => ts.any fun t =>
      t.shape.fmt != t0.shape.fmt || t.shape.awm != t0.shape.awm || t.shape.lgbk != t0.shape.lgbk || t.usable != t0.usable
        || (funct ≤ 2 && (t.shape.ext0 != t0.shape.ext0 || t.shape.ext1 != t0.shape.ext1))
        || decide (layerLanes t.usable t.shape.lgbk < mcfgKg m) || t.shape.raw

/-- The staging operand does not fit a tile (R360, R361). -/
def stageBad (funct : Nat) (m : BitVec 9) (g : Nat) (w : Shape) (t : Tile) : Bool :=
  t.shape.fmt != w.fmt || t.shape.awm != w.awm || t.shape.raw
    || decide (t.nrows < (stageShape funct m g w t.shape).nrows t.usable)

/-- Checks 23 to 28 on shapes and named tiles. -/
def shapeChecks (funct : Nat) (m : BitVec 9) (g : Nat) (w x : Shape) (c : Word) (ts : List Tile) : Option Nat :=
  let gath := decide (3 ≤ funct)
  if (if funct = fIssue then w.spm || w.comp == 2 else if funct = fSparse then !w.spm || w.comp != 0
      else w.spm || w.comp == 2 || x.spm || x.comp == 2) then some 23
  else if check24 funct m w x ts then some 24
  else if (if gath then decide (256 - cRow c < x.ext0)
      else w.ext0 % mcfgCm m != 0 || decide (256 - cRow c < w.ext0 / mcfgCm m)) then some 25
  else if check26 funct m g w c ts then some 26
  else if check27 funct m ts then some 27
  else if gath && ts.any (stageBad funct m g w) then some 28
  else none

/-- Check 29: a group of the target is held by another task; an access that meets a group being zeroed waits (R367). -/
def State.groupsTaken (s : State) (m : BitVec 9) (t : AccRange) : Bool :=
  (engaged m).any fun k => t.groups.any fun i =>
    match Tab.get none (s.core (clusterCore s.cur k)).accOwner i with | some e => e != s.me.gang | none => false
def State.groupsZeroing (s : State) (m : BitVec 9) (t : AccRange) : Bool :=
  (engaged m).any fun k => t.groups.any fun i => (s.core (clusterCore s.cur k)).zeroing.contains i

/-- Check 30: the lowest engaged core without banks of the task, or whose hart runs no thread of it; a thread stopped for a
save still holds its hart (R95). -/
def State.check30 (s : State) (m : BitVec 9) (hart : Option Nat) : Option Nat :=
  (engaged m).find? fun k =>
    let core := clusterCore s.cur k
    !((List.range 64).any fun b => Tab.get none (s.core core).bankOf b = some s.me.gang)
      || (match hart with
          | some h => let t := s.thread (core * 8 + h); !(t.present && t.gang == s.me.gang)
          | none => false)

/-- Step 2: tile states on the engaged cores (R138, R354). -/
def State.tileStates (s : State) (m : BitVec 9) (c : Word) : Accept :=
  (engaged m).foldl (fun r k => match r with
    | .ok =>
      let core := clusterCore s.cur k
      let info (reason i : Nat) : Word := word (reason + 2 ^ 8 * i + 2 ^ 14 * cHandle c + 2 ^ 19 * k)
      match s.namedOn core (cHart c) (cHandle c) with
      | none => .trap 28 0 (info 2 0)
      | some (i, t) =>
        match t.st with
        | .ready => .ok
        | .filling | .draining => .stall
        | .empty => .trap 28 0 (info 1 i)
    | r => r) .ok

/-- The checks from 29 on, and the tile states, once the shapes are right. -/
def State.finalChecks (s : State) (m : BitVec 9) (t : AccRange) (c : Option Word) : Accept :=
  if s.groupsTaken m t then checkFails 29 0
  else match s.check30 m (c.map cHart) with
    | some k => checkFails 30 (2 ^ 19 * k)
    | none =>
      match (match c with | some c => s.tileStates m c | none => .ok) with
      | .ok => if s.groupsZeroing m t || decide (8 ≤ s.me.mmOut.length) then .stall else .ok
      | r => r

/-! Acceptance itself (R354 step 4). -/

/-- Draws that the k-block steps of an operation take from the generator (R185). -/
def stepDraws (funct : Nat) (m : BitVec 9) (g : Nat) (w x b : Shape) : Nat :=
  if funct = fZero then 0
  else if funct = fScale then 262144 * mcfgP m
  else
    let (f1, f2) := if 3 ≤ funct then (w, x) else (w, b)
    if f1.fmt ≤ 2 ∧ f2.fmt ≤ 2 then 0
    else opDepth funct m g w / kBlock (fmtBlock f1.fmt) (fmtBlock f2.fmt) (mcfgKg m) * (262144 * mcfgP m)

/-- The tile fetch unit that feeds a core: four in a cluster (R144, R145, log entry 91). -/
def fetchUnit (core : Nat) : Nat := core / 32 * 4 + core % 4

/-- Lines that a fetch unit holds pinned (R145). -/
def State.pinsOf (s : State) (unit : Nat) : Nat :=
  s.ops.foldl (fun n p => match p.2 with
    | some o => (match o.op with
      | .matrix cores _ _ _ _ _ _ _ _ _ _ => if cores.any (fetchUnit · == unit) then n + o.pins.length else n
      | _ => n)
    | none => n) 0

/-- Elements that an operand packs, as its metadata stands (R144, R333). -/
def State.packed (s : State) (w : Who) (sh : Shape) : Nat :=
  match s.engRead w sh.mdb 4 with | .ok (bs, _) => leNat bs | .error _ => 0

/-- The escapes that the fixed-rate blocks of an operand name (R199, R333). -/
def State.escRuns (s : State) (w : Who) (sh : Shape) : List (Word × Nat) :=
  (List.range (sh.elems / 64)).filterMap fun i =>
    match s.engRead w (sh.base + word (4 * sh.frq * i)) (4 * sh.frq) with
    | .ok (bs, _) => (match frDecode (sh.fmt == 0) (sh.awm + 1) bs with | .esc n => some (sh.escb + word (128 * n), 128) | _ => none)
    | .error _ => none

/-- The runs of memory that an operand's data lie in. -/
def State.operandRuns (s : State) (sh : Shape) : List (Word × Nat) :=
  sh.runs 0 0 (if sh.spm then s.packed s.whoMe sh else 0) ++ if sh.comp = 1 then s.escRuns s.whoMe sh else []

/-- The L2 set of a line: its slice and the set there (R143, R145). -/
def l2SetOf (line : Nat) : Nat × Nat × Nat := (homeDie (line * 64), homeSlice (line * 64), (Config.l2Set line).toNat)

/-- Of some lines those that can be pinned now: at most `room`, and four of a set, those of other operations included (R145). -/
def State.pinnable (s : State) (room : Nat) (ls : List Nat) : List Nat :=
  let others := s.ops.flatMap fun p => match p.2 with | some o => o.pins | none => []
  ls.foldl (fun (got : List Nat) l =>
    if room ≤ got.length || decide (4 ≤ ((others ++ got).filter fun x => l2SetOf x == l2SetOf l).length) then got
    else got ++ [l]) []

/-- Lines that the tile fetch units pin for an operation as it begins: as many as leave each unit within 1,024 and each L2 set
within 4, and none that a command owns. The operation reads the lines beyond those later, when it completes; a gather of no
entries reads none (R145, R354, R362). -/
def State.mmPins (s : State) (cores : List Nat) (g : Nat) (funct : Nat) (w x : Shape) : List Nat :=
  let lines (r : Word × Nat) : List Nat := (lineChunks r.1 r.2).filterMap fun c =>
    match s.engPa s.whoMe .read (word c.1) 1 with | .ok pa => some (lineOf pa) | .error _ => none
  let runs := if funct = fIssue ∨ funct = fSparse then s.operandRuns w
    else if (funct = fGather ∨ funct = fRet) ∧ gCnt g ≠ 0 then
      s.operandRuns w ++ s.operandRuns x ++ [(gList g, 4 * gCnt g)]
    else []
  let held := cores.foldl (fun n c => max n (s.pinsOf (fetchUnit c))) 0
  s.pinnable (1024 - held) ((runs.flatMap lines).eraseDups.filter fun l => !s.owned l)

/-- The translations that an operation pins at its issue (R151). -/
def State.mmPages (s : State) (g : Nat) (funct : Nat) (w x : Shape) : List PagePin :=
  if funct = fIssue ∨ funct = fSparse then s.fillPages w 0 0
  else if (funct = fGather ∨ funct = fRet) ∧ gCnt g ≠ 0 then
    (s.fillPages w 0 0 ++ s.fillPages x 0 0 ++ s.engPages s.whoMe .read (gList g) (4 * gCnt g)).eraseDups
  else []

/-- Readers of a tile that were issued before a write of it now (R138): those in flight, but for attention jobs that still
wait for convoys queued before them. -/
def State.readersAhead (s : State) (core i : Nat) (t : Tile) : Bool :=
  decide (((s.cluster (cluOf (core * 8))).jobs.filter fun j =>
    decide (coreOf j.tid = core) && j.qt == i && j.blocks != 0).length < t.rdrs)

/-- Every engaged core's B tile gains a reader, or its staging tile begins to fill; the target groups become the task's. -/
def State.mmEngage (s : State) (m : BitVec 9) (t : AccRange) (c : Option Word) (gath : Bool) : State :=
  (engaged m).foldl (fun (s : State) k =>
    let core := clusterCore s.cur k
    let s := s.updCore core fun x =>
      { x with accOwner := t.groups.foldl (fun o i => Tab.set none o i (some s.me.gang)) x.accOwner }
    match c with
    | none => s
    | some c =>
      match s.namedOn core (cHart c) (cHandle c) with
      | none => s
      | some (i, _) => s.updCore core fun x => x.updTile i fun t =>
          if gath then { t with st := .filling } else { t with rdrs := t.rdrs + 1 }) s

/-- The operation is accepted on every engaged core. -/
def State.mmAccept (s : State) (funct : Nat) (g : Nat) (w x b : Shape) (a c : Word) : State :=
  let m := s.me.mcfg
  let id := s.nextOp
  let cores := (engaged m).map (clusterCore s.cur)
  let t := targetOf funct m g w x a c b.ext0
  let sr := decide (s.me.csr.vround = 4)
  let n := if sr then stepDraws funct m g w x b else 0
  let named := if funct = fZero ∨ funct = fScale then none else some c
  let op : Op := { tid := s.cur, mode := s.me.mode, root := s.me.csr.vptbase, owns := [], pins := s.mmPins cores g funct w x
                   asid := s.me.csr.vasid, pages := s.mmPages g funct w x, gang := s.me.gang
                   tiles := match named with
                     | none => []
                     | some c => cores.map fun k => ((s.namedOn k (cHart c) (cHandle c)).map (·.1)).getD 64
                   op := .matrix cores funct (BitVec.ofNat 512 g) w x a c m s.me.csr.vround s.me.csr.rngctr s.me.csr.rngkey }
  let s := s.mmEngage m t named (decide (funct = fGather ∨ funct = fRet))
  let s := { s with nextOp := id + 1 }.setOp id (some op)
  s.updMe fun t =>
    let t := (t.post 18 false).post 19 false
    { t with mmOut := t.mmOut ++ [id], mmFlt := false, csr := { t.csr with rngctr := t.csr.rngctr + word n } }

/-- What checks give an instruction. -/
def State.mmOutcome (s : State) (r : Accept) (k : State) : Out :=
  match r with
  | .ok => .next k.advance
  | .stall => s.stall
  | .trap c v i => s.trap c v i

/-- MMISSUE and MMSPARSE. -/
def State.mmIssue (s : State) (funct : Nat) (a c : Word) : Out :=
  let m := s.me.mcfg
  if aWordBad a || cWordBad c then s.mmOutcome (checkFails 21 0) s
  else if s.engineWaits then s.stall
  else match s.getRecord a 64 64 with
    | .bad x v i => s.trap x v i
    | .wait => s.stall
    | .ok r s1 =>
      let w := Shape.of r
      match operandCheck w r with
      | some n => s.mmOutcome (checkFails 22 (2 ^ 8 * n)) s
      | none =>
        let ts := (s.cTiles m c).map (·.2)
        match shapeChecks funct m 0 w w c ts with
        | some n => s.mmOutcome (checkFails n 0) s
        | none =>
          let b := match ts with | t :: _ => t.shape | [] => w
          s.mmOutcome (s.finalChecks m (targetOf funct m 0 w w a c b.ext0) (some c))
            (s1.mmAccept funct 0 w.asOperand w.asOperand b a c)

/-- MMGATHER and MMRET. -/
def State.mmGather (s : State) (funct : Nat) (a c : Word) : Out :=
  let m := s.me.mcfg
  if aWordBad a || cWordBad c then s.mmOutcome (checkFails 21 0) s
  else if s.engineWaits then s.stall
  else match s.getRecord a 64 64 with
    | .bad x v i => s.trap x v i
    | .wait => s.stall
    | .ok g s1 =>
      if gatherBad g then s.mmOutcome (checkFails 28 0) s
      else match s1.getRecord (gW g) 64 64, s1.getRecord (gX g) 64 64 with
        | .bad x v i, _ => s.trap x v i
        | _, .bad x v i => s.trap x v i
        | .wait, _ => s.stall
        | _, .wait => s.stall
        | .ok rw s2, .ok rx _ =>
          let w := Shape.of rw
          let x := Shape.of rx
          match operandCheck w rw, operandCheck x rx with
          | some n, _ => s.mmOutcome (checkFails 22 (2 ^ 8 * n + 2 ^ 16)) s
          | none, some n => s.mmOutcome (checkFails 22 (2 ^ 8 * n + 2 ^ 17)) s
          | none, none =>
            if funct = fGather ∧ (7 ≤ w.fmt ∨ 7 ≤ x.fmt) then s.mmOutcome (checkFails 28 0) s
            else match shapeChecks funct m g w x c ((s.cTiles m c).map (·.2)) with
              | some n => s.mmOutcome (checkFails n 0) s
              | none =>
                s.mmOutcome (s.finalChecks m (targetOf funct m g w x a c 0) (some c))
                  (s2.mmAccept funct g w.asOperand x.asOperand w a c)

/-- MMISSUE (R356). -/
def execMmissue (rs1 rs2 : Reg) (s : State) : Out := s.cupolaOnly (s.mmIssue fIssue (s.rd rs1) (s.rd rs2))
/-- MMSPARSE (R358). -/
def execMmsparse (rs1 rs2 : Reg) (s : State) : Out := s.cupolaOnly (s.mmIssue fSparse (s.rd rs1) (s.rd rs2))
/-- MMGATHER (R360). -/
def execMmgather (rs1 rs2 : Reg) (s : State) : Out := s.cupolaOnly (s.mmGather fGather (s.rd rs1) (s.rd rs2))
/-- MMRET (R361). -/
def execMmret (rs1 rs2 : Reg) (s : State) : Out := s.cupolaOnly (s.mmGather fRet (s.rd rs1) (s.rd rs2))

/-- A shape for operations that have none. -/
def noShape : Shape := Shape.of 0

/-- ACCZERO and ACCSCALE. -/
def State.mmRegion (s : State) (funct : Nat) (a c : Word) : Out :=
  if regionBad a then s.mmOutcome (checkFails 21 0) s
  else s.mmOutcome (s.finalChecks s.me.mcfg (targetOf funct s.me.mcfg 0 noShape noShape a c 0) none)
    (s.mmAccept funct 0 noShape noShape noShape a c)

/-- ACCZERO (R363). -/
def execAcczero (rs1 : Reg) (s : State) : Out := s.cupolaOnly (s.mmRegion fZero (s.rd rs1) 0)
/-- ACCSCALE (R363). -/
def execAccscale (rs1 rs2 : Reg) (s : State) : Out := s.cupolaOnly (s.mmRegion fScale (s.rd rs1) (s.rd rs2))

/-- MMSTAT (R364): FLT tells of faults since the previous one. -/
def execMmstat (rd : Reg) (s : State) : Out :=
  s.cupolaOnly <|
  let t := s.me
  let v := word (min 8 t.mmOut.length + 16 * b2n t.mmFltStat + 2 ^ 8 * t.mmLast.toNat + 2 ^ 32 * t.mmDone.toNat)
  (s.updMe fun t => { t with mmFltStat := false }).ret rd v

/-- MMFENCE (R365): it waits, and then takes the pending matrix traps, the first now and the others after it. -/
def execMmfence (s : State) : Out :=
  s.cupolaOnly <|
  if !s.me.mmOut.isEmpty then s.waits
  else match s.me.engTraps.find? (·.mtx) with
    | none => .next s.advance
    | some tr =>
      let s := s.advance
      let s := s.updMe fun t =>
        { t with engTraps := (t.engTraps.erase tr).map fun x => if x.mtx then { x with due := true } else x, frozen := true }
      .next (s.takeException tr s.me.pc)

/-! What an operation computes (R193, R194, R356). -/

/-- An operand in the lanes: values, scale words (none where the format has none), depth, block size. -/
structure Operand where
  vals : Array Int
  scs  : Array Nat
  ext1 : Nat
  bs   : Nat

/-- The operand of lane integers. -/
def Operand.of (sh : Shape) (lanes scales : List Nat) : Operand :=
  { vals := (lanes.map (laneVal sh.fmt (sh.awm + 1))).toArray, scs := scales.toArray, ext1 := sh.ext1, bs := fmtBlock sh.fmt }

/-- Value at row `r`, depth `k`. -/
def Operand.val (o : Operand) (r k : Nat) : Int := o.vals.getD (r * o.ext1 + k) 0
/-- Scale of the block at row `r` that covers depth `k`: none for the NaN scale (R179). -/
def Operand.scale (o : Operand) (r k : Nat) : Option Int :=
  if o.bs = 0 then some 0
  else let w := o.scs.getD ((r * o.ext1 + k) / o.bs) 0; if scaleIsNan w then none else some (scaleExp w)

/-- Σ over a k-block of the products of lane integers. -/
def dotBlock (a b : Operand) (r j k0 n : Nat) : Int :=
  (List.range n).foldl (fun x i => x + a.val r (k0 + i) * b.val j (k0 + i)) 0

/-- One fold of R194: the k-block sum converted, then added. -/
def foldFp (m : Nat) (d1 d2 : Nat) (x : Nat) (sum : Int) (e : Option Int) : Nat × BitVec 8 :=
  let (t, f1) : Nat × BitVec 8 := match e with
    | none => (FP32.nan, fNAN)
    | some e => FP32.ofInt ⟨m, d1⟩ sum e
  let (y, f2) := FP32.add ⟨m, d2⟩ (FP32.read x) (FP32.read t)
  (y, f1 ||| f2)

/-- The k-blocks of one word in ascending order, from block `kb`; `draws` gives the two draws of a block. -/
def foldBlocks (m : Nat) (draws : Nat → Nat × Nat) : Nat → Nat → List (Int × Option Int) → Nat × BitVec 8
  | _, x, [] => (x, 0)
  | kb, x, p :: r =>
    let (y, f) := foldFp m (draws kb).1 (draws kb).2 x p.1 p.2
    let z := foldBlocks m draws (kb + 1) y r
    (z.1, f ||| z.2)

/-- How an operation rounds and draws on one core (R185). -/
structure Rounding where
  mode : Nat
  key  : Word
  ctr  : Word
  p    : Nat
  step : Nat

/-- The two draws of word `w` in k-block step `kb`. -/
def Rounding.draws (r : Rounding) (w kb : Nat) : Nat × Nat :=
  let base := r.ctr + word (kb * r.step + 262144 * r.p + w)
  ((mix r.key base).toNat % 2 ^ 32, (mix r.key (base + 131072)).toNat % 2 ^ 32)

/-- New value of one accumulator word (R356). -/
def mmWord (int acc : Bool) (rd : Rounding) (a b : Operand) (kbs nkb w r j : Nat) (old : BitVec 32) : BitVec 32 × BitVec 8 :=
  let sums := (List.range nkb).map fun kb => dotBlock a b r j (kb * kbs) kbs
  if int then
    let x := sums.foldl (· + ·) (if acc then old.toInt else 0)
    let y := satTo true 32 x
    (BitVec.ofNat 32 y.1, y.2)
  else
    let es := (sums.zipIdx).map fun p =>
      (p.1, match a.scale r (p.2 * kbs), b.scale j (p.2 * kbs) with
        | some x, some y => some (x + y)
        | _, _ => none)
    let y := foldBlocks rd.mode (rd.draws w) 0 (if acc then old.toNat else 0) es
    (BitVec.ofNat 32 y.1, y.2)

def Core.accWord (c : Core) (w : Nat) : BitVec 32 := Tab.get 0 c.acc w
def Core.setAccWord (c : Core) (w : Nat) (v : BitVec 32) : Core := { c with acc := Tab.set 0 c.acc w v }

/-- Write the words of a target by a function of row, column and old value; the flags of all. -/
def Core.mmWrite (c : Core) (t : AccRange) (f : Nat → Nat → BitVec 32 → BitVec 32 × BitVec 8) : Core × BitVec 8 :=
  (List.range t.rows).foldl (fun x r => (List.range t.cols).foldl (fun (x : Core × BitVec 8) j =>
    let w := (t.row + r) * 512 + t.col + j
    let y := f r j (x.1.accWord w)
    (x.1.setAccWord w y.1, x.2 ||| y.2)) x) (c, 0)

/-! Operands read when the operation runs. -/

/-- Rows `r0` to `r0 + n - 1` of an operand, which one core takes: nothing else is read, but for metadata and list (R356,
R366). -/
def State.readRows (s : State) (w : Who) (sh : Shape) (r0 n : Nat) : Except EngErr (Operand × BitVec 8) :=
  (s.fillPart w sh 0 0 r0 n).map fun (x : List Nat × List Nat × BitVec 8 × State) =>
    (Operand.of sh x.1 x.2.1, x.2.2.1)

/-- A tile as an operand. -/
def Tile.operand (t : Tile) (c : Core) : Operand :=
  Operand.of t.shape ((List.range t.shape.elems).map (t.elem c)) ((List.range t.shape.blocks).map (t.scale c))

/-- The list of a gather record, checked (R359 to R361): strictly ascending for MMGATHER, every entry in range. -/
def State.readList (s : State) (w : Who) (g : Nat) (rows : Nat) (asc : Bool) : Except EngErr (List Nat) :=
  match s.engRead w (gList g) (4 * gCnt g) with
  | .error e => .error e
  | .ok (bs, _) =>
    let l := (List.range (gCnt g)).map fun i => leNat (sub bs (4 * i) 4)
    if l.any (fun x => rows ≤ x) || (asc && (l.zip l.tail).any fun p => p.2 ≤ p.1) then .error (.fault (256 * 8) (gList g))
    else .ok l

/-- Raw elements `c0` to `c0 + n - 1` of row `r` of a shape without scales of its own (formats 0 to 6): nothing but the bytes
or the blocks that hold them is read (R199, R366). -/
def State.rawRow (s : State) (w : Who) (sh : Shape) (r c0 n : Nat) : Except EngErr (List Nat) :=
  if sh.comp = 1 then
    let e0 := r * sh.ext1 + c0
    (s.fillBlocks w sh sh.base (e0 / 64) (ceilDiv (e0 + n) 64 - e0 / 64)).map fun x => (x.1.drop (e0 % 64)).take n
  else
    let bit0 := c0 * sh.elemBits
    (s.engRead w (sh.base + word (r * sh.stride + bit0 / 8)) (ceilDiv ((c0 + n) * sh.elemBits) 8 - bit0 / 8)).map fun x =>
      let v := leNat x.1 / 2 ^ (bit0 % 8)
      (List.range n).map fun i => v / 2 ^ (sh.elemBits * i) % 2 ^ sh.elemBits

/-- Raw elements as a lane operand: `ext1` values a row, aligned in groups of 16 along the row for the floating formats. -/
def laneRows (sh : Shape) (ext1 : Nat) (raw : List Nat) : List Nat × List Nat × BitVec 8 :=
  { sh with ext1, comp := 0, spm := false }.convert raw

/-- Values padded with zeros. -/
def padTo (n : Nat) (xs : List Nat) : List Nat := xs ++ List.replicate (n - xs.length) 0

/-- The staging operand of core `p` for MMGATHER: element (j, i) is W(L_i, p·Nc + j) (R360). -/
def State.stageGather (s : State) (w : Who) (sh : Shape) (l : List Nat) (p nc ext1 : Nat) :
    Except EngErr (List Nat × List Nat × BitVec 8) :=
  (l.mapM fun r => s.rawRow w sh r (p * nc) nc).map fun rows =>
    laneRows sh ext1 ((List.range nc).flatMap fun j => padTo ext1 (rows.map fun row => row.getD j 0))

/-- X of MMGATHER: element (r, i) is X(r, L_i). -/
def State.gatherX (s : State) (w : Who) (sh : Shape) (l : List Nat) (ext1 : Nat) :
    Except EngErr (List Nat × List Nat × BitVec 8) :=
  if l.isEmpty then .ok (laneRows sh ext1 (List.replicate (sh.ext0 * ext1) 0))
  else ((List.range sh.ext0).mapM fun r => s.rawRow w sh r 0 sh.ext1).map fun rows =>
    laneRows sh ext1 (rows.flatMap fun row => padTo ext1 (l.map fun i => row.getD i 0))

/-- One row of a shape as lane integers and scale words, with flags. -/
def State.rowLanes (s : State) (w : Who) (sh : Shape) (r : Nat) : Except EngErr (List Nat × List Nat × BitVec 8) :=
  (s.fillPart w sh 0 0 r 1).map fun (x : List Nat × List Nat × BitVec 8 × State) => (x.1, x.2.1, x.2.2.1)

/-- The staging operand of core `p` for MMRET: row t is W row LIST[p·Q + t] (R361). Rows past CNT are free values. -/
def State.stageRet (s : State) (w : Who) (sh : Shape) (l : List Nat) (p q : Nat) :
    Except EngErr (List Nat × List Nat × BitVec 8) :=
  (((l.drop (p * q)).take q).mapM fun r => s.rowLanes w sh r).map fun rows =>
    let n := (q - rows.length) * sh.ext1
    let nb := if fmtBlock sh.fmt = 0 then 0 else (q - rows.length) * (sh.ext1 / fmtBlock sh.fmt)
    let fr (i : Nat) : Nat := (Config.freeWord (s.free + (p + 1) * 2 ^ 33 + i)).toNat
    (rows.flatMap (·.1) ++ (List.range n).map (fun i => fr i % 2 ^ sh.w),
      rows.flatMap (·.2.1) ++ (List.range nb).map (fun i => fr (n + i) % 2 ^ 16), rows.foldl (fun f r => f ||| r.2.2) 0)

end Sys2Proof.Machine
end

