-- ==== Sys2Proof/Machine/Attention.lean ====
section
/-! DEFINITION. Attention jobs on the Lanterns (R197, R198, R231 to R242, R399 to R401): the job card, the numerics, the
states of a job and the scalar instructions. -/

namespace Sys2Proof.Machine

/-! The job card (R232). -/

/-- A card's fields. -/
structure Card where
  seq   : Word
  klo   : Nat
  khi   : Nat
  qpos  : Nat
  nq    : Nat
  d     : Nat
  head  : Nat
  qh    : Nat
  oh    : Nat
  ofmt  : Nat
  qfmt  : Nat
  kfmt  : Nat
  vfmt  : Nat
  qaw   : Nat
  kaw   : Nat
  vaw   : Nat
  exact : Bool
  causal : Bool
  unc   : Bool
  khu   : Nat
  vhu   : Nat
  scale : Nat
  slope : Nat
  wdog  : Nat
  stw   : Word
deriving DecidableEq, Repr

def Card.of (v : Nat) : Card :=
  { seq := va48 (bitsOf v 47 0), klo := bitsOf v 95 64, khi := bitsOf v 127 96, qpos := bitsOf v 159 128,
    nq := bitsOf v 169 160 + 1, d := bitsOf v 183 176 + 1, head := bitsOf v 191 184, qh := bitsOf v 196 192,
    oh := bitsOf v 201 197, ofmt := bitsOf v 203 202, qfmt := bitsOf v 207 204, kfmt := bitsOf v 211 208,
    vfmt := bitsOf v 215 212, qaw := bitsOf v 219 216, kaw := bitsOf v 223 220, vaw := bitsOf v 227 224,
    exact := bitOf v 228, causal := bitOf v 229, unc := bitOf v 230, khu := bitsOf v 239 232, vhu := bitsOf v 247 240,
    scale := bitsOf v 287 256, slope := bitsOf v 319 288, wdog := bitsOf v 351 320, stw := va48 (bitsOf v 431 384) }

/-- An MX format. -/
def isMx (fmt : Nat) : Bool := decide (7 ≤ fmt) && decide (fmt ≤ 10)
/-- A finite FP32 number. -/
def finite32 (x : Nat) : Bool := match FP32.read x with | .fin _ _ _ => true | _ => false

/-- Check 1 of R233 on the fields. -/
def cardBad (v : Nat) : Bool :=
  let c := Card.of v
  bitsOf v 63 48 != 0 || bitsOf v 175 170 != 0 || bitOf v 231 || bitsOf v 255 248 != 0 || bitsOf v 383 352 != 0
    || bitsOf v 1023 432 != 0 || c.seq.toNat % 256 != 0 || decide (c.khi < c.klo) || decide (2 ^ 21 ≤ c.qpos + c.nq)
    || decide (c.d < 16) || c.d % 16 != 0 || ((isMx c.qfmt || isMx c.kfmt || isMx c.vfmt) && c.d % 32 != 0)
    || decide (14 ≤ c.qfmt) || decide (14 ≤ c.kfmt) || decide (14 ≤ c.vfmt) || c.ofmt == 3 || decide (65536 < c.nq * c.d)
    || !finite32 c.scale || !finite32 c.slope || decide (c.wdog < 1024) || c.stw.toNat % 16 != 0

/-- A shape with a format alone. -/
def fmtShape (fmt aw d : Nat) : Shape := { Shape.of 0 with fmt, awm := aw, ro := true, ext0 := 1, ext1 := d }
/-- Bytes of one head's elements, and with their scales (R232). -/
def headElems (fmt aw d : Nat) : Nat :=
  if 11 ≤ fmt then d / 16 * sxBytes fmt else ceilDiv (d * (fmtShape fmt aw d).elemBits) 8
def headBytes (fmt aw d : Nat) : Nat := headElems fmt aw d + (if isMx fmt then ceilDiv d 32 else 0)

/-- The head's K or V as lane integers, scale words and flags (R236). -/
def headLanes (fmt aw d : Nat) (bs : List Byte) : List Nat × List Nat × BitVec 8 :=
  if 11 ≤ fmt then (let p := sxFill fmt (d / 16) bs; (p.1, p.2, 0))
  else
    let sh := fmtShape fmt aw d
    let (ls, sc, fl) := sh.convert (bitElems sh.elemBits d bs)
    if isMx fmt then (ls, (sub bs (headElems fmt aw d) (d / 32)).map fun x => mxScale fmt x.toNat, fl) else (ls, sc, fl)

/-! Numerics (R193, R194, R197, R198). -/

/-- An FP32 value with the flags raised on the way to it. -/
abbrev Fpf := Nat × BitVec 8

def fpfAdd (a b : Fpf) : Fpf := let r := FP32.add RNE (FP32.read a.1) (FP32.read b.1); (r.1, a.2 ||| b.2 ||| r.2)
def fpfSub (a b : Fpf) : Fpf :=
  let r := FP32.add RNE (FP32.read a.1) (FP32.read b.1).negate; (r.1, a.2 ||| b.2 ||| r.2)
def fpfMul (a b : Fpf) : Fpf := let r := FP32.mul RNE (FP32.read a.1) (FP32.read b.1); (r.1, a.2 ||| b.2 ||| r.2)
def fpfDiv (a b : Fpf) : Fpf := let r := FP32.div RNE (FP32.read a.1) (FP32.read b.1); (r.1, a.2 ||| b.2 ||| r.2)
def fpfMax (a b : Fpf) : Fpf := let r := FP32.minmax true a.1 b.1; (r.1, a.2 ||| b.2 ||| r.2)
/-- 2 to the exact difference of two values, rounded once (R197). -/
def fpfExp2 (a b : Fpf) : Fpf :=
  let r := match FP32.read a.1, FP32.read b.1 with
    | .fin n m e, .fin n' m' e' =>
      let k := min e e'
      let x := scaled n m e k - scaled n' m' e' k
      FP32.exp2 RNE (.fin (decide (x < 0)) x.natAbs k)
    | x, y =>
      let d := FP32.add RNE x y.negate
      let r := FP32.exp2 RNE (FP32.read d.1)
      (r.1, d.2 ||| r.2)
  (r.1, a.2 ||| b.2 ||| r.2)

/-- Minus infinity in FP32. -/
def negInf32 : Nat := FP32.sgn true + FP32.infBits

/-- One addition level of a pairwise sum. -/
def pairUp : List Fpf → List Fpf
  | a :: b :: r => fpfAdd a b :: pairUp r
  | l => l
/-- The pairwise sum of at most 64 values. -/
def pairSum (l : List Fpf) : Fpf := ((List.range 6).foldl (fun l _ => pairUp l) l).headD (0, 0)

/-- What a query row keeps (R197), with its key counts and the flags of its probabilities (R187). -/
structure RowAcc where
  m    : Fpf
  hi   : Fpf
  lo   : Fpf
  acc  : List Fpf
  nkey : Nat
  zfl  : Nat
  fl   : BitVec 8
deriving DecidableEq, Repr

def RowAcc.init (d : Nat) : RowAcc :=
  { m := (negInf32, 0), hi := (0, 0), lo := (0, 0), acc := List.replicate d (0, 0), nkey := 0, zfl := 0, fl := 0 }

/-- The keys of one block for one row: their positions, and K and V as operands whose rows are the keys. -/
structure KeyBlock where
  pos : List Nat
  k   : Operand
  v   : Operand
  fl  : BitVec 8

/-- The dot product of query row `r` and key `j` (R193, R194, R236). -/
def qkDot (d : Nat) (q k : Operand) (r j : Nat) : Fpf :=
  let n := kBlock q.bs k.bs d
  foldBlocks 0 (fun _ => (0, 0)) 0 0 ((List.range (d / n)).map fun i =>
    (dotBlock q k r j (i * n) n, match q.scale r (i * n), k.scale j (i * n) with
      | some x, some y => some (x + y)
      | _, _ => none))

/-- The score of a key (R197, R237). -/
def scoreOf (c : Card) (r pos : Nat) (t : Fpf) : Fpf :=
  let dist : Fpf := FP32.ofInt RNE ((c.qpos + r : Nat) - (pos : Int)) 0
  fpfAdd (fpfMul t (c.scale, 0)) (fpfMul (c.slope, 0) dist)

/-- A probability as E4M3 (R197): its bits, flags, and whether it was flushed. -/
def piOf (p : Fpf) : Nat × BitVec 8 × Bool :=
  let v := FP32.read p.1
  if v.cmpLt (.fin false 1 (-9)) then (0, 0, !v.isZero)
  else let r := E4M3.ofFv RNE v; (r.1, r.2, false)
/-- π × 2^9 as an integer (R238); none for a NaN. -/
def piInt (x : Nat) : Option Int :=
  match E4M3.read x with | .fin _ m e => some ((m * 2 ^ (e + 9).toNat : Nat) : Int) | _ => none

/-- One k-block of the P·V sum at head element `d`: keys `js` with their π. Each key's V has the scale word of its own block;
the sum of the block is formed exactly and rounded once (R193, R194, R238, log entry 51). -/
def pvTerm (v : Operand) (d : Nat) (js : List (Nat × Option Int)) : Fpf :=
  let terms := js.map fun j => match v.scale j.1 d, j.2 with
    | some sc, some p => some (p * v.val j.1 d, sc)
    | _, _ => none
  if terms.any (·.isNone) then (FP32.nan, fNAN)
  else
    let xs : List (Int × Int) := terms.filterMap id
    let e := xs.foldl (fun m x => min m x.2) ((xs.headD (0, 0)).2)
    FP32.ofInt RNE (xs.foldl (fun n x => n + x.1 * ((2 ^ (x.2 - e).toNat : Nat) : Int)) 0) (e - 9)

/-- Cut a list into runs of 16. -/
def runs16 {α : Type} : Nat → List α → List (List α)
  | 0, _ => []
  | k + 1, l => if l.isEmpty then [] else l.take 16 :: runs16 k (l.drop 16)

/-- The P·V sum at head element `d` (R194). -/
def pvSum (v : Operand) (d : Nat) (js : List (Nat × Option Int)) : Fpf :=
  (runs16 4 js).foldl (fun (x : Fpf) g => fpfAdd x (pvTerm v d g)) (0, 0)

/-- One key block of one row (R197). -/
def RowAcc.step (a : RowAcc) (c : Card) (q : Operand) (r : Nat) (kb : KeyBlock) : RowAcc :=
  let scores := kb.pos.zipIdx.map fun p => scoreOf c r p.1 (qkDot c.d q kb.k r p.2)
  let m' := scores.foldl fpfMax a.m
  let α : Fpf := if a.m.1 = negInf32 then (0, 0) else fpfExp2 a.m m'
  let ps := scores.map fun x => fpfExp2 x m'
  let pis := ps.map piOf
  let ws : List Fpf := if c.exact then ps else pis.map fun x => ((FP32.ofFv RNE (E4M3.read x.1)).1, x.2.1)
  let l := pairSum ws
  let hi := fpfMul a.hi α
  let lo := fpfMul a.lo α
  let σ := fpfAdd hi l
  let β := fpfSub σ hi
  let lo := fpfAdd lo (fpfAdd (fpfSub hi (fpfSub σ β)) (fpfSub l β))
  let js := pis.zipIdx.map fun p => (p.2, piInt p.1.1)
  let acc := a.acc.zipIdx.map fun p => fpfAdd (fpfMul p.1 α) (pvSum kb.v p.2 js)
  { m := m', hi := σ, lo, acc, nkey := a.nkey + kb.pos.length, zfl := a.zfl + (pis.filter (·.2.2)).length
    fl := pis.foldl (fun f x => f ||| x.2.1) (ps.foldl (fun f p => f ||| p.2) (a.fl ||| kb.fl ||| m'.2)) }

/-- One output element in the card's format (R198). -/
def outFmt (o : Nat) : Fmt := match o with | 1 => FP16 | 2 => BF16 | _ => FP32
def RowAcc.out (a : RowAcc) (o : Nat) : List Fpf :=
  if a.nkey = 0 then a.acc.map fun _ => (0, 0)
  else
    let den := fpfAdd a.hi a.lo
    a.acc.map fun x =>
      let y := fpfDiv x den
      let z := (outFmt o).ofFv RNE (FP32.read y.1)
      (z.1, y.2 ||| z.2)

/-! What a job reads (R234, R236). -/

/-- The job's block numbers with their pinned frames. -/
def Job.blocksOf (j : Job) (c : Card) : List (Nat × Nat) :=
  j.pins.zipIdx.map fun p => (c.klo / 64 + p.2, entFrame p.1.2.toNat)

/-- Surviving positions of block `b` that row `r` uses, with their packed slots. -/
def State.rowKeys (s : State) (c : Card) (r b f : Nat) : List (Nat × Nat) :=
  let surv := (s.frame f).surv
  ((List.range 64).filter fun i => bitOf surv i && decide (c.klo ≤ 64 * b + i) && decide (64 * b + i < c.khi)
    && (!c.causal || decide (64 * b + i ≤ c.qpos + r))).map fun i => (64 * b + i, packedSlot surv i)

/-- Where the head's K and V of a slot lie. -/
def Job.kAt (j : Job) (c : Card) (f i : Nat) : Nat := f + 64 + 64 * j.kbu * i + 64 * c.head * c.khu
def Job.vAt (j : Job) (c : Card) (f i : Nat) : Nat := f + 64 + 64 * j.kbu * 64 + 64 * j.vbu * i + 64 * c.head * c.vhu

/-- The head's data of some slots as an operand, as a core sees them: writes of its die that their home has not applied
included (R163, R208). -/
def State.headOperand (s : State) (core fmt aw d : Nat) (addrs : List Nat) : Operand × BitVec 8 :=
  let hs := addrs.map fun a => headLanes fmt aw d (s.viewBytes core a (headBytes fmt aw d))
  (Operand.of (fmtShape fmt aw d) (hs.flatMap (·.1)) (hs.flatMap (·.2.1)), hs.foldl (fun f h => f ||| h.2.2) 0)

/-- One block for one row; none when the row has no key in it. -/
def State.keyBlock (s : State) (j : Job) (c : Card) (r : Nat) (bf : Nat × Nat) : Option KeyBlock :=
  let ks := s.rowKeys c r bf.1 bf.2
  if ks.isEmpty then none
  else
    let k := s.headOperand (coreOf j.tid) c.kfmt c.kaw c.d (ks.map fun p => j.kAt c bf.2 p.2)
    let v := s.headOperand (coreOf j.tid) c.vfmt c.vaw c.d (ks.map fun p => j.vAt c bf.2 p.2)
    some ⟨ks.map (·.1), k.1, v.1, k.2 ||| v.2⟩

/-- A lane value of a tile at `w` planes in layers from row `r0`; past the tile's rows the spec states none: a free value. -/
def State.tileVal (s : State) (core : Nat) (t : Tile) (w r0 i : Nat) : Nat :=
  let (b, l, r) := t.at_ w r0 i
  if r + w ≤ t.frow + t.nrows then elemOf ((List.range w).map fun k => (s.core core).row b (r + k)) l
  else (Config.freeWord (s.free + i)).toNat % 2 ^ w

/-- The query tile as an operand: row `r` begins at element r·EXT1 of the tile's shape, and the scale words stand above its
data layers (R232, R333, log entry 50). -/
def State.queryOperand (s : State) (core : Nat) (t : Tile) (c : Card) : Operand :=
  let w := fmtPlanes c.qfmt (c.qaw + 1)
  let bs := fmtBlock c.qfmt
  let rows (f : Nat → List Nat) : List Nat := (List.range c.nq).flatMap f
  Operand.of (fmtShape c.qfmt c.qaw c.d)
    (rows fun r => (List.range c.d).map fun k => s.tileVal core t w t.frow (r * t.shape.ext1 + k))
    (if bs = 0 then [] else rows fun r => (List.range (c.d / bs)).map fun b =>
      s.tileVal core t 16 (t.frow + w * t.layers) (r * (t.shape.ext1 / bs) + b))

/-- Rows of the output tile that its elements take: row `r` begins at element r·EXT1 (R232). -/
def outLayers (t : Tile) (c : Card) : Nat :=
  ceilDiv ((c.nq - 1) * t.shape.ext1 + c.d) (layerLanes t.usable t.shape.lgbk)
def outFits (t : Tile) (c : Card) (w : Nat) : Bool := decide (c.d ≤ t.shape.ext1) && decide (w * outLayers t c ≤ t.nrows)

/-- The output elements written into their tile; lanes that hold none keep their bits. -/
def Tile.putOut (t : Tile) (c : Card) (w : Nat) (outs : List Nat) (k : Core) : Core :=
  let e := t.shape.ext1
  let n := outLayers t c * layerLanes t.usable t.shape.lgbk
  t.writeLayers w t.frow (outLayers t c) ((List.range n).map fun i =>
    if i / e < c.nq ∧ i % e < c.d then outs.getD (i / e * c.d + i % e) 0
    else
      let (b, l, r) := t.at_ w t.frow i
      elemOf ((List.range w).map fun j => k.row b (r + j)) l) k

/-- Row `r` after its first `n` key blocks. -/
def State.runRow (s : State) (j : Job) (c : Card) (q : Operand) (r n : Nat) : RowAcc :=
  ((j.blocksOf c).take n).foldl (fun (a : RowAcc) bf =>
    match s.keyBlock j c r bf with
    | none => a
    | some kb => a.step c q r kb) (RowAcc.init c.d)

/-- Lines of the headers, the K and the V that the job's rows use. -/
def State.jobLines (s : State) (j : Job) (c : Card) : List Nat :=
  (j.blocksOf c).flatMap fun bf => lineOf bf.2 :: ((List.range c.nq).flatMap fun r => s.rowKeys c r bf.1 bf.2).flatMap fun p =>
    linesOf (j.kAt c bf.2 p.2) (headBytes c.kfmt c.kaw c.d) ++ linesOf (j.vAt c bf.2 p.2) (headBytes c.vfmt c.vaw c.d)

/-- A read of a key or value line fails (R21, R53, R55, R240). -/
def State.jobReadBad (s : State) (j : Job) (c : Card) : Option HomeErr :=
  (s.jobLines j c).findSome? fun l => s.homeErr (dieOf j.tid) true (l * 64)

/-- A read of the job waits: an earlier command owns a line of it, or its channel retrains (R52, R169). -/
def State.jobReadWaits (s : State) (j : Job) (c : Card) : Bool :=
  (s.jobLines j c).any fun l => s.pathHolds (dieOf j.tid) (l * 64) || s.ownedBefore j.id l

/-- The status record of the job waits: its line is pinned or deferred, or its channel retrains (R52, R145, R378). -/
def State.statusWaits (s : State) (j : Job) : Bool :=
  match j.stw with
  | none => false
  | some pa => s.pathHolds (dieOf j.tid) pa || s.linePinned (lineOf pa) || s.lrDeferred (lineOf pa) noThread || s.ownedBefore j.id (lineOf pa)

/-! The end of a job (R239 to R241). -/

/-- A job of a cluster by number. -/
def Cluster.job? (c : Cluster) (id : Nat) : Option Job := c.jobs.find? (·.id == id)
def Cluster.setJob (c : Cluster) (j : Job) : Cluster := { c with jobs := c.jobs.map fun x => if x.id = j.id then j else x }
/-- Jobs of a thread's task that have not ended. -/
def State.jobList (s : State) (tid : Nat) : List Job :=
  (s.cluster (cluOf tid)).jobs.filter fun j => j.tid == tid && j.gang == (s.thread tid).gang

/-- The status record; a write of it that meets an error at its home is dropped (R239). -/
def State.putStatus (s : State) (j : Job) (st nkey zfl : Nat) : State :=
  match j.stw with
  | none => s
  | some pa =>
    if (s.homeErr (dieOf j.tid) false pa).isSome then s
    else
      let lan := if !j.ran then 0 else if j.st = .replay then 1 - j.lan else j.lan
      let cyc := if j.ran then (Config.freeWord s.free).toNat % 2 ^ 32 else 0
      let v := st + 4 * lan + 8 * b2n j.replayed + 2 ^ 32 * (nkey % 2 ^ 32) + 2 ^ 64 * (zfl % 2 ^ 32) + 2 ^ 96 * cyc
      ({ s with free := s.free + 4 }.homeWrite (noThread + j.tid) pa (leBytes 16 v)).stampLine (lineOf pa) (s.die (dieOf j.tid)).clock

/-- The thread learns of a job's end: batches, counts, traps, and the completion bits with its last job (R241, R400). -/
def Thread.jobEnded (t : Thread) (id st : Nat) (fl : BitVec 8) (tr : Option Trap) (last : Bool) : Thread :=
  let t := (t.leave id).mergeFlags fl
  let t := match st with
    | 0 => { t with atDone := t.atDone + 1 }
    | 1 => { t with atFlt := true, atBad := true, engTraps := t.engTraps ++ tr.toList }
    | _ => { t with atCan := true
                    wait := match t.wait with | .cancelling n => .cancelling (n + 1) | w => w }
  if last then (t.post 20 true).post 21 t.atBad else t

/-- The 20 µs of a pre-emption request count from the completion of the thread's last job (R242). -/
def Thread.jobsOver (t : Thread) (now : Nat) (last : Bool) : Thread := if last && t.prq then { t with prqAt := now } else t

/-- A job ends: status 0 DONE, 1 FAULT, 2 CANCELLED. Its pins and its reader of the query tile go, the output tile is
READY or EMPTY, the record is written, and the completion posts; a job of a task that has ended posts to none. -/
def State.endJob (s : State) (j : Job) (st nkey zfl : Nat) (fl : BitVec 8) (tr : Option Trap) : State :=
  let clu := cluOf j.tid
  let s := s.putStatus j st nkey zfl
  let s := s.updCluster clu fun c => { c with jobs := c.jobs.filter (·.id ≠ j.id) }
  let s := s.updCore (coreOf j.tid) fun c =>
    (c.updTile j.qt fun t => { t with rdrs := t.rdrs - 1 }).updTile j.ot fun t =>
      match st with
      | 0 => { t with st := .ready }
      | 1 => { t with st := .empty, flt := true }
      | _ => { t with st := .empty }
  if !(s.thread j.tid).present || (s.thread j.tid).gang != j.gang then s
  else
    let last := (s.jobList j.tid).isEmpty
    s.updThread j.tid fun t => (t.jobEnded j.id st fl tr last).jobsOver s.now last

/-- Keys used and flushed when a job stops early: `n` key blocks of every row, and one more of the first `r` rows. Where
the query tile has gone with its thread, the flushed keys are a free value. -/
def State.jobCounts (s : State) (j : Job) (n r : Nat) : Nat × Nat × BitVec 8 :=
  let c := Card.of j.card.toNat
  let upTo (i : Nat) : Nat := if i < r then n + 1 else n
  if !j.ran then (0, 0, 0)
  else
    let nkey : Nat := (List.range c.nq).foldl (fun (x : Nat) i =>
      ((j.blocksOf c).take (upTo i)).foldl (fun (x : Nat) bf => x + (s.rowKeys c i bf.1 bf.2).length) x) 0
    let zfl : Nat := match (s.core (coreOf j.tid)).tile? j.qt with
      | none => (Config.freeWord (s.free + 1)).toNat
      | some t =>
        let q := s.queryOperand (coreOf j.tid) t c
        (List.range c.nq).foldl (fun (x : Nat) i => x + (s.runRow j c q i (upTo i)).zfl) 0
    (nkey, zfl, if zfl = 0 then 0 else fLOSS)

/-- The same for a job that waits to replay: where its first attempt stopped is not kept, so the point is free. -/
def State.replayCounts (s : State) (j : Job) : Nat × Nat × BitVec 8 :=
  s.jobCounts j ((Config.freeWord (s.free + 2)).toNat % (j.pins.length + 1))
    ((Config.freeWord (s.free + 3)).toNat % (Card.of j.card.toNat).nq)

/-- The traps of a job that faults (R240, R337). -/
def watchdogTrap (j : Job) : Trap := { cause := 48, tval := 0, info := 0, names := [j.ot] }
def readTrap (j : Job) (e : HomeErr) : Trap :=
  { cause := 51, tval := 0, info := word (engReason (XErr.home 0 e).code + 2 ^ 16 * (j.ot % 64) + e.flag), names := [j.ot] }

/-! Events of the Lanterns (R231, R235, R240). -/

/-- A Lantern runs no job and is not being reset. -/
def Cluster.lanternIdle (c : Cluster) (l : Nat) : Bool :=
  !c.reset.contains l && !c.jobs.any fun j => j.lan == l && j.st == .running
/-- No earlier job of the job's thread is left. -/
def Cluster.contextFree (c : Cluster) (j : Job) : Bool := !c.jobs.any fun x => x.tid == j.tid && decide (x.id < j.id)

/-- The job may start: its Lantern idle with no replay before it, its context free, its thread's earlier convoys retired, and
before it in the queue only jobs whose context is busy with an earlier job (R231). -/
def Cluster.canStart (c : Cluster) (j : Job) : Bool :=
  j.st == .queued && !j.cancel && c.lanternIdle j.lan && c.contextFree j && j.blocks == 0
    && !(c.jobs.any fun x => x.lan == j.lan && x.st == .replay)
    && !((c.jobs.takeWhile (·.id != j.id)).any fun x =>
      x.lan == j.lan && x.st == .queued && !x.cancel && c.contextFree x)

/-- A job named by an event. -/
def State.evJob (s : State) (k : Cluster → Job → Out) : Out :=
  let c := s.cluster s.ev.clu
  match c.job? s.ev.idx with | some j => k c j | none => .next s

/-- LANTERN_JOB_START (R240). -/
def execLanternJobStart (s : State) : Out :=
  s.evJob fun c j =>
    if c.canStart j then .next (s.updCluster s.ev.clu (·.setJob { j with st := .running, ran := true })) else .next s

/-- LANTERN_REPLAY_START (R240). -/
def execLanternReplayStart (s : State) : Out :=
  s.evJob fun c j =>
    if j.st == .replay && !j.cancel && c.lanternIdle j.lan
        && !((c.jobs.takeWhile (·.id != j.id)).any fun x => x.lan == j.lan && x.st == .replay) then
      let s := s.updCluster s.ev.clu (·.setJob { j with st := .running, replayed := true })
      .next (s.updThread j.tid fun t => { t with atRpl := true })
    else .next s

/-- LANTERN_RESET_DONE (R240). -/
def execLanternResetDone (s : State) : Out :=
  .next (s.updCluster s.ev.clu fun c => { c with reset := c.reset.filter (· ≠ s.ev.lane) })

/-- LANTERN_JOB_DONE (R239): every row over its whole key range, the output tile, the record, the completion. -/
def execLanternJobDone (s : State) : Out :=
  s.evJob fun _ j =>
    let c := Card.of j.card.toNat
    let core := coreOf j.tid
    match (s.core core).tile? j.qt, (s.core core).tile? j.ot with
    | some qt, some ot =>
      if j.st ≠ .running ∨ j.cancel ∨ (s.jobReadBad j c).isSome ∨ s.jobReadWaits j c ∨ s.statusWaits j then .next s
      else
        let q := s.queryOperand core qt c
        let rows := (List.range c.nq).map fun r => s.runRow j c q r j.pins.length
        let outs := rows.flatMap (·.out c.ofmt)
        let zfl : Nat := rows.foldl (fun (n : Nat) a => n + a.zfl) 0
        let fl := rows.foldl (fun f a => f ||| a.fl)
          (outs.foldl (fun f x => f ||| x.2) (if zfl = 0 then (0 : BitVec 8) else fLOSS))
        let t := s.updCore core (ot.putOut c (outFmt c.ofmt).width (outs.map (·.1)))
        let t := (s.jobLines j c).foldl (fun (t : State) l => t.observe (dieOf j.tid) l) { t with free := t.free + 2 ^ 36 }
        .next (t.endJob j 0 (rows.foldl (fun n a => n + a.nkey) 0) zfl fl none)
    | _, _ => .next s

/-- LANTERN_WATCHDOG_EXPIRE (R240): the first time the Lantern resets and the job waits for the other one; the second
time the job faults. -/
def execLanternWatchdogExpire (s : State) : Out :=
  s.evJob fun _ j =>
    if j.st ≠ .running ∨ s.statusWaits j then .next s
    else if j.replayed then
      let n := s.jobCounts j s.ev.width s.ev.row
      .next (s.endJob j 1 n.1 n.2.1 n.2.2 (some (watchdogTrap j)))
    else .next (s.updCluster s.ev.clu fun c =>
      { c with jobs := (c.jobs.filter (·.id ≠ j.id)) ++ [{ j with st := .replay, lan := 1 - j.lan }], reset := j.lan :: c.reset })

/-- LANTERN_READ_ERROR (R240). -/
def execLanternReadError (s : State) : Out :=
  s.evJob fun _ j =>
    match s.jobReadBad j (Card.of j.card.toNat) with
    | some e =>
      if j.st ≠ .running ∨ s.statusWaits j then .next s
      else
        let n := s.jobCounts j s.ev.width s.ev.row
        .next (s.endJob j 1 n.1 n.2.1 n.2.2 (some (readTrap j e)))
    | none => .next s

/-- LANTERN_CANCEL_STOP (R240): a cancelled job leaves: a running one at a key-block boundary. -/
def execLanternCancelStop (s : State) : Out :=
  s.evJob fun _ j =>
    if !j.cancel || s.statusWaits j then .next s
    else
      let n := s.jobCounts j s.ev.width 0
      .next (s.endJob j 2 n.1 n.2.1 n.2.2 none)

/-! The scalar instructions (R233, R234, R399 to R401). -/

/-- ATTN issues: the completion bits clear (R241, R399). -/
def State.attnIssues (s : State) : State :=
  let idle := (s.jobList s.cur).isEmpty
  s.updMe fun t =>
    let t := (t.post 20 false).post 21 false
    { t with atFlt := false, atRpl := false, atCan := false, atBad := t.atBad && !idle }

/-- ATTN ends with a check code: no job, and the bits post again at once when no job is outstanding. -/
def State.attnCode (s : State) (rd : Reg) (code : Nat) : Out :=
  let t := s.attnIssues
  let t := if (t.jobList t.cur).isEmpty then t.updMe fun x => (x.post 20 true).post 21 x.atBad else t
  t.ret rd (word code)

/-- Checks 2 to 5 of R233, and the first part of 6. -/
def State.attnCheck (s : State) (c : Card) (q : Sq) : Option Nat :=
  if q.st ≠ 1 then some 2
  else if (if c.unc then q.rlen else q.clen) < c.khi then some 3
  else if 64 * q.kbu < 64 * (c.head + 1) * c.khu ∨ 64 * q.vbu < 64 * (c.head + 1) * c.vhu
      ∨ 64 * c.khu < headBytes c.kfmt c.kaw c.d ∨ 64 * c.vhu < headBytes c.vfmt c.vaw c.d then some 4
  else if s.me.none? ∨ isCup s.cur then some 5
  else if c.oh = c.qh then some 6
  else none

/-- Entries of blocks ⌊KLO / 64⌋ to ⌊(KHI − 1) / 64⌋, in block order (R234). -/
def State.attnPins (s : State) (c : Card) (q : Sq) : List (Nat × Word) :=
  ((List.range (ceilDiv c.khi 64 - c.klo / 64)).map (c.klo / 64 + ·)).map fun b =>
    (q.entryAt b, word (s.entry q b))

/-- The Lantern of the cluster with fewer jobs; none when both queues are full (R231). -/
def Cluster.lantern (c : Cluster) : Option Nat :=
  let n (l : Nat) : Nat := (c.jobs.filter fun j => j.lan == l).length
  if n 0 ≤ n 1 then (if n 0 < 8 then some 0 else none) else (if n 1 < 8 then some 1 else none)

/-- A job is queued (R234); it owns the line of its status record, which ends reservations on it (R169, R378). -/
def State.attnQueue (s : State) (rd : Reg) (card : Nat) (va : Word) (d : Nat) (pins : List (Nat × Word)) (qt ot lan : Nat)
    (stw : Option Nat) : Out :=
  let id := s.nextOp
  let q := s.sq d
  let t := (s.observe (dieOf s.cur) (lineOf d)).attnIssues
  let t := t.updMyCore fun c =>
    (c.updTile ot fun x => { x with st := .filling }).updTile qt fun x => { x with rdrs := x.rdrs + 1 }
  let j : Job := { id, tid := s.cur, card := BitVec.ofNat 1024 card, cardVa := va, st := .queued, lan, replayed := false, pins
                   qt, ot, stw, kbu := q.kbu, vbu := q.vbu, blocks := s.me.vq.length, cancel := false, ran := false
                   gang := s.me.gang, mode := s.me.mode, asid := s.me.csr.vasid
                   vas := if stw.isSome then s.vpages s.me.mode s.me.csr.vptbase (Card.of card).stw 16 else [] }
  let t := (t.takeOwned (stw.toList.map fun a => (lineOf a, 1)))
  let t := { t with nextOp := id + 1 }.updCluster (cluOf s.cur) fun c => { c with jobs := c.jobs ++ [j] }
  (t.updMe fun x => x.join 3 id).ret rd 0

/-- The query tile READY and the output tile free to be written (R138, R233). -/
def State.attnTiles (s : State) (c : Card) (k : Nat → Nat → Tile → Out) : Out :=
  match s.named c.qh with
  | .bad r e => s.tileState r e c.qh
  | .stall => s.stall
  | .ready qt _ =>
    match s.namedDst c.oh with
    | .bad r e => s.tileState r e c.oh
    | .stall => s.stall
    | .ready ot t => k qt ot t

/-- An engine trap that names a tile of the card is due before the ATTN issues (R126). -/
def Thread.attnTrap (t : Thread) (c : Card) (x : Trap) : Bool :=
  x.names.any fun i => t.handle c.qh == some i || t.handle c.oh == some i

/-- Where the status record lies: none for STW = 0. -/
def State.withStatus (s : State) (va : Word) (k : Option Nat → Out) : Out :=
  if va = 0 then k none
  else match s.place .write storeCauses va 1 false true with
    | .mem pa => if s.atomicWaits s.cur pa 16 then s.stall else k (some pa)
    | .dev pa => s.accessFault storeCauses va pa
    | p => s.stopAt p

/-- ATTN with a sound card (R233, R234). -/
def State.attnIssue (s : State) (rd : Reg) (va : Word) (card : Nat) : Out :=
  let c := Card.of card
  s.withObject false c.seq 256 fun d =>
    s.withStatus c.stw fun stw =>
      let q := s.sq d
      match s.attnCheck c q with
      | some n => s.attnCode rd n
      | none =>
        if s.me.engTraps.any (s.me.attnTrap c) then
          (s.updMe fun t => { t with engTraps := t.engTraps.map fun x => if t.attnTrap c x then { x with due := true } else x }).stall
        else s.attnTiles c fun qt ot t =>
          if !outFits t c (outFmt c.ofmt).width then s.attnCode rd 6
          else
            let pins := s.attnPins c q
            s.withReads d c.seq ((d, 80) :: pins.map fun p => (p.1, 8)) <|
            if pins.any fun p => !entV p.2.toNat then s.attnCode rd 7
            else match (s.cluster (cluOf s.cur)).lantern with
              | none => s.stall
              | some lan => if s.me.joinStalls 3 then s.stall else s.attnQueue rd card va d pins qt ot lan stw

/-- ATTN (R399). -/
def execAttn (rd rs1 : Reg) (s : State) : Out :=
  let va := s.rd rs1
  if s.engineWaits then s.stall
  else if va.toNat % 64 ≠ 0 then s.attnCode rd 1
  else match s.operandBytes .read loadCauses va 128 with
    | .error p => s.stopAt p
    | .ok ps =>
      let card := leNat (s.gather ps)
      if cardBad card then s.attnCode rd 1 else s.attnIssue rd va card

/-- ATTNSTAT (R400). -/
def execAttnstat (rd : Reg) (s : State) : Out :=
  let t := s.me
  s.ret rd (word ((s.jobList s.cur).length + 2 ^ 5 * b2n t.atFlt + 2 ^ 6 * b2n t.atRpl + 2 ^ 7 * b2n t.atCan
    + 2 ^ 32 * t.atDone.toNat))

/-- ATTNCANCEL (R401): waiting jobs are cancelled at once, running ones at their next key-block boundary. -/
def execAttncancel (rd rs1 : Reg) (s : State) : Out :=
  let va := s.rd rs1
  match s.me.wait with
  | .cancelling n => if (s.jobList s.cur).any (·.cancel) then s.stall else s.ret rd (word n)
  | _ =>
    if va.toNat % 64 ≠ 0 then s.illegal
    else
      let hit := (s.jobList s.cur).filter fun j => va == 0 || j.cardVa == va
      let wait := hit.filter fun j => j.st ≠ .running
      let run := hit.filter fun j => j.st == .running
      if wait.any s.statusWaits then s.stall else
      let t := wait.foldl (fun (t : State) j =>
        let n := t.replayCounts j
        t.endJob j 2 n.1 n.2.1 n.2.2 none) s
      if run.isEmpty then t.ret rd (word wait.length)
      else
        let t := run.foldl (fun (t : State) j => t.updCluster (cluOf s.cur) (·.setJob { j with cancel := true })) t
        .next (t.updMe fun x => { x with wait := .cancelling wait.length })

end Sys2Proof.Machine
end

