-- ==== Sys2Proof/Machine/VWord.lean ====
section
/-! DEFINITION. Vector words: the fields each form uses, when a word or a convoy is illegal, and the registers and
condition bits a word writes (R110, R114, R190, R251 to R257, R296 to R300, R320 to R330, R369, R371, R402). -/

namespace Sys2Proof.Machine

/-- What a register field names. -/
inductive Use where
  | none | reg | pair | msk
deriving DecidableEq, Repr

/-- How a word uses slot GS: not at all, in place of VB, always (SO = 1), as a memory base (SO = 0), as an amount in place
of IMM, or in place of VA. -/
inductive SlotUse where
  | none | operand | only | base | amount | source
deriving DecidableEq, Repr

/-- The fields a form uses: FN is unused, or whether its value is defined, and `fz` its bits that must be zero; `imm` holds
the IMM bits that may be set; `extra` holds further reasons that the word's own rules give. -/
structure Form where
  fn    : Option Bool := none
  fz    : Nat := 0
  vd    : Use := .none
  va    : Use := .none
  vb    : Use := .none
  slot  : SlotUse := .none
  wa    : Bool := false
  wb    : Bool := false
  wd    : Bool := false
  mask  : Bool := true
  sat   : Bool := false
  imm   : Nat := 0
  extra : List Nat := []
deriving DecidableEq, Repr

/-- Opcode of a vector word. -/
abbrev opOf (w : BitVec 64) : Nat := vwOp w

/-- Effective widths (R252). -/
def effA (v : VWord) (vw : BitVec 12) : Nat := (if v.wo = 1 then v.wa.toNat else (vw.extractLsb' 8 4).toNat) + 1
def effB (v : VWord) (vw : BitVec 12) : Nat := (if v.wo = 1 then v.wb.toNat else (vw.extractLsb' 4 4).toNat) + 1
def effD (v : VWord) (vw : BitVec 12) : Nat := (if v.wo = 1 then v.wd.toNat else (vw.extractLsb' 0 4).toNat) + 1

/-- Reasons from a condition. -/
def why (b : Bool) (r : Nat) : List Nat := if b then [r] else []

/-- A floating-point operand of format code `f` (R254). -/
def fpUse (f : Nat) : Use := if f % 4 = 2 then .pair else .reg

/-- FN bits that the classes A, M, F and L keep at zero (R297, log entry 89). -/
def zeroA : Nat := 12
def zeroM : Nat := 8
def zeroF : Nat := 13
def zeroL : Nat := 14

/-- The forms of rows 0x00 and 0x10 (R302 to R307). -/
def formInt (op : Nat) (v : VWord) : Form :=
  let fn := v.fn.toNat
  let a2 : Form := { fn := some true, fz := zeroA, vd := .reg, va := .reg, wa := true, wd := true, sat := true }
  let a3 : Form := { a2 with vb := .reg, slot := .operand, wb := true }
  let f3 : Form := { a3 with fz := zeroF }
  let m3 : Form := { a3 with fz := zeroM }
  let l3 : Form := { a3 with fz := zeroL, sat := false }
  match op with
  | 0x03 | 0x04 | 0x17 => a2
  | 0x05 | 0x06 | 0x07 | 0x08 | 0x12 | 0x13 => f3
  | 0x09 | 0x0B => m3
  | 0x0A => { m3 with imm := 0x1F }
  | 0x0C | 0x0D | 0x0E | 0x0F => l3
  | 0x10 => { a2 with fz := zeroL, sat := false }
  | 0x15 => { a3 with fn := some (fn < 10), fz := 0, vd := .msk, wd := false, sat := false }
  | 0x18 => { a2 with va := .none, wa := false, imm := 0x7FFF }
  | 0x19 => { a2 with va := .none, wa := false, wb := true, slot := .only }
  | 0x1A | 0x1B => { a2 with fz := zeroF }
  | 0x1E => { a3 with vd := .pair, wd := false }
  | 0x1F => { vd := .reg, wd := true }
  | _ => a3

/-- The forms of VCVT (R310). -/
def formCvt (v : VWord) : Form :=
  let fn := v.fn.toNat
  let f := v.imm.toNat % 4
  let g := v.imm.toNat / 16 % 4
  let base : Form := { fn := some (fn < 11), sat := true }
  let bad (x : Nat) := why (x == 3) 10
  match fn with
  | 0 | 1 => { base with vd := fpUse f, va := .reg, wa := true, imm := 0xF, extra := bad f }
  | 2 | 3 => { base with vd := .reg, va := fpUse f, wd := true, imm := 0xF, extra := bad f }
  | 4 => { base with vd := fpUse f, va := fpUse g, imm := 0x3F, extra := bad f ++ bad g }
  | 5 | 6 => { base with vd := .reg, va := .reg, wa := true, wd := true }
  | 7 => { base with vd := .reg, va := .pair, wd := true }
  | 8 => { base with vd := .pair, va := .reg, wa := true }
  | 9 => { base with vd := fpUse f, va := .pair, imm := 0xF, extra := bad f }
  | 10 => { base with vd := .pair, va := fpUse f, imm := 0xF, extra := bad f }
  | _ => { base with vd := .reg, va := .reg, wa := true, wd := true, imm := 0x3F }

/-- The forms of row 0x20 (R308 to R312). -/
def formMove (op : Nat) (v : VWord) (vw : BitVec 12) : Form :=
  let fn := v.fn.toNat
  let imm := v.imm.toNat
  let a2 : Form := { fn := some (fn < 4), vd := .reg, va := .reg, wa := true, wd := true, sat := true }
  match op with
  | 0x20 | 0x21 => { a2 with fn := some true, fz := zeroF }
  | 0x22 => { a2 with fn := some (fn < 2), imm := 0xF, extra := why (effD v vw < imm % 16 + 1) 7 }
  | 0x23 => a2
  | 0x24 => { vd := .pair, va := .reg }
  | 0x25 => formCvt v
  | 0x26 => { fn := some (fn < 8), vd := .msk, va := .msk, vb := .msk }
  | 0x27 => { vd := .msk, imm := 1 }
  | 0x28 | 0x29 => { vd := .pair, va := .msk }
  | 0x2A | 0x2B => { va := .msk, imm := 0x1F, extra := why (imm % 32 == 0 || 15 < imm % 32) 7 }
  | 0x2C => { mask := false }
  | _ => { va := .reg, slot := .source, wa := v.so == 0, mask := false }

/-- The forms of row 0x30 (R313, R314). -/
def formFp (op : Nat) (v : VWord) : Form :=
  let fn := v.fn.toNat
  let imm := v.imm.toNat
  let u := fpUse fn
  let f2 : Form := { fn := some (fn % 4 ≠ 3), vd := u, va := u, sat := true }
  let f3 : Form := { f2 with vb := u, slot := .operand }
  match op with
  | 0x34 | 0x35 => { f3 with fz := 12, sat := false }
  | 0x37 | 0x39 => { f2 with sat := false }
  | 0x38 | 0x3A => f2
  | 0x3B => { f3 with fz := 12, vd := .msk, sat := false, imm := 7, extra := why (5 ≤ imm % 8) 10 }
  | 0x3C => { f2 with fz := 12, vd := .reg, sat := false }
  | 0x3D => { f3 with vb := .reg }
  | 0x3E => { f3 with fz := 12, sat := false, imm := 3, extra := why (imm % 4 == 3) 10 }
  | _ => f3

/-- The count pair of VCOMPACT and VNZSCAN is even and overlaps neither VA nor VD (R318). -/
def countBad (v : VWord) (dPair : Bool) : Bool :=
  let k := v.vb.toNat / 2
  v.vb.toNat % 2 == 1 || v.va.toNat / 2 == k || v.vd.toNat / 2 == k || (dPair && v.vd.toNat / 2 == k)

/-- The forms of row 0x40 (R315 to R318); the sum of VFRED keeps a saturation record (R188, log entry 117). -/
def formCross (op : Nat) (v : VWord) : Form :=
  let fn := v.fn.toNat
  let imm := v.imm.toNat
  let slide : Form := { vd := .reg, va := .reg, slot := .amount, wd := true, imm := 0x7FFF }
  match op with
  | 0x40 => { fn := some (fn < 9), vd := .pair, va := .reg, wa := true, sat := fn < 2 }
  | 0x41 => { fn := some (fn % 4 ≠ 3), fz := if imm % 4 = 0 then 0 else 12, vd := fpUse fn, va := fpUse fn
              sat := imm % 4 == 0, imm := 3, extra := why (imm % 4 == 3) 10 }
  | 0x42 => { fn := some (fn < 9), vd := .reg, va := .reg, wa := true, wd := true, sat := fn < 2, imm := 1 }
  | 0x43 => { fn := some (fn < 2), vd := .reg, va := .reg, vb := if fn % 2 = 1 then .pair else .reg, wb := fn % 2 == 0
              wd := true }
  | 0x44 | 0x45 | 0x46 => slide
  | 0x47 => { vd := .reg, va := .reg, vb := .reg, wd := true, extra := why (countBad v false) 7 }
  | 0x48 => { vd := .pair, va := .reg, vb := .reg, wa := true, extra := why (countBad v true) 7 }
  | 0x49 => { vd := .pair, va := .msk }
  | 0x4A => { vd := .pair, slot := .amount, imm := 0x7FFF }
  | _ => { mask := false }

/-- Memory options (R253, R322): the option bits a word accepts, and the reasons of the fields. -/
def memOpts (v : VWord) (bits : Nat) (notifies : Bool) : Nat × List Nat :=
  let imm := v.imm.toNat
  (bits, why (notifies && !bitOf imm 7 && imm &&& 0x770 != 0) 7 ++ why (bits &&& 0x700 != 0 && 6 ≤ bitsOf imm 10 8) 9)

/-- The loads and stores of R321. -/
def formLoadStore (op : Nat) (v : VWord) : Form :=
  let fn := v.fn.toNat
  let imm := v.imm.toNat
  let store := decide (0x55 ≤ op)
  let k := if store then op - 0x55 else op - 0x50   -- 0 unit, 1 strided, 2 indexed, 3 segment, 4 first-fault
  let p := bitOf fn 3
  let esz := fn % 4
  let (ob, oe) := memOpts v (if store then 0x7FF0 else 0x7800) store
  let nf := imm % 16 + 1
  let last := v.vd.toNat + (nf - 1) * (if p then 2 else 1) + b2n p
  { fn := some ((!p || esz == 2) && (esz != 3 || k == 0 || k == 4))
    fz := if p then 4 else 0
    vd := if p then .pair else .reg
    vb := if k = 2 then (if bitOf imm 2 then .pair else .reg) else if k = 1 then .reg else .none
    slot := .base, wd := !p, wb := k == 2 && !bitOf imm 2, sat := esz != 3 && !p
    imm := ob + (if k = 2 then 7 else if k = 3 then 15 else 0)
    extra := oe ++ why (k == 1 && 8 ≤ v.vb.toNat) 7 ++ why (k == 3 && 15 < last) 7 }

/-- The forms of row 0x50 (R320 to R330). -/
def formMem (op : Nat) (v : VWord) : Form :=
  let fn := v.fn.toNat
  let imm := v.imm.toNat
  let esz := fn % 4
  let ret := bitOf fn 2
  match op with
  | 0x59 =>
    let tile := bitOf fn 3
    let (ob, oe) := memOpts v (if tile then 0 else 0x67F0) (!tile)
    { fn := some (if tile then fn == 8 else esz != 3), vd := if ret then .reg else .none, va := .reg, vb := .reg
      slot := .base, wa := true, wb := true, wd := ret, imm := ob + 15, extra := oe ++ why (8 < imm % 16) 10 }
  | 0x5A =>
    let (ob, oe) := memOpts v 0x67F0 true
    let u : Use := if esz = 2 then .pair else .reg
    { fn := some (esz == 1 || esz == 2), fz := 8, vd := if ret then u else .none, va := u, vb := .reg
      slot := .base, imm := ob + 15, extra := oe ++ why (5 ≤ imm % 8) 10 ++ why (esz == 2 && bitOf imm 3) 7 }
  | 0x5B | 0x5C => { vd := .reg, slot := .base }
  | 0x5D =>
    let (ob, oe) := memOpts v 0x2700 false
    { fn := some true, fz := 7, va := if bitOf fn 3 then .pair else .reg, slot := .base, wa := !bitOf fn 3, imm := ob
      extra := oe }
  | 0x5E => { fn := some (esz != 3), slot := .base, imm := 0x1800, extra := why (4 ≤ fn) 7 }
  | _ => formLoadStore op v

/-- The forms of row 0x60 (R369 to R371, R402 to R405). -/
def formSide (op : Nat) (v : VWord) : Form :=
  let fn := v.fn.toNat
  match op with
  | 0x60 => { vd := .pair, slot := .only }
  | 0x61 => { va := .pair, slot := .only }
  | 0x62 => { slot := .only }
  | 0x63 => { fn := some true, fz := 3, vd := .pair, va := .pair, vb := .reg, sat := true, imm := 0x1F }
  | 0x64 => { vd := .pair, slot := .only, sat := true }
  | 0x65 => { fn := some true, fz := 8, vd := .pair, va := .reg, slot := .only, wa := fn % 4 < 2
              extra := why (v.va.toNat % 2 == 1) 8 }
  | _ => { vd := .pair, va := .pair, slot := .only }

/-- The forms of row 0x70 (R319). -/
def formCtl (op : Nat) (v : VWord) : Form :=
  match op with
  | 0x70 => { fn := some (v.fn.toNat < 2), mask := false }
  | 0x71 => { slot := .only, imm := 0x7FFF }
  | 0x72 => { mask := false }
  | _ => { mask := false, imm := 0x7FFF }

/-- Whether an opcode is assigned (R256). -/
def opKnown (op : Nat) : Bool :=
  op < 0x2E || (0x30 ≤ op && op < 0x3F) || (0x40 ≤ op && op < 0x4C) || (0x50 ≤ op && op < 0x5F)
    || (0x60 ≤ op && op < 0x68) || (0x70 ≤ op && op < 0x74)

/-- The form of a word. -/
def formOf (op : Nat) (v : VWord) (vw : BitVec 12) : Form :=
  match op / 16 with
  | 0 | 1 => formInt op v
  | 2 => formMove op v vw
  | 3 => formFp op v
  | 4 => formCross op v
  | 5 => formMem op v
  | 6 => formSide op v
  | _ => formCtl op v

/-- Reason 7 of a register field: unused and not zero, or a mask number above 7. -/
def fieldBad (u : Use) (x : Nat) : Bool :=
  match u with
  | .none => x != 0
  | .msk => 8 ≤ x
  | _ => false
def oddBad (u : Use) (x : Nat) : Bool := u == .pair && x % 2 == 1

/-- Reason 7 of SO, GS, VB, VA and IMM by the use of the slot (R253, R255). -/
def slotBad (f : Form) (v : VWord) : Bool :=
  let so := v.so == 1
  match f.slot with
  | .base => so
  | .only => !so
  | .operand => if so then v.vb != 0 else v.gs != 0
  | .source => if so then v.va != 0 else v.gs != 0
  | .amount => if so then v.imm != 0 else v.gs != 0
  | .none => so || v.gs != 0

/-- Reason 7 of the width fields (R252). -/
def widthBad (f : Form) (v : VWord) : Bool :=
  if v.wo = 1 then
    !(f.wa || f.wb || f.wd) || (!f.wa && v.wa != 0) || (!f.wb && v.wb != 0) || (!f.wd && v.wd != 0)
  else v.wa != 0 || v.wb != 0 || v.wd != 0

/-- Every reason for which a word alone is illegal (R257). -/
def wordReasons (op : Nat) (v : VWord) (vw : BitVec 12) : List Nat :=
  if op = 0x7F then [2]
  else if !opKnown op then [1]
  else
    let f := formOf op v vw
    why ((v.mi == 1 && v.mk == 0) || (f.vd == .msk && v.vd.toNat % 8 == 0)) 5
      ++ why ((v.se == 1) != (v.ms != 0) || (v.se == 1 && !f.sat)) 6
      ++ why (fieldBad f.vd v.vd.toNat || fieldBad f.va v.va.toNat || fieldBad f.vb v.vb.toNat || slotBad f v
          || widthBad f v || (!f.mask && (v.mk != 0 || v.mi != 0)) || (f.fn == none && v.fn != 0) || v.fn.toNat &&& f.fz != 0
          || v.imm.toNat &&& (0x7FFF ^^^ f.imm) != 0) 7
      ++ why (oddBad f.vd v.vd.toNat || oddBad f.va v.va.toNat
          || (oddBad f.vb v.vb.toNat && !(f.slot == .operand && v.so == 1))) 8
      ++ why (f.fn == some false) 10 ++ f.extra

/-- The lowest of some reasons. -/
def lowest : List Nat → Option Nat
  | [] => none
  | r :: rs => some (rs.foldl min r)

/-- The lane barriers, which count as cross-lane words: the words that span the whole context, VWAITN, VIXPROBE and VIXHASH
(R117, R300, R329, R402). -/
def barrierWord (w : BitVec 64) : Bool :=
  decide (opOf w / 16 = 4) || opOf w == 0x1E || (decide (0x28 ≤ opOf w) && decide (opOf w ≤ 0x2D)) || opOf w == 0x5D
    || opOf w == 0x64 || opOf w == 0x65

/-- Words that every non-idle bank executes at once: lane barriers, and words that no element of which performs before every
element has been checked or that act in element order: loads, atomics that return, VAMO to a tile, accumulator words, VSQMAP
and VSQPOS (R117, R140, R151, R323, R326, R369, R402; log entry 16). -/
def jointWord (w : BitVec 64) : Bool :=
  let op := opOf w
  barrierWord w || (decide (0x50 ≤ op) && decide (op ≤ 0x54)) || ((op == 0x59 || op == 0x5A) && decide (4 ≤ vwFn w))
    || (decide (0x60 ≤ op) && decide (op ≤ 0x62)) || op == 0x66 || op == 0x67

/-- The groups of R110 that a word counts in. -/
def groupsOf (w : BitVec 64) : List Nat :=
  let g := opOf w / 16
  (if barrierWord w then [4] else []) ++ (if g = 5 ∨ g = 6 ∨ (g = 7 ∧ opOf w ≠ 0x72) then [g] else [])

/-- Words that only a bank in one divergence state may meet (R119). -/
def divergeBad (d : Div) (w : BitVec 64) : Bool :=
  match d with
  | .diverged => barrierWord w || (opOf w == 0x70 && vwFn w == 0)
  | _ => opOf w == 0x70 && vwFn w == 1

/-- The first illegal word of a convoy: its index and lowest reason (R257). -/
def convoyBad (d : Div) (vw : BitVec 12) (n : Nat) : Nat → List Nat → List (BitVec 64) → Option (Nat × Nat)
  | _, _, [] => none
  | k, seen, w :: ws =>
    let gs := groupsOf w
    let rs := wordReasons (opOf w) (VWord.of w) vw ++ why (k == 3 && vwC w) 3
      ++ why (opKnown (opOf w) && gs.any fun g => (g == 7 && 1 < n) || seen.contains g) 4 ++ why (divergeBad d w) 11
    match lowest rs with
    | some r => some (k, r)
    | none => convoyBad d vw n (k + 1) (gs ++ seen) ws

/-- Registers from `v` upward. -/
def regsFrom (v n : Nat) : List Nat := (List.range n).map (v + ·)

/-- The registers a word writes. -/
def destRegs (w : BitVec 64) : List Nat :=
  let op := opOf w
  let v := VWord.of w
  let f := formOf op v 0x777
  let d := v.vd.toNat
  if (0x55 ≤ op ∧ op ≤ 0x58) ∨ op = 0x5C ∨ op / 16 = 7 then []
  else
    let own := match f.vd with
      | .reg => [d]
      | .pair => [d, d + 1]
      | _ => []
    if op = 0x53 then regsFrom d ((v.imm.toNat % 16 + 1) * (if f.vd = .pair then 2 else 1))
    else if op = 0x47 ∨ op = 0x48 then own ++ [v.vb.toNat, v.vb.toNat + 1]
    else own

/-- The word posts condition bit `i` when its convoy retires (R286). -/
def postsBit (i : Nat) (w : BitVec 64) : Bool :=
  ((opOf w == 0x2A || opOf w == 0x2B) && (VWord.of w).imm.toNat % 32 == i) || (i == 25 && opOf w == 0x2C)
    || i == 26 || i == 27

end Sys2Proof.Machine
end

