-- ==== Sys2Proof/Machine/Csr.lean ====
section
/-! DEFINITION. The CSRs: their values, what a write does, and the Zicsr instructions (R104, R112, R115, R116, R148, R149,
R183, R185 to R188, R259 to R263, R272; log entry 7 for the standard machine CSRs). -/

namespace Sys2Proof.Machine

/-- The thread runs on a Cupola core. -/
def State.onCupola (s : State) : Bool := isCup s.cur

/-- Vector CSRs that a Cupola thread has like any other: vxstat, vround, rngkey, rngctr, cb (R259). -/
def cupolaKeeps (a : Nat) : Bool := a == 0x805 || a == 0x80E || a == 0x811 || a == 0x812 || a == 0x813

/-- lmdata: entry IDX of the retired lanes of bank BANK, in ascending order (R148). -/
def State.lmdata (s : State) : Word :=
  let sel := s.me.csr.lmsel.toNat
  match (Tab.get [] s.myCore.retired (sel % 64))[sel / 64]? with
  | some l => word (l + 2 ^ 63)
  | none => 0

/-- lmcnt (R148). -/
def State.lmcnt (s : State) : Word :=
  let b := s.me.csr.lmsel.toNat % 64
  let c := s.myCore
  word ((Tab.get [] c.retired b).length % 1024 + 2 ^ 10 * c.usable b + 2 ^ 22 * b2n (!(Tab.get [] c.marked b).isEmpty))

/-- efffreq (R24, R51): EFF is the clock of the core averaged over the last 10 µs, a droop's stretches, the power cap and the
thermal limits included (log entry 81). -/
def State.efffreq (s : State) : Word :=
  let t := s.target (coreOf s.cur)
  word (s.meanClock (coreOf s.cur) % 4096 + 2 ^ 16 * (t % 4096) + 2 ^ 28 * b2n (decide (t < s.myCore.tgt.toNat)))

/-- mvlcore: the banks that the task holds on this core (R262). -/
def State.mvlcore (s : State) : Word := s.taskBanks.foldl (fun w b => w ||| (1#64 <<< b)) 0

/-- mpctl (R263). -/
def State.mpctl (s : State) : Word := word (b2n s.me.prq + 2 * b2n s.me.frc)

/-- A vector CSR of 0x800 to 0x814 on a thread that is no Cupola thread. -/
def Csrs.vector (c : Csrs) (a : Nat) : Word :=
  match a with
  | 0x800 => c.vl.setWidth 64
  | 0x801 => c.vw.setWidth 64
  | 0x802 => c.vctx.setWidth 64
  | 0x803 => c.vslip.setWidth 64
  | 0x804 => c.vqlim.setWidth 64
  | 0x805 => c.vxstat.setWidth 64
  | 0x80E => c.vround.setWidth 64
  | 0x80F => c.ffst.setWidth 64
  | 0x810 => c.vlive
  | 0x811 => c.rngkey
  | 0x812 => c.rngctr
  | 0x813 => c.cb.setWidth 64
  | 0x814 => c.wcnt
  | _ => (c.fidx[(a - 0x806) % 8]'(Nat.mod_lt _ (by decide))).setWidth 64

/-- A vector CSR of a Cupola thread (R259). -/
def Csrs.cupola (c : Csrs) (a : Nat) : Word :=
  if cupolaKeeps a then c.vector a
  else if a = 0x802 then 0x200
  else if 0x806 ≤ a ∧ a ≤ 0x80D then 0xFFFFFFFF
  else 0

/-- misa: MXL 2, extensions A, C, I, M, U and X (log entry 7). -/
def misaValue : Word := word (2 ^ 63 + 2 ^ 0 + 2 ^ 2 + 2 ^ 8 + 2 ^ 12 + 2 ^ 20 + 2 ^ 23)

/-- The standard machine CSRs and the machine CSRs of R259; none for an address that does not exist. -/
def State.machineCsr (s : State) (a : Nat) : Option Word :=
  let c := s.me.csr
  match a with
  | 0x300 => some (c.mstatus ||| 0x200000000)
  | 0x301 => some misaValue
  | 0x304 | 0x344 => some 0
  | 0x305 => some c.mtvec
  | 0x306 => some 7
  | 0x30A => some 0
  | 0x320 => some c.mcountinhibit
  | 0x340 => some c.mscratch
  | 0x341 => some c.mepc
  | 0x342 => some c.mcause
  | 0x343 => some c.mtval
  | 0x7C0 => some (c.lmsel.setWidth 64)
  | 0x7C1 => some s.lmdata
  | 0x7C2 => some s.lmcnt
  | 0x7C3 => some ((c.vptbase.setWidth 64) <<< 16)
  | 0x7C4 => some (c.vasid.setWidth 64)
  | 0x7C5 => some c.mtrapx
  | 0x7C6 => some s.mpctl
  | 0xB00 => some c.mcycle
  | 0xB02 => some c.minstret
  | 0xF11 => some Config.mvendorid
  | 0xF12 => some Config.marchid
  | 0xF13 => some Config.mimpid
  | 0xF14 => some (word s.cur)
  | 0xF15 => some 0
  | _ =>
    if (0x323 ≤ a ∧ a ≤ 0x33F) ∨ (0xB03 ≤ a ∧ a ≤ 0xB1F) then some 0 else none

/-- The value of a CSR; none for an address that does not exist. -/
def State.csrValue (s : State) (a : Nat) : Option Word :=
  let c := s.me.csr
  if 0x800 ≤ a ∧ a ≤ 0x814 then some (if s.onCupola then c.cupola a else c.vector a)
  else match a with
  | 0xC00 => some c.mcycle
  | 0xC01 => some (word s.now)
  | 0xC02 => some c.minstret
  | 0xCC0 => some (word s.mvl)
  | 0xCC1 => some s.mvlcore
  | 0xCC2 => some (word s.cur)
  | 0xCC3 => some (s.myCore.mapVer.setWidth 64)
  | 0xCC4 => some s.efffreq
  | _ => if 0xC03 ≤ a ∧ a ≤ 0xC1F then some 0 else s.machineCsr a

/-- A read-only address: bits [11:10] are 0b11 (R259). -/
def csrReadOnly (a : Nat) : Bool := decide (a / 1024 = 3)

/-- An address that only M mode reaches: bits [9:8] are not 0, or hpmcounter3 to 31, which mcounteren keeps (R103, R272). -/
def csrMachine (a : Nat) : Bool := decide (a / 256 % 4 ≠ 0) || (decide (0xC03 ≤ a) && decide (a ≤ 0xC1F))

/-- The access raises illegal instruction (R103, R259). -/
def State.csrBad (s : State) (a : Nat) (writes : Bool) : Bool :=
  (s.csrValue a).isNone || (writes && csrReadOnly a) || (csrMachine a && s.me.mode == .u)

/-! Writes. -/

/-- mstatus: MIE, MPIE, MPP (0b01 and 0b10 store 0b00) and TW (R272; log entry 7). -/
def mstatusWrite (v : Word) : Word :=
  (v &&& 0x200088) ||| (if v.extractLsb' 11 2 = 3 then 0x1800 else 0)

/-- vqlim: 1 to 64 (R112). -/
def vqlimWrite (v : Word) : BitVec 7 :=
  let n := Fld v 6 0
  BitVec.ofNat 7 (if n = 0 then 1 else if 64 < n then 64 else n)

/-- vround: 5 to 7 leave it unchanged (R183). -/
def vroundWrite (old : BitVec 3) (v : Word) : BitVec 3 := if Fld v 2 0 < 5 then BitVec.ofNat 3 (Fld v 2 0) else old

/-- cb: c0 reads 1, c28 to c31 read 0, and writes to them are ignored (R115). -/
def cbWrite (v : Word) : BitVec 32 := (v.setWidth 32 &&& 0x0FFFFFFE) ||| 1

/-- Bits of vlive's fields (R261). -/
def vliveMask : Word := 0xFFFFFFFF00FFFFFF

/-- A vector CSR written by a CSR instruction, but for vl, vw and vctx, which have effects of their own. -/
def Csrs.putVector (c : Csrs) (a : Nat) (v : Word) : Csrs :=
  match a with
  | 0x803 => { c with vslip := v.setWidth 4 }
  | 0x804 => { c with vqlim := vqlimWrite v }
  | 0x805 => { c with vxstat := v.setWidth 8 }
  | 0x80E => { c with vround := vroundWrite c.vround v }
  | 0x80F => { c with ffst := v.setWidth 40 }
  | 0x810 => { c with vlive := v &&& vliveMask }
  | 0x811 => { c with rngkey := v }
  | 0x812 => { c with rngctr := v }
  | 0x813 => { c with cb := cbWrite v }
  | 0x814 => { c with wcnt := v }
  | _ => if 0x806 ≤ a ∧ a ≤ 0x80D then
      { c with fidx := c.fidx.set ((a - 0x806) % 8) (v.setWidth 32) (Nat.mod_lt _ (by decide)) }
    else c

/-- A machine CSR written; those without writable bits ignore it. -/
def Csrs.putMachine (c : Csrs) (a : Nat) (v : Word) : Csrs :=
  match a with
  | 0x300 => { c with mstatus := mstatusWrite v }
  | 0x305 => { c with mtvec := v &&& ~~~(3 : Word) }
  | 0x320 => { c with mcountinhibit := v &&& 5 }
  | 0x340 => { c with mscratch := v }
  | 0x341 => { c with mepc := v &&& ~~~(1 : Word) }
  | 0x342 => { c with mcause := v }
  | 0x343 => { c with mtval := v }
  | 0x7C0 => { c with lmsel := v.setWidth 16 }
  | 0x7C3 => { c with vptbase := (v >>> 16).setWidth 30 }
  | 0x7C4 => { c with vasid := v.setWidth 16 }
  | 0x7C5 => { c with mtrapx := v }
  | 0xB00 => { c with mcycle := v }
  | 0xB02 => { c with minstret := v }
  | _ => c

/-- A CSR written. -/
def Thread.putCsr (t : Thread) (cup : Bool) (a : Nat) (v : Word) : Thread :=
  if 0x800 ≤ a ∧ a ≤ 0x814 then
    (if cup && !cupolaKeeps a then t else { t with csr := t.csr.putVector a v })
  else { t with csr := t.csr.putMachine a v }

/-! Setting the vector length, the widths and the context. -/

/-- vl := min(request, mvl, VLC); blocks fetched before no longer write vl (R275, R276). -/
def State.setVl (s : State) (req : Word) : State :=
  let v := min req.toNat (min s.mvl s.me.vlc.toNat)
  s.updMe fun t => { t with epoch := t.epoch + 1, csr := { t.csr with vl := BitVec.ofNat 18 v } }

def State.setVw (s : State) (v : BitVec 12) : State := s.updMe fun t => { t with csr := { t.csr with vw := v } }

/-- VCTX waits for the thread's convoys, held stores and attention jobs (R106, R278). -/
def State.ctxWaits (s : State) : Bool :=
  let t := s.me
  !t.vq.isEmpty || !t.held.isEmpty || s.jobsOf s.cur

/-- A requested context is granted: NONE, or an aligned group of banks that the task holds on the core and no other
thread of it does (R106). -/
def State.ctxOk (s : State) (v : Word) : Bool :=
  let c := v.setWidth 10
  decide (v.toNat < 1024) &&
  (c.getLsbD 9 || (decide (ctxLgn c ≤ 6) && decide (ctxFirst c % 2 ^ ctxLgn c = 0) &&
    (ctxBanks c).all fun b => s.taskBanks.contains b && (s.holders (coreOf s.cur) b).all (· == s.cur)))

/-- The context changes: vctx, and vl clamped to the new mvl (R106). The value is the new mvl, or 0 on failure. -/
def State.setCtx (s : State) (v : Word) : Word × State :=
  if s.ctxOk v then
    let s1 := s.updMe fun t => { t with csr := { t.csr with vctx := v.setWidth 10 } }
    let m := s1.mvl
    (word m, s1.updMe fun t => { t with csr := { t.csr with vl := BitVec.ofNat 18 (min t.csr.vl.toNat m) } })
  else (0, s)

/-! The Zicsr instructions. -/

/-- The source value: x[rs1], or the field itself in the immediate forms. -/
def State.csrSource (s : State) (op : CsrOp) (src : Reg) : Word :=
  match op with
  | .rw | .rs | .rc => s.rd src
  | .rwi | .rsi | .rci => src.setWidth 64

/-- The value that the instruction writes. -/
def csrNew (op : CsrOp) (old v : Word) : Word :=
  match op with
  | .rw | .rwi => v
  | .rs | .rsi => old ||| v
  | .rc | .rci => old &&& ~~~v

/-- A Zicsr instruction: `put` performs the write with the new value; rd takes the old value. A write of minstret takes the
place of the instruction's own count (R272). -/
def State.csrOp (s : State) (op : CsrOp) (rd src : Reg) (a : Nat) (put : Word → State → State) : Out :=
  let w := csrWrites op src
  if s.csrBad a w then s.illegal
  else
    let old := (s.csrValue a).getD 0
    let new := csrNew op old (s.csrSource op src)
    let s1 := if w then put new s else s
    let s2 := (s1.wr rd old).advance
    .next (if w && a == 0xB02 then s2.updMe fun t => { t with csr := { t.csr with minstret := new } } else s2)

/-- Plain storage. -/
def putPlain (a : Nat) (v : Word) (s : State) : State := s.updMe fun t => t.putCsr (isCup s.cur) a v

/-- CSR_ACCESS. -/
def execCsrAccess (op : CsrOp) (rd src : Reg) (csr : BitVec 12) (s : State) : Out :=
  s.csrOp op rd src csr.toNat (putPlain csr.toNat)

/-- On a Cupola thread these writes are ignored (R259). -/
def unlessCupola (f : Word → State → State) (v : Word) (s : State) : State := if s.onCupola then s else f v s

/-- CSR_WRITE_VL (R260): vl as VSETVL sets it. -/
def execCsrWriteVl (op : CsrOp) (rd src : Reg) (s : State) : Out :=
  s.csrOp op rd src 0x800 (unlessCupola fun v s => s.setVl v)

/-- CSR_WRITE_VW (R260): as VSETW. -/
def execCsrWriteVw (op : CsrOp) (rd src : Reg) (s : State) : Out :=
  s.csrOp op rd src 0x801 (unlessCupola fun v s => s.setVw (v.setWidth 12))

/-- CSR_WRITE_VCTX (R104): VCTX with the written value. -/
def execCsrWriteVctx (op : CsrOp) (rd src : Reg) (s : State) : Out :=
  if !s.onCupola && s.ctxWaits then s.waits
  else s.csrOp op rd src 0x802 (unlessCupola fun v s => (s.setCtx v).2)

/-- CSR_WRITE_VQLIM (R112). -/
def execCsrWriteVqlim (op : CsrOp) (rd src : Reg) (s : State) : Out := s.csrOp op rd src 0x804 (putPlain 0x804)

/-- A vector store or atomic that notifies (R167, R322). -/
def notifyWord (w : BitVec 64) : Bool := (storeWord w || amoWord w) && (VWord.of w).imm.getLsbD 7

/-- CSR_WRITE_WCNT (R167): waits until every queued NTF word has retired. -/
def execCsrWriteWcnt (op : CsrOp) (rd src : Reg) (s : State) : Out :=
  if !s.onCupola && s.queued s.cur notifyWord then s.stall else s.csrOp op rd src 0x814 (putPlain 0x814)

/-- Convoys of the thread that have not issued (R185): the queue is not empty (log entry 17). -/
def State.unissued (s : State) : Bool := !s.me.vq.isEmpty

/-- CSR_ACCESS_RNG (R185). -/
def execCsrAccessRng (op : CsrOp) (rd src : Reg) (csr : BitVec 12) (s : State) : Out :=
  if s.unissued then s.waits else s.csrOp op rd src csr.toNat (putPlain csr.toNat)

end Sys2Proof.Machine
end

