-- ==== Sys2Proof/Machine/MatrixRun.lean ====
section
/-! DEFINITION. The completion of matrix operations, the zeroing of accumulator groups and the release of pins (R145, R356,
R358, R360 to R363, R365 to R367). -/

namespace Sys2Proof.Machine

/-- A matrix operation in flight, unpacked. -/
structure Mm where
  id    : Nat
  who   : Who
  cores : List Nat
  tiles : List Nat
  funct : Nat
  g     : Nat
  w     : Shape
  x     : Shape
  c     : Word
  m     : BitVec 9
  mode  : Nat
  ctr   : Word
  key   : Word
  a     : Word

/-- The operation with a number, if it is a matrix operation. -/
def State.mm? (s : State) (id : Nat) : Option Mm :=
  match s.op? id with
  | some o => match o.op with
    | .matrix cores funct rec w x a c mcfg mode draw key =>
      some ⟨id, o.who id, cores, o.tiles, funct, rec.toNat, w, x, c, mcfg, mode.toNat, draw, key, a⟩
    | _ => none
  | none => none

/-- An earlier operation on a common core is in flight (R354). -/
def State.mmBehind (s : State) (q : Mm) : Bool :=
  s.ops.any fun p => decide (p.1 < q.id) && (match s.mm? p.1 with
    | some o => o.cores.any q.cores.contains
    | none => false)

/-- The tile that the operation reads or stages on a core: the entry that its C word named at issue. -/
def State.mmTile (s : State) (q : Mm) (core : Nat) : Option (Nat × Tile) :=
  let i := q.tiles.getD (q.cores.idxOf core) 64
  ((s.core core).tile? i).map fun t => (i, t)

/-- What one core does: the core after it, and flags. -/
abbrev Part := Except EngErr (Core × BitVec 8)

/-- Rounding and draws on core `p` in steps of 262,144 × P (R185). -/
def Mm.rounding (q : Mm) (p : Nat) : Rounding := ⟨q.mode, q.key, q.ctr, p, 262144 * mcfgP q.m⟩

/-- Both formats are codes 0 to 2 (R356). -/
def intPair (a b : Nat) : Bool := decide (a ≤ 2) && decide (b ≤ 2)

/-- Whether row `r` of a sparse operand has a bitmap bit over its elements (R358). -/
def State.rowListed (s : State) (w : Who) (sh : Shape) (r : Nat) : Bool :=
  !sh.spm || (match s.engRead w (sh.mdb + 4) (ceilDiv sh.elems 8) with
    | .ok (bs, _) => leNat bs / 2 ^ (r * sh.ext1) % 2 ^ sh.ext1 != 0
    | .error _ => true)

/-- MMISSUE and MMSPARSE on the core at position `p` (R356, R358). -/
def State.issuePart (s : State) (q : Mm) (p core : Nat) : Part :=
  match s.mmTile q core with
  | none => .ok (s.core core, 0)
  | some (_, t) =>
    let mc := q.w.ext0 / mcfgCm q.m
    let r0 := p % mcfgCm q.m * mc
    match s.readRows q.who q.w r0 mc with
    | .error e => .error e
    | .ok (a, fl) =>
      let b := t.operand (s.core core)
      let kbs := kBlock a.bs b.bs (mcfgKg q.m)
      let listed := (List.range mc).map fun r => s.rowListed q.who q.w (r0 + r)
      let r := (s.core core).mmWrite ⟨cRow q.c, mc, cCol q.c, t.shape.ext0⟩ fun r j old =>
        if listed.getD r true then
          mmWord (intPair q.w.fmt t.shape.fmt) (cAcc q.c) (q.rounding p) a b kbs (q.w.ext1 / kbs)
            ((cRow q.c + r) * 512 + cCol q.c + j) r j old
        else (if cAcc q.c then old else 0, 0)
      .ok (r.1, fl ||| r.2)

/-- A staging tile receives its operand and is READY (R359). -/
def Core.stage (c : Core) (i : Nat) (t : Tile) (sh : Shape) (lanes scales : List Nat) : Core :=
  ({ t with shape := sh }.write lanes scales c).updTile i fun t => { t with st := .ready }

/-- MMGATHER on the core at position `p` (R360, R362). -/
def State.gatherPart (s : State) (q : Mm) (p core : Nat) : Part :=
  match s.mmTile q core with
  | none => .ok (s.core core, 0)
  | some (i, t) =>
    let nc := q.w.ext1 / mcfgP q.m
    let sh := stageShape fGather q.m q.g q.w t.shape
    match s.readList q.who q.g q.w.ext0 true with
    | .error e => .error e
    | .ok l =>
      match s.stageGather q.who q.w l p nc sh.ext1, s.gatherX q.who q.x l sh.ext1 with
      | .error e, _ => .error e
      | _, .error e => .error e
      | .ok (bl, bs, bf), .ok (al, as, af) =>
        let c := (s.core core).stage i t sh bl bs
        let a := Operand.of { q.x with ext1 := sh.ext1 } al as
        let b := Operand.of sh bl bs
        let kbs := kBlock a.bs b.bs (mcfgKg q.m)
        let r := c.mmWrite ⟨cRow q.c, q.x.ext0, cCol q.c, nc⟩ fun r j old =>
          if l.isEmpty then (if cAcc q.c then old else 0, 0)
          else mmWord (intPair q.x.fmt sh.fmt) (cAcc q.c) (q.rounding p) a b kbs (sh.ext1 / kbs)
            ((cRow q.c + r) * 512 + cCol q.c + j) r j old
        .ok (r.1, bf ||| af ||| r.2)

/-- MMRET on the core at position `p` (R361, R362). -/
def State.retPart (s : State) (q : Mm) (p core : Nat) : Part :=
  match s.mmTile q core with
  | none => .ok (s.core core, 0)
  | some (i, t) =>
    let n := ceilDiv (gCap q.g) (mcfgP q.m)
    let sh := stageShape fRet q.m q.g q.w t.shape
    match s.readList q.who q.g q.w.ext0 false with
    | .error e => .error e
    | .ok l =>
      match s.stageRet q.who q.w l p n, (if l.isEmpty then .ok (Operand.of q.x [] [], 0)
          else s.readRows q.who q.x 0 q.x.ext0) with
      | .error e, _ => .error e
      | _, .error e => .error e
      | .ok (bl, bs, bf), .ok (a, af) =>
        let c := (s.core core).stage i t sh bl bs
        let b := Operand.of sh bl bs
        let kbs := kBlock a.bs b.bs (mcfgKg q.m)
        let r := c.mmWrite ⟨cRow q.c, q.x.ext0, cCol q.c, n⟩ fun r j old =>
          if p * n + j < l.length then
            mmWord (intPair q.x.fmt sh.fmt) (cAcc q.c) (q.rounding p) a b kbs (q.w.ext1 / kbs)
              ((cRow q.c + r) * 512 + cCol q.c + j) r j old
          else (if cAcc q.c then old else 0, 0)
        .ok (r.1, bf ||| af ||| r.2)

/-- ACCZERO and ACCSCALE on the core at position `p` (R363). -/
def State.regionPart (s : State) (q : Mm) (p core : Nat) : Part :=
  .ok ((s.core core).mmWrite ⟨rRow q.a, rRows q.a, rCol q.a, rCols q.a⟩ fun r j old =>
    if q.funct = fZero then (0, 0)
    else
      let w := (rRow q.a + r) * 512 + rCol q.a + j
      let y := FP32.mul ⟨q.mode, ((q.rounding p).draws w 0).1⟩ (FP32.read old.toNat) (FP32.read (Fld q.c 31 0))
      (BitVec.ofNat 32 y.1, y.2))

/-- What one core does. -/
def State.mmPart (s : State) (q : Mm) (p core : Nat) : Part :=
  if q.funct = fZero ∨ q.funct = fScale then s.regionPart q p core
  else if q.funct = fGather then s.gatherPart q p core
  else if q.funct = fRet then s.retPart q p core
  else s.issuePart q p core

/-- A poisoned line or memory error: it concerns one core alone (R366). -/
def EngErr.isMem : EngErr → Bool
  | .fault info _ => bitOf info 62
  | .metadata | .hold => false

/-- The trap of a failed operation (R366): the core's number, and bit 26 for A, W, X or the list. -/
def EngErr.mmTrap (e : EngErr) (core : Nat) : Trap :=
  match e with
  | .fault info va => { cause := 51, tval := va, info := word (info + 2 ^ 22 * (core % 16) + 2 ^ 26), mtx := true }
  | .hold => { cause := 51, tval := 0, info := word (2 ^ 22 * (core % 16) + 2 ^ 26), mtx := true }
  | .metadata => { cause := 27, tval := 0, info := word (256 * 9 + 2 ^ 22 * (core % 16) + 2 ^ 26), mtx := true }

/-- The words of a core that an error leaves undefined: free values (R366). -/
def Core.mmUndefined (c : Core) (t : AccRange) (n : Nat) : Core :=
  (c.mmWrite t fun r j _ => ((Config.freeWord (n + (t.row + r) * 512 + t.col + j)).setWidth 32, 0)).1

/-- A tile goes back: a B tile loses a reader, a staging tile becomes READY (R365); one that received nothing holds what
it held. -/
def Core.mmRelease (c : Core) (q : Mm) (i : Nat) : Core :=
  if q.funct = fGather ∨ q.funct = fRet then
    c.updTile i fun t => if t.st = .filling then { t with st := .ready } else t
  else c.updTile i fun t => { t with rdrs := t.rdrs - 1 }

/-- Every tile of the operation goes back (R365). -/
def State.mmReleaseAll (s : State) (q : Mm) : State :=
  if q.funct = fZero ∨ q.funct = fScale then s
  else q.cores.foldl (fun (s : State) core => match s.mmTile q core with
    | some (i, _) => s.updCore core fun c => c.mmRelease q i
    | none => s) s

/-- Columns of the B tile on a core. -/
def State.mmCols (s : State) (q : Mm) (core : Nat) : Nat :=
  match s.mmTile q core with | some (_, t) => t.shape.ext0 | none => 0

/-- A part of the operation meets a line that it has to wait for (R52, R169). -/
def State.mmWaits (s : State) (q : Mm) : Bool :=
  q.cores.zipIdx.any fun p => match s.mmPart q p.2 p.1 with | .error .hold => true | _ => false

/-- The cores after the operation, and its flags. A failure that concerns no single core writes nothing. -/
def State.mmResult (s : State) (q : Mm) : State × BitVec 8 × Option Trap :=
  let parts := q.cores.zipIdx.map fun p => (p.1, s.mmPart q p.2 p.1)
  let bad := parts.findSome? fun p => match p.2 with
    | .error e => if e.isMem then none else some (e.mmTrap p.1)
    | .ok _ => none
  match bad with
  | some tr => (s, 0, some tr)
  | none =>
    parts.foldl (fun (r : State × BitVec 8 × Option Trap) p =>
      match p.2 with
      | .ok (c, fl) => (r.1.setCore p.1 c, r.2.1 ||| fl, r.2.2)
      | .error e =>
        let t := targetOf q.funct q.m q.g q.w q.x q.a q.c (s.mmCols q p.1)
        (r.1.updCore p.1 fun c => c.mmUndefined t (s.free + 2 ^ 38 + 131072 * p.1), r.2.1,
          match r.2.2 with | some t => some t | none => some (e.mmTrap p.1))) (s, 0, none)

/-- The Cupola thread learns of it: status, flags, c18 and c19 in one post (R364, R365). -/
def Thread.mmPost (t : Thread) (id : Nat) (fl : BitVec 8) (tr : Option Trap) : Thread :=
  let t := t.mergeFlags fl
  let t := { t with mmOut := t.mmOut.erase id }
  let t := match tr with
    | some tr => { t with mmFlt := true, mmFltStat := true, mmLast := BitVec.ofNat 8 tr.cause, engTraps := t.engTraps ++ [tr] }
    | none => { t with mmDone := t.mmDone + 1 }
  if t.mmOut.isEmpty then (t.post 18 true).post 19 (t.mmFlt || t.csr.cb.getLsbD 19) else t

/-- A staging tile still has readers that were issued before the operation: they read the old rows (R138). -/
def State.mmReaders (s : State) (q : Mm) : Bool :=
  decide (q.funct = fGather ∨ q.funct = fRet) && q.cores.any fun core => match s.mmTile q core with
    | some (i, t) => s.readersAhead core i t
    | none => false

/-- MATRIX_OP_COMPLETE (R365): operations on a core perform in acceptance order; one whose thread has ended leaves
nothing that another task could see (R367, R368). -/
def execMatrixOpComplete (s : State) : Out :=
  match s.mm? s.ev.idx with
  | none => .next s
  | some q =>
    if s.mmBehind q || s.mmReaders q then .next s
    else if !(s.thread q.who.tid).mmOut.contains q.id then .next ((s.mmReleaseAll q).setOp q.id none)
    else if s.mmWaits q then .next s
    else
      let (s1, fl, tr) := s.mmResult q
      let s2 := s1.mmReleaseAll q
      .next (({ s2 with free := s2.free + 2 ^ 40 }.setOp q.id none).updThread q.who.tid fun t => t.mmPost q.id fl tr)

/-- PIN_RELEASE (R145): the operation has consumed every plane of the line, which it keeps; waiting writes proceed. -/
def execPinRelease (s : State) : Out :=
  match s.op? s.ev.idx with
  | none => .next s
  | some o =>
    if o.pins.contains s.ev.addr then
      .next (s.setOp s.ev.idx (some { o with pins := o.pins.erase s.ev.addr
                                             kept := (s.ev.addr, BitVec.ofNat 512 (s.viewNum (coreOf o.tid) (s.ev.addr * 64) 64)) :: o.kept }))
    else .next s

/-- ACCUMULATOR_GROUP_ZERO (R367). -/
def execAccumulatorGroupZero (s : State) : Out :=
  if (s.core s.ev.core).zeroing.contains s.ev.idx then
    .next (s.updCore s.ev.core fun c =>
      { c with acc := c.acc.filter (fun p => decide (p.1 / 8192 ≠ s.ev.idx)), zeroing := c.zeroing.filter (· ≠ s.ev.idx) })
  else .next s

end Sys2Proof.Machine
end

