-- ==== Sys2Proof/Machine/Scalar.lean ====
section
/-! DEFINITION. The scalar extension (R273 to R295): vector length, contexts, dispatch, draining, reading results,
condition bits, branches, system instructions, and the system instructions of the base set (R272). -/

namespace Sys2Proof.Machine

/-- An instruction that a Cupola core does not have raises illegal instruction there (R123). -/
def State.notOnCupola (s : State) (k : Out) : Out := if s.onCupola then s.illegal else k

/-- A machine instruction raises illegal instruction in U mode (R103). -/
def State.machineOnly (s : State) (k : Out) : Out := if s.me.mode = .u then s.illegal else k

/-! Vector length and widths (R275). -/

/-- A pending pre-emption request stops the thread before a strip boundary performs (R95, R107). -/
def State.stripStop (s : State) : Bool := s.me.prq && s.me.mode == .u

/-- The strip watermark at a strip boundary: T grows by the new vl, saturating, and the thread stalls until the progress
word has reached it (R348). -/
def State.stripCheck (s : State) : State :=
  s.updMe fun t => match t.water with
    | none => t
    | some w => { t with water := some { w with
        bound := word (min (2 ^ 63 - 1) (w.bound.toNat + t.csr.vl.toNat)), hold := true } }

/-- The new vl as a register value. -/
def State.vlWord (s : State) : Word := s.me.csr.vl.setWidth 64

/-- VSETVL (R275). -/
def execVsetvl (rd rs1 : Reg) (s : State) : Out :=
  s.notOnCupola <|
  if s.stripStop then .next (s.updMe fun t => { t with stopNow := true })
  else
    let s1 := s.setVl (s.rd rs1)
    s1.stripCheck.ret rd s1.vlWord

/-- VSETVLI (R275). -/
def execVsetvli (rd rs1 : Reg) (w : BitVec 12) (s : State) : Out :=
  s.notOnCupola <|
  if s.stripStop then .next (s.updMe fun t => { t with stopNow := true })
  else
    let s1 := (s.setVl (s.rd rs1)).setVw w
    s1.stripCheck.ret rd s1.vlWord

/-- VSETW (R275). -/
def execVsetw (rd rs1 : Reg) (s : State) : Out :=
  s.notOnCupola <|
  let w : BitVec 12 := (s.rd rs1).setWidth 12
  (s.setVw w).ret rd (w.setWidth 64)

/-! Contexts, slip and live state (R277 to R280). -/

/-- VCTX (R106, R278). -/
def execVctx (rd rs1 : Reg) (s : State) : Out :=
  s.notOnCupola <|
  if s.ctxWaits then s.waits
  else
    let r := s.setCtx (s.rd rs1)
    r.2.ret rd r.1

/-- VSLIP (R279). -/
def execVslip (rd rs1 : Reg) (s : State) : Out :=
  s.notOnCupola <|
  let n := min 15 (s.rd rs1).toNat
  (s.updMe fun t => { t with csr := { t.csr with vslip := BitVec.ofNat 4 n } }).ret rd (word n)

/-- VLIVE (R280). -/
def execVlive (rd rs1 rs2 : Reg) (s : State) : Out :=
  s.notOnCupola <|
  let old := s.me.csr.vlive
  let new := ((old &&& ~~~(s.rd rs2)) ||| (s.rd rs1 &&& s.rd rs2)) &&& vliveMask
  (s.updMe fun t => { t with csr := { t.csr with vlive := new } }).ret rd old

/-! Dispatch (R281, R112). -/

/-- Convoys of a block from an address to its VSTOP, counted up to the size of the queue; none where a word cannot be
fetched or the block is longer. -/
def State.countConvoys (s : State) (tid : Nat) (mmode : Bool) : Nat → Word → Option Nat
  | 0, _ => none
  | k + 1, va =>
    match s.vecWord tid mmode va with
    | none => none
    | some w =>
      if vwOp w = 0x70 ∧ !vwC w then some 1
      else (s.countConvoys tid mmode k (va + 8)).map fun n => if vwC w then n else n + 1

/-- Words that 65 convoys hold at most. -/
def queueWords : Nat := 260

/-- The convoys in the vector queue; none while the last block's VSTOP is not in it (R112). -/
def State.queueCount (s : State) (tid : Nat) : Option Nat :=
  let t := s.thread tid
  match t.vq with
  | [] => some 0
  | b :: rest =>
    let starts := if t.banks.isEmpty then [b.addr]
      else t.banks.map fun k => if k.2.div = .joined then k.2.pc else k.2.rejoin
    let head := starts.foldl (fun (m : Option Nat) a => match m, s.countConvoys tid b.mmode queueWords a with
      | some m, some n => some (max m n)
      | _, _ => none) (some 0)
    rest.foldl (fun (m : Option Nat) b => match m, s.countConvoys tid b.mmode queueWords b.addr with
      | some m, some n => some (m + n)
      | _, _ => none) head

/-- The queue takes no further block (R112). -/
def State.queueFull (s : State) : Bool :=
  match s.queueCount s.cur with
  | none => true
  | some n => s.me.csr.vqlim.toNat ≤ n

/-- The snapshot of a VFETCH (R108). -/
def Thread.snap (t : Thread) : Snap :=
  { g := Vector.ofFn fun i => t.getX (BitVec.ofNat 5 (10 + i.val)), vl := t.csr.vl, vw := t.csr.vw
    vround := t.csr.vround, vslip := t.csr.vslip, vctx := t.csr.vctx }

/-- VFETCH (R281). -/
def execVfetch (rs1 : Reg) (off : BitVec 12) (s : State) : Out :=
  s.notOnCupola <|
  let a := s.rd rs1 + sext12 off
  if a.toNat % 8 ≠ 0 ∨ s.me.none? then s.illegal (a &&& 0xFFFFFFFFFFFF)
  else if s.queueFull || s.me.svMark != 0 then s.stall
  else .next (s.updMe fun t => { t with
    vq := t.vq ++ [{ addr := a, snap := t.snap, epoch := t.epoch, mmode := t.mode == .m }] }).advance

/-! Ordering and draining (R282). -/

/-- Accesses of the named kinds have not all performed at a scope: queued, held, or stored and not yet visible there. -/
def State.drainWaits (s : State) (kinds : BitVec 3) (scope : Nat) : Bool :=
  let t := s.me
  (kinds.getLsbD 0 && s.queued s.cur loadWord)
    || (kinds.getLsbD 1 && (s.queued s.cur storeWord || (t.held.any fun h => !h.atomic && !h.elems.isEmpty)
      || !s.flushed s.cur scope))
    || (kinds.getLsbD 2 && (s.queued s.cur amoWord || t.held.any fun h => h.atomic && !h.elems.isEmpty))

/-- VDRAIN (R282). -/
def execVdrain (kinds scope : BitVec 3) (s : State) : Out :=
  s.notOnCupola <|
  if kinds = 0 ∨ scopeBad scope then s.illegal
  else if s.drainWaits kinds scope.toNat then s.waits
  else .next s.advance

/-- Every queued convoy has retired and every VAMOF has merged its flags. -/
def State.vectorIdle (s : State) : Bool := s.me.vq.isEmpty && !(s.me.held.any (·.vamof))

/-- VQDRAIN (R282). -/
def execVqdrain (s : State) : Out :=
  s.notOnCupola <| if s.vectorIdle then .next s.advance else s.waits

/-- SVFENCE (R282): later VFETCHes wait for the stores in the store buffer. -/
def execSvfence (s : State) : Out :=
  s.notOnCupola <| .next (s.updMe fun t => { t with svMark := t.sb.length }).advance

/-! Reading a result (R283). -/

/-- Element 0 of a register of the thread's context, as written. -/
def State.elem0 (s : State) (v : Nat) : Word :=
  let (sgn, ps) := s.myCore.regPlanes (ctxFirst s.me.csr.vctx) v
  let ps := ps.take 16
  let x := elemOf ps 0
  word (if sgn then ofSigned 64 (toSigned ps.length x) else x)

/-- VGET (R283). -/
def execVget (rd : Reg) (vs : BitVec 4) (s : State) : Out :=
  s.notOnCupola <|
  if s.me.none? then s.ret rd 0
  else if s.queued s.cur (fun w => (destRegs w).contains vs.toNat) then s.waits
  else s.ret rd (s.elem0 vs.toNat)

/-- VGET of a pair (R283). -/
def execVgetP (rd : Reg) (vs : BitVec 4) (s : State) : Out :=
  s.notOnCupola <|
  if vs.getLsbD 0 then s.illegal
  else if s.me.none? then s.ret rd 0
  else if s.queued s.cur (fun w => (destRegs w).contains vs.toNat || (destRegs w).contains (vs.toNat + 1)) then s.waits
  else s.ret rd (word (ofSigned 64 (toSigned 32 (elemOf (s.myCore.readPair (ctxFirst s.me.csr.vctx) vs.toNat) 0))))

/-! Condition bits (R284 to R286). -/

/-- CBCMP, CBLOG and CBSETI write a software condition bit; c16 to c27 are illegal as a destination. -/
def State.putCond (s : State) (c : Reg) (v : Bool) : Out :=
  if 16 ≤ c.toNat ∧ c.toNat < 28 then s.illegal
  else .next (s.updMe fun t => t.post c.toNat v).advance

def execCbcmpEq (cd rs1 rs2 : Reg) (s : State) : Out := s.putCond cd (s.rd rs1 == s.rd rs2)
def execCbcmpNe (cd rs1 rs2 : Reg) (s : State) : Out := s.putCond cd (s.rd rs1 != s.rd rs2)
def execCbcmpLt (cd rs1 rs2 : Reg) (s : State) : Out := s.putCond cd (BitVec.slt (s.rd rs1) (s.rd rs2))
def execCbcmpGe (cd rs1 rs2 : Reg) (s : State) : Out := s.putCond cd (!BitVec.slt (s.rd rs1) (s.rd rs2))
def execCbcmpLtu (cd rs1 rs2 : Reg) (s : State) : Out := s.putCond cd (BitVec.ult (s.rd rs1) (s.rd rs2))
def execCbcmpGeu (cd rs1 rs2 : Reg) (s : State) : Out := s.putCond cd (!BitVec.ult (s.rd rs1) (s.rd rs2))

/-- Condition bit `c` as it stands. -/
def State.cond (s : State) (c : Reg) : Bool := s.me.csr.cb.getLsbD c.toNat

/-- A queued convoy, or a VAMOF whose flags have not merged, will post the bit (R286). -/
def State.condWaits (s : State) (c : Reg) : Bool :=
  let i := c.toNat
  ((decide (1 ≤ i) && decide (i ≤ 15)) || (decide (25 ≤ i) && decide (i ≤ 27))) && s.queued s.cur (postsBit i)
    || ((i == 26 || i == 27) && s.me.held.any (·.vamof))

/-- CBLOG: the sources are interlocked, the destination is not. -/
def State.cblog (s : State) (cd ca cb : Reg) (f : Bool → Bool → Bool) : Out :=
  if 16 ≤ cd.toNat ∧ cd.toNat < 28 then s.illegal
  else if s.condWaits ca || s.condWaits cb then s.waits
  else s.putCond cd (f (s.cond ca) (s.cond cb))

def execCblogAnd (cd ca cb : Reg) (s : State) : Out := s.cblog cd ca cb (· && ·)
def execCblogOr (cd ca cb : Reg) (s : State) : Out := s.cblog cd ca cb (· || ·)
def execCblogXor (cd ca cb : Reg) (s : State) : Out := s.cblog cd ca cb (· != ·)
def execCblogAndn (cd ca cb : Reg) (s : State) : Out := s.cblog cd ca cb fun a b => a && !b

/-- CBGET (R285, R286). -/
def execCbget (rd : Reg) (s : State) : Out :=
  if s.vectorIdle then s.ret rd (s.me.csr.cb.setWidth 64) else s.waits

/-- Bits that CBPUT and CBCLR may write: c1 to c27. -/
def cbSoft : BitVec 32 := 0x0FFFFFFE

/-- CBPUT (R285). -/
def execCbput (rs1 rs2 : Reg) (s : State) : Out :=
  let m := (s.rd rs2).setWidth 32 &&& cbSoft
  .next (s.updMe fun t => { t with csr := { t.csr with
    cb := (t.csr.cb &&& ~~~m) ||| ((s.rd rs1).setWidth 32 &&& m) } }).advance

/-- CBCLR (R285). -/
def execCbclr (rs1 : Reg) (s : State) : Out :=
  let m := (s.rd rs1).setWidth 32 &&& cbSoft
  .next (s.updMe fun t => { t with csr := { t.csr with cb := t.csr.cb &&& ~~~m } }).advance

/-- CBSETI (R284). -/
def execCbseti (cd : Reg) (v : BitVec 1) (s : State) : Out := s.putCond cd (v == 1)

/-- BC and BNC (R287). -/
def State.condBranch (s : State) (c : Reg) (off : BitVec 12) (want : Bool) : Out :=
  if s.condWaits c then s.waits
  else if s.cond c == want then .next (s.jump (s.me.pc + (off ++ (0 : BitVec 1)).signExtend 64))
  else .next s.advance
def execBc (c : Reg) (off : BitVec 12) (s : State) : Out := s.condBranch c off true
def execBnc (c : Reg) (off : BitVec 12) (s : State) : Out := s.condBranch c off false

/-! System instructions of the base set (R272). -/

/-- ECALL: mcause 8 from U mode, 11 from M mode. -/
def execEcall (s : State) : Out := s.trap (match s.me.mode with | .u => 8 | .m => 11) 0 0
/-- EBREAK: mcause 3. -/
def execEbreak (s : State) : Out := s.trap 3 0 0

/-- A trap of the thread is pending (R126). -/
def Thread.trapPending (t : Thread) : Bool := t.convTrap.isSome || !t.laneTraps.isEmpty || !t.engTraps.isEmpty

/-- WFI (R272). -/
def execWfi (s : State) : Out :=
  s.machineOnly <| if s.me.trapPending || s.me.prq then .next s.advance else s.stall

/-- MRET: the return from an exception. A request waiting for U mode counts its 20 µs from here (R129), and held words that
could not perform while the queue was frozen are translated under the table as it now stands (R151, log entry 93). -/
def execMret (s : State) : Out :=
  s.machineOnly <|
  if s.me.retransWaits s s.cur (s.unpinned s.cur) then s.stall
  else
    let s0 := s.updMe fun t => t.retranslated s s.cur (s.unpinned s.cur)
    let s1 := s0.returnException
    .next (s1.updMe fun t => if t.mode = .u ∧ t.prq then { t with prqAt := s.now } else t)

/-! Pending traps (R124, R126). -/

/-- Address of the convoy at the head of the queue: that at which its least advanced bank stands. -/
def Thread.headConvoy (t : Thread) : Word :=
  match t.banks with
  | p :: r => (r.foldl (fun (m : BankRun) q => if q.2.n < m.n then q.2 else m) p.2).pc
  | [] => match t.vq with | b :: _ => b.addr | [] => 0

/-- LANE_ERROR is due: at a convoy boundary, and for a context restored with fewer lanes at its first convoy (R56, R58). -/
def Thread.laneDue (t : Thread) (tr : Trap) : Bool := !t.vq.isEmpty || !tr.info.getLsbD 63

/-- The trap that is taken next, and the thread without it: the convoy trap, LANE_ERROR, an engine trap that is due. -/
def Thread.nextTrap (t : Thread) : Option (Trap × Thread) :=
  match t.convTrap with
  | some tr => some (tr, { t with convTrap := none })
  | none =>
    match t.laneTraps.find? t.laneDue with
    | some tr => some ({ tr with tval := t.headConvoy }, { t with laneTraps := t.laneTraps.erase tr })
    | none =>
      (t.engTraps.find? (·.due)).map fun tr =>
        (tr, { t with engTraps := t.engTraps.erase tr })

/-! System instructions (R288 to R295). -/

/-- Everything that HALTT waits for (R289). -/
def State.haltWaits (s : State) : Bool :=
  let t := s.me
  !t.vq.isEmpty || t.held.any (fun h => !h.elems.isEmpty || h.vamof) || !t.notifies.isEmpty || s.opsOf s.cur
    || !t.copies.isEmpty || !t.mmOut.isEmpty || !t.arrivals.isEmpty || s.jobsOf s.cur || !s.quiet s.cur 5

/-- Every engine trap of the thread is due. -/
def Thread.allDue (t : Thread) : Thread := { t with engTraps := t.engTraps.map fun x => { x with due := true } }

/-- HALTT (R289): pending traps first, in the order of R126, then the waits, the release at sys scope and the end of the
thread. -/
def execHaltt (s : State) : Out :=
  match s.me.allDue.nextTrap with
  | some (tr, t) => .next ((s.setMe { t with frozen := true }).takeException tr s.me.pc)
  | none => if s.haltWaits then s.waits else .next (s.haltThread s.cur)

/-- HALTT.F (R289, R129): the thread ends at once and the gang with it, FAULT from M mode and ABORTED from U mode. -/
def execHalttF (rs1 : Reg) (s : State) : Out :=
  let d := Fld (s.rd rs1) 7 0
  let g := s.me.gang
  .next ((s.endThread s.cur).endGang g (match s.me.mode with | .m => 1 | .u => 4) d)

/-- YIELD (R290). -/
def execYield (s : State) : Out := .next (s.updMe fun t => { t with yielded := true }).advance

/-- PREEMPTPT (R290): with a request pending the thread stops after it has performed, with rd = 1. -/
def execPreemptpt (rd : Reg) (s : State) : Out :=
  if s.stripStop then .next ((s.wr rd 1).advance.updMe fun t => { t with stopNow := true })
  else s.ret rd 0

/-- LAUNCH (R291). A ring slot that cannot be written takes the access fault of a store (R21, R53; log entry 114). -/
def execLaunch (rd rs1 : Reg) (n : BitVec 5) (s : State) : Out :=
  if s.ovtHolds s.cur then s.stall
  else match s.getRecord (s.rd rs1) 128 128 with
  | .bad c v i => s.trap c v i
  | .wait => s.stall
  | .ok r s1 =>
    if !s.quiet s.cur 5 || s.appendWaits (64 + n.toNat) then s.stall
    else
      let a := s1.append (64 + n.toNat) (leBytes 128 r)
      let k := s.queue (64 + n.toNat)
      match (linesOf (k.slot k.tail) 128).findSome? fun l => if a.1 = 7 then s.homeErr 0 false (l * 64) else none with
      | some e => s.trap 7 (s.rd rs1) (accessInfo (k.slot k.tail) (e == .mem) (e == .link))
      | none => a.2.ret rd (word a.1)

/-- RNGSEED (R292). -/
def execRngseed (rs1 rs2 : Reg) (s : State) : Out :=
  if s.unissued then s.waits
  else .next (s.updMe fun t => { t with csr := { t.csr with rngkey := s.rd rs1, rngctr := s.rd rs2 } }).advance

/-- RNGNEXT (R292). -/
def execRngnext (rd : Reg) (s : State) : Out :=
  if s.unissued then s.waits
  else
    let c := s.me.csr
    (s.updMe fun t => { t with csr := { t.csr with rngctr := c.rngctr + 1 } }).ret rd (mix c.rngkey c.rngctr)

/-- TS of R293: bytes of a CTXSAVE region. -/
def ctxBytes (v : BitVec 10) : Nat := 0x2000 + (if v.getLsbD 9 then 0 else 2 ^ ctxLgn v * 0x20000)

/-- Why the region is refused (R293): its address, its home, or a line that a read finds poisoned (R21, R53, R55). -/
def State.regionErr (s : State) (reads : Bool) (a : Word) : Option Word :=
  let n := ctxBytes s.me.csr.vctx
  if a.toNat % 4096 ≠ 0 ∨ !inMemory a.toNat n ∨ homeDie a.toNat ≠ homeDie (a.toNat + n - 1) then
    some (accessInfo a.toNat false false)
  else if s.cut (dieOf s.cur) (homeDie a.toNat) then some (accessInfo a.toNat false true)
  else if reads && s.poison.any (fun l => decide (a.toNat ≤ l * 64) && decide (l * 64 < a.toNat + n)) then
    some (accessInfo a.toNat true false)
  else if (s.die (homeDie a.toNat)).failed.isSome && (List.range (n / 256)).any (fun k => s.channelFailed (a.toNat + 256 * k)) then some (accessInfo a.toNat true false)
  else none

/-- A convoy has begun on some bank and not retired on every bank: a VWAITN whose entries are armed, an access of a convoy
that has performed, a bank ahead of another. A frozen queue brings no convoy to its end. -/
def Thread.midConvoy (t : Thread) : Bool :=
  !t.frozen && (t.armed.isSome || !t.done.isEmpty || t.banks.any fun p => t.banks.any fun q => p.2.n != q.2.n)

/-- CTXSAVE (R293): rows of the context only; rd receives 8 KiB and the rows written (log entry 18). -/
def execCtxsave (rd rs1 : Reg) (f : BitVec 1) (s : State) : Out :=
  s.machineOnly <|
  let a := s.rd rs1
  match s.regionErr false a with
  | some info => s.trap 7 a info
  | none =>
  if s.me.midConvoy || s.regionWaits (dieOf s.cur) a.toNat then s.waits
  else
    let ctx := ctxBanks s.me.csr.vctx
    let v := s.makeSave s.cur (f == 1) a.toNat (a.toNat + 0x2000) ctx s.me.csr.mepc
    let v := { v with rows := v.rows.filter fun p => ctx.contains (p.1 / 512) }
    (s.putSave (2 * a.toNat + 1) v).ret rd (word (0x2000 + 256 * v.rows.length))

/-- The bank that stands for a saved one: groups of one size, bank by bank. -/
def shiftBank (from_ dest b : Nat) : Nat := dest + (b - from_)

/-- A saved region moved to another context of the same size: its rows, tiles, streams of banks and queued blocks with it. -/
def Saved.moveTo (v : Saved) (ctx : BitVec 10) : Saved :=
  let f := v.banks.headD 0
  let own (b : Nat) : Nat := if v.banks.contains b then shiftBank f (ctxFirst ctx) b else b
  let t := v.thread
  { v with
    seg := v.seg.foldl (fun t p => Tab.insert t (own (p.1 / 16) * 16 + p.1 % 16) p.2) []
    tiles := v.tiles.map fun p => (p.1, p.2.map fun x => { x with fbank := own x.fbank })
    thread := { t with
      vq := t.vq.map fun b => { b with snap := { b.snap with vctx := ctx } }
      banks := t.banks.map fun p => (own p.1, p.2)
      laneBad := t.laneBad.map fun p => (own p.1, p.2)
      csr := { t.csr with vctx := ctx } } }

/-- The rows of a save written into the banks that stand for its own; a row that was changed in memory is undefined. -/
def State.loadRows (s : State) (core dest : Nat) (v : Saved) : State :=
  v.rows.foldl (fun (s : State) p =>
    let same := Memory.readList s.mem (v.rowAt p.1) 256 == rowBytes p.2
    let x := if same then p.2 else Config.freeRow s.free
    s.tick.updCore core fun c => c.setRow (shiftBank (v.banks.headD 0) dest (p.1 / 512)) (p.1 % 512)
      (x &&& c.lanes (shiftBank (v.banks.headD 0) dest (p.1 / 512)))) s

/-- The state of R130 replaced from a region: the thread stays where it is, in M mode, with its place, gang, banks and what
is under way outside it (R293, log entry 90). -/
def State.loadContext (s : State) (v : Saved) : State :=
  let me := s.me
  let ctx := ctxBanks me.csr.vctx
  let core := coreOf s.cur
  let s := s.updCore core fun c => (c.dropHart (thrOf s.cur)).clearBanks ctx
  let s := s.updCore core fun c => { c with seg := c.seg.filter fun p => !ctx.contains (p.1 / 16) }
  let s := s.loadRows core (ctxFirst me.csr.vctx) v
  let s := s.putThread s.cur { v.moveTo me.csr.vctx with rows := [] } true
  s.updMe fun t => { t with
    mode := .m, pc := me.pc, npc := me.npc, gang := me.gang, rank := me.rank, vlc := me.vlc, wait := .none
    prq := me.prq, frc := me.frc, prqAt := me.prqAt, sb := me.sb, svMark := me.svMark
    csr := { t.csr with mepc := v.epc } }

/-- A region that no CTXSAVE has written: the state it gives is undefined, within the thread's own task. -/
def State.noContext (s : State) (base : Nat) : Saved :=
  let t := s.me
  { base, image := [0], thread := t, epc := Config.freeWord s.free
    lgn := if t.csr.vctx.getLsbD 9 then 7 else ctxLgn t.csr.vctx, banks := ctxBanks t.csr.vctx, bankAt := base + 0x2000 }

/-- CTXLOAD (R293). -/
def execCtxload (rd rs1 : Reg) (s : State) : Out :=
  s.machineOnly <|
  let a := s.rd rs1
  match s.regionErr true a with
  | some info => s.trap 5 a info
  | none =>
  if !s.me.vq.isEmpty || s.me.held.any (fun h => !h.elems.isEmpty) || s.regionWaits (dieOf s.cur) a.toNat then s.waits
  else
    let v := (Tab.get none s.saves (2 * a.toNat + 1)).getD (s.noContext a.toNat)
    if v.lgn ≠ (if s.me.csr.vctx.getLsbD 9 then 7 else ctxLgn s.me.csr.vctx) then s.ret rd 1
    else if v.thread.retransWaits s s.cur (fun _ => true) then s.waits
    else (s.loadContext v).ret rd 0

/-- LANERETIRE (R294). -/
def execLaneretire (rd rs1 : Reg) (s : State) : Out :=
  s.machineOnly <|
  let v := s.rd rs1
  let b := Fld v 5 0
  let l := Fld v 17 6
  if 2080 ≤ l ∨ Fld v 63 18 ≠ 0 then s.ret rd 2
  else if (Tab.get [] s.myCore.retired b).contains l || (Tab.get [] s.myCore.marked b).contains l then s.ret rd 1
  else (s.updMyCore (·.mark b l)).ret rd 0

/-- BBLOG (R295). -/
def execBblog (rc rs1 rs2 : Reg) (s : State) : Out :=
  s.machineOnly <|
  .next (s.blackBox (0x80 + Fld (s.rd rc) 6 0) s.cur 1 (s.rd rs1) (s.rd rs2)).advance

end Sys2Proof.Machine
end

