-- ==== Sys2Proof/Machine/VExec.lean ====
section
/-! DEFINITION. Executing one vector word of the convoy in `act`: the elements of its banks, operands, destinations, flags,
saturation records and draws (R105, R111, R114, R184 to R192, R252, R254, R297, R313). -/

namespace Sys2Proof.Machine

/-- Where the elements of a context lie (R105): core, first bank, elements per bank, vl. -/
structure Lay where
  core  : Nat
  first : Nat
  e     : Nat
  vl    : Nat
deriving DecidableEq, Repr

/-- One element: bank, lane and number. -/
structure El where
  bank : Nat
  lane : Nat
  i    : Nat
deriving DecidableEq, Repr

/-- One result: the element it is written to, its value, its flags. -/
structure Res where
  el  : El
  val : Nat
  fl  : BitVec 8 := 0
deriving DecidableEq, Repr

/-- A destination: a register at a width, a pair, or a mask. -/
inductive Dst where
  | reg (v w : Nat) (sgn : Bool)
  | pair (v : Nat) (sgn : Bool)
  | msk (m : Nat)
deriving DecidableEq, Repr

/-- The layout of the executing context. -/
def State.lay (s : State) : Lay :=
  let v := s.act.snap.vctx
  let c := coreOf s.act.tid
  { core := c, first := ctxFirst v, e := (s.core c).fewest (ctxBanks v), vl := s.act.snap.vl.toNat }

/-- Elements of a bank below vl. -/
def Lay.count (l : Lay) (b : Nat) : Nat := min l.e (l.vl - (b - l.first) * l.e)
/-- The elements of a bank below vl. -/
def Lay.els (l : Lay) (b : Nat) : List El := (List.range (l.count b)).map fun k => ⟨b, k, (b - l.first) * l.e + k⟩
/-- The place of element `i`. -/
def Lay.el (l : Lay) (i : Nat) : El := ⟨l.first + i / l.e, i % l.e, i⟩
/-- The banks that are not idle; with vl = 0 the first bank sequences the block alone (R105, R114). -/
def Lay.busy (l : Lay) : List Nat :=
  if l.vl = 0 then [l.first] else (List.range (ceilDiv l.vl l.e)).map (l.first + ·)

/-- The core that executes. -/
def State.vcore (s : State) : Core := s.core (coreOf s.act.tid)

/-- The mask row that a word names, inverted when MI = 1 (R114). -/
def Core.activeRow (c : Core) (v : VWord) (b : Nat) : Row :=
  let r := c.maskRow b v.mk.toNat
  if v.mi = 1 then ~~~r else r

/-- The elements below vl on the executing banks. -/
def State.els (s : State) : List El := s.act.banks.flatMap s.lay.els
/-- Whether an element is active under the word's mask. -/
def State.isOn (s : State) (v : VWord) (e : El) : Bool := (s.vcore.activeRow v e.bank).getLsbD e.lane
/-- The active elements on the executing banks. -/
def State.on (s : State) (v : VWord) : List El := s.els.filter (s.isOn v)

/-! Operands. -/

/-- Element of register `r` read at `w` planes (R135). -/
def State.regEl (s : State) (r w : Nat) (e : El) : Nat := elemOf (s.vcore.readReg e.bank r w) e.lane
/-- Element of the pair at register `r`. -/
def State.pairEl (s : State) (r : Nat) (e : El) : Nat := elemOf (s.vcore.readPair e.bank r) e.lane
/-- Element's bit of mask `m`. -/
def State.mskEl (s : State) (m : Nat) (e : El) : Bool := (s.vcore.maskRow e.bank (m % 8)).getLsbD e.lane
/-- The value of argument slot GS (R108). -/
def State.slot (s : State) (v : VWord) : Word := s.act.snap.g[v.gs.toNat]'(v.gs.isLt)

/-- Effective widths of the word (R252). -/
def State.wA (s : State) (v : VWord) : Nat := effA v s.act.snap.vw
def State.wB (s : State) (v : VWord) : Nat := effB v s.act.snap.vw
def State.wD (s : State) (v : VWord) : Nat := effD v s.act.snap.vw

/-- Operand A of an element at wa. -/
def State.opA (s : State) (v : VWord) (sgn : Bool) (e : El) : Int := valOf sgn (s.wA v) (s.regEl v.va.toNat (s.wA v) e)
/-- Bits of operand B at wb: register VB, or the slot when SO = 1 (R255). -/
def State.bitsB (s : State) (v : VWord) (e : El) : Nat :=
  if v.so = 1 then (s.slot v).toNat % 2 ^ s.wB v else s.regEl v.vb.toNat (s.wB v) e
/-- Operand B of an element at wb. -/
def State.opB (s : State) (v : VWord) (sgn : Bool) (e : El) : Int := valOf sgn (s.wB v) (s.bitsB v e)

/-! Results. -/

/-- Write lane results into a destination of one bank (R114, R135). -/
def Core.putBank (c : Core) (d : Dst) (b : Nat) (rs : List Res) : Core :=
  let upd (ps : List Row) : List Row := rs.foldl (fun ps r => setElem r.el.lane r.val ps) ps
  match d with
  | .reg v w sgn => c.writeReg b v sgn (upd (c.readReg b v w))
  | .pair v sgn => c.writePair b v sgn (upd (c.readPair b v))
  | .msk m => c.setMaskRow b m (rs.foldl (fun r x => setBit r x.el.lane (x.val % 2 == 1)) (c.maskRow b m))

/-- The executing core, changed. -/
def State.updV (s : State) (f : Core → Core) : State := s.updCore (coreOf s.act.tid) f

/-- Results of an elementwise word: every executing bank that is not idle writes its register (R105, R135). -/
def State.put (s : State) (d : Dst) (rs : List Res) : State :=
  (s.act.banks.filter fun b => s.lay.count b ≠ 0).foldl
    (fun (s : State) b => s.updV fun c => c.putBank d b (rs.filter fun r => r.el.bank == b)) s

/-- Results of a word that writes chosen elements only: banks without one are untouched. -/
def State.putAt (s : State) (d : Dst) (rs : List Res) : State :=
  (s.act.banks.filter fun b => rs.any fun r => r.el.bank == b).foldl
    (fun (s : State) b => s.updV fun c => c.putBank d b (rs.filter fun r => r.el.bank == b)) s

/-- An index joins the lowest indices of the flags raised (R188). -/
def lowIdx (l : List (Nat × Nat)) (k i : Nat) : List (Nat × Nat) :=
  if l.any (fun p => p.1 == k && p.2 ≤ i) then l else (k, i) :: l.filter (·.1 ≠ k)

/-- Flags raised by an element join the effects of the convoy (R187, R188). -/
def Fx.raise (f : Fx) (fl : BitVec 8) (i : Nat) : Fx :=
  { f with flags := f.flags ||| fl
           fidx := ((List.range 8).filter fun k => fl.getLsbD k).foldl (fun l k => lowIdx l k i) f.fidx }

/-- The effects so far of the executing convoy. -/
def State.updFx (s : State) (f : Fx → Fx) : State := { s with act := { s.act with fx := f s.act.fx } }

/-- Flags of the results, and the saturation record when SE = 1 (R187, R188, R190). -/
def State.flag (s : State) (v : VWord) (rs : List Res) : State :=
  let s := s.updFx fun f => rs.foldl (fun f r => f.raise r.fl r.el.i) f
  let sat := rs.filter fun r => r.fl.getLsbD 0
  if v.se = 1 then s.putAt (.msk v.ms.toNat) (sat.map fun r => { r with val := 1 }) else s

/-- An elementwise word whose active elements receive `f` (R297). -/
def State.eachOn (s : State) (v : VWord) (d : Dst) (f : El → Nat × BitVec 8) : State :=
  let rs := (s.on v).map fun e => { el := e, val := (f e).1, fl := (f e).2 : Res }
  (s.put d rs).flag v rs

/-- An integer result at the destination width: wrapped or saturated (R297). -/
def intRes (wrap sd : Bool) (wd : Nat) (r : Int) : Nat × BitVec 8 := if wrap then (wrapTo wd r, 0) else satTo sd wd r

/-- The register destination of a word at wd. -/
def State.dstReg (s : State) (v : VWord) (sgn : Bool) : Dst := .reg v.vd.toNat (s.wD v) sgn

/-- Result in element 0 of a pair, wherever vl lets anything be written (R114, R306, R316). -/
def State.put0 (s : State) (v : VWord) (d : Dst) (val : Nat) (fl : BitVec 8) : State :=
  if s.lay.vl = 0 then s else (s.putAt d [⟨s.lay.el 0, val, fl⟩]).flag v [⟨s.lay.el 0, val, fl⟩]

/-! Draws (R184, R185). -/

/-- The draw of element `i`. -/
def State.drawOf (s : State) (i : Nat) : Word := mix (s.thread s.act.tid).csr.rngkey (s.act.draw + word i)
/-- The word has drawn `n`: a diverged bank's draws add nothing. -/
def State.drawn (s : State) (n : Nat) : State :=
  { s with act := { s.act with draw := if s.act.still then s.act.draw else s.act.draw + word n } }

/-- The rounding mode that an override selects (R184, R254). -/
def State.rmode (s : State) (ov : Nat) : Nat :=
  match ov with | 0 => s.act.snap.vround.toNat | 1 => 0 | 2 => 1 | _ => 4
/-- The rounding of element `i`. -/
def State.rm (s : State) (ov i : Nat) : Rm := ⟨s.rmode ov, (s.drawOf i).toNat % 2 ^ 32⟩
/-- A word that rounds has executed: under SR it has drawn its vl. -/
def State.rounded (s : State) (ov : Nat) (t : State) : State := if s.rmode ov = 4 then t.drawn s.lay.vl else t

/-! Floating-point operands (R254, R313). -/

def fpFmt (f : Nat) : Fmt := match f % 4 with | 0 => FP16 | 1 => BF16 | _ => FP32
/-- Bits of an FP element of register `r` in format code `f`. -/
def State.fpEl (s : State) (f r : Nat) (e : El) : Nat := if f % 4 = 2 then s.pairEl r e else s.regEl r 16 e
/-- Bits of operand B in format code `f`. -/
def State.fpB (s : State) (v : VWord) (f : Nat) (e : El) : Nat :=
  if v.so = 1 then (s.slot v).toNat % 2 ^ (fpFmt f).width else s.fpEl f v.vb.toNat e
/-- An FP destination: SGN = 0. -/
def fpDst (f vd : Nat) : Dst := if f % 4 = 2 then .pair vd false else .reg vd 16 false

/-! Traps and stalls of a word. -/

/-- The word's convoy traps, and what the trap leaves in ffst; nothing else of the convoy stays (R125). -/
def State.vtrapped (s : State) (tr : Trap) (ffst : Option (BitVec 40) := none) : State :=
  { s with act := { s.act with trap := some tr, fx := { s.act.fx with ffst } } }
/-- The word's convoy waits and executes again. -/
def State.vstalled (s : State) : State := { s with act := { s.act with stall := true } }

end Sys2Proof.Machine
end

