-- ==== Sys2Proof/Machine/VControl.lean ====
section
/-! DEFINITION. Block control and divergence (R119, R319), illegal vector words (R257), the convoy watchdog (R128), and the
order in which pending traps are taken (R124, R126). -/

namespace Sys2Proof.Machine

/-! Moving banks through the head block. -/

/-- Move each executing bank past its convoy. -/
def State.moveBanks (s : State) (f : BankRun → BankRun) : State :=
  s.updThread s.act.tid fun t =>
    { t with banks := t.banks.map fun p => if s.act.banks.contains p.1 then (p.1, { f p.2 with n := p.2.n + 1 }) else p }

/-- The address after the convoy of one word that executes. -/
def State.afterWord (s : State) : Word := s.act.addr + 8

/-- The head block leaves the queue: what waits for it moves up, and held words need no more retirements (R118, R319). -/
def Thread.endBlock (t : Thread) : Thread :=
  let ids := t.held.map (·.id)
  { t with
    vq := t.vq.drop 1, banks := [], fx := [], settled := 0
    held := t.held.map fun h => { h with need := 0 }
    arrivals := t.arrivals.map fun a =>
      if a.blocks = 1 then { a with blocks := 0, held := ids } else { a with blocks := a.blocks - 1 } }

/-- VSTOP: the block ends on every bank at once (log entry 16), and jobs that wait for its convoys move up (R235, R319). -/
def execVstop (_ : VWord) (s : State) : Out :=
  let tid := s.act.tid
  .next ((s.updThread tid (·.endBlock)).updCluster (cluOf tid) fun c =>
    { c with jobs := c.jobs.map fun j => if j.tid == tid then { j with blocks := j.blocks - 1 } else j })

/-- VSTOP.R: a diverged bank waits at its rejoin point (R119). -/
def execVstopR (_ : VWord) (s : State) : Out :=
  .next (s.moveBanks fun b => { b with div := .waiting, pc := b.rejoin })

/-- VTFETCH (R119, R319): a bank with an active element goes to the target, any other to the rejoin point; a bank that
has diverged keeps its rejoin point and its draw. -/
def execVtfetch (v : VWord) (s : State) : Out :=
  let next := s.afterWord
  let target := s.slot v + (v.imm.signExtend 64 <<< 3)
  let draw := s.act.draw
  let on (b : Nat) : Bool := (s.lay.els b).any (s.isOn v)
  .next (s.updThread s.act.tid fun t =>
    { t with banks := t.banks.map fun p =>
        if !s.act.banks.contains p.1 then p
        else
          let b := { p.2 with n := p.2.n + 1 }
          (p.1, match b.div with
            | .diverged => { b with pc := if on p.1 then target else next }
            | _ => if on p.1 then { b with pc := target, div := .diverged, rejoin := next, draw }
                   else { b with pc := next, div := .waiting, rejoin := next }) })

/-- VNOP. -/
def execVnop (_ : VWord) (s : State) : Out := .next s

/-- VTRAP: mcause 3 at the word; its convoy counts as retired (R319). -/
def execVtrap (v : VWord) (s : State) : Out :=
  .next (s.vtrapped { cause := 3, tval := s.act.addr, info := v.imm.setWidth 64 })

/-- VECTOR_ILLEGAL: the reason and the word's index in its convoy (R257), which the event brings. -/
def execVectorIllegal (_ : BitVec 64) (s : State) : Out :=
  .next (s.vtrapped { cause := 24, tval := s.act.addr, info := word (s.ev.unit % 256 + 256 * (s.ev.idx % 4)) })

/-- Every bank that is not idle waits at the rejoin point. -/
def Thread.allWaiting (t : Thread) : Bool := !t.banks.isEmpty && t.banks.all (·.2.div == .waiting)

/-- BANK_REJOIN: all banks continue together at the rejoin point (R119). -/
def execBankRejoin (s : State) : Out :=
  let tid := s.ev.tid
  if (s.thread tid).allWaiting then
    .next (s.updThread tid fun t => { t with banks := t.banks.map fun p => (p.1, { p.2 with div := .joined, pc := p.2.rejoin }) })
  else .next s

/-! The watchdog (R128). -/

/-- The words of the convoy at an address. -/
def State.convoyWords (s : State) (tid : Nat) (va : Word) : List (BitVec 64) :=
  match (s.thread tid).vq with
  | [] => []
  | b :: _ => (s.convoy tid b.mmode 4 va).filterMap id

/-- The bank waits at a lane barrier or a rejoin point. -/
def State.atBarrier (s : State) (tid : Nat) (b : BankRun) : Bool :=
  b.div == .waiting || (b.div == .joined && (s.convoyWords tid b.pc).any barrierWord)

/-- The convoy where some bank waits for another, and the lowest bank that has not arrived. -/
def State.waitPoint (s : State) (tid : Nat) : Option (Word × Nat) :=
  let t := s.thread tid
  match t.banks.find? fun p => s.atBarrier tid p.2 with
  | none => none
  | some p =>
    let w := p.2
    let here (b : BankRun) : Bool := b.div == w.div && b.pc == w.pc && b.n == w.n
    (t.banks.find? fun q => !here q.2).map fun q => (w.pc, q.1)

/-- CONVOY_WATCHDOG_EXPIRE: some bank has waited 2^26 cycles; WATCHDOG names the lowest bank that has not arrived. -/
def execConvoyWatchdogExpire (s : State) : Out :=
  let tid := s.ev.tid
  let t := s.thread tid
  match s.waitPoint tid with
  | none => .next s
  | some (va, b) =>
    if t.frozen || t.convTrap.isSome then .next s
    else .next (s.updThread tid fun t =>
      { t with frozen := true, convTrap := some { cause := 52, tval := va, info := word (b % 64) } })

/-! Pending traps (R124, R126). -/

/-- The thread may take a pending trap now: it is live, in U mode, and no ATTNCANCEL of it and no operation that was sent
to a unit has to return first (R129, R227, R391). -/
def Thread.mayTrap (t : Thread) : Bool :=
  t.live && t.mode == .u && (match t.wait with | .cancelling _ | .sent _ => false | _ => true)

/-- TRAP_TAKE (R124, R126): the trap enters M mode with the next scalar instruction as the resume point and the queue
frozen; an operation that a unit has accepted counts as performed (R391). -/
def execTrapTake (s : State) : Out :=
  let tid := s.ev.tid
  let t := s.thread tid
  if !t.mayTrap then .next s
  else match t.nextTrap with
    | none => .next s
    | some (tr, t) =>
      let t := { t.finishAccepted with frozen := true }
      .next ({ s with cur := tid }.setThread tid t |>.takeException tr t.pc)

end Sys2Proof.Machine
end

