-- ==== Sys2Proof/Machine/VInt.lean ====
section
/-! DEFINITION. Integer, logic, shift, width, mask and vl words (R297 to R312). -/

namespace Sys2Proof.Machine

/-! Shared forms of R297. Every meaning answers the state after its word; nothing of it stops. -/

/-- Bit `i` of the function code. -/
def fnBit (v : VWord) (i : Nat) : Bool := v.fn.getLsbD i

/-- An integer word of A: r from a. -/
def State.int1 (s : State) (v : VWord) (sa sd wrap : Bool) (f : Int → Int) : State :=
  s.eachOn v (s.dstReg v sd) fun e => intRes wrap sd (s.wD v) (f (s.opA v sa e))

/-- An integer word of A and B: r from a and b. -/
def State.int2 (s : State) (v : VWord) (sa sb sd wrap : Bool) (f : Int → Int → Int) : State :=
  s.eachOn v (s.dstReg v sd) fun e => intRes wrap sd (s.wD v) (f (s.opA v sa e) (s.opB v sb e))

/-- Class A: S in FN[0], W in FN[1]. -/
def State.classA (s : State) (v : VWord) (f : Int → Int → Int) : State :=
  s.int2 v (fnBit v 0) (fnBit v 0) (fnBit v 0) (fnBit v 1) f
def State.classA1 (s : State) (v : VWord) (f : Int → Int) : State :=
  s.int1 v (fnBit v 0) (fnBit v 0) (fnBit v 1) f
/-- Class M: SA, SB and W in FN[0] to FN[2]; SD = SA or SB. -/
def State.classM (s : State) (v : VWord) (f : Int → Int → Int) : State :=
  s.int2 v (fnBit v 0) (fnBit v 1) (fnBit v 0 || fnBit v 1) (fnBit v 2) f
/-- Class F: the signedness is the word's, W in FN[1]. -/
def State.classF (s : State) (v : VWord) (sgn : Bool) (f : Int → Int → Int) : State :=
  s.int2 v sgn sgn sgn (fnBit v 1) f
/-- Class L: both operands extended to 16 bits by S, the operation on bits, the low wd bits kept. -/
def State.classL (s : State) (v : VWord) (f : Nat → Nat → Nat) : State :=
  let g := fnBit v 0
  s.eachOn v (s.dstReg v g) fun e =>
    (f (ofSigned 16 (s.opA v g e)) (ofSigned 16 (s.opB v g e)) % 2 ^ s.wD v, 0)

/-- Shifts: the amount is b unsigned at wb (R304). -/
def State.shift (s : State) (v : VWord) (sgn : Bool) (f : Int → Nat → Int) : State :=
  s.eachOn v (s.dstReg v sgn) fun e => intRes (fnBit v 1) sgn (s.wD v) (f (s.opA v sgn e) (s.bitsB v e))

/-! 0x00 to 0x0F (R302). -/

/-- VADD: a + b. -/
def execVadd (v : VWord) (s : State) : Out := .next (s.classA v fun a b => a + b)
/-- VSUB: a - b. -/
def execVsub (v : VWord) (s : State) : Out := .next (s.classA v fun a b => a - b)
/-- VRSUB: b - a. -/
def execVrsub (v : VWord) (s : State) : Out := .next (s.classA v fun a b => b - a)
/-- VNEG: -a. -/
def execVneg (v : VWord) (s : State) : Out := .next (s.classA1 v fun a => -a)
/-- VABS: |a|. -/
def execVabs (v : VWord) (s : State) : Out := .next (s.classA1 v fun a => (a.natAbs : Int))
/-- VMIN, signed. -/
def execVmin (v : VWord) (s : State) : Out := .next (s.classF v true min)
/-- VMAX, signed. -/
def execVmax (v : VWord) (s : State) : Out := .next (s.classF v true max)
/-- VMINU, unsigned. -/
def execVminu (v : VWord) (s : State) : Out := .next (s.classF v false min)
/-- VMAXU, unsigned. -/
def execVmaxu (v : VWord) (s : State) : Out := .next (s.classF v false max)
/-- VMUL: a·b. -/
def execVmul (v : VWord) (s : State) : Out := .next (s.classM v fun a b => a * b)
/-- VMULH: ⌊a·b / 2^s⌋, s = IMM[4:0]. -/
def execVmulh (v : VWord) (s : State) : Out :=
  .next (s.classM v fun a b => a * b / ((2 ^ (v.imm.toNat % 32) : Nat) : Int))
/-- VMAC: d₀ + a·b, d₀ read at wd with SD. -/
def execVmac (v : VWord) (s : State) : Out :=
  let sd := fnBit v 0 || fnBit v 1
  .next (s.eachOn v (s.dstReg v sd) fun e =>
    intRes (fnBit v 2) sd (s.wD v)
      (valOf sd (s.wD v) (s.regEl v.vd.toNat (s.wD v) e) + s.opA v (fnBit v 0) e * s.opB v (fnBit v 1) e))
/-- VAND. -/
def execVand (v : VWord) (s : State) : Out := .next (s.classL v fun a b => a &&& b)
/-- VOR. -/
def execVor (v : VWord) (s : State) : Out := .next (s.classL v fun a b => a ||| b)
/-- VXOR. -/
def execVxor (v : VWord) (s : State) : Out := .next (s.classL v fun a b => a ^^^ b)
/-- VANDN: a and not b. -/
def execVandn (v : VWord) (s : State) : Out := .next (s.classL v fun a b => a &&& (b ^^^ 0xFFFF))

/-! 0x10 to 0x1F (R302 to R307). -/

/-- VNOT: not a. -/
def execVnot (v : VWord) (s : State) : Out :=
  .next (s.eachOn v (s.dstReg v (fnBit v 0)) fun e =>
    ((ofSigned 16 (s.opA v (fnBit v 0) e) ^^^ 0xFFFF) % 2 ^ s.wD v, 0))
/-- VSLL: a × 2^s. -/
def execVsll (v : VWord) (s : State) : Out := .next (s.shift v (fnBit v 0) fun a k => a * ((2 ^ k : Nat) : Int))
/-- VSRL: ⌊a / 2^s⌋, a unsigned; an amount of 16 or more leaves 0. -/
def execVsrl (v : VWord) (s : State) : Out := .next (s.shift v false fun a k => a / ((2 ^ min k 16 : Nat) : Int))
/-- VSRA: ⌊a / 2^s⌋, a signed. -/
def execVsra (v : VWord) (s : State) : Out := .next (s.shift v true fun a k => a / ((2 ^ min k 16 : Nat) : Int))
/-- VSHRR: ⌊(a + 2^(s-1)) / 2^s⌋; a when s = 0. -/
def execVshrr (v : VWord) (s : State) : Out :=
  .next (s.shift v (fnBit v 0) fun a k =>
    if k = 0 then a else (a + ((2 ^ (k - 1) : Nat) : Int)) / ((2 ^ k : Nat) : Int))

/-- The condition of VCMP by FN (R303): how a and b are read, and the comparison. -/
def cmpSigned (fn : Nat) : Bool := !(fn == 4 || fn == 5 || fn == 8 || fn == 9)
def cmpHolds (fn : Nat) (a b : Int) : Bool :=
  match fn with
  | 0 => decide (a = b)
  | 1 => decide (a ≠ b)
  | 2 | 4 => decide (a < b)
  | 3 | 5 => decide (b ≤ a)
  | 6 | 8 => decide (a ≤ b)
  | _ => decide (b < a)

/-- VCMP writes its condition to a mask (R303). -/
def execVcmp (v : VWord) (s : State) : Out :=
  let g := cmpSigned v.fn.toNat
  .next (s.eachOn v (.msk (v.vd.toNat % 8)) fun e => (b2n (cmpHolds v.fn.toNat (s.opA v g e) (s.opB v g e)), 0))

/-- VSEL writes every element below vl: a where active, b elsewhere (R305). -/
def execVsel (v : VWord) (s : State) : Out :=
  let g := fnBit v 0
  let rs := s.els.map fun e =>
    let on := s.isOn v e
    let r := intRes (fnBit v 1) g (s.wD v) (if on then s.opA v g e else s.opB v g e)
    { el := e, val := r.1, fl := if on then r.2 else 0 : Res }
  .next ((s.put (s.dstReg v g) rs).flag v rs)

/-- VMOV: a. -/
def execVmov (v : VWord) (s : State) : Out := .next (s.classA1 v fun a => a)
/-- VMOVI: IMM sign-extended. -/
def execVmovi (v : VWord) (s : State) : Out :=
  .next (s.eachOn v (s.dstReg v (fnBit v 0)) fun _ =>
    intRes (fnBit v 1) (fnBit v 0) (s.wD v) (toSigned 15 v.imm.toNat))
/-- VMOVG: b, the low wb bits of the slot. -/
def execVmovg (v : VWord) (s : State) : Out :=
  .next (s.eachOn v (s.dstReg v (fnBit v 0)) fun e =>
    intRes (fnBit v 1) (fnBit v 0) (s.wD v) (s.opB v (fnBit v 0) e))
/-- VPOPC: set bits among a's wa planes. -/
def execVpopc (v : VWord) (s : State) : Out :=
  .next (s.int1 v false false (fnBit v 1) fun a => (popNat (s.wA v) a.toNat : Int))
/-- VCLZ: zero planes above a's highest set plane, of wa. -/
def execVclz (v : VWord) (s : State) : Out :=
  .next (s.int1 v false false (fnBit v 1) fun a => (clzNat (s.wA v) a.toNat : Int))
/-- VABSD: |a - b|. -/
def execVabsd (v : VWord) (s : State) : Out := .next (s.classA v fun a b => ((a - b).natAbs : Int))
/-- VAVG: ⌊(a + b + 1) / 2⌋. -/
def execVavg (v : VWord) (s : State) : Out := .next (s.classA v fun a b => (a + b + 1) / 2)
/-- VDOTR: Σ a·b over the active elements, to element 0 of the pair VD (R306). -/
def execVdotr (v : VWord) (s : State) : Out :=
  let sd := fnBit v 0 || fnBit v 1
  let sum := (s.on v).foldl (fun n e => n + s.opA v (fnBit v 0) e * s.opB v (fnBit v 1) e) 0
  let r := satTo sd 32 sum
  .next (s.put0 v (.pair v.vd.toNat sd) r.1 r.2)
/-- VRAND: the low wd bits of each element's draw (R307). -/
def execVrand (v : VWord) (s : State) : Out :=
  .next ((s.eachOn v (s.dstReg v false) fun e => ((s.drawOf e.i).toNat % 2 ^ s.wD v, 0)).drawn s.lay.vl)

/-! 0x20 to 0x2D (R308 to R312). -/

/-- VSEXT: a signed, written signed. -/
def execVsext (v : VWord) (s : State) : Out := .next (s.int1 v true true (fnBit v 1) fun a => a)
/-- VZEXT: a unsigned, written unsigned. -/
def execVzext (v : VWord) (s : State) : Out := .next (s.int1 v false false (fnBit v 1) fun a => a)
/-- VSATW: a clamped to an n-bit integer, n = IMM[3:0] + 1. -/
def execVsatw (v : VWord) (s : State) : Out :=
  let g := fnBit v 0
  let n := v.imm.toNat % 16 + 1
  .next (s.eachOn v (s.dstReg v g) fun e =>
    let r := satTo g n (s.opA v g e)
    (wrapTo (s.wD v) (valOf g n r.1), r.2))

/-- Pack one bank (R309): the smallest value over its logical lanes becomes BASE, each lane keeps its delta. -/
def Core.packBank (c : Core) (v w : Nat) (sgn : Bool) (b : Nat) (rs : List Res) : Core :=
  let ps := rs.foldl (fun ps r => setElem r.el.lane r.val ps) (c.readReg b v w)
  let val (k : Nat) : Int := valOf sgn w (elemOf ps k)
  let n := c.usable b
  let base := (List.range n).foldl (fun m k => min m (val k)) (val 0)
  let deltas := (List.range n).foldl (fun ds k => setElem k ((val k) - base).toNat ds) (List.replicate w 0)
  c.writePacked b v sgn (ofSigned 16 base) deltas

/-- VPACK (R309). -/
def execVpack (v : VWord) (s : State) : Out :=
  let g := fnBit v 0
  let rs := (s.on v).map fun e =>
    let r := intRes (fnBit v 1) g (s.wD v) (s.opA v g e)
    { el := e, val := r.1, fl := r.2 : Res }
  let t := (s.act.banks.filter fun b => s.lay.count b ≠ 0).foldl
    (fun (t : State) b => t.updV fun c => c.packBank v.vd.toNat (s.wD v) g b (rs.filter fun r => r.el.bank == b)) s
  .next (t.flag v rs)

/-- VSEGD: the descriptor of register VA in the element's bank; the odd half of a pair reads 0. -/
def execVsegd (v : VWord) (s : State) : Out :=
  .next (s.eachOn v (.pair v.vd.toNat false) fun e => ((s.vcore.segd e.bank v.va.toNat).toNat, 0))

/-- The operation of MLOG by FN. -/
def mlogOp (fn : Nat) (a b : Bool) : Bool :=
  match fn with
  | 0 => a && b | 1 => a || b | 2 => a != b | 3 => a && !b | 4 => !(a && b) | 5 => !(a || b) | 6 => a == b | _ => a || !b

/-- MLOG. -/
def execMlog (v : VWord) (s : State) : Out :=
  .next (s.eachOn v (.msk (v.vd.toNat % 8)) fun e =>
    (b2n (mlogOp v.fn.toNat (s.mskEl v.va.toNat e) (s.mskEl v.vb.toNat e)), 0))
/-- MSET: IMM[0]. -/
def execMset (v : VWord) (s : State) : Out :=
  .next (s.eachOn v (.msk (v.vd.toNat % 8)) fun _ => (v.imm.toNat % 2, 0))
/-- MPOP: set bits among active elements. -/
def execMpop (v : VWord) (s : State) : Out :=
  .next (s.put0 v (.pair v.vd.toNat false) ((s.on v).filter (s.mskEl v.va.toNat)).length 0)
/-- MFIRST: the lowest active element with its bit set; all ones if none. -/
def execMfirst (v : VWord) (s : State) : Out :=
  .next (s.put0 v (.pair v.vd.toNat false)
    (match ((s.on v).filter (s.mskEl v.va.toNat)).map El.i with | [] => 0xFFFFFFFF | i :: _ => i) 0)

/-- A condition bit is posted when the convoy retires (R115, R311). -/
def State.posts (s : State) (i : Nat) (b : Bool) : State := s.updFx fun f => { f with posts := f.posts ++ [(i, b)] }

/-- VANY: the OR over the active elements. -/
def execVany (v : VWord) (s : State) : Out :=
  .next (s.posts (v.imm.toNat % 32) ((s.on v).any (s.mskEl v.va.toNat)))
/-- VALL: the AND over the active elements. -/
def execVall (v : VWord) (s : State) : Out :=
  .next (s.posts (v.imm.toNat % 32) ((s.on v).all (s.mskEl v.va.toNat)))

/-- vl for the rest of the block, and for the CSR when the convoy retires (R108, R276); the banks that are not idle follow. -/
def State.newVl (s : State) (n : Nat) : State :=
  let b := BitVec.ofNat 18 n
  let s := s.updFx fun f => { f with vl := some b }
  let s : State := { s with act := { s.act with snap := { s.act.snap with vl := b } } }
  { s with act := { s.act with banks := s.lay.busy } }

/-- VTRIM: vl := min(vl, ffst.IDX), c25 when it fell (R312). An earlier word of the convoy may have written ffst (R111). -/
def execVtrim (_ : VWord) (s : State) : Out :=
  let idx := ((s.act.fx.ffst.getD (s.thread s.act.tid).csr.ffst).extractLsb' 0 32).toNat
  .next ((s.posts 25 (decide (idx < s.lay.vl))).newVl (min s.lay.vl idx))

/-- VSETVLB: vl := min(v, mvl, VLC) (R312). Element 0 is read whatever vl holds. -/
def execVsetvlb (v : VWord) (s : State) : Out :=
  let x := if v.so = 1 then (s.slot v).toNat else s.regEl v.va.toNat (s.wA v) ⟨s.lay.first, 0, 0⟩
  .next (s.newVl (min x (min (s.vcore.mvl s.act.snap.vctx) (s.thread s.act.tid).vlc.toNat)))

end Sys2Proof.Machine
end

