-- ==== Sys2Proof/Machine/VFloat.lean ====
section
/-! DEFINITION. Floating-point words and conversions (R310, R313, R314). -/

namespace Sys2Proof.Machine

/-- Format code and rounding override of an FP word (R254). -/
def fpCode (v : VWord) : Nat := v.fn.toNat % 4
def fpOver (v : VWord) : Nat := v.fn.toNat / 4

/-- An FP word of A. -/
def State.fp1 (s : State) (v : VWord) (f : Fmt → Rm → Fv → Nat × BitVec 8) : State :=
  let k := fpCode v
  s.rounded (fpOver v) (s.eachOn v (fpDst k v.vd.toNat) fun e =>
    f (fpFmt k) (s.rm (fpOver v) e.i) ((fpFmt k).read (s.fpEl k v.va.toNat e)))

/-- An FP word of A and B. -/
def State.fp2 (s : State) (v : VWord) (f : Fmt → Rm → Fv → Fv → Nat × BitVec 8) : State :=
  let k := fpCode v
  s.rounded (fpOver v) (s.eachOn v (fpDst k v.vd.toNat) fun e =>
    f (fpFmt k) (s.rm (fpOver v) e.i) ((fpFmt k).read (s.fpEl k v.va.toNat e)) ((fpFmt k).read (s.fpB v k e)))

/-- VFADD. -/
def execVfadd (v : VWord) (s : State) : Out := .next (s.fp2 v fun f rm a b => f.add rm a b)
/-- VFSUB. -/
def execVfsub (v : VWord) (s : State) : Out := .next (s.fp2 v fun f rm a b => f.add rm a b.negate)
/-- VFMUL. -/
def execVfmul (v : VWord) (s : State) : Out := .next (s.fp2 v fun f rm a b => f.mul rm a b)
/-- VFMA: a × b + d₀ with one rounding (R195). -/
def execVfma (v : VWord) (s : State) : Out :=
  let k := fpCode v
  .next (s.rounded (fpOver v) (s.eachOn v (fpDst k v.vd.toNat) fun e =>
    (fpFmt k).fma (s.rm (fpOver v) e.i) ((fpFmt k).read (s.fpEl k v.va.toNat e)) ((fpFmt k).read (s.fpB v k e))
      ((fpFmt k).read (s.fpEl k v.vd.toNat e))))
/-- VFMIN (R192). -/
def execVfmin (v : VWord) (s : State) : Out :=
  .next (s.eachOn v (fpDst (fpCode v) v.vd.toNat) fun e =>
    (fpFmt (fpCode v)).minmax false (s.fpEl (fpCode v) v.va.toNat e) (s.fpB v (fpCode v) e))
/-- VFMAX (R192). -/
def execVfmax (v : VWord) (s : State) : Out :=
  .next (s.eachOn v (fpDst (fpCode v) v.vd.toNat) fun e =>
    (fpFmt (fpCode v)).minmax true (s.fpEl (fpCode v) v.va.toNat e) (s.fpB v (fpCode v) e))
/-- VFDIV. -/
def execVfdiv (v : VWord) (s : State) : Out := .next (s.fp2 v fun f rm a b => f.div rm a b)
/-- VFSQRT. -/
def execVfsqrt (v : VWord) (s : State) : Out := .next (s.fp1 v fun f rm a => f.sqrt rm a)
/-- VFRECIP: 1 / a. -/
def execVfrecip (v : VWord) (s : State) : Out := .next (s.fp1 v fun f rm a => f.div rm (.fin false 1 0) a)
/-- VFRSQRT: 1 / √a. -/
def execVfrsqrt (v : VWord) (s : State) : Out := .next (s.fp1 v fun f rm a => f.rsqrt rm a)
/-- VFEXP2: 2^a. -/
def execVfexp2 (v : VWord) (s : State) : Out := .next (s.fp1 v fun f rm a => f.exp2 rm a)

/-- The conditions of VFCMP (R314), with INV where the table raises it. -/
def fcmp (c : Nat) (a b : Fv) : Bool × BitVec 8 :=
  let unord := a.isNan || b.isNan
  let inv := if unord && (c == 1 || c == 2 || a.isSig || b.isSig) then fINV else 0
  match c with
  | 0 => (!unord && a.cmpEq b, inv)
  | 1 => (!unord && a.cmpLt b, inv)
  | 2 => (!unord && (a.cmpLt b || a.cmpEq b), inv)
  | 3 => (unord, inv)
  | _ => (unord || !a.cmpEq b, inv)

/-- VFCMP. -/
def execVfcmp (v : VWord) (s : State) : Out :=
  let k := fpCode v
  .next (s.eachOn v (.msk (v.vd.toNat % 8)) fun e =>
    let r := fcmp (v.imm.toNat % 8) ((fpFmt k).read (s.fpEl k v.va.toNat e)) ((fpFmt k).read (s.fpB v k e))
    (b2n r.1, r.2))

/-- The class of a datum (R314): its bit. -/
def Fmt.classOf (f : Fmt) (bits : Nat) : Nat :=
  match f.read bits with
  | .nan sig => if sig then 8 else 9
  | .inf neg => if neg then 0 else 7
  | .fin neg m _ =>
    if m = 0 then (if neg then 3 else 4)
    else if m < 2 ^ f.fb then (if neg then 2 else 5)
    else if neg then 1 else 6

/-- VFCLASS: a 10-bit code. -/
def execVfclass (v : VWord) (s : State) : Out :=
  .next (s.eachOn v (.reg v.vd.toNat 10 false) fun e =>
    (2 ^ (fpFmt (fpCode v)).classOf (s.fpEl (fpCode v) v.va.toNat e), 0))

/-- A datum times 2^n. -/
def Fv.scale (a : Fv) (n : Int) : Fv :=
  match a with
  | .fin neg m e => .fin neg m (e + n)
  | a => a

/-- VFSCALE: a × 2^n, n a 16-bit signed integer of VB or the slot. -/
def execVfscale (v : VWord) (s : State) : Out :=
  let k := fpCode v
  .next (s.rounded (fpOver v) (s.eachOn v (fpDst k v.vd.toNat) fun e =>
    let n := toSigned 16 (if v.so = 1 then (s.slot v).toNat else s.regEl v.vb.toNat 16 e)
    (fpFmt k).ofFv (s.rm (fpOver v) e.i) (((fpFmt k).read (s.fpEl k v.va.toNat e)).scale n)))

/-- VFSGN: a with its sign from b by IMM[1:0]; a NaN gives the canonical NaN (R191). -/
def execVfsgn (v : VWord) (s : State) : Out :=
  let k := fpCode v
  let f := fpFmt k
  .next (s.eachOn v (fpDst k v.vd.toNat) fun e =>
    let a := s.fpEl k v.va.toNat e
    let sa := bitOf a (f.width - 1)
    let sb := bitOf (s.fpB v k e) (f.width - 1)
    if (f.read a).isNan then f.nanR (f.read a).isSig
    else
      let n := match v.imm.toNat % 4 with | 0 => sb | 1 => !sb | _ => sa != sb
      (a % 2 ^ (f.width - 1) + f.sgn n, 0))

/-! VCVT (R310). -/

/-- An FP value as an integer of `n` bits (R189). -/
def fpToInt (rm : Rm) (signed : Bool) (n : Nat) (a : Fv) : Nat × BitVec 8 :=
  match a with
  | .nan _ => (0, fINV)
  | .inf neg => satTo signed n (if neg then -((2 ^ 64 : Nat) : Int) else ((2 ^ 64 : Nat) : Int))
  | .fin neg m e =>
    let r := intRound rm neg m e
    let x := satTo signed n r.1
    (x.1, x.2 ||| (if r.2 then fINX else 0))

/-- A sign-magnitude lane form of `w` planes (R175). -/
def smVal (w x : Nat) : Int :=
  let m : Int := ((x % 2 ^ (w - 1) : Nat) : Int)
  if bitOf x (w - 1) then -m else m

/-- An integer in sign-magnitude of `w` planes: a magnitude beyond w - 1 planes saturates; 0 has sign 0. -/
def smOf (w : Nat) (x : Int) : Nat × BitVec 8 :=
  let lim := 2 ^ (w - 1) - 1
  let m := min x.natAbs lim
  (signMag w (decide (x < 0) && m ≠ 0) m, if lim < x.natAbs then fSAT else 0)

/-- The elementwise function of a kind, and its destination. -/
def State.cvt (s : State) (v : VWord) (e : El) : Nat × BitVec 8 :=
  let f := v.imm.toNat % 4
  let g := v.imm.toNat / 16 % 4
  let rm := s.rm (v.imm.toNat / 4 % 4) e.i
  let a := v.va.toNat
  match v.fn.toNat with
  | 0 => (fpFmt f).ofInt rm (s.opA v true e) 0
  | 1 => (fpFmt f).ofInt rm (s.opA v false e) 0
  | 2 => fpToInt rm true (s.wD v) ((fpFmt f).read (s.fpEl f a e))
  | 3 => fpToInt rm false (s.wD v) ((fpFmt f).read (s.fpEl f a e))
  | 4 => (fpFmt g).convert (fpFmt f) rm (s.fpEl g a e)
  | 5 => satTo true (s.wD v) (smVal (s.wA v) (s.regEl a (s.wA v) e))
  | 6 => smOf (s.wD v) (s.opA v true e)
  | 7 => satTo true (s.wD v) (toSigned 32 (s.pairEl a e))
  | 8 => (wrapTo 32 (s.opA v true e), 0)
  | 9 => (fpFmt f).ofInt rm (toSigned 32 (s.pairEl a e)) 0
  | _ => fpToInt rm true 32 ((fpFmt f).read (s.fpEl f a e))

/-- The destination of a kind. -/
def State.cvtDst (s : State) (v : VWord) : Dst :=
  let d := v.vd.toNat
  match v.fn.toNat with
  | 0 | 1 | 4 | 9 => fpDst v.imm.toNat d
  | 2 | 5 | 7 => .reg d (s.wD v) true
  | 8 | 10 => .pair d true
  | _ => .reg d (s.wD v) false

/-- Whether a kind rounds. -/
def cvtRounds (fn : Nat) : Bool := fn ≤ 4 || fn == 9 || fn == 10

/-- VCVT. -/
def execVcvt (v : VWord) (s : State) : Out :=
  let t := s.eachOn v (s.cvtDst v) (s.cvt v)
  .next (if cvtRounds v.fn.toNat then s.rounded (v.imm.toNat / 4 % 4) t else t)

end Sys2Proof.Machine
end

