-- ==== Sys2Proof/Machine/VCross.lean ====
section
/-! DEFINITION. Cross-lane words: reductions, scans, moves across elements, lists (R315 to R318). -/

namespace Sys2Proof.Machine

/-- Ops of VRED and VSCAN by FN (R316): how A is read. -/
def redSigned (fn : Nat) : Bool := !(fn == 1 || fn == 4 || fn == 5)

/-- One step of an op on integers; the logic ops act on a extended to 32 bits. -/
def redOp (fn : Nat) (x y : Int) : Int :=
  match fn with
  | 0 | 1 => x + y
  | 2 | 4 => min x y
  | 3 | 5 => max x y
  | 6 => toSigned 32 (ofSigned 32 x &&& ofSigned 32 y)
  | 7 => toSigned 32 (ofSigned 32 x ||| ofSigned 32 y)
  | _ => toSigned 32 (ofSigned 32 x ^^^ ofSigned 32 y)

/-- The identity of an op at `n` bits in its signedness (R316, R317). -/
def redIdent (fn n : Nat) : Int :=
  match fn with
  | 2 => ((2 ^ (n - 1) : Nat) : Int) - 1
  | 3 => -((2 ^ (n - 1) : Nat) : Int)
  | 4 => ((2 ^ n : Nat) : Int) - 1
  | 6 => -1
  | _ => 0

/-- VRED: the active elements combined, to element 0 of the pair VD. -/
def execVred (v : VWord) (s : State) : Out :=
  let fn := v.fn.toNat
  let g := redSigned fn
  let r := satTo g 32 ((s.on v).foldl (fun x e => redOp fn x (s.opA v g e)) (redIdent fn 32))
  .next (s.put0 v (.pair v.vd.toNat g) r.1 r.2)

/-- The exact sum of some data, rounded once; an empty sum is +0 (R316, R191). -/
def Fmt.sum (f : Fmt) (rm : Rm) (vs : List Fv) : Nat × BitVec 8 :=
  if vs.any Fv.isNan then f.nanR (vs.any Fv.isSig)
  else
    let infs := vs.filterMap fun v => match v with | .inf n => some n | _ => none
    match infs with
    | n :: ns => if ns.all (· == n) then f.infR n else f.nanR true
    | [] =>
      let fins := vs.map fun v => match v with | .fin n m e => (n, m, e) | _ => (false, 0, (0 : Int))
      let e0 := fins.foldl (fun x p => min x p.2.2) 0
      let x := fins.foldl (fun (x : Int) p => x + scaled p.1 p.2.1 p.2.2 e0) 0
      if x ≠ 0 then f.round rm (decide (x < 0)) x.natAbs e0
      else
        let neg := match fins with
          | [] => false
          | p :: ps => if fins.all (fun q => q.2.1 == 0) && ps.all (fun q => q.1 == p.1) then p.1 else rm.mode == 3
        (f.sgn neg, 0)

/-- The minimum or maximum of some data bit for bit; the empty result is +∞ or -∞. -/
def Fmt.extreme (f : Fmt) (isMax : Bool) : List Nat → Nat × BitVec 8
  | [] => (f.sgn isMax + f.infBits, 0)
  | x :: xs =>
    if (x :: xs).any fun y => (f.read y).isNan then f.nanR ((x :: xs).any fun y => (f.read y).isSig)
    else (xs.foldl (fun a b => (f.minmax isMax a b).1) x, 0)

/-- VFRED: sum, minimum or maximum of the active elements, to element 0 of VD. -/
def execVfred (v : VWord) (s : State) : Out :=
  let k := fpCode v
  let f := fpFmt k
  let xs := (s.on v).map (s.fpEl k v.va.toNat)
  let op := v.imm.toNat % 4
  let r := if op = 0 then f.sum (s.rm (fpOver v) 0) (xs.map f.read) else f.extreme (op == 2) xs
  let t := s.put0 v (fpDst k v.vd.toNat) r.1 r.2
  .next (if op = 0 then s.rounded (fpOver v) t else t)

/-- The results of a scan: running value, whether an element has been seen, the elements left. -/
def scanFrom (fn wd : Nat) (excl : Bool) : Int → Bool → List (El × Int) → List Res
  | _, _, [] => []
  | acc, seen, (e, a) :: r =>
    let nxt := if seen then redOp fn acc a else a
    let g := redSigned fn
    let res := if excl && !seen then (ofSigned wd (redIdent fn wd), 0) else satTo g wd (if excl then acc else nxt)
    { el := e, val := res.1, fl := res.2 } :: scanFrom fn wd excl nxt true r

/-- VSCAN: the op over the active elements up to, or before, each (R317). -/
def execVscan (v : VWord) (s : State) : Out :=
  let fn := v.fn.toNat
  let g := redSigned fn
  let rs := scanFrom fn (s.wD v) (v.imm.toNat % 2 == 1) 0 false ((s.on v).map fun e => (e, s.opA v g e))
  .next ((s.put (s.dstReg v g) rs).flag v rs)

/-- SGN of the source register in the context's first bank (R315). -/
def State.srcSgn (s : State) (v : VWord) : Bool := (s.vcore.regPlanes s.lay.first v.va.toNat).1

/-- Element `i` of A at wd, active or not; 0 from vl upward. -/
def State.srcEl (s : State) (v : VWord) (i : Nat) : Nat :=
  if i < s.lay.vl then s.regEl v.va.toNat (s.wD v) (s.lay.el i) else 0

/-- VPERM: D[i] := A[x_i]. -/
def execVperm (v : VWord) (s : State) : Out :=
  .next (s.eachOn v (s.dstReg v (s.srcSgn v)) fun e =>
    (s.srcEl v (if fnBit v 0 then s.pairEl v.vb.toNat e else s.regEl v.vb.toNat (s.wB v) e), 0))

/-- The amount of a slide (R315). -/
def State.amount (s : State) (v : VWord) : Nat := if v.so = 1 then (s.slot v).toNat else v.imm.toNat

/-- VSLIDEUP: D[i] := A[i - k] for i ≥ k. -/
def execVslideup (v : VWord) (s : State) : Out :=
  let k := s.amount v
  let rs := ((s.on v).filter fun e => k ≤ e.i).map fun e => { el := e, val := s.srcEl v (e.i - k) : Res }
  .next (s.put (s.dstReg v (s.srcSgn v)) rs)

/-- VSLIDEDN: D[i] := A[i + k], 0 from vl upward. -/
def execVslidedn (v : VWord) (s : State) : Out :=
  .next (s.eachOn v (s.dstReg v (s.srcSgn v)) fun e => (s.srcEl v (e.i + s.amount v), 0))

/-- VBCAST: D[i] := A[k]. -/
def execVbcast (v : VWord) (s : State) : Out :=
  .next (s.eachOn v (s.dstReg v (s.srcSgn v)) fun _ => (s.srcEl v (s.amount v), 0))

/-- Values to the first elements of a destination, and their number to element 0 of the pair VB (R318); `all`: every bank of
the destination is written, so that it takes the signedness of the values (R315). -/
def State.putList (s : State) (v : VWord) (d : Dst) (all : Bool) (xs : List Nat) : State :=
  if s.lay.vl = 0 then s
  else
    let rs := xs.zipIdx.map fun p => { el := s.lay.el p.2, val := p.1 : Res }
    (if all && !xs.isEmpty then s.put d rs else s.putAt d rs).putAt (.pair v.vb.toNat false) [⟨s.lay.el 0, xs.length, 0⟩]

/-- VCOMPACT: the active elements of A in ascending order. -/
def execVcompact (v : VWord) (s : State) : Out :=
  .next (s.putList v (s.dstReg v (s.srcSgn v)) true ((s.on v).map fun e => s.srcEl v e.i))

/-- VNZSCAN: the indices of the active elements of A that are not zero. -/
def execVnzscan (v : VWord) (s : State) : Out :=
  .next (s.putList v (.pair v.vd.toNat false) false
    (((s.on v).filter fun e => s.regEl v.va.toNat (s.wA v) e ≠ 0).map El.i))

/-- Running count of set bits at active elements. -/
def pfxFrom (s : State) (m : Nat) : Nat → List El → List Res
  | _, [] => []
  | n, e :: r => { el := e, val := n } :: pfxFrom s m (n + b2n (s.mskEl m e)) r

/-- VPFXPOP: set bits of m(VA) at active j < i. -/
def execVpfxpop (v : VWord) (s : State) : Out :=
  .next (s.put (.pair v.vd.toNat false) (pfxFrom s v.va.toNat 0 (s.on v)))

/-- VRAMP: i + k. -/
def execVramp (v : VWord) (s : State) : Out :=
  .next (s.eachOn v (.pair v.vd.toNat false) fun e => ((e.i + s.amount v) % 2 ^ 32, 0))

/-- VBAR: a lane barrier, which Run waits at, and nothing else. -/
def execVbar (_ : VWord) (s : State) : Out := .next s

end Sys2Proof.Machine
end

