-- ==== Sys2Proof/Machine/VMem.lean ====
section
/-! DEFINITION. Memory words: loads and stores, first fault, atomics, progress words (R118, R151, R154, R158, R167, R320 to
R327, R329, R330). -/

namespace Sys2Proof.Machine

/-! Addresses (R320, R321). -/

/-- How a word addresses its elements. -/
inductive Addr where
  | unit | strided | indexed | segment
deriving DecidableEq, Repr

/-- One access of an element: its field, its virtual address, its bytes, and the bit it starts at. -/
structure Acc where
  el  : El
  f   : Nat := 0
  va  : Word
  n   : Nat
  off : Nat := 0
deriving DecidableEq, Repr

/-- Element size code, S and P of a memory word. -/
def eszOf (v : VWord) : Nat := v.fn.toNat % 4
def memS (v : VWord) : Bool := fnBit v 2
def memP (v : VWord) : Bool := fnBit v 3
/-- Bytes of a container. -/
def szOf (v : VWord) : Nat := 2 ^ eszOf v
/-- Fields of a segment word. -/
def nfOf (k : Addr) (v : VWord) : Nat := match k with | .segment => v.imm.toNat % 16 + 1 | _ => 1
/-- Options of R253. -/
def ordOf (v : VWord) : Bool := v.imm.getLsbD 14
def ovtOf (v : VWord) : Bool := v.imm.getLsbD 13
def memLast (v : VWord) : Bool := v.imm.getLsbD 12 && !v.imm.getLsbD 11
def scopeOf (v : VWord) : BitVec 3 := v.imm.extractLsb' 8 3

/-- Byte offset of field `f` of element `e` from the base (R321). -/
def State.offset (s : State) (k : Addr) (v : VWord) (e : El) (f : Nat) : Word :=
  match k with
  | .unit => word (szOf v * e.i)
  | .strided => (s.act.snap.g[v.vb.toNat % 8]'(Nat.mod_lt _ (by decide))) * word e.i
  | .indexed =>
    let x := if v.imm.getLsbD 2 then s.pairEl v.vb.toNat e else s.regEl v.vb.toNat (s.wB v) e
    word (x * 2 ^ (v.imm.toNat % 4))
  | .segment => word (szOf v * (nfOf k v * e.i + f))

/-- The accesses of the active elements in ascending order. Bit-packed elements lie at the register width from bit 0. -/
def State.accs (s : State) (k : Addr) (v : VWord) : List Acc :=
  (s.on v).flatMap fun e =>
    if eszOf v = 3 then
      let w := s.wD v
      [{ el := e, va := s.slot v + word (w * e.i / 8), n := ceilDiv (w * e.i % 8 + w) 8, off := w * e.i % 8 }]
    else (List.range (nfOf k v)).map fun f => { el := e, f, va := s.slot v + s.offset k v e f, n := szOf v }

/-! Faults (R323). -/

/-- Mode and address space of the executing block. -/
def State.vmode (s : State) : Mode := if s.act.mmode then .m else .u
def State.vroot (s : State) : BitVec 30 := (s.thread s.act.tid).csr.vptbase
def State.vdie (s : State) : Nat := dieOf s.act.tid

/-- A fault of a word: element number (all ones for its progress word), cause, address, and bits 60 and up of mtrapx. -/
structure VFault where
  i    : Nat
  code : Nat
  va   : Word
  home : Nat := 0
deriving DecidableEq, Repr

/-- What an access finds at its home: a failed adjacency, a memory error or a poisoned line (R21, R53, R55). -/
def State.homeBad (s : State) (reads : Bool) (a : Acc) (pas : List Nat) : Option VFault :=
  (pas.zipIdx).findSome? fun p => (s.homeErr s.vdie reads p.1).map fun e =>
    ⟨a.el.i, (XErr.home 0 e).code, a.va + word p.2, 2 ^ 61 + e.flag⟩

/-- An access translated: its bytes, or its fault, or code 0 where it has only to wait for the table (R52, R169). Atomics
must be naturally aligned. -/
def State.reach (s : State) (need : Need) (aligned : Bool) (a : Acc) : Except VFault (Acc × List Nat) :=
  if aligned && a.va.toNat % a.n ≠ 0 then .error ⟨a.el.i, 5, a.va, 0⟩
  else match s.bytePas s.vdie s.vmode s.vroot need a.n a.va with
    | .error (x, va) => .error ⟨a.el.i, x.code, va, x.flags⟩
    | .ok pas => .ok (a, pas)

/-- The word traps: VECTOR_ACCESS, with ffst (R323); code 0 is a wait. -/
def State.vfault (s : State) (f : VFault) : State :=
  if f.code = 0 then s.vstalled else
  s.vtrapped { cause := 25, tval := f.va, info := word (f.code + 2 ^ 8 * (s.act.addr.toNat % 2 ^ 48) + f.home) }
    (some (BitVec.ofNat 40 (f.i % 2 ^ 32 + 2 ^ 32 * f.code)))

/-- All accesses of a word, or its fault, translation first. -/
def State.reachAll (s : State) (need : Need) (aligned : Bool) (as : List Acc) : Except VFault (List (Acc × List Nat)) :=
  as.mapM (s.reach need aligned)

/-! What a word waits for. -/

/-- Held elements of the thread touch some bytes (R118). -/
def Thread.holds (t : Thread) (pas : List Nat) : Bool :=
  t.held.any fun h => h.elems.any fun e => e.pas.any pas.contains

/-- Some bank has not retired every convoy before the one that executes: what reads memory waits for it, a diverged bank
included (R118). -/
def State.lagging (s : State) : Bool := (s.thread s.act.tid).banks.any fun p => decide (p.2.n < s.act.n)

/-- A load cannot perform yet: a bank lags, earlier held elements of the thread touch its bytes, an engine owns a line,
or a window holds its channel (R118, R169, R52). -/
def State.loadWaits (s : State) (xs : List (Acc × List Nat)) : Bool :=
  !xs.isEmpty && s.lagging || xs.any fun x => (s.thread s.act.tid).holds x.2 || x.2.any fun pa => s.owned (lineOf pa) || s.pathHolds s.vdie pa

/-! Loads. -/

/-- The bytes of an access as its core sees them. -/
def State.accNum (s : State) (pas : List Nat) : Nat := leNat (pas.map (s.viewByte (coreOf s.act.tid)))

/-- The mark of a load's access that has performed, apart from those of atomics and of probes (R323). -/
def loadKey (a : Acc) : Nat := 2 ^ 21 * (a.f + 1) + a.el.i
/-- The mark of a fragment of it, the one in the lower line first (R325). -/
def partKey (a : Acc) (k : Nat) : Nat := 2 ^ 27 * (k + 1) + loadKey a

/-- The value that an access of an earlier execution of the word has read, if it has performed. -/
def State.loaded? (s : State) (a : Acc) : Option Nat := (s.thread s.act.tid).done.lookup (loadKey a)

/-- Bytes of an access in the line that it begins in. -/
def Acc.first (a : Acc) : Nat := min a.n (64 - a.va.toNat % 64)
/-- The bytes of fragment `k` of an access. -/
def Acc.part (x : Acc × List Nat) (k : Nat) : List Nat := if k = 0 then x.2.take x.1.first else x.2.drop x.1.first

/-- What a fragment has read, or memory now. -/
def State.partNum (s : State) (x : Acc × List Nat) (k : Nat) : Nat :=
  ((s.thread s.act.tid).done.lookup (partKey x.1 k)).getD (s.accNum (Acc.part x k))

/-- What an access reads: its kept value, or its fragments. -/
def State.loadNum (s : State) (x : Acc × List Nat) : Nat :=
  (s.loaded? x.1).getD (s.partNum x 0 + 2 ^ (8 * x.1.first) * s.partNum x 1)

/-- The die observes what a word reads (R164). -/
def State.observeAll (s : State) (pas : List Nat) : State :=
  (pas.map lineOf).eraseDups.foldl (fun (s : State) l => s.observe s.vdie l) s

/-- The destination of field `f` of a load. -/
def State.loadDst (s : State) (v : VWord) (f : Nat) : Dst :=
  if memP v then .pair (v.vd.toNat + 2 * f) false else .reg (v.vd.toNat + f) (s.wD v) (memS v)

/-- What a load writes (R320): the value saturated to wd, a pair or packed bits unchanged. -/
def State.loadRes (s : State) (v : VWord) (x : Acc × List Nat) : Res :=
  let n := s.loadNum x
  if eszOf v = 3 then { el := x.1.el, val := n / 2 ^ x.1.off % 2 ^ s.wD v }
  else if memP v then { el := x.1.el, val := n }
  else
    let r := satTo (memS v) (s.wD v) (valOf (memS v) (8 * szOf v) n)
    { el := x.1.el, val := r.1, fl := r.2 }

/-- The elements of a load are written. -/
def State.loadAll (s : State) (k : Addr) (v : VWord) (xs : List (Acc × List Nat)) : State :=
  let t := (List.range (nfOf k v)).foldl (fun (t : State) f =>
    let rs := (xs.filter fun x => x.1.f == f).map (s.loadRes v)
    (t.put (s.loadDst v f) rs).flag v rs) s
  let pas := xs.flatMap (·.2)
  let t := t.observeAll pas
  if memLast v then (pas.map lineOf).eraseDups.foldl State.lastUse t else t

/-- The accesses below element `i` perform and are kept with the pending trap, so that they never perform twice (R323). -/
def State.keepLoads (s : State) (xs : List (Acc × List Nat)) (i : Nat) : State :=
  let low := xs.filter fun x => decide (x.1.el.i < i) && (s.loaded? x.1).isNone
  (low.foldl (fun (t : State) x => t.updThread s.act.tid fun th =>
    { th with done := (loadKey x.1, s.loadNum x) :: th.done }) s).observeAll (low.flatMap (·.2))

/-- The fragments of a load's accesses that have not performed, in element order. -/
def State.loadParts (s : State) (xs : List (Acc × List Nat)) : List ((Acc × List Nat) × Nat) :=
  (xs.flatMap fun x => if x.1.first < x.1.n then [(x, 0), (x, 1)] else [(x, 0)]).filter fun p =>
    (s.loaded? p.1.1).isNone && ((s.thread s.act.tid).done.lookup (partKey p.1.1 p.2)).isNone

/-- Some fragments of a load perform before the others and are kept: those of `which`, by their places, that no lower element
keeps back, by ORD = 1 or by a byte they share (R158, R325). -/
def State.loadSome (s : State) (v : VWord) (xs : List (Acc × List Nat)) (which : List Nat) : State :=
  let ps := s.loadParts xs
  let mine := (ps.zipIdx.filter fun q => which.contains q.2).map (·.1)
  let back (q : (Acc × List Nat) × Nat) : Bool := ps.any fun p => decide (p.1.1.el.i < q.1.1.el.i) && !mine.contains p
    && (ordOf v || (Acc.part p.1 p.2).any (Acc.part q.1 q.2).contains)
  let go := mine.filter fun q => !back q
  (go.foldl (fun (t : State) q => t.updThread s.act.tid fun th =>
    { th with done := (partKey q.1.1 q.2, s.accNum (Acc.part q.1 q.2)) :: th.done }) s).observeAll
      (go.flatMap fun q => Acc.part q.1 q.2)

/-- A load (R320, R321, R323). -/
def State.vload (s : State) (k : Addr) (v : VWord) : State :=
  match s.reachAll .read false (s.accs k v) with
  | .error f => s.vfault f
  | .ok xs =>
    let todo := xs.filter fun x => (s.loaded? x.1).isNone
    if s.loadWaits todo then s.vstalled
    else match todo.findSome? fun x => s.homeBad true x.1 x.2 with
      | some f => (s.keepLoads xs f.i).vfault f
      | none => match s.act.only with
        | some which => (s.loadSome v xs which).vstalled
        | none => s.loadAll k v xs

/-- VLD. -/
def execVld (v : VWord) (s : State) : Out := .next (s.vload .unit v)
/-- VLDS. -/
def execVlds (v : VWord) (s : State) : Out := .next (s.vload .strided v)
/-- VLDX. -/
def execVldx (v : VWord) (s : State) : Out := .next (s.vload .indexed v)
/-- VLDSEG. -/
def execVldseg (v : VWord) (s : State) : Out := .next (s.vload .segment v)

/-- The accesses before the first that faults, and that fault (R324). -/
def State.untilFault (s : State) : List Acc → List (Acc × List Nat) × Option VFault
  | [] => ([], none)
  | a :: as =>
    match s.reach .read false a with
    | .error f => ([], some f)
    | .ok x =>
      match s.homeBad true x.1 x.2 with
      | some f => ([], some f)
      | none => let r := s.untilFault as; (x :: r.1, r.2)

/-- ffst for the convoy: first faulting element and cause (R261). -/
def State.setFfst (s : State) (i code : Nat) : State :=
  s.updFx fun f => { f with ffst := some (BitVec.ofNat 40 (i % 2 ^ 32 + 2 ^ 32 * code)) }

/-- VLDFF (R324). -/
def execVldff (v : VWord) (s : State) : Out :=
  let (xs, bad) := s.untilFault (s.accs .unit v)
  if s.loadWaits xs || bad.any (·.code == 0) then .next s.vstalled
  else .next (match bad with
    | none => (s.loadAll .unit v xs).setFfst (2 ^ 32 - 1) 0
    | some f => if xs.isEmpty then s.vfault f else (s.loadAll .unit v xs).setFfst f.i f.code)

/-! Stores. -/

/-- The progress word of an NTF word: its place, or the word's fault (R167). -/
def State.progressWord (s : State) (v : VWord) : Except VFault (Option Notify) :=
  if v.imm.getLsbD 7 && s.lay.vl ≠ 0 then
    let va := s.act.snap.g[v.imm.toNat / 16 % 8]'(Nat.mod_lt _ (by decide))
    let a : Acc := { el := ⟨0, 0, 2 ^ 32 - 1⟩, va, n := 8 }
    match s.reach .write true a with
    | .error f => .error f
    | .ok (_, pas) =>
      .ok (some { word := pas.headD 0, count := word s.lay.vl, scope := scopeOf v, words := [], va, addr := s.act.addr })
  else .ok none

/-- The banks that stand at the convoy, those that execute it now included. -/
def State.abreast (s : State) : List Nat :=
  if s.act.still then s.act.banks
  else ((s.thread s.act.tid).banks.filter fun p => p.2.div == .joined && p.2.n == s.act.n).map (·.1)

/-- All accesses of a held word, or the fault of its lowest element on the banks that stand at it (R151, R323). -/
def State.reachHeld (s : State) (aligned : Bool) (accs : State → List Acc) : Except VFault (List (Acc × List Nat)) :=
  match s.reachAll .write aligned (accs s) with
  | .ok xs => .ok xs
  | .error f =>
    match s.reachAll .write aligned (accs { s with act := { s.act with banks := s.abreast } }) with
    | .error g => .error g
    | .ok _ => .error f

/-- The data of a store element, with flags (R320). -/
def State.storeRes (s : State) (v : VWord) (a : Acc) : Nat × BitVec 8 :=
  if memP v then (s.pairEl (v.vd.toNat + 2 * a.f) a.el, 0)
  else
    let x := s.regEl (v.vd.toNat + a.f) (s.wD v) a.el
    if eszOf v = 3 then (x * 2 ^ a.off, 0) else satTo (memS v) (8 * szOf v) (valOf (memS v) (s.wD v) x)

/-- The element as it is held until it performs (R118). -/
def State.storeElem (s : State) (v : VWord) (x : Acc × List Nat) : Elem :=
  let (a, pas) := x
  { idx := a.el.i, va := a.va, pas, bytes := leBytes a.n (s.storeRes v a).1
    mask := if eszOf v = 3 then leBytes a.n ((2 ^ s.wD v - 1) * 2 ^ a.off) else List.replicate a.n 0xFF }

/-- A held word takes its place in convoy order. -/
def placeHeld (hs : List Held) (h : Held) : List Held :=
  (hs.filter fun x => decide (x.need ≤ h.need)) ++ [h] ++ hs.filter fun x => decide (h.need < x.need)

/-- The fragments of an element, one per line, each an access of its own (R154, R325). -/
def Elem.fragments (e : Elem) : List Elem :=
  let n := 64 - e.va.toNat % 64
  if e.pas.length ≤ n then [e]
  else [{ e with pas := e.pas.take n, bytes := e.bytes.take n, mask := e.mask.take n }
      , { e with va := e.va + word n, pas := e.pas.drop n, bytes := e.bytes.drop n, mask := e.mask.drop n }]

/-- Elements join the store queue: the word performs after its own convoy and every earlier one have retired on every bank
(R118, R151); a diverged bank's word waits for the convoys before the divergence. -/
def State.hold (s : State) (v : VWord) (atomic vamof : Bool) (es : List Elem) : State :=
  if es.isEmpty then s
  else
    let t := s.thread s.act.tid
    let need := if s.act.still then s.act.n else s.act.n + 1
    let pins := (es.flatMap fun e => s.vpages s.vmode s.vroot e.va e.pas.length).eraseDups
    match t.held.find? fun x => !s.act.still && x.need == need && x.addr == s.act.addr with
    | some h => s.updThread s.act.tid fun t => { t with held := t.held.map fun x =>
        if x.id = h.id then { x.join es with pins := (x.pins ++ pins).eraseDups } else x }
    | none =>
      let h : Held := { id := s.nextOp, need, addr := s.act.addr, ord := ordOf v, ovt := ovtOf v
                        scope := scopeOf v, atomic, elems := es, ntf := v.imm.getLsbD 7, vamof, last := memLast v
                        asid := t.csr.vasid, mode := s.vmode, pins }
      { s with nextOp := s.nextOp + 1 }.updThread s.act.tid fun t => { t with held := placeHeld t.held h }

/-- The notify of the word waits for the convoy to retire everywhere (R167). -/
def State.notifies (s : State) (n : Option Notify) : State :=
  match n with | none => s | some p => s.updFx fun f => { f with ntf := some p }

/-- A store (R320, R321, R323): what its elements find at their homes is found when they perform. -/
def State.vstore (s : State) (k : Addr) (v : VWord) : State :=
  match s.progressWord v, s.reachHeld false (·.accs k v) with
  | .error f, _ => s.vfault f
  | _, .error f => s.vfault f
  | .ok n, .ok xs =>
    let rs := xs.map fun x => { el := x.1.el, val := 0, fl := (s.storeRes v x.1).2 : Res }
    ((s.hold v false false ((xs.map (s.storeElem v)).flatMap Elem.fragments)).flag v rs).notifies n

/-- VST. -/
def execVst (v : VWord) (s : State) : Out := .next (s.vstore .unit v)
/-- VSTS. -/
def execVsts (v : VWord) (s : State) : Out := .next (s.vstore .strided v)
/-- VSTX. -/
def execVstx (v : VWord) (s : State) : Out := .next (s.vstore .indexed v)
/-- VSTSEG. -/
def execVstseg (v : VWord) (s : State) : Out := .next (s.vstore .segment v)

/-! Atomics on memory (R326, R327). -/

/-- The integer op of VAMO, and whether its operands are signed. -/
def vamoOp (k : Nat) : AtomOp :=
  match k with
  | 0 => .add | 1 => .swap | 2 => .and | 3 => .or | 4 => .xor | 5 => .min | 6 => .max | 7 => .minu | _ => .maxu
def vamoSigned (k : Nat) : Bool := k == 0 || k == 5 || k == 6
/-- The op and container of VAMOF. -/
def vamofOp (k : Nat) : AtomOp := match k % 8 with | 0 => .fadd | 1 => .fmin | 2 => .fmax | 3 => .fminn | _ => .fmaxn
def vamofKind (v : VWord) : FpKind := if eszOf v = 2 then .fp32 else if v.imm.getLsbD 3 then .bf16 else .fp16

/-- An atomic word: its op and container, whether it is an FP one, the operand of an element and what an old value gives
VD. -/
structure Atom where
  op   : AtomOp
  kind : FpKind
  fp   : Bool
deriving DecidableEq, Repr

def Atom.of (v : VWord) (fp : Bool) : Atom :=
  if fp then ⟨vamofOp v.imm.toNat, vamofKind v, true⟩ else ⟨vamoOp (v.imm.toNat % 16), .fp32, false⟩

/-- FP operations work on values of their container, integer ones on bytes. -/
def AtomOp.isFp : AtomOp → Bool
  | .fadd | .fmin | .fmax | .fminn | .fmaxn => true
  | _ => false

/-- The value an atomic leaves in memory, and its flags. -/
def atomRun (op : AtomOp) (kind : FpKind) (n old x : Nat) : Nat × BitVec 8 :=
  if op.isFp then fpAtomic op kind.fmt old x else (intAtomic op (8 * n) old x, 0)

/-- The operand of an element. -/
def State.atomData (s : State) (v : VWord) (fp : Bool) (e : El) : Nat :=
  if fp then s.fpEl (if eszOf v = 2 then 2 else 0) v.va.toNat e
  else wrapTo (8 * szOf v) (s.opA v (vamoSigned (v.imm.toNat % 16)) e)

/-- What an old value gives VD (R326, R327). -/
def State.atomOld (s : State) (v : VWord) (fp : Bool) (old : Nat) : Nat × BitVec 8 :=
  if fp then (old, 0)
  else
    let g := vamoSigned (v.imm.toNat % 16)
    satTo g (s.wD v) (valOf g (8 * szOf v) old)

def State.atomDst (s : State) (v : VWord) (fp : Bool) : Dst :=
  if fp then fpDst (if eszOf v = 2 then 2 else 0) v.vd.toNat else .reg v.vd.toNat (s.wD v) (vamoSigned (v.imm.toNat % 16))

/-- The accesses of an atomic: base + sz·idx. -/
def State.atomAccs (s : State) (v : VWord) : List Acc :=
  (s.on v).map fun e =>
    { el := e, va := s.slot v + word (szOf v * s.regEl v.vb.toNat (s.wB v) e), n := szOf v }

/-- An element atomic must wait (R118, R162, R169). -/
def State.atomWaits (s : State) (pas : List Nat) : Bool :=
  let tid := s.act.tid
  (s.thread tid).holds pas || s.pendingTo s.vdie (pas.headD 0) pas.length
    || s.syncQueued s.vdie (homeDie (pas.headD 0))
    || pas.any fun pa => s.writeWaits (lineOf pa) tid || s.pathHolds s.vdie pa

/-- Perform the elements of a RET word in ascending order; those performed before a fault are kept (R323, R326). -/
def State.retRun (s : State) (v : VWord) (fp : Bool) : List (Acc × List Nat) → State × Option VFault
  | [] => (s, none)
  | (a, pas) :: r =>
    if (s.thread s.act.tid).done.any (·.1 == a.el.i) then s.retRun v fp r
    else match s.homeBad true a pas with
      | some f => (s, some f)
      | none =>
        let at_ := Atom.of v fp
        let x := s.atomData v fp a.el
        let (old, t) := s.atomicAt s.act.tid (pas.headD 0) a.n fun o => (atomRun at_.op at_.kind a.n o x).1
        let fl := (atomRun at_.op at_.kind a.n old x).2
        let t := t.updThread s.act.tid fun th => { th with done := (a.el.i, old + 2 ^ 64 * fl.toNat) :: th.done }
        t.retRun v fp r

/-- A RET word whose elements have performed writes the old values. -/
def State.retWrite (s : State) (v : VWord) (fp : Bool) (xs : List (Acc × List Nat)) : State :=
  let done := (s.thread s.act.tid).done
  let rs := xs.map fun x =>
    let d := (done.lookup x.1.el.i).getD 0
    let r := s.atomOld v fp (d % 2 ^ 64)
    { el := x.1.el, val := r.1, fl := r.2 ||| BitVec.ofNat 8 (d / 2 ^ 64) : Res }
  (s.put (s.atomDst v fp) rs).flag v rs

/-- VAMO and VAMOF to memory. -/
def State.vatomic (s : State) (v : VWord) (fp : Bool) : State :=
  match s.progressWord v, s.reachHeld true (·.atomAccs v) with
  | .error f, _ => s.vfault f
  | _, .error f => s.vfault f
  | .ok n, .ok xs =>
    if fnBit v 2 then
      let todo := xs.filter fun x => !(s.thread s.act.tid).done.any (·.1 == x.1.el.i)
      if !todo.isEmpty && s.lagging || todo.any fun x => s.atomWaits x.2 then s.vstalled
      else match s.retRun v fp xs with
        | (t, some f) => t.vfault f
        | (t, none) => (t.retWrite v fp xs).notifies n
    else
      let at_ := Atom.of v fp
      let es := xs.map fun x =>
        { idx := x.1.el.i, va := x.1.va, pas := x.2, mask := [], bytes := leBytes x.1.n (s.atomData v fp x.1.el)
          op := some (at_.op, at_.kind) : Elem }
      (s.hold v true fp es).notifies n

/-- VAMO to memory (R326). -/
def execVamo (v : VWord) (s : State) : Out := .next (s.vatomic v false)
/-- VAMOF (R327). -/
def execVamof (v : VWord) (s : State) : Out := .next (s.vatomic v true)

/-! VWAITN (R329) and VPREF (R330). -/

/-- Bound of an element of VWAITN. -/
def State.waitBound (s : State) (v : VWord) (e : El) : Word :=
  word (if fnBit v 3 then s.pairEl v.va.toNat e else s.regEl v.va.toNat (s.wA v) e)

/-- The words a VWAITN arms with `free` entries: those, and the first element left out. -/
def State.armSome (s : State) (v : VWord) (free : Nat) (xs : List (Acc × List Nat)) : Nat × List (Nat × Word) :=
  let idx := match xs[free]? with | some x => x.1.el.i | none => 2 ^ 32 - 1
  (idx, (xs.take free).map fun x => (x.2.headD 0, s.waitBound v x.1.el))

/-- The progress word of an element has reached its bound. -/
def State.waitMet (s : State) (v : VWord) (x : Acc × List Nat) : Bool :=
  decide ((s.waitBound v x.1.el).toNat ≤ s.viewNum (coreOf s.act.tid) (x.2.headD 0) 8)

/-- A home refuses a word of VWAITN: the elements that have reached their bounds have performed and are kept; the lowest of
the others is reported, and the entries are free (R323). -/
def State.waitFault (s : State) (v : VWord) (xs : List (Acc × List Nat)) (f : VFault) : State :=
  let met (x : Acc × List Nat) : Bool := (s.homeBad true x.1 x.2).isNone && s.waitMet v x
  let got := xs.filter met
  let low := ((xs.filter fun x => !met x).head?.map fun x => x.1.el.i).getD f.i
  ((s.updThread s.act.tid fun t =>
    { t with armed := none, done := (got.map fun x => (loadKey x.1, 0)) ++ t.done }).observeAll (got.flatMap (·.2))).vfault
      { f with i := low }

/-- VWAITN: arms, waits until every armed word has reached its bound, then acquires. -/
def execVwaitn (v : VWord) (s : State) : Out :=
  let as := (s.on v).map fun e => { el := e, va := s.slot v + word (8 * e.i), n := 8 : Acc }
  match s.reachAll .read true as with
  | .error f => .next (s.vfault f)
  | .ok all =>
    let xs := all.filter fun x => (s.loaded? x.1).isNone
    match xs.findSome? fun x => s.homeBad true x.1 x.2 with
    | some f => .next (s.waitFault v xs f)
    | none =>
      let free := 256 - s.monitorsUsed (coreOf s.act.tid)
      match (s.thread s.act.tid).armed with
      | none =>
        if free = 0 && !xs.isEmpty then .next s.vstalled
        else .next (s.updThread s.act.tid fun t => { t with armed := some (s.armSome v free xs) }).vstalled
      | some (i, ws) =>
        if ws.all fun p => p.2.toNat ≤ s.viewNum (coreOf s.act.tid) p.1 8 then
          .next (((s.updThread s.act.tid fun t => { t with armed := none }).observeAll (ws.map (·.1))).setFfst i 0)
        else .next s.vstalled

/-- VPREF: it moves lines toward the caches and changes nothing that a program can see. -/
def execVpref (_ : VWord) (s : State) : Out := .next s

/-! Held elements perform (R118, R158, R162, R323). -/

/-- Whether two held elements touch a common byte. -/
def Elem.meets (a b : Elem) : Bool := a.pas.any b.pas.contains

/-- Element `k` of held word `j` of a thread may perform next: the thread is not stopped for a save, the convoys before have
retired, with ORD = 1 the elements before have performed (the accesses of one element have no order), and nothing holds its lines (R118, R130, R158, R162, R169). -/
def State.elemReady (s : State) (tid j k : Nat) : Bool :=
  let t := s.thread tid
  match t.held[j]? with
  | none => false
  | some h =>
    match h.elems[k]? with
    | none => false
    | some e =>
      decide (h.need ≤ t.settled) && !t.stopped && !(h.ord && (((h.elems.take k).any fun g => g.idx != e.idx)
          || s.onWay tid fun o => o.word == h.id && o.idx != e.idx))
        && !((t.held.take j).any fun g => g.elems.any e.meets) && !(h.elems.take k).any e.meets
        && !(e.pas.any fun pa => s.writeWaits (lineOf pa) tid || s.pathHolds (dieOf tid) pa)
        && !(h.atomic && (s.pendingTo (dieOf tid) (e.pas.headD 0) e.pas.length
          || s.syncQueued (dieOf tid) (homeDie (e.pas.headD 0))))

/-- An element of a held word performs: a store becomes visible to its core, an atomic acts at its home; the state, and the
flags of an FP atomic. -/
def State.performElem (s : State) (tid : Nat) (h : Held) (e : Elem) : State × BitVec 8 :=
  match e.op with
  | none =>
    let org : Origin := { word := h.id, hold := !h.ovt, va := e.va, idx := e.idx, addr := h.addr }
    (s.updCore (coreOf tid) fun c => { c with
      buf := c.buf ++ [{ tid, addr := e.pas.headD 0, bytes := e.bytes, mask := e.mask, org, last := h.last : Bufw }] }, 0)
  | some (op, kind) =>
    let n := e.bytes.length
    let pa := e.pas.headD 0
    let r := s.atomicAt tid pa n fun o => (atomRun op kind n o (leNat e.bytes)).1
    (if h.last then r.2.lastUse (lineOf pa) else r.2, (atomRun op kind n r.1 (leNat e.bytes)).2)

/-- The held word after its element `k` has performed; a word with nothing left goes, unless flags wait to merge. -/
def Held.after (h : Held) (k : Nat) (fl : BitVec 8) : Option Held :=
  let i := (h.elems[k]?.map Elem.idx).getD 0
  let f := ({ flags := h.flags, fidx := h.fidx : Fx }).raise fl i
  let h := { h with elems := h.elems.eraseIdx k, flags := f.flags, fidx := f.fidx }
  if h.elems.isEmpty && !h.vamof then none else some h

/-- Put back, or drop, held word `j`. -/
def putHeld (hs : List Held) (j : Nat) (h : Option Held) : List Held :=
  match h with | some h => hs.set j h | none => hs.eraseIdx j

/-- HELD_STORE_PERFORM: one element of a held word performs; one that its home refuses raises VECTOR_ACCESS, once it is the
lowest of the word that has not performed, or drops where the gang of its thread has ended (R98, R118, R323). -/
def execHeldStorePerform (s : State) : Out :=
  let tid := s.ev.tid
  let t := s.thread tid
  match t.held[s.ev.unit]? with
  | none => .next s
  | some h =>
    match h.elems[s.ev.idx]? with
    | none => .next s
    | some e =>
      let gone (s : State) (fl : BitVec 8) : State :=
        s.updThread tid fun t => { t with held := putHeld t.held s.ev.unit (h.after s.ev.idx fl) }
      if !s.elemReady tid s.ev.unit s.ev.idx then .next s
      else match s.elemBad tid h.atomic e.pas with
        | some bad =>
          if !t.present then .next (gone s 0)
          else if t.convTrap.isSome || t.frozen || h.elems.any fun x => decide (x.idx < e.idx) then .next s
          else .next (s.updThread tid fun t => t.homeTrap bad e.idx e.va h.addr)
        | none =>
          let (s1, fl) := s.performElem tid h e
          .next (gone s1 fl)

/-- VAMOF_FLAG_MERGE: the flags of a VAMOF merge after its last element, and c26 and c27 post (R188, R327). -/
def Thread.mergeVamof (t : Thread) (h : Held) : Thread :=
  let c := t.csr
  let fidx : Vector (BitVec 32) 8 := Vector.ofFn fun k =>
    match h.fidx.lookup k.val with
    | some i => if i < (c.fidx[k]).toNat then BitVec.ofNat 32 i else c.fidx[k]
    | none => c.fidx[k]
  let t := { t with csr := { c with vxstat := c.vxstat ||| h.flags, fidx } }
  let t := if h.flags.getLsbD 0 then t.post 26 true else t
  if h.flags.getLsbD 6 then t.post 27 true else t

def execVamofFlagMerge (s : State) : Out :=
  let tid := s.ev.tid
  match (s.thread tid).held[s.ev.unit]? with
  | some h =>
    if h.vamof && h.elems.isEmpty then
      .next (s.updThread tid fun t => { t.mergeVamof h with held := t.held.eraseIdx s.ev.unit })
    else .next s
  | none => .next s

/-! Notify (R167). -/

/-- The oldest notify of a thread may perform: every element of its word and of earlier NTF words has performed at the
scope. -/
def State.notifyReady (s : State) (tid : Nat) (n : Notify) : Bool :=
  let t := s.thread tid
  !t.stopped && !(t.held.any fun h => n.words.contains h.id && !h.elems.isEmpty) && s.flushed tid n.scope.toNat
    && !s.writeWaits (lineOf n.word) tid && !s.pathHolds (dieOf tid) n.word && !s.pendingTo (dieOf tid) n.word 8
    && !s.syncQueued (dieOf tid) (homeDie n.word)

/-- NOTIFY_UPDATE: MAXU(progress word, N) as a release. -/
def execNotifyUpdate (s : State) : Out :=
  let tid := s.ev.tid
  match (s.thread tid).notifies with
  | [] => .next s
  | n :: rest =>
    if !s.notifyReady tid n then .next s
    else match s.elemBad tid true [n.word] with
      | some bad =>
        if !(s.thread tid).present then .next (s.updThread tid fun t => { t with notifies := rest })
        else if (s.thread tid).convTrap.isSome || (s.thread tid).frozen then .next s
        else .next (s.updThread tid fun t => t.homeTrap bad (2 ^ 32 - 1) n.va n.addr)
      | none =>
        .next ((s.atomicAt tid n.word 8 fun o => max o n.count.toNat).2.updThread tid fun t => { t with notifies := rest })

end Sys2Proof.Machine
end

