-- ==== Sys2Proof/Machine/VIndex.lean ====
section
/-! DEFINITION. Vector words on sequences and index tables: VSQMAP, VSQPOS, VIXHASH, VIXPROBE (R402 to R405). -/

namespace Sys2Proof.Machine

/-- The word's convoy traps at its object: SEQUENCE_FAULT or INDEX_FAULT, laid out as R214 and R230 state. -/
def State.objectTrap (s : State) (cause code pa : Nat) : State :=
  s.vtrapped { cause, tval := s.act.addr, info := word (code + pa / 256 % 2 ^ 38 * 256) }

/-- The lowest active element of the executing banks; all ones with none. -/
def State.firstOn (s : State) (v : VWord) : Nat := match s.on v with | e :: _ => e.i | [] => 2 ^ 32 - 1

/-- An access that belongs to no lane. -/
def objAcc (i : Nat) (va : Word) (n : Nat) : Acc := { el := ⟨0, 0, i⟩, va, n }

/-- Whole lines of some bytes. -/
def linesAt (pas : List Nat) : List (Nat × Nat) := (pas.map lineOf).eraseDups.map fun l => (l * 64, 64)

/-- A read at the home waits: the thread holds an element for the bytes, a write to them is still on its way, an engine owns
a line, or its channel retrains (R52, R118, R163, R169). -/
def State.unitWaits (s : State) (rs : List (Nat × Nat)) : Bool :=
  rs.any fun r =>
    ((s.thread s.act.tid).held.any fun h => h.elems.any fun e => e.pas.any fun a => decide (r.1 ≤ a) && decide (a < r.1 + r.2))
      || ((List.range 4).any fun d => s.pendingTo d r.1 r.2)
      || (linesOf r.1 r.2).any fun l => s.owned l || s.pathHolds s.vdie (l * 64)

/-- The fault of element `i` where a read at the home cannot be made (R21, R53, R55, R323). -/
def State.unitFails (s : State) (i : Nat) (va : Word) (rs : List (Nat × Nat)) : Option VFault :=
  (s.readsFail s.vdie rs).map fun (p : Nat × HomeErr) => ⟨i, (XErr.home 0 p.2).code, va, 2 ^ 61 + p.2.flag⟩

/-- A word that makes some reads at their homes. -/
def State.vReads (s : State) (v : VWord) (rs : List (Nat × Nat)) (k : State) : State :=
  match s.unitFails (s.firstOn v) (s.slot v) rs with
  | some f => s.vfault f
  | none => if s.unitWaits rs then s.vstalled else k

/-- The object in slot GS: 256-byte aligned, translated, its first `n` bytes read at its home (R402). -/
def State.withVobj (s : State) (v : VWord) (cause code n : Nat) (f : Nat → State) : State :=
  let va := s.slot v
  if va.toNat % 256 ≠ 0 then s.objectTrap cause code 0
  else match s.reach .read false (objAcc (s.firstOn v) va 1) with
    | .error e => s.vfault e
    | .ok x => let d := x.2.headD 0; s.vReads v [(d, n)] (f d)

/-! VSQMAP and VSQPOS (R403). -/

/-- Survivors of block `b`; none without a frame. -/
def State.survivors (s : State) (q : Sq) (b : Nat) : Option Nat :=
  if q.btcap ≤ b then none
  else
    let e := s.entry q b
    if entV e then some (s.frame (entFrame e)).surv else none

/-- Packed slot of a logical position. -/
def State.sqMap (s : State) (q : Sq) (p : Nat) : Nat :=
  match s.survivors q (p / 64) with
  | some surv => if bitOf surv (p % 64) then packedSlot surv (p % 64) else 2 ^ 32 - 1
  | none => 2 ^ 32 - 1

/-- Logical position of packed slot `i mod 64` of block `i div 64`. -/
def State.sqPos (s : State) (q : Sq) (i : Nat) : Nat :=
  match s.survivors q (i / 64) with
  | some surv =>
    match findBelow (fun k => bitOf surv k && packedSlot surv k == i % 64) 64 with
    | some k => 64 * (i / 64) + k
    | none => 2 ^ 32 - 1
  | none => 2 ^ 32 - 1

/-- A word that maps each element through a LIVE sequence's block table. -/
def State.sqWord (s : State) (v : VWord) (f : Sq → Nat → Nat) : State :=
  if s.lay.vl = 0 then s
  else s.withVobj v 30 12 80 fun d =>
    let q := s.sq d
    let blocks := ((s.on v).map fun e => s.pairEl v.va.toNat e / 64).eraseDups.filter fun b => decide (b < q.btcap)
    if q.st ≠ 1 then s.objectTrap 30 1 d
    else s.vReads v (s.blockReads q blocks) ((s.eachOn v (.pair v.vd.toNat false) fun e => (f q (s.pairEl v.va.toNat e), 0)).observeAll [d])

/-- VSQMAP. -/
def execVsqmap (v : VWord) (s : State) : Out := .next (s.sqWord v s.sqMap)
/-- VSQPOS. -/
def execVsqpos (v : VWord) (s : State) : Out := .next (s.sqWord v s.sqPos)

/-! VIXHASH (R404). -/

/-- Element of VA as an exact number by the reading FN[1:0]; none for a NaN or an infinity. -/
def State.hashIn (s : State) (v : VWord) (e : El) : Option (Int × Int) :=
  match v.fn.toNat % 4 with
  | 0 => some (s.opA v true e, 0)
  | 1 => some (s.opA v false e, 0)
  | k =>
    let f := if k = 2 then FP16 else BF16
    match f.read (s.regEl v.va.toNat 16 e) with
    | .fin neg m x => some (if neg then -(m : Int) else (m : Int), x)
    | _ => none

/-- VIXHASH: the buckets are written to elements 0 to L - 1 whatever vl and the masks hold. -/
def State.ixHash (s : State) (v : VWord) : State :=
  s.withVobj v 31 8 96 fun d =>
    let x := s.ix d
    let new := fnBit v 2
    if !x.ready || (new && x.st != 2) then s.objectTrap 31 1 d
    else
      let f := Fam.of (if new then x.new else x.cur)
      let ins := (s.on v).filter fun e => decide (e.i < f.d)
      let bad := ins.find? fun e => (s.hashIn v e).isNone
      let xs := (List.range f.d).map fun j =>
        match ins.find? (·.i == j) with | some e => (s.hashIn v e).getD (0, 0) | none => ((0, 0) : Int × Int)
      let hs := f.hashes (if bad.isSome then none else some xs)
      let l := s.lay
      let rs := hs.zipIdx.map fun p => { el := l.el p.2, val := p.1 : Res }
      let banks := (rs.map (·.el.bank)).eraseDups
      let t := banks.foldl (fun (t : State) b =>
        t.updV fun c => c.putBank (.pair v.vd.toNat false) b (rs.filter fun r => r.el.bank == b)) s
      let t := match bad with | some e => t.updFx fun fx => fx.raise fNAN e.i | none => t
      t.observeAll [d]
/-- VIXHASH (R404). -/
def execVixhash (v : VWord) (s : State) : Out := .next (s.ixHash v)

/-! VIXPROBE (R405). -/

/-- What one probe comes to: a translation fault, a fault found at the home, a fault of the unit with the object's address, a
wait, or its input flags, its result, the lines it reads, where its list goes and the IDs. -/
inductive ProbeOut where
  | xlate (f : VFault)
  | home (f : VFault)
  | fault (code pa : Nat)
  | wait
  | done (nan : Bool) (total : Nat) (lines : List Nat) (pas : List Nat) (ids : List Nat)

/-- Bytes of an access at their homes. -/
def State.homeBytes (s : State) (pas : List Nat) : List Byte := pas.map (Memory.read s.mem)

/-- One more read of the probe of element `i` at the home. -/
def State.probeRead (s : State) (i : Nat) (va : Word) (rs : List (Nat × Nat)) (k : ProbeOut) : ProbeOut :=
  match s.unitFails i va rs with
  | some f => .home f
  | none => if s.unitWaits rs then .wait else k

/-- One more access of the probe, translated. -/
def State.probeReach (s : State) (need : Need) (i : Nat) (va : Word) (n : Nat) (k : List Nat → ProbeOut) : ProbeOut :=
  match s.reach need false (objAcc i va n) with
  | .error f => if f.code = 0 then .wait else .xlate f
  | .ok x => k x.2

/-- Probe of element `i`: the record, the table, the input, the chains, then the list (R224, R225, R405). -/
def State.probe (s : State) (v : VWord) (i : Nat) : ProbeOut :=
  let va := s.slot v + word (32 * i)
  s.probeReach .read i va 32 fun rp => s.probeRead i va (linesAt rp) <|
    let r := Probe.of (leNat (s.homeBytes rp))
    if r.bad then .fault 5 0
    else s.probeReach .read i r.table 1 fun tp => s.probeRead i r.table [(tp.headD 0, 96)] <|
      let d := tp.headD 0
      let x := s.ix d
      let f := Fam.of x.cur
      if !x.ready then .fault 1 d
      else if r.inp.toNat % f.align ≠ 0 then .fault 5 0
      else s.probeReach .read i r.inp f.bytes fun ip => s.probeRead i r.inp (linesAt ip) <|
        let xs := f.elems (s.homeBytes ip)
        s.probeRead i r.table (s.probeReads d x (x.consulted xs)) <|
          match s.candidateSet x xs with
          | none => .fault 6 d
          | some (ids, lines) =>
            let n := min ids.length r.cap
            s.probeReach .write i r.list (4 * n) fun lp =>
              if s.atomWaits lp then .wait
              else match s.homeBad false (objAcc i r.list (4 * n)) lp with
                | some f => .home f
                | none => .done xs.isNone ids.length lines lp (ids.take n)

/-- Write bytes at the homes of their addresses, for the executing thread. -/
def State.scatterTo (s : State) (pas : List Nat) (bytes : List Byte) : State :=
  (pas.zip bytes).foldl (fun (s : State) p =>
    (s.homeWrite s.act.tid p.1 [p.2]).stampLine (lineOf p.1) (s.die s.vdie).clock) s

/-- The mark of a probe that has performed, apart from those of atomics. -/
def probeKey (i : Nat) : Nat := 2 ^ 20 + i

/-- Perform the probes in ascending order; those performed before a fault are kept. -/
def State.probeRun (s : State) (v : VWord) : List El → State × Option (Nat × ProbeOut)
  | [] => (s, none)
  | e :: es =>
    if (s.thread s.act.tid).done.any (·.1 == probeKey e.i) then s.probeRun v es
    else match s.probe v e.i with
      | .done nan total lines pas ids =>
        let t := (s.observeLines s.vdie lines).scatterTo pas (ids.flatMap (leBytes 4))
        let mark := ids.length + 2 ^ 32 * b2n (decide (ids.length < total)) + 2 ^ 33 * b2n nan
        (t.updThread s.act.tid fun th => { th with done := (probeKey e.i, mark) :: th.done }).probeRun v es
      | r => (s, some (e.i, r))

/-- A fault of the unit at element `i` (R405); for code 5 mtval names the element's probe record (R230). -/
def State.probeTrap (s : State) (v : VWord) (i code pa : Nat) : State :=
  s.vtrapped { cause := 31, tval := if code = 5 then s.slot v + word (32 * i) else s.act.addr
               info := word (code + pa / 256 % 2 ^ 38 * 256 + 2 ^ 61) } (some (BitVec.ofNat 40 i))

/-- VIXPROBE. -/
def State.ixProbe (s : State) (v : VWord) : State :=
  let els := s.on v
  if s.lay.vl = 0 then s
  else if (s.slot v).toNat % 32 ≠ 0 then s.vtrapped { cause := 31, tval := s.slot v, info := 5 }
  else
    let todo := els.filter fun e => !(s.thread s.act.tid).done.any (·.1 == probeKey e.i)
    let outs := todo.map fun e => s.probe v e.i
    match outs.findSome? fun o => match o with | .xlate f => some f | _ => none with
    | some f => s.vfault f
    | none =>
      if outs.any fun o => match o with | .wait => true | _ => false then s.vstalled
      else match s.probeRun v els with
        | (t, some (i, r)) =>
          (match r with
           | .fault c pa => t.probeTrap v i c pa
           | .xlate f | .home f => t.vfault f
           | _ => t.vstalled)
        | (t, none) =>
          let rs := els.map fun e =>
            let m := ((t.thread t.act.tid).done.lookup (probeKey e.i)).getD 0
            { el := e, val := m % 2 ^ 32
              fl := (if bitOf m 32 then fSAT else 0) ||| (if bitOf m 33 then fNAN else 0) : Res }
          (t.put (.pair v.vd.toNat false) rs).flag v rs
/-- VIXPROBE (R405). -/
def execVixprobe (v : VWord) (s : State) : Out := .next (s.ixProbe v)

end Sys2Proof.Machine
end

