-- ==== Sys2Proof/Machine/VTile.lean ====
section
/-! DEFINITION. Vector words on tiles, on the accumulator store and of the Welt unit (R138, R140, R326, R328, R338, R367,
R369 to R371). -/

namespace Sys2Proof.Machine

/-! The accumulator store (R369, R370). -/

/-- Word address of element `i`: w0 + i. -/
def State.accAt (s : State) (v : VWord) (e : El) : Nat := Fld (s.slot v) 16 0 + e.i

/-- The word traps with a reason and ffst (R369). -/
def State.accFault (s : State) (reason i cause : Nat) : State := s.vfault { i, code := cause, va := s.act.addr }
  |> fun t => { t with act := { t.act with trap := t.act.trap.map fun tr =>
      { tr with info := word (reason + 2 ^ 8 * (s.act.addr.toNat % 2 ^ 48)) } } }

/-- The group of an accumulator word is held by another task (R367). -/
def State.accForeign (s : State) (w : Nat) : Bool :=
  match Tab.get none s.vcore.accOwner (w / 8192) with
  | some e => e != (s.thread s.act.tid).gang
  | none => false

/-- An accumulator word's checks and waits, then its effect on the active elements; slot bits that must be zero and are not fault
whatever the mask, with ffst.IDX all ones where no element is active. -/
def State.vacc (s : State) (v : VWord) (k : List El → State) : State :=
  let on := s.on v
  let bad := s.lay.vl ≠ 0 ∧ Fld (s.slot v) 63 17 ≠ 0
  match on.find? fun e => bad || decide (131072 ≤ s.accAt v e) with
  | some e => s.accFault 7 e.i 3
  | none =>
    if bad then s.accFault 7 (2 ^ 32 - 1) 3
    else
      match on.find? fun e => s.accForeign (s.accAt v e) with
      | some e => s.accFault 8 e.i 2
      | none =>
        let ws := on.map (s.accAt v)
        if s.rowsBusy (coreOf s.act.tid) (ws.map (· / 512)).eraseDups
          || (ws.map (· / 8192)).eraseDups.any s.vcore.zeroing.contains then s.vstalled
        else k on

/-- VACCRD: pair VD[i] := word(w0 + i), SGN = 1. -/
def execVaccrd (v : VWord) (s : State) : Out :=
  .next (s.vacc v fun on =>
    s.put (.pair v.vd.toNat true) (on.map fun e => { el := e, val := (s.vcore.accWord (s.accAt v e)).toNat : Res }))

/-- The task that writes a group holds it from then on (R367). -/
def Core.accPut (c : Core) (gang w : Nat) (x : BitVec 32) : Core :=
  { c.setAccWord w x with accOwner := Tab.set none c.accOwner (w / 8192) (some gang) }

/-- Write accumulator words of the active elements. -/
def State.accWrite (s : State) (v : VWord) (on : List El) (f : El → BitVec 32) : State :=
  s.updV fun c => on.foldl (fun c e => c.accPut (s.thread s.act.tid).gang (s.accAt v e) (f e)) c

/-- VACCWR: word(w0 + i) := pair VA[i]. -/
def execVaccwr (v : VWord) (s : State) : Out :=
  .next (s.vacc v fun on => s.accWrite v on fun e => BitVec.ofNat 32 (s.pairEl v.va.toNat e))

/-- VACCZ: word(w0 + i) := 0. -/
def execVaccz (v : VWord) (s : State) : Out := .next (s.vacc v fun on => s.accWrite v on fun _ => 0)

/-! The Welt side unit (R371). -/

/-- One element of VMXSC: scale words `a` and `b`, sum `x`, and the accumulator when ACC = 1. -/
def mxscEl (m d1 d2 : Nat) (a b : Nat) (x : Int) (acc : Option Nat) : Nat × BitVec 8 :=
  let (t, f1) : Nat × BitVec 8 :=
    if scaleIsNan a || scaleIsNan b then (0x7FC00000, fNAN) else FP32.ofInt ⟨m, d1⟩ x (scaleExp a + scaleExp b)
  match acc with
  | none => (t, f1)
  | some d => let r := FP32.add ⟨m, d2⟩ (FP32.read d) (FP32.read t); (r.1, f1 ||| r.2)

/-- VMXSC. -/
def execVmxsc (v : VWord) (s : State) : Out :=
  let ov := v.fn.toNat / 4
  let acc := v.imm.getLsbD 4
  let vl := s.lay.vl
  let draw (i : Nat) : Nat := (s.drawOf i).toNat % 2 ^ 32
  let t := s.eachOn v (.pair v.vd.toNat false) fun e =>
    mxscEl (s.rmode ov) (draw e.i) (draw (vl + e.i)) (s.regEl v.vb.toNat 16 e) (s.regEl (v.imm.toNat % 16) 16 e)
      (toSigned 32 (s.pairEl v.va.toNat e)) (if acc then some (s.pairEl v.vd.toNat e) else none)
  .next (if s.rmode ov = 4 then t.drawn (if acc then 2 * vl else vl) else t)

/-! Tiles (R138, R328, R338). -/

/-- TILE_STATE at the convoy (R338). -/
def State.vtileBad (s : State) (reason entry h : Nat) (ffst : Option (BitVec 40) := none) : State :=
  s.vtrapped { cause := 28, tval := s.act.addr, info := word (reason + 2 ^ 8 * entry + 2 ^ 14 * h) } ffst

/-- An engine trap that names an entry is due before a convoy that names it goes on (R126, R138). -/
def State.traps? (s : State) (i : Nat) : Bool := (s.thread s.act.tid).engTraps.any fun x => x.names.contains i
def State.markDue (s : State) (i : Nat) : State :=
  s.updThread s.act.tid fun t => { t with engTraps := t.engTraps.map fun x => if x.names.contains i then { x with due := true } else x }

/-- Whether a convoy's handle word runs: the tile READY, its slot's reserved bits zero. `k` gets the entry and the tile. -/
def State.vtile (s : State) (h : Nat) (reserved : Bool) (k : Nat → Tile → State) : State :=
  match (s.thread s.act.tid).handle h with
  | none => s.vtileBad 2 0 h
  | some i =>
    if s.traps? i then (s.markDue i).vstalled
    else match s.vcore.tile? i with
      | none => s.vtileBad 2 i h
      | some t =>
        match t.st with
        | .filling | .draining => s.vstalled
        | .empty => s.vtileBad 1 i h
        | .ready => if reserved then s.vtileBad 7 i h else k i t

/-- Planes of a layer word: the lane width, or 16 for the scale layer; its first row; whether the layer exists. -/
def Tile.layer (t : Tile) (scl : Bool) (l : Nat) : Nat × Nat × Bool :=
  if scl then (16, t.frow + t.shape.w * t.layers + 16 * l, l < ceilDiv t.shape.blocks (layerLanes t.usable t.shape.lgbk))
  else (t.shape.w, t.frow + t.shape.w * l, l < t.layers)

/-- A write of a tile waits for the readers that were issued before it: they read the old rows (R138). -/
def State.vtileWrite (s : State) (i : Nat) (t : Tile) (k : State) : State :=
  if s.readersAhead (coreOf s.act.tid) i t then s.vstalled else k

/-- Resolve the slot of VLDT or VSTT (R328). -/
def State.layerWord (s : State) (v : VWord) (k : Nat → Tile → Bool → Nat → Nat → State) : State :=
  let g := s.slot v
  let h := Fld g 4 0
  if s.lay.vl = 0 then s
  else s.vtile h (Fld g 63 14 != 0) fun i t =>
    let (w, r, ok) := t.layer (g.getLsbD 13) (Fld g 12 5)
    if t.fbank ≠ s.lay.first ∨ t.shape.lgbk ≠ ctxLgn s.act.snap.vctx then s.vtileBad 4 i h
    else if !ok then s.vtileBad 8 i h
    else k i t (g.getLsbD 13) w r

/-- VLDT: the planes of a layer to VD; signed for two's complement lane forms. -/
def execVldt (v : VWord) (s : State) : Out :=
  .next (s.layerWord v fun _ t scl w r =>
    s.put (.reg v.vd.toNat w (!scl && (t.shape.fmt == 0 || t.shape.fmt == 10))) ((s.on v).map fun e =>
      { el := e, val := elemOf ((List.range w).map fun j => s.vcore.row e.bank (r + j)) e.lane : Res }))

/-- VSTT: VD read at the layer's width, to the rows of the layer. -/
def execVstt (v : VWord) (s : State) : Out :=
  .next (s.layerWord v fun i t _ w r =>
    let els := s.on v
    s.vtileWrite i t <| s.updV fun c => els.foldl (fun c e =>
      let x := s.regEl v.vd.toNat w e
      (List.range w).foldl (fun c j => c.setRow e.bank (r + j) (setBit (c.row e.bank (r + j)) e.lane (bitOf x j))) c) c)

/-- One update of a tile element at the lane width (R326). -/
def tileAtom (k w : Nat) (twos : Bool) (old x : Nat) : Nat :=
  let op := vamoOp k
  let op := match op with
    | .min => if twos then .min else .minu
    | .max => if twos then .max else .maxu
    | op => op
  intAtomic op w old x

/-- An element of a tile is written. -/
def Tile.setElem (t : Tile) (e x : Nat) (c : Core) : Core :=
  let (b, l, r) := t.at_ t.shape.w t.frow e
  (List.range t.shape.w).foldl (fun c j => c.setRow b (r + j) (setBit (c.row b (r + j)) l (bitOf x j))) c

/-- VAMO to a tile: updates in ascending element order (R326). -/
def execVamoTile (v : VWord) (s : State) : Out :=
  let g := s.slot v
  let h := Fld g 4 0
  .next (if s.lay.vl = 0 then s
  else s.vtile h (Fld g 63 5 != 0) fun i t =>
    let idx (e : El) : Nat := s.regEl v.vb.toNat (s.wB v) e
    match (s.on v).find? fun e => t.shape.elems ≤ idx e with
    | some e => s.vtileBad 8 i h (some (BitVec.ofNat 40 (e.i % 2 ^ 32)))
    | none =>
      let k := v.imm.toNat % 16
      let twos := t.shape.fmt == 0 || t.shape.fmt == 10
      s.vtileWrite i t <| s.updV fun c => (s.on v).foldl (fun c e =>
        t.setElem (idx e) (tileAtom k t.shape.w twos (t.elem c (idx e))
          (wrapTo t.shape.w (s.opA v (vamoSigned k) e))) c) c)

end Sys2Proof.Machine
end

