-- ==== Sys2Proof/Machine/Dispatch.lean ====
section
/-! DEFINITION. One arm per constructor of Instr: the meaning of each step of the opcode table. -/

namespace Sys2Proof.Machine

/-- The meaning of an instruction. -/
def exec (i : Instr) (s : State) : Host.Outcome State Fault Refusal :=
  match i with
  | .scalarLoad k rd rs1 off => Sys2Proof.Machine.execScalarLoad k rd rs1 off s
  | .scalarStore k rs1 rs2 off => Sys2Proof.Machine.execScalarStore k rs1 rs2 off s
  | .lr dbl aq rl rd rs1 => Sys2Proof.Machine.execLr dbl aq rl rd rs1 s
  | .sc dbl aq rl rd rs1 rs2 => Sys2Proof.Machine.execSc dbl aq rl rd rs1 rs2 s
  | .amo op dbl aq rl rd rs1 rs2 => Sys2Proof.Machine.execAmo op dbl aq rl rd rs1 rs2 s
  | .fence pred succ => Sys2Proof.Machine.execFence pred succ s
  | .csrAccess op rd src csr => Sys2Proof.Machine.execCsrAccess op rd src csr s
  | .csrWriteVl op rd src => Sys2Proof.Machine.execCsrWriteVl op rd src s
  | .csrWriteVw op rd src => Sys2Proof.Machine.execCsrWriteVw op rd src s
  | .csrWriteVctx op rd src => Sys2Proof.Machine.execCsrWriteVctx op rd src s
  | .csrWriteVqlim op rd src => Sys2Proof.Machine.execCsrWriteVqlim op rd src s
  | .csrWriteWcnt op rd src => Sys2Proof.Machine.execCsrWriteWcnt op rd src s
  | .csrAccessRng op rd src csr => Sys2Proof.Machine.execCsrAccessRng op rd src csr s
  | .vsetvl rd rs1 => Sys2Proof.Machine.execVsetvl rd rs1 s
  | .vsetw rd rs1 => Sys2Proof.Machine.execVsetw rd rs1 s
  | .vsetvli rd rs1 w => Sys2Proof.Machine.execVsetvli rd rs1 w s
  | .vctx rd rs1 => Sys2Proof.Machine.execVctx rd rs1 s
  | .vslip rd rs1 => Sys2Proof.Machine.execVslip rd rs1 s
  | .vdrain kinds scope => Sys2Proof.Machine.execVdrain kinds scope s
  | .vlive rd rs1 rs2 => Sys2Proof.Machine.execVlive rd rs1 rs2 s
  | .vget rd vs => Sys2Proof.Machine.execVget rd vs s
  | .vgetP rd vs => Sys2Proof.Machine.execVgetP rd vs s
  | .cbcmpEq cd rs1 rs2 => Sys2Proof.Machine.execCbcmpEq cd rs1 rs2 s
  | .cbcmpNe cd rs1 rs2 => Sys2Proof.Machine.execCbcmpNe cd rs1 rs2 s
  | .cbcmpLt cd rs1 rs2 => Sys2Proof.Machine.execCbcmpLt cd rs1 rs2 s
  | .cbcmpGe cd rs1 rs2 => Sys2Proof.Machine.execCbcmpGe cd rs1 rs2 s
  | .cbcmpLtu cd rs1 rs2 => Sys2Proof.Machine.execCbcmpLtu cd rs1 rs2 s
  | .cbcmpGeu cd rs1 rs2 => Sys2Proof.Machine.execCbcmpGeu cd rs1 rs2 s
  | .cblogAnd cd ca cb => Sys2Proof.Machine.execCblogAnd cd ca cb s
  | .cblogOr cd ca cb => Sys2Proof.Machine.execCblogOr cd ca cb s
  | .cblogXor cd ca cb => Sys2Proof.Machine.execCblogXor cd ca cb s
  | .cblogAndn cd ca cb => Sys2Proof.Machine.execCblogAndn cd ca cb s
  | .cbget rd => Sys2Proof.Machine.execCbget rd s
  | .cbput rs1 rs2 => Sys2Proof.Machine.execCbput rs1 rs2 s
  | .cbclr rs1 => Sys2Proof.Machine.execCbclr rs1 s
  | .cbseti cd v => Sys2Proof.Machine.execCbseti cd v s
  | .vfetch rs1 off => Sys2Proof.Machine.execVfetch rs1 off s
  | .tcfg h rs1 rs2 => Sys2Proof.Machine.execTcfg h rs1 rs2 s
  | .tload h rs1 rs2 => Sys2Proof.Machine.execTload h rs1 rs2 s
  | .tstore h rs1 => Sys2Proof.Machine.execTstore h rs1 s
  | .tfree h => Sys2Proof.Machine.execTfree h s
  | .tstat rd h => Sys2Proof.Machine.execTstat rd h s
  | .tcopy hd hs => Sys2Proof.Machine.execTcopy hd hs s
  | .strcfg q rs1 => Sys2Proof.Machine.execStrcfg q rs1 s
  | .strstart q => Sys2Proof.Machine.execStrstart q s
  | .strstop q => Sys2Proof.Machine.execStrstop q s
  | .strstat rd q => Sys2Proof.Machine.execStrstat rd q s
  | .strbind rd q => Sys2Proof.Machine.execStrbind rd q s
  | .xcopy rd rs1 rs2 => Sys2Proof.Machine.execXcopy rd rs1 rs2 s
  | .xform rs1 => Sys2Proof.Machine.execXform rs1 s
  | .close cls => Sys2Proof.Machine.execClose cls s
  | .lineClean rd rs1 => Sys2Proof.Machine.execLineClean rd rs1 s
  | .lineFlush rd rs1 => Sys2Proof.Machine.execLineFlush rd rs1 s
  | .lineInval rd rs1 => Sys2Proof.Machine.execLineInval rd rs1 s
  | .lineLastuse rd rs1 => Sys2Proof.Machine.execLineLastuse rd rs1 s
  | .lineDiscard rd rs1 => Sys2Proof.Machine.execLineDiscard rd rs1 s
  | .wmwait scope rs1 rs2 => Sys2Proof.Machine.execWmwait scope rs1 rs2 s
  | .wmwaitArm scope rs1 rs2 => Sys2Proof.Machine.execWmwaitArm scope rs1 rs2 s
  | .wmwaitDisarm scope => Sys2Proof.Machine.execWmwaitDisarm scope s
  | .wmpub scope rs1 rs2 => Sys2Proof.Machine.execWmpub scope rs1 rs2 s
  | .wmpubRemote rs1 rs2 => Sys2Proof.Machine.execWmpubRemote rs1 rs2 s
  | .wait ld st cp ti => Sys2Proof.Machine.execWait ld st cp ti s
  | .barinit b rs1 rs2 => Sys2Proof.Machine.execBarinit b rs1 rs2 s
  | .bararrive b => Sys2Proof.Machine.execBararrive b s
  | .barwait b => Sys2Proof.Machine.execBarwait b s
  | .bararrwait b => Sys2Proof.Machine.execBararrwait b s
  | .barinv b => Sys2Proof.Machine.execBarinv b s
  | .scfence scope => Sys2Proof.Machine.execScfence scope s
  | .acqfence scope => Sys2Proof.Machine.execAcqfence scope s
  | .relfence scope => Sys2Proof.Machine.execRelfence scope s
  | .afaddS rd rs1 rs2 => Sys2Proof.Machine.execAfaddS rd rs1 rs2 s
  | .afminS rd rs1 rs2 => Sys2Proof.Machine.execAfminS rd rs1 rs2 s
  | .afmaxS rd rs1 rs2 => Sys2Proof.Machine.execAfmaxS rd rs1 rs2 s
  | .afminnS rd rs1 rs2 => Sys2Proof.Machine.execAfminnS rd rs1 rs2 s
  | .afmaxnS rd rs1 rs2 => Sys2Proof.Machine.execAfmaxnS rd rs1 rs2 s
  | .sqcreate rd rs1 rs2 => Sys2Proof.Machine.execSqcreate rd rs1 rs2 s
  | .sqres rd rs1 rs2 => Sys2Proof.Machine.execSqres rd rs1 rs2 s
  | .sqcommit rd rs1 rs2 => Sys2Proof.Machine.execSqcommit rd rs1 rs2 s
  | .sqabandon rd rs1 rs2 => Sys2Proof.Machine.execSqabandon rd rs1 rs2 s
  | .sqfork rx rs1 rs2 => Sys2Proof.Machine.execSqfork rx rs1 rs2 s
  | .sqlen rd rs1 => Sys2Proof.Machine.execSqlen rd rs1 s
  | .sqwait rd rs1 rs2 => Sys2Proof.Machine.execSqwait rd rs1 rs2 s
  | .sqseal rd rs1 rs2 => Sys2Proof.Machine.execSqseal rd rs1 rs2 s
  | .sqevict rx rs1 rs2 => Sys2Proof.Machine.execSqevict rx rs1 rs2 s
  | .sqrelease rd rs1 => Sys2Proof.Machine.execSqrelease rd rs1 s
  | .btinv rd rs1 rs2 => Sys2Proof.Machine.execBtinv rd rs1 rs2 s
  | .ixcreate rd rs1 rs2 => Sys2Proof.Machine.execIxcreate rd rs1 rs2 s
  | .ixfamily rd rs1 rs2 => Sys2Proof.Machine.execIxfamily rd rs1 rs2 s
  | .ixins rd rs1 rs2 => Sys2Proof.Machine.execIxins rd rs1 rs2 s
  | .ixdel rd rs1 rs2 => Sys2Proof.Machine.execIxdel rd rs1 rs2 s
  | .ixprobe rd rs1 => Sys2Proof.Machine.execIxprobe rd rs1 s
  | .ixrehash rd rs1 rs2 => Sys2Proof.Machine.execIxrehash rd rs1 rs2 s
  | .ixstat rd rs1 rs2 => Sys2Proof.Machine.execIxstat rd rs1 rs2 s
  | .attn rd rs1 => Sys2Proof.Machine.execAttn rd rs1 s
  | .attnstat rd => Sys2Proof.Machine.execAttnstat rd s
  | .attncancel rd rs1 => Sys2Proof.Machine.execAttncancel rd rs1 s
  | .bc c off => Sys2Proof.Machine.execBc c off s
  | .bnc c off => Sys2Proof.Machine.execBnc c off s
  | .mmcfg rd rs1 => Sys2Proof.Machine.execMmcfg rd rs1 s
  | .mmissue rs1 rs2 => Sys2Proof.Machine.execMmissue rs1 rs2 s
  | .mmsparse rs1 rs2 => Sys2Proof.Machine.execMmsparse rs1 rs2 s
  | .mmgather rs1 rs2 => Sys2Proof.Machine.execMmgather rs1 rs2 s
  | .mmret rs1 rs2 => Sys2Proof.Machine.execMmret rs1 rs2 s
  | .acczero rs1 => Sys2Proof.Machine.execAcczero rs1 s
  | .accscale rs1 rs2 => Sys2Proof.Machine.execAccscale rs1 rs2 s
  | .mmstat rd => Sys2Proof.Machine.execMmstat rd s
  | .halttF rs1 => Sys2Proof.Machine.execHalttF rs1 s
  | .preemptpt rd => Sys2Proof.Machine.execPreemptpt rd s
  | .launch rd rs1 n => Sys2Proof.Machine.execLaunch rd rs1 n s
  | .rngseed rs1 rs2 => Sys2Proof.Machine.execRngseed rs1 rs2 s
  | .rngnext rd => Sys2Proof.Machine.execRngnext rd s
  | .ctxsave rd rs1 f => Sys2Proof.Machine.execCtxsave rd rs1 f s
  | .ctxload rd rs1 => Sys2Proof.Machine.execCtxload rd rs1 s
  | .laneretire rd rs1 => Sys2Proof.Machine.execLaneretire rd rs1 s
  | .bblog rc rs1 rs2 => Sys2Proof.Machine.execBblog rc rs1 rs2 s
  | .vadd w => Sys2Proof.Machine.execVadd w s
  | .vsub w => Sys2Proof.Machine.execVsub w s
  | .vrsub w => Sys2Proof.Machine.execVrsub w s
  | .vneg w => Sys2Proof.Machine.execVneg w s
  | .vabs w => Sys2Proof.Machine.execVabs w s
  | .vmin w => Sys2Proof.Machine.execVmin w s
  | .vmax w => Sys2Proof.Machine.execVmax w s
  | .vminu w => Sys2Proof.Machine.execVminu w s
  | .vmaxu w => Sys2Proof.Machine.execVmaxu w s
  | .vmul w => Sys2Proof.Machine.execVmul w s
  | .vmulh w => Sys2Proof.Machine.execVmulh w s
  | .vmac w => Sys2Proof.Machine.execVmac w s
  | .vand w => Sys2Proof.Machine.execVand w s
  | .vor w => Sys2Proof.Machine.execVor w s
  | .vxor w => Sys2Proof.Machine.execVxor w s
  | .vandn w => Sys2Proof.Machine.execVandn w s
  | .vnot w => Sys2Proof.Machine.execVnot w s
  | .vsll w => Sys2Proof.Machine.execVsll w s
  | .vsrl w => Sys2Proof.Machine.execVsrl w s
  | .vsra w => Sys2Proof.Machine.execVsra w s
  | .vshrr w => Sys2Proof.Machine.execVshrr w s
  | .vcmp w => Sys2Proof.Machine.execVcmp w s
  | .vsel w => Sys2Proof.Machine.execVsel w s
  | .vmov w => Sys2Proof.Machine.execVmov w s
  | .vmovi w => Sys2Proof.Machine.execVmovi w s
  | .vmovg w => Sys2Proof.Machine.execVmovg w s
  | .vpopc w => Sys2Proof.Machine.execVpopc w s
  | .vclz w => Sys2Proof.Machine.execVclz w s
  | .vabsd w => Sys2Proof.Machine.execVabsd w s
  | .vavg w => Sys2Proof.Machine.execVavg w s
  | .vdotr w => Sys2Proof.Machine.execVdotr w s
  | .vrand w => Sys2Proof.Machine.execVrand w s
  | .vsext w => Sys2Proof.Machine.execVsext w s
  | .vzext w => Sys2Proof.Machine.execVzext w s
  | .vsatw w => Sys2Proof.Machine.execVsatw w s
  | .vpack w => Sys2Proof.Machine.execVpack w s
  | .vsegd w => Sys2Proof.Machine.execVsegd w s
  | .vcvt w => Sys2Proof.Machine.execVcvt w s
  | .mlog w => Sys2Proof.Machine.execMlog w s
  | .mset w => Sys2Proof.Machine.execMset w s
  | .mpop w => Sys2Proof.Machine.execMpop w s
  | .mfirst w => Sys2Proof.Machine.execMfirst w s
  | .vany w => Sys2Proof.Machine.execVany w s
  | .vall w => Sys2Proof.Machine.execVall w s
  | .vtrim w => Sys2Proof.Machine.execVtrim w s
  | .vsetvlb w => Sys2Proof.Machine.execVsetvlb w s
  | .vfadd w => Sys2Proof.Machine.execVfadd w s
  | .vfsub w => Sys2Proof.Machine.execVfsub w s
  | .vfmul w => Sys2Proof.Machine.execVfmul w s
  | .vfma w => Sys2Proof.Machine.execVfma w s
  | .vfmin w => Sys2Proof.Machine.execVfmin w s
  | .vfmax w => Sys2Proof.Machine.execVfmax w s
  | .vfdiv w => Sys2Proof.Machine.execVfdiv w s
  | .vfsqrt w => Sys2Proof.Machine.execVfsqrt w s
  | .vfrecip w => Sys2Proof.Machine.execVfrecip w s
  | .vfrsqrt w => Sys2Proof.Machine.execVfrsqrt w s
  | .vfexp2 w => Sys2Proof.Machine.execVfexp2 w s
  | .vfcmp w => Sys2Proof.Machine.execVfcmp w s
  | .vfclass w => Sys2Proof.Machine.execVfclass w s
  | .vfscale w => Sys2Proof.Machine.execVfscale w s
  | .vfsgn w => Sys2Proof.Machine.execVfsgn w s
  | .vred w => Sys2Proof.Machine.execVred w s
  | .vfred w => Sys2Proof.Machine.execVfred w s
  | .vscan w => Sys2Proof.Machine.execVscan w s
  | .vperm w => Sys2Proof.Machine.execVperm w s
  | .vslideup w => Sys2Proof.Machine.execVslideup w s
  | .vslidedn w => Sys2Proof.Machine.execVslidedn w s
  | .vbcast w => Sys2Proof.Machine.execVbcast w s
  | .vcompact w => Sys2Proof.Machine.execVcompact w s
  | .vnzscan w => Sys2Proof.Machine.execVnzscan w s
  | .vpfxpop w => Sys2Proof.Machine.execVpfxpop w s
  | .vramp w => Sys2Proof.Machine.execVramp w s
  | .vbar w => Sys2Proof.Machine.execVbar w s
  | .vld w => Sys2Proof.Machine.execVld w s
  | .vlds w => Sys2Proof.Machine.execVlds w s
  | .vldx w => Sys2Proof.Machine.execVldx w s
  | .vldseg w => Sys2Proof.Machine.execVldseg w s
  | .vldff w => Sys2Proof.Machine.execVldff w s
  | .vst w => Sys2Proof.Machine.execVst w s
  | .vsts w => Sys2Proof.Machine.execVsts w s
  | .vstx w => Sys2Proof.Machine.execVstx w s
  | .vstseg w => Sys2Proof.Machine.execVstseg w s
  | .vamo w => Sys2Proof.Machine.execVamo w s
  | .vamoTile w => Sys2Proof.Machine.execVamoTile w s
  | .vamof w => Sys2Proof.Machine.execVamof w s
  | .vldt w => Sys2Proof.Machine.execVldt w s
  | .vstt w => Sys2Proof.Machine.execVstt w s
  | .vwaitn w => Sys2Proof.Machine.execVwaitn w s
  | .vpref w => Sys2Proof.Machine.execVpref w s
  | .vaccrd w => Sys2Proof.Machine.execVaccrd w s
  | .vaccwr w => Sys2Proof.Machine.execVaccwr w s
  | .vaccz w => Sys2Proof.Machine.execVaccz w s
  | .vmxsc w => Sys2Proof.Machine.execVmxsc w s
  | .vixprobe w => Sys2Proof.Machine.execVixprobe w s
  | .vixhash w => Sys2Proof.Machine.execVixhash w s
  | .vsqmap w => Sys2Proof.Machine.execVsqmap w s
  | .vsqpos w => Sys2Proof.Machine.execVsqpos w s
  | .vstop w => Sys2Proof.Machine.execVstop w s
  | .vstopR w => Sys2Proof.Machine.execVstopR w s
  | .vtfetch w => Sys2Proof.Machine.execVtfetch w s
  | .vnop w => Sys2Proof.Machine.execVnop w s
  | .vtrap w => Sys2Proof.Machine.execVtrap w s
  | .baseInstruction op => Sys2Proof.Machine.execBaseInstruction op s
  | .illegalInstruction bits => Sys2Proof.Machine.execIllegalInstruction bits s
  | .vectorIllegal bits => Sys2Proof.Machine.execVectorIllegal bits s
  | .powerOn => Sys2Proof.Machine.execPowerOn s
  | .startBegin => Sys2Proof.Machine.execStartBegin s
  | .preHeatTimeout => Sys2Proof.Machine.execPreHeatTimeout s
  | .preHeatDone => Sys2Proof.Machine.execPreHeatDone s
  | .ethernetLinkUp => Sys2Proof.Machine.execEthernetLinkUp s
  | .thermalThrottle => Sys2Proof.Machine.execThermalThrottle s
  | .hbmRefreshDouble => Sys2Proof.Machine.execHbmRefreshDouble s
  | .hbmStopIssue => Sys2Proof.Machine.execHbmStopIssue s
  | .thermalTrip => Sys2Proof.Machine.execThermalTrip s
  | .thermalRecovery => Sys2Proof.Machine.execThermalRecovery s
  | .powerCapAdjust => Sys2Proof.Machine.execPowerCapAdjust s
  | .droopDetected => Sys2Proof.Machine.execDroopDetected s
  | .targetFreqAdjust => Sys2Proof.Machine.execTargetFreqAdjust s
  | .retrainWindowOpen => Sys2Proof.Machine.execRetrainWindowOpen s
  | .retrainWindowClose => Sys2Proof.Machine.execRetrainWindowClose s
  | .retrainFailed => Sys2Proof.Machine.execRetrainFailed s
  | .uncorrectableMemoryError => Sys2Proof.Machine.execUncorrectableMemoryError s
  | .scratchpadSoftError => Sys2Proof.Machine.execScratchpadSoftError s
  | .linkCrcReplay => Sys2Proof.Machine.execLinkCrcReplay s
  | .linkRetrain => Sys2Proof.Machine.execLinkRetrain s
  | .ucieModuleLost => Sys2Proof.Machine.execUcieModuleLost s
  | .adjacencyFailed => Sys2Proof.Machine.execAdjacencyFailed s
  | .flitReceive => Sys2Proof.Machine.execFlitReceive s
  | .causalWriteApply => Sys2Proof.Machine.execCausalWriteApply s
  | .sequenceReport => Sys2Proof.Machine.execSequenceReport s
  | .mkaKeyChange => Sys2Proof.Machine.execMkaKeyChange s
  | .frameDrop => Sys2Proof.Machine.execFrameDrop s
  | .icmpv6NdAnswer => Sys2Proof.Machine.execIcmpv6NdAnswer s
  | .post => Sys2Proof.Machine.execPost s
  | .read => Sys2Proof.Machine.execRead s
  | .write => Sys2Proof.Machine.execWrite s
  | .atomicAdd => Sys2Proof.Machine.execAtomicAdd s
  | .atomicSwap => Sys2Proof.Machine.execAtomicSwap s
  | .atomicCas => Sys2Proof.Machine.execAtomicCas s
  | .atomicMaxu => Sys2Proof.Machine.execAtomicMaxu s
  | .atomicFaddS => Sys2Proof.Machine.execAtomicFaddS s
  | .completion => Sys2Proof.Machine.execCompletion s
  | .ack => Sys2Proof.Machine.execAck s
  | .manageOpen => Sys2Proof.Machine.execManageOpen s
  | .manageClose => Sys2Proof.Machine.execManageClose s
  | .manageAttest => Sys2Proof.Machine.execManageAttest s
  | .manageBbread => Sys2Proof.Machine.execManageBbread s
  | .manageResetWarm => Sys2Proof.Machine.execManageResetWarm s
  | .manageResetKeep => Sys2Proof.Machine.execManageResetKeep s
  | .manageResetCold => Sys2Proof.Machine.execManageResetCold s
  | .manageCakset => Sys2Proof.Machine.execManageCakset s
  | .ackDelayExpire => Sys2Proof.Machine.execAckDelayExpire s
  | .retransmissionTimerExpire => Sys2Proof.Machine.execRetransmissionTimerExpire s
  | .connectionHoldExpire => Sys2Proof.Machine.execConnectionHoldExpire s
  | .outboundTransferSend => Sys2Proof.Machine.execOutboundTransferSend s
  | .registerWrite => Sys2Proof.Machine.execRegisterWrite s
  | .unassignedAccess => Sys2Proof.Machine.execUnassignedAccess s
  | .chainstRead => Sys2Proof.Machine.execChainstRead s
  | .portstRead => Sys2Proof.Machine.execPortstRead s
  | .memhlthRead => Sys2Proof.Machine.execMemhlthRead s
  | .qstatRead => Sys2Proof.Machine.execQstatRead s
  | .schstRead => Sys2Proof.Machine.execSchstRead s
  | .windowCommit => Sys2Proof.Machine.execWindowCommit s
  | .portaddrCommit => Sys2Proof.Machine.execPortaddrCommit s
  | .campanileStore => Sys2Proof.Machine.execCampanileStore s
  | .xlinvPage => Sys2Proof.Machine.execXlinvPage s
  | .xlinvAsid => Sys2Proof.Machine.execXlinvAsid s
  | .xlinvAll => Sys2Proof.Machine.execXlinvAll s
  | .queueEnable => Sys2Proof.Machine.execQueueEnable s
  | .queueDisable => Sys2Proof.Machine.execQueueDisable s
  | .qcancelTag => Sys2Proof.Machine.execQcancelTag s
  | .qcancelAll => Sys2Proof.Machine.execQcancelAll s
  | .schcancelTag => Sys2Proof.Machine.execSchcancelTag s
  | .schcancelAll => Sys2Proof.Machine.execSchcancelAll s
  | .recordTake => Sys2Proof.Machine.execRecordTake s
  | .cancelledSlotPass => Sys2Proof.Machine.execCancelledSlotPass s
  | .dependencePass => Sys2Proof.Machine.execDependencePass s
  | .dependenceTimeout => Sys2Proof.Machine.execDependenceTimeout s
  | .claimFormed => Sys2Proof.Machine.execClaimFormed s
  | .placement => Sys2Proof.Machine.execPlacement s
  | .gangStart => Sys2Proof.Machine.execGangStart s
  | .prefetchFault => Sys2Proof.Machine.execPrefetchFault s
  | .preemptRequest => Sys2Proof.Machine.execPreemptRequest s
  | .threadStopSave => Sys2Proof.Machine.execThreadStopSave s
  | .preemptForceExpire => Sys2Proof.Machine.execPreemptForceExpire s
  | .gangSaved => Sys2Proof.Machine.execGangSaved s
  | .saveRestoreFail => Sys2Proof.Machine.execSaveRestoreFail s
  | .recordComplete => Sys2Proof.Machine.execRecordComplete s
  | .trapTake => Sys2Proof.Machine.execTrapTake s
  | .convoyWatchdogExpire => Sys2Proof.Machine.execConvoyWatchdogExpire s
  | .heldStorePerform => Sys2Proof.Machine.execHeldStorePerform s
  | .notifyUpdate => Sys2Proof.Machine.execNotifyUpdate s
  | .vamofFlagMerge => Sys2Proof.Machine.execVamofFlagMerge s
  | .watermarkPassed => Sys2Proof.Machine.execWatermarkPassed s
  | .engineCommandDone => Sys2Proof.Machine.execEngineCommandDone s
  | .tileFillComplete => Sys2Proof.Machine.execTileFillComplete s
  | .tileDrainComplete => Sys2Proof.Machine.execTileDrainComplete s
  | .streamFill => Sys2Proof.Machine.execStreamFill s
  | .awlCommand => Sys2Proof.Machine.execAwlCommand s
  | .batchComplete => Sys2Proof.Machine.execBatchComplete s
  | .pinRelease => Sys2Proof.Machine.execPinRelease s
  | .frameReturn => Sys2Proof.Machine.execFrameReturn s
  | .btinvComplete => Sys2Proof.Machine.execBtinvComplete s
  | .indexZeroingComplete => Sys2Proof.Machine.execIndexZeroingComplete s
  | .sqwaitTimeout => Sys2Proof.Machine.execSqwaitTimeout s
  | .barrierArrivalPerform => Sys2Proof.Machine.execBarrierArrivalPerform s
  | .accumulatorGroupZero => Sys2Proof.Machine.execAccumulatorGroupZero s
  | .matrixOpComplete => Sys2Proof.Machine.execMatrixOpComplete s
  | .lanternJobStart => Sys2Proof.Machine.execLanternJobStart s
  | .lanternJobDone => Sys2Proof.Machine.execLanternJobDone s
  | .lanternWatchdogExpire => Sys2Proof.Machine.execLanternWatchdogExpire s
  | .lanternReplayStart => Sys2Proof.Machine.execLanternReplayStart s
  | .lanternResetDone => Sys2Proof.Machine.execLanternResetDone s
  | .lanternReadError => Sys2Proof.Machine.execLanternReadError s
  | .fenceTso => Sys2Proof.Machine.execFenceTso s
  | .fenceI => Sys2Proof.Machine.execFenceI s
  | .ecall => Sys2Proof.Machine.execEcall s
  | .ebreak => Sys2Proof.Machine.execEbreak s
  | .wfi => Sys2Proof.Machine.execWfi s
  | .mret => Sys2Proof.Machine.execMret s
  | .vqdrain => Sys2Proof.Machine.execVqdrain s
  | .svfence => Sys2Proof.Machine.execSvfence s
  | .mmfence => Sys2Proof.Machine.execMmfence s
  | .haltt => Sys2Proof.Machine.execHaltt s
  | .yield => Sys2Proof.Machine.execYield s
  | .bankRejoin => Sys2Proof.Machine.execBankRejoin s
  | .ethernetLinkDown => Sys2Proof.Machine.execEthernetLinkDown s
  | .lossOfPower => Sys2Proof.Machine.execLossOfPower s
  | .hbmIssueResume => Sys2Proof.Machine.execHbmIssueResume s
  | .lrWriteDeferralEnd => Sys2Proof.Machine.execLrWriteDeferralEnd s
  | .lanternCancelStop => Sys2Proof.Machine.execLanternCancelStop s

end Sys2Proof.Machine
end

