-- ==== Sys2Proof/Machine/Run.lean ====
section
/-! DEFINITION. Turns: a thread issues an instruction, banks execute a convoy, a unit or the world outside acts, and whose
turn it is when the agenda is empty (R92, R108 to R130; log entries 1, 2, 16). -/

namespace Sys2Proof.Machine

/-! Which steps of the table a turn may bring as events. -/

/-- Where a step of the table comes about: outside the dies or at the port and Campanile, in a unit of a die, or in a core
that issues it. -/
inductive Side where
  | outer | unit | core
deriving DecidableEq, Repr

def sideOf : Instr → Side
  | .powerOn | .startBegin | .preHeatTimeout | .preHeatDone | .ethernetLinkUp | .ethernetLinkDown | .thermalThrottle
  | .hbmRefreshDouble | .hbmStopIssue | .hbmIssueResume | .thermalTrip | .thermalRecovery | .powerCapAdjust
  | .lossOfPower | .mkaKeyChange | .frameDrop | .icmpv6NdAnswer | .post | .read | .write | .atomicAdd | .atomicSwap
  | .atomicCas | .atomicMaxu | .atomicFaddS | .completion | .ack | .manageOpen | .manageClose | .manageAttest
  | .manageBbread | .manageResetWarm | .manageResetKeep | .manageResetCold | .manageCakset | .ackDelayExpire
  | .retransmissionTimerExpire | .connectionHoldExpire | .campanileStore => .outer
  | .droopDetected | .targetFreqAdjust | .retrainWindowOpen | .retrainWindowClose | .retrainFailed
  | .uncorrectableMemoryError | .scratchpadSoftError | .linkCrcReplay | .linkRetrain | .ucieModuleLost
  | .adjacencyFailed | .flitReceive | .causalWriteApply | .sequenceReport | .outboundTransferSend | .registerWrite
  | .unassignedAccess | .chainstRead | .portstRead | .memhlthRead | .qstatRead | .schstRead | .windowCommit
  | .portaddrCommit | .xlinvPage | .xlinvAsid | .xlinvAll | .queueEnable | .queueDisable | .qcancelTag | .qcancelAll
  | .schcancelTag | .schcancelAll | .recordTake | .cancelledSlotPass | .dependencePass | .dependenceTimeout
  | .claimFormed | .placement | .gangStart | .prefetchFault | .preemptRequest | .threadStopSave | .preemptForceExpire
  | .gangSaved | .saveRestoreFail | .recordComplete | .convoyWatchdogExpire | .heldStorePerform | .notifyUpdate
  | .vamofFlagMerge | .watermarkPassed | .engineCommandDone | .tileFillComplete | .tileDrainComplete | .streamFill
  | .awlCommand | .batchComplete | .pinRelease | .frameReturn | .btinvComplete | .indexZeroingComplete
  | .sqwaitTimeout | .barrierArrivalPerform | .accumulatorGroupZero | .matrixOpComplete | .lanternJobStart
  | .lanternJobDone | .lanternWatchdogExpire | .lanternReplayStart | .lanternResetDone | .lanternReadError
  | .lanternCancelStop | .bankRejoin | .lrWriteDeferralEnd => .unit
  | _ => .core

/-- An event may come about: power is applied, and after a thermal trip no unit of a die acts (R25, R44). -/
def State.admits (s : State) (i : Instr) : Bool :=
  match i with
  | .powerOn => true
  | i => s.camp.power && match sideOf i with | .outer => true | .unit => !s.camp.tripped | .core => false

/-- The message row of a packet (R32, R33, R36): by TYPE and OP; a reserved OP stands with the row that answers it. -/
def rowOf (p : Packet) : Instr :=
  if p.ver ≠ 1 then .frameDrop
  else match p.typ.toNat with
    | 0 => .post
    | 1 => .read
    | 2 => .write
    | 3 => (match p.op.toNat with | 1 => .atomicSwap | 2 => .atomicCas | 3 => .atomicMaxu | 4 => .atomicFaddS | _ => .atomicAdd)
    | 4 => .completion
    | 5 => (match p.op.toNat with
        | 1 => .manageClose | 2 => .manageAttest | 3 => .manageBbread
        | 4 => if beNat p.payload = 1 then .manageResetKeep else if beNat p.payload = 2 then .manageResetCold else .manageResetWarm
        | 5 => .manageCakset | _ => .manageOpen)
    | 6 => .ack
    | _ => .frameDrop

/-! A thread issues one instruction (R92, R102, R126). -/

/-- What a fetch finds: a trap, a wait for a memory window or an engine, or the instruction with the state after it. -/
inductive Fetched where
  | stop (tr : Trap)
  | wait
  | got (s : State) (i : Instr)

/-- Where the two bytes at an address lie for the executing thread. -/
def State.halfPa (s : State) (va : Word) : Except FetchErr Nat :=
  s.fetchPa (coreOf s.cur) s.me.mode s.me.csr.vptbase va 2

/-- WMWAIT and WMPUB stand for two rows each; the register operand decides which (R348, R349). -/
def State.resolve (s : State) (i : Instr) : Instr :=
  match i with
  | .wmwait sp a b => if (s.rd b).getLsbD 63 then .wmwaitArm sp a b else i
  | .wmpub _ a b => if (s.rd a).getLsbD 0 then .wmpubRemote a b else i
  | i => i

/-- The executing thread is about to perform the instruction of some bytes: its bits, the address after it, and the cycles
that have passed for the thread (log entry 6). -/
def State.latch (s : State) (bs : List Byte) (n : Nat) : State :=
  let cy := Config.cycles s.free
  { s.tick with ir := BitVec.ofNat 32 (leNat (bs.take n)) }.updMe fun t =>
    { t with npc := t.pc + word n
             csr := if t.csr.mcountinhibit.getLsbD 0 then t.csr else { t.csr with mcycle := t.csr.mcycle + cy } }

/-- Decode the bytes fetched. -/
def State.decoded (s : State) (bs : List Byte) : Fetched :=
  match decodeBytes bs with
  | .ok (i, n) => let s := s.latch bs n; .got s (s.resolve i)
  | .error _ => .wait

/-- What a failed fetch of the bytes at an address comes to. -/
def FetchErr.fetched (e : FetchErr) (va : Word) : Fetched :=
  match e with
  | .wait => .wait
  | .fault c info => .stop { cause := c, tval := va, info }

/-- Fetch the instruction at the pc of the executing thread through the instruction cache: two bytes, and two more unless
the first two are a 16-bit instruction. -/
def State.fetch (s : State) : Fetched :=
  let c := coreOf s.cur
  let pc := s.me.pc
  match s.halfPa pc with
  | .error e => e.fetched pc
  | .ok p0 =>
    let s := s.icFill c p0
    let lo := s.icBytes c p0 2
    if leNat lo % 4 ≠ 3 then s.decoded lo
    else match s.halfPa (pc + 2) with
      | .error e => e.fetched (pc + 2)
      | .ok p1 =>
        let s := s.icFill c p1
        s.decoded (lo ++ s.icBytes c p1 2)

/-- Handles and streams that an instruction names (R126). -/
def handlesOf : Instr → List Reg
  | .tcfg h _ _ | .tload h _ _ | .tstore h _ | .tfree h | .tstat _ h => [h]
  | .tcopy d h => [d, h]
  | .strbind h _ => [h]
  | _ => []
/-- Handles that the record of an XFORM or the card of an ATTN names (R126, R241). -/
def State.recordHandles (s : State) (i : Instr) : List Reg :=
  match i with
  | .xform rs1 => (match s.getRecord (s.rd rs1) 32 32 with
      | .ok r _ => if xfTgt (BitVec.ofNat 256 r) then [BitVec.ofNat 5 (bitsOf r 9 5)] else []
      | _ => [])
  | .attn _ rs1 => (match s.getRecord (s.rd rs1) 128 64 with
      | .ok r _ => let c := Card.of r; [BitVec.ofNat 5 c.qh, BitVec.ofNat 5 c.oh]
      | _ => [])
  | _ => []

def streamOf : Instr → Option Nat
  | .strcfg q _ | .strstart q | .strstop q | .strstat _ q | .strbind _ q => some q.toNat
  | _ => none
/-- The matrix instructions, which a matrix fault is raised at as they issue; MMFENCE takes it after its wait (R365, R366). -/
def isMatrix : Instr → Bool
  | .mmcfg _ _ | .mmissue _ _ | .mmsparse _ _ | .mmgather _ _ | .mmret _ _ | .acczero _ | .accscale _ _ | .mmstat _ =>
    true
  | _ => false

/-- The instruction raises a pending engine trap: it names the tile, by one of the handles `hs`, or the stream, it is a matrix
instruction after a matrix fault, or it ends the thread (R126, R289, R366). -/
def Thread.raises (t : Thread) (i : Instr) (hs : List Reg) (tr : Trap) : Bool :=
  (hs.any fun h => match t.handle h.toNat with | some k => tr.names.contains k | none => false)
    || (match streamOf i with | some q => tr.strm == some q | none => false)
    || (tr.mtx && isMatrix i)
    || (match i with | .haltt => true | _ => false)

/-- The engine traps that the instruction raises are due. -/
def Thread.markDue (t : Thread) (i : Instr) (hs : List Reg) : Thread :=
  { t with engTraps := t.engTraps.map fun x => if t.raises i hs x then { x with due := true } else x }

/-- The instruction has taken an exception of its own, its thread gone from U to M mode; the engine trap of a tile that it
names comes before its TILE_STATE (R138). -/
def State.tookOwn (s : State) (tid : Nat) (due : Bool) (o : Out) : Bool :=
  match o with
  | .next t => (s.thread tid).mode == .u && (t.thread tid).mode == .m && !(due && (t.thread tid).csr.mcause == 28)
  | _ => false

/-- The executing thread issues `i`, unless a pending trap comes first: its own exception, the convoy trap, LANE_ERROR,
engine traps (R126). -/
def State.issue (s : State) (i : Instr) : Out :=
  let tid := s.cur
  let hs := if s.me.engTraps.isEmpty then [] else handlesOf i ++ s.recordHandles i
  let t := s.me.markDue i hs
  if t.mayTrap && t.nextTrap.isSome then
    let o := exec i s
    let own := match i with | .wait _ _ _ _ | .haltt => false | .mmfence => !isCup tid | _ => s.tookOwn tid (t.engTraps.any (t.raises i hs)) o
    if own then o else exec .trapTake { s.setMe t with ev := { tid } }
  else exec i s

/-- A thread may issue (R92, R95, R275, R348): it lives, no stop has taken it, and no strip check holds it. -/
def State.issues (s : State) (tid : Nat) : Bool :=
  let t := s.thread tid
  s.serving && t.live && !(t.stopNow || t.frc)
    && !((match t.water with | some w => w.hold | none => false) && !(t.mayTrap && t.nextTrap.isSome))

/-- The turn of a thread: YIELD gives one up; else the thread fetches and issues, or takes the fetch's trap. -/
def State.threadTurn (s : State) (tid : Nat) : Out :=
  if !s.issues tid then .next s
  else if (s.thread tid).yielded then .next (s.updThread tid fun t => { t with yielded := false })
  else
    let s := { s with cur := tid }
    match s.fetch with
    | .wait => .next s
    | .stop tr => .next (s.takeException tr s.me.pc)
    | .got s i => s.issue i

/-! Banks execute convoys (R108 to R119, R125). -/

/-- The banks of the block at the head, at its first convoy, when the block has not begun. -/
def State.beginBlock (s : State) (tid : Nat) : State :=
  let t := s.thread tid
  match t.vq with
  | [] => s
  | b :: _ =>
    if !t.banks.isEmpty then s
    else
      let l : Lay := { core := coreOf tid, first := ctxFirst b.snap.vctx
                       e := (s.core (coreOf tid)).fewest (ctxBanks b.snap.vctx), vl := b.snap.vl.toNat }
      s.updThread tid fun t => { t with banks := l.busy.map fun k => (k, { pc := b.addr }) }

/-- Banks of the thread may begin a convoy: nothing stops or pauses the queue (R124, R126, R235). While a request waits for jobs
to complete, the convoys that they wait for still run (R242). -/
def State.vectorRuns (s : State) (tid : Nat) : Bool :=
  let t := s.thread tid
  s.serving && t.live && !t.vq.isEmpty && !t.frozen && t.convTrap.isNone && t.laneTraps.isEmpty && !((t.stopNow || t.frc) && !s.jobsOf tid)
    && !((s.cluster (cluOf tid)).jobs.any fun j => j.tid == tid && j.gang == t.gang && j.ran)

/-- A convoy that all banks execute at once (log entry 16). -/
def joint (ws : List (BitVec 64)) : Bool :=
  ws.any fun w => jointWord w || (opOf w == 0x70 && vwFn w != 1) || opOf w == 0x73

/-- The set of banks that may execute the convoy at bank `k`: a diverged bank alone; a joined one alone within its slip,
or with every other once all stand at the convoy (R116 to R119). -/
def State.together (s : State) (tid k : Nat) : Option (List Nat) :=
  let t := s.thread tid
  match t.banks.lookup k, t.vq with
  | some r, b :: _ =>
    match r.div with
    | .diverged => some [k]
    | .waiting => none
    | .joined =>
      if joint (s.convoyWords tid r.pc) then
        if t.banks.all fun p => p.2.div == .joined && p.2.n == r.n then some (t.banks.map (·.1)) else none
      else if t.banks.all fun p => decide (r.n ≤ p.2.n + b.snap.vslip.toNat) then some [k]
      else none
  | _, _ => none

/-- The base of the draws of ordinal `n` (R185). -/
def Thread.drawBase (t : Thread) (n : Nat) : Word := ((Tab.get {} t.fx n).draw).getD t.csr.rngctr

/-- Words in their order, each whole, until one traps or waits (R111). -/
def runWords : List Instr → State → Out
  | [], s => .next s
  | i :: is, s =>
    match exec i s with
    | .next t => if t.act.trap.isSome || t.act.stall then .next t else runWords is t
    | o => o

/-- The act of some banks at a convoy. -/
def Thread.actOf (t : Thread) (tid : Nat) (bs : List Nat) (b : Block) (r : BankRun) : Act :=
  { tid, banks := bs, snap := b.snap, addr := r.pc, n := r.n, mmode := b.mmode
    draw := if r.div = .diverged then r.draw else t.drawBase r.n, still := r.div == .diverged }

/-- The trap of a word of the convoy that cannot be fetched (R109): reason 6, with what its home found. -/
def fetchTrap (addr va info : Word) : Trap :=
  let home : Word := info &&& 0xC000000000000000
  { cause := 25, tval := va
    info := (word (6 + 2 ^ 8 * (addr.toNat % 2 ^ 48)) ||| home) ||| (if home = 0 then 0 else word (2 ^ 61)) }

/-- The convoy's words execute: a fetch fault, an illegal word, or each in turn (R109, R110, R257). -/
def State.execConvoy (s : State) (r : BankRun) (ws : List (Option (BitVec 64))) : Out :=
  match ws.findIdx? (·.isNone) with
  | some k =>
    let va := r.pc + word (8 * k)
    match s.vecPa s.act.tid s.act.mmode va with
    | .error (.fault _ info) => .next (s.vtrapped (fetchTrap r.pc va info))
    | .error .wait | .ok _ => .next s.vstalled
  | none =>
    let ws := ws.filterMap id
    match convoyBad r.div s.act.snap.vw ws.length 0 [] ws with
    | some (k, reason) =>
      exec (.vectorIllegal (ws.getD k 0)) { s with ev := { s.ev with unit := reason, idx := k } }
    | none => runWords (ws.map decode64) s

/-- What stays of a convoy that did not retire: the marks of elements that have performed, armed monitors and due traps;
memory keeps what has performed, and every register is as before (R125). -/
def State.undo (t s : State) (tid : Nat) : State :=
  let th := t.thread tid
  let c := coreOf tid
  let ic := (t.core c).icache
  ((t.setThread tid { s.thread tid with done := th.done, armed := th.armed, engTraps := th.engTraps }).setCore c
    { s.core c with icache := ic })

/-- The convoy trap is pending and the queue frozen (R124). -/
def Thread.convoyTraps (t : Thread) (tr : Trap) (ffst : Option (BitVec 40)) : Thread :=
  { t with convTrap := some tr, frozen := true
           csr := match ffst with | some f => { t.csr with ffst := f } | none => t.csr }

/-- Effects of two parts of one convoy. -/
def Fx.merge (a b : Fx) : Fx :=
  { flags := a.flags ||| b.flags, fidx := b.fidx.foldl (fun l p => lowIdx l p.1 p.2) a.fidx, posts := a.posts ++ b.posts
    vl := b.vl <|> a.vl, ffst := b.ffst <|> a.ffst, ntf := b.ntf <|> a.ntf, draw := a.draw <|> b.draw }

/-- Flag indices after some elements have raised flags (R188). -/
def mergeIdx (v : Vector (BitVec 32) 8) (l : List (Nat × Nat)) : Vector (BitVec 32) 8 :=
  Vector.ofFn fun k => match l.lookup k.val with
    | some i => if i < (v[k]).toNat then BitVec.ofNat 32 i else v[k]
    | none => v[k]

/-- The effects of a convoy that has retired on every non-idle bank (R113, R115, R167, R187, R188, R276): a notify follows
the NTF words held for the first `upTo` convoys. -/
def Thread.apply (t : Thread) (epoch upTo : Nat) (f : Fx) : Thread :=
  let c := t.csr
  let c := { c with vxstat := c.vxstat ||| f.flags, fidx := mergeIdx c.fidx f.fidx
                    vl := match f.vl with | some v => if epoch = t.epoch then v else c.vl | none => c.vl
                    ffst := f.ffst.getD c.ffst }
  let t := { t with csr := c }
  let t := f.posts.foldl (fun (t : Thread) p => t.post p.1 p.2) t
  let t := if f.flags.getLsbD 0 then t.post 26 true else t
  let t := if f.flags.getLsbD 6 then t.post 27 true else t
  match f.ntf with
  | none => t
  | some n =>
    let w := t.csr.wcnt + n.count
    let words := (t.held.filter fun h => h.ntf && decide (h.need ≤ upTo)).map (·.id)
    { t with csr := { t.csr with wcnt := w }, notifies := t.notifies ++ [{ n with count := w, words }] }

/-- Settle the ordinals that every bank has retired, in order. -/
def settleLoop (epoch : Nat) : Nat → Thread → Thread
  | 0, t => t
  | k + 1, t =>
    if t.banks.all fun p => t.settled < p.2.n then
      let f := Tab.get {} t.fx t.settled
      settleLoop epoch k
        ({ t.apply epoch (t.settled + 1) f with settled := t.settled + 1, fx := Tab.erase t.fx t.settled })
    else t

/-- Marks of elements on the banks that have retired their convoy go. -/
def Thread.clearDone (t : Thread) (l : Lay) (bs : List Nat) : Thread :=
  { t with done := t.done.filter fun p => !bs.contains (l.first + p.1 % 2 ^ 20 / l.e) }

/-- vl has changed in the block: its snapshot, and the banks that are not idle now (R105, R108). -/
def Thread.resize (t : Thread) (b : Block) (vl : BitVec 18) (bs : List Nat) : Thread :=
  match t.banks with
  | [] => t
  | p :: _ => { t with vq := { b with snap := { b.snap with vl } } :: t.vq.drop 1, banks := bs.map fun k => (k, p.2) }

/-- The convoy retires on a diverged bank: its effects take effect at once, and its ordinal stays (R119). -/
def State.retireAlone (s : State) (tid : Nat) (b : Block) (r : BankRun) (a : Act) : State :=
  s.updThread tid fun t =>
    { (t.clearDone s.lay a.banks).apply b.epoch r.n a.fx with
      banks := t.banks.map fun p => if a.banks.contains p.1 then (p.1, { p.2 with n := r.n }) else p }

/-- The convoy retires on joined banks; `base` is where its draws began. -/
def State.retireJoined (s : State) (tid : Nat) (b : Block) (r : BankRun) (a : Act) (base : Word) : State :=
  s.updThread tid fun t =>
    let t := t.clearDone s.lay a.banks
    let old := Tab.get {} t.fx r.n
    let drew := a.draw != base
    let t := { t with fx := Tab.set {} t.fx r.n (old.merge { a.fx with draw := if drew then some base else none })
                      csr := if drew && old.draw.isNone then { t.csr with rngctr := a.draw } else t.csr }
    let t := match a.fx.vl with | some v => t.resize b v a.banks | none => t
    settleLoop b.epoch (t.fx.length + t.banks.length + r.n + 1) t

/-- The words of a convoy move their banks themselves: VTFETCH and VSTOP.R. -/
def movesItself (ws : List (BitVec 64)) : Bool := ws.any fun w => opOf w == 0x71 || (opOf w == 0x70 && vwFn w == 1)

/-- The convoy has executed on its banks without trap or wait. -/
def State.retire (s : State) (tid : Nat) (b : Block) (r : BankRun) (ws : List (BitVec 64)) (base : Word) : State :=
  let a := s.act
  let s := if movesItself ws then s else s.moveBanks fun k => { k with pc := a.addr + word (8 * ws.length) }
  if r.div = .diverged then s.retireAlone tid b r a else s.retireJoined tid b r a base

/-- Some bank has not retired every convoy before the one at hand (R125). -/
def Thread.lags (t : Thread) (r : BankRun) : Bool := t.banks.any fun p => decide (p.2.n < r.n)

/-- What a convoy's execution leaves (R111, R125, R319): it waits and executes again, traps, ends the block, or retires.
A trap is taken once every earlier convoy has retired on every bank. -/
def State.afterConvoy (t s : State) (tid : Nat) (b : Block) (r : BankRun) (ws : List (BitVec 64)) (base : Word) : State :=
  if t.act.stall then t.undo s tid
  else match t.act.trap with
    | some tr =>
      if (s.thread tid).lags r then t.undo s tid
      else if tr.cause = 3 then (t.retire tid b r ws base).updThread tid (·.convoyTraps tr none)
      else (t.undo s tid).updThread tid (·.convoyTraps tr t.act.fx.ffst)
    | none => if ws.any fun w => opOf w == 0x70 && vwFn w != 1 then t else t.retire tid b r ws base

/-- A double-bit error met one of the banks: LANE_ERROR at the convoy that reads it, once every earlier convoy has retired
(R56, R125). -/
def State.laneConvoy (s : State) (tid : Nat) (r : BankRun) (tr : Trap) : State :=
  if (s.thread tid).lags r then s
  else s.updThread tid fun t => { t.convoyTraps { tr with tval := r.pc } none with laneBad := none }

/-- Some banks of a thread execute the convoy at which they stand, or only the parts `only` of its load. -/
def State.convoyTurn (s : State) (tid : Nat) (bs : List Nat) (only : Option (List Nat) := none) : Out :=
  let s := s.beginBlock tid
  let t := s.thread tid
  match t.vq, bs.head?.bind fun k => t.banks.lookup k with
  | b :: _, some r =>
    if !s.vectorRuns tid || s.together tid (bs.headD 0) != some bs then .next s
    else match t.laneBad.filter fun p => bs.contains p.1 with
    | some p => .next (s.laneConvoy tid r p.2)
    | none =>
      let ws := s.convoy tid b.mmode 4 r.pc
      let s := (List.range ws.length).foldl (fun (s : State) k => s.vecFill tid b.mmode (r.pc + word (8 * k))) s
      let a := t.actOf tid bs b r
      match ({ s with act := { a with only } }).execConvoy r ws with
      | .next u => .next { u.afterConvoy s tid b r (ws.filterMap id) a.draw with act := {} }
      | o => o
  | _, _ => .next s

/-! Turns. -/

/-- One event of a unit or of the world outside. TRAP_TAKE comes about as the turn of its thread. -/
def State.eventTurn (s : State) (i : Instr) (ev : Ev) : Out :=
  match i with
  | .trapTake => if (s.thread ev.tid).nextTrap.isSome then s.threadTurn ev.tid else .next s
  | i => if s.admits i then exec i { s with ev } else .next s

/-- A store-buffer entry leaves the thread when it may (R156). -/
def State.performTurn (s : State) (tid k : Nat) : State :=
  if s.canPerform tid k && !s.camp.tripped then s.performStore tid k else s

/-- What a turn does. A corrected memory error and a corrected FEC codeword show in their counts alone (R43, R54, R143). -/
def State.turn (s : State) (t : Turn) : Out :=
  match t with
  | .event i ev => s.eventTurn i ev
  | .packet p => s.eventTurn (rowOf p) { pkt := some p }
  | .thread tid => s.threadTurn tid
  | .banks tid bs => s.convoyTurn tid bs
  | .loads tid bs which => s.convoyTurn tid bs (some which)
  | .perform tid k => .next (s.performTurn tid k)
  | .promote core => .next (if s.camp.tripped then s else s.promote core)
  | .apply clu => .next (if s.camp.tripped then s else s.apply clu)
  | .icache core line => .next (s.updCore core fun c => { c with icache := Tab.erase c.icache line })
  | .writeBack line => .next (if s.owned line then s else s.writeBack line)
  | .corrected die => .next (s.updDie die fun d => { d with mcorr := satAdd16 d.mcorr 1 })
  | .fecCorrected => .next { s with port := { s.port with feccor := satAdd16 s.port.feccor 1 } }
  | .tick n => .next { s with now := s.now + n }

/-! The default rule: with an empty agenda the module goes on by itself (log entry 1). -/

/-- What units of the module may do by themselves, without a delay that the spec leaves open. -/
def State.internalEvents (s : State) : List (Instr × Ev) :=
  let start : List (Instr × Ev) :=
    if !s.camp.reset.isEmpty then [(.startBegin, { env := ⟨false, [], s.port.link == 2, 0, []⟩ })] else []
  let threads := s.threads.flatMap fun p =>
    let t := p.2
    let at_ (i : Instr) : Instr × Ev := (i, { tid := p.1 })
    (t.held.zipIdx.flatMap fun h => (List.range h.1.elems.length).map fun k =>
      (.heldStorePerform, ({ tid := p.1, unit := h.2, idx := k } : Ev)))
    ++ ((List.range t.held.length).map fun j => (.vamofFlagMerge, ({ tid := p.1, unit := j } : Ev)))
    ++ ((List.range t.arrivals.length).map fun k => (.barrierArrivalPerform, ({ tid := p.1, idx := k } : Ev)))
    ++ [at_ .notifyUpdate, at_ .bankRejoin, at_ .watermarkPassed, at_ .sqwaitTimeout, at_ .threadStopSave,
        at_ .preemptForceExpire, at_ .batchComplete]
  let links := s.links.flatMap fun p =>
    [(.flitReceive, ({ idx := p.1 / 4, cls := if p.1 % 4 = 0 then .wr else .sync } : Ev))]
  let dies := (List.range 4).flatMap fun d =>
    let news := (List.range 4).any fun k => k != d && !s.cut d k
      && (s.die k).applied.toList.getD d 0 != (s.die d).applied.toList.getD d 0
    ((List.range (s.die d).inb.length).map fun k => (.causalWriteApply, ({ die := d, idx := k } : Ev)))
    ++ (if news && s.links.isEmpty then [(.sequenceReport, ({ die := d } : Ev))] else [])
  let ops := s.ops.flatMap fun p =>
    ([.engineCommandDone, .tileFillComplete, .tileDrainComplete, .awlCommand, .matrixOpComplete, .btinvComplete,
      .indexZeroingComplete] : List Instr).map fun i => (i, ({ idx := p.1 } : Ev))
  let cores := s.cores.flatMap fun p =>
    (p.2.streams.map fun q => (.streamFill, ({ core := p.1, unit := q.1 } : Ev)))
    ++ (p.2.zeroing.map fun g => (.accumulatorGroupZero, ({ core := p.1, idx := g } : Ev)))
  let jobs := s.clusters.flatMap fun p =>
    (p.2.jobs.flatMap fun j =>
      ([.lanternCancelStop, .lanternReadError, .lanternJobDone, .lanternReplayStart, .lanternJobStart] : List Instr).map
        fun i => (i, ({ clu := p.1, idx := j.id } : Ev)))
    ++ (p.2.reset.map fun l => (.lanternResetDone, ({ clu := p.1, lane := l } : Ev)))
  let frames := (List.range s.frames.length).map fun k => (.frameReturn, ({ idx := k } : Ev))
  let conns := s.port.conns.flatMap fun p =>
    ([.outboundTransferSend, .ackDelayExpire] : List Instr).map fun i => (i, ({ idx := p.1 } : Ev))
  let queues := s.queues.map fun p => (.cancelledSlotPass, ({ idx := p.1 } : Ev))
  let recs := s.belfry.recs.flatMap fun p =>
    ([.recordComplete, .saveRestoreFail, .gangSaved, .prefetchFault, .gangStart, .dependencePass, .dependenceTimeout,
      .claimFormed] : List Instr).map fun i => (i, ({ idx := p.1 } : Ev))
  let words := if s.belfry.words.isEmpty then [] else [(.recordComplete, ({ idx := 8192 } : Ev))]
  let retrain := (List.range 3).filterMap fun k => if (s.die k).lnkHi = 1 then some (.linkRetrain, ({ idx := k } : Ev)) else none
  let resv := if s.now % 64 = 0 then s.deferred.map fun p => (.lrWriteDeferralEnd, ({ tid := p.2 } : Ev)) else []
  start ++ threads ++ links ++ dies ++ ops ++ cores ++ jobs ++ frames ++ conns ++ queues ++ recs
    ++ [(.placement, ({} : Ev)), (.preemptRequest, ({} : Ev)), (.recordTake, ({} : Ev))] ++ words ++ retrain ++ resv

/-- The first event of a list that changes something. -/
def State.firstEvent (s : State) : List (Instr × Ev) → Option State
  | [] => none
  | (i, ev) :: rest =>
    match s.eventTurn i ev with
    | .next t => if t = { s with ev } ∨ t = s then s.firstEvent rest else some t
    | _ => s.firstEvent rest

/-- The first store-buffer entry that may perform. -/
def State.firstStore (s : State) : Option (Nat × Nat) :=
  (s.threads.flatMap fun p => (List.range p.2.sb.length).map fun k => (p.1, k)).find? fun q => s.canPerform q.1 q.2

/-- The next write that moves on from a thread, a core or a cluster. -/
def State.nextWrite (s : State) : Option Turn :=
  if s.camp.tripped then none
  else
    let app := s.clusters.find? fun p => match p.2.buf with | w :: _ => s.mayGo w | [] => false
    let pro := s.cores.find? fun p => !p.2.buf.isEmpty
    (app.map fun p => Turn.apply p.1) <|> (pro.map fun p => Turn.promote p.1) <|> s.firstStore.map fun q => Turn.perform q.1 q.2

/-- The banks of a thread that execute next: the set of the least advanced bank that may go on. -/
def State.nextBanks (s : State) (tid : Nat) : Option (List Nat) :=
  if !s.vectorRuns tid then none
  else
    let s := s.beginBlock tid
    let t := s.thread tid
    let lag := t.banks.foldl (fun m p => min m p.2.n) ((t.banks.head?.map fun p => p.2.n).getD 0)
    ((t.banks.filter fun p => p.2.n == lag) ++ t.banks).findSome? fun p => s.together tid p.1

/-- Live threads, from the one whose round it is. -/
def State.round (s : State) : List Nat :=
  let l := s.live.map (·.1)
  if l = [] then [] else l.drop (s.rr / 2 % l.length) ++ l.take (s.rr / 2 % l.length)

/-- The next thread turn or convoy, alternately. -/
def State.nextTurn (s : State) : Option Turn :=
  let conv := s.round.findSome? fun tid => (s.nextBanks tid).map fun bs => Turn.banks tid bs
  let thr := (s.round.find? s.issues).map Turn.thread
  if s.rr % 2 = 0 then conv <|> thr else thr <|> conv

/-- The default rule: what is due in the module, else the next thread or its banks; time goes on. -/
def State.defaultStep (s : State) : Out :=
  let s := { s with now := s.now + 1, rr := s.rr + 1 }
  match s.firstEvent s.internalEvents with
  | some t => .next t
  | none =>
    match s.nextWrite with
    | some t => s.turn t
    | none =>
      match s.nextTurn with
      | some t => s.turn t
      | none => .next s

/-! Placing an instruction (log entry 2). -/

/-- Where a placed instruction lies. -/
def placePa : Nat := 0x1000

/-- Bytes stored in memory and in the instruction cache of a core, and the module in service. -/
def State.placeBytes (s : State) (core : Nat) (bs : List Byte) : State :=
  let s := { s with mem := Memory.writeList s.mem placePa bs
                    camp := { s.camp with power := true, ready := true, safe := false, tripped := false } }
  s.updCore core fun c => { c with icache := Tab.set none c.icache (lineOf placePa) (some (s.lineVal (lineOf placePa))) }

/-- The thread at the placed instruction: live in M mode, stopped by nothing. -/
def Thread.placed (t : Thread) : Thread :=
  { t with live := true, mode := .m, pc := word placePa, stopNow := false, frc := false, yielded := false, wait := .none
           arrived := [] }

/-- The thread with the placed vector word as the first convoy of its queue, in a strip of length 0 on one bank. -/
def Thread.placedVector (t : Thread) : Thread :=
  { t.placed with
    vq := [{ addr := word placePa, snap := { t.snap with vl := 0 }, epoch := t.epoch, mmode := true }]
    banks := [], fx := [], settled := 0, frozen := false, convTrap := none, laneTraps := [] }

/-- A matrix instruction: custom-3, funct3 = 010, which only a Cupola thread executes (R123). -/
def matrixWord (w : Nat) : Bool := w % 128 == 0x7B && w / 4096 % 8 == 2

end Sys2Proof.Machine
end

