-- ==== Sys2Proof/Machine/Step.lean ====
section
/-! DEFINITION. One step of the module, and a state whose next step runs a given instruction. -/

namespace Sys2Proof.Machine

/-- One step: the turn at the head of the agenda, or the default rule when the agenda is empty (log entry 1). -/
def step (s : State) : Host.Outcome State Fault Refusal :=
  match s.agenda with
  | [] => s.defaultStep
  | t :: rest => ({ s with agenda := rest }).turn t

/-- The state with an instruction where the next step fetches it: a vector word (64 bits) as the head of the queue of thread
0, a matrix instruction at Cupola thread 128, any other at thread 0; the turn stands first in the agenda (log entry 2). -/
def State.withFetchWord (s : State) (nbits w : Nat) : State :=
  let bs := leBytes (nbits / 8) w ++ List.replicate 8 0
  if nbits = 64 then
    let s := (s.placeBytes 0 bs).updThread 0 (·.placedVector)
    { s with agenda := .banks 0 [ctxFirst (s.thread 0).csr.vctx] :: s.agenda }
  else
    let tid := if matrixWord w then 128 else 0
    let s := (s.placeBytes (coreOf tid) bs).updThread tid (·.placed)
    { s with agenda := .thread tid :: s.agenda }

end Sys2Proof.Machine
end

