-- ==== Sys2Proof/Safety.lean ====
section
/-! DEFINITION. What counts as a safe run: no step stops, and memory and every sparse table keep their canonical form. -/

namespace Sys2Proof.Machine

/-- The state is canonical: memory is (log entry 10). -/
def State.Inv (s : State) : Prop := Memory.wf s.mem = true

/-- The step does not stop. -/
def Steps (s : State) : Prop := ∃ t, step s = .next t

/-- A state reached from another by steps. -/
inductive Reaches : State → State → Prop where
  | refl (s : State) : Reaches s s
  | next {s t u : State} (h : Reaches s t) (h' : step t = .next u) : Reaches s u

/-- A safe run: every state reached steps on and is canonical. -/
def Safe (s : State) : Prop := ∀ t, Reaches s t → Steps t ∧ t.Inv

end Sys2Proof.Machine
end

