-- ==== Sys2Proof/Certificates/Slice0/Obligations.lean ====
section
/-! DEFINITION. The statements for the provers, and before each group the words it uses. A group names its instructions in
two tables: `ready`, the hypotheses on the state and the operands alone, and `done`, what holds of the next state. -/

namespace Sys2Proof.Say

open Sys2Proof Sys2Proof.Machine

/-! Words that every group uses. -/

/-- Instruction `i`, executed in `s`, answers a next state of which `P` holds. -/
def Does (i : Instr) (s : State) (P : State → Prop) : Prop := ∃ t, exec i s = .next t ∧ P t

/-- Nothing but the threads has changed: no byte of memory, no core, no queue, no unit. -/
def Outside (s t : State) : Prop := ({ t with threads := s.threads } : State) = s

/-- Every other thread is as before. -/
def Others (s t : State) : Prop := ∀ k, k ≠ s.cur → t.thread k = s.thread k

/-- Nothing but the executing thread has changed. -/
def OnlyMe (s t : State) : Prop := Outside s t ∧ Others s t

/-- The instruction has performed: the thread stands at `pc`, in its mode, and waits for nothing. -/
def At (s t : State) (pc : Word) : Prop := t.me.pc = pc ∧ t.me.mode = s.me.mode ∧ t.me.wait = .none

/-- Register `rd` holds `v`, x0 reads zero, and every other register is as before. -/
def Regs (s t : State) (rd : Reg) (v : Word) : Prop := ∀ r, t.rd r = if r = rd ∧ rd ≠ 0 then v else s.rd r

/-- Every register is as before. -/
def SameRegs (s t : State) : Prop := ∀ r, t.rd r = s.rd r

/-- The CSRs that hold state are `c`, but for the count of retired instructions. -/
def CsrsAre (t : State) (c : Csrs) : Prop := ({ t.me.csr with minstret := c.minstret } : Csrs) = c

/-- The thread's state beside its registers, pc, CSRs and what a wait leaves is as before. -/
def SameRest (s t : State) : Prop :=
  ({ t.me with x := s.me.x, pc := s.me.pc, csr := s.me.csr, wait := s.me.wait, arrived := s.me.arrived } : Thread) = s.me

/-- The whole effect of an instruction that writes `v` to `rd` and goes on, with the CSRs `c`. -/
def Wrote (s t : State) (rd : Reg) (v : Word) (c : Csrs) : Prop :=
  OnlyMe s t ∧ At s t s.me.npc ∧ Regs s t rd v ∧ CsrsAre t c ∧ SameRest s t

/-- The whole effect of an instruction that writes `v` to `rd` and goes on. -/
def Result (s t : State) (rd : Reg) (v : Word) : Prop := Wrote s t rd v s.me.csr

/-- The whole effect of an instruction that only advances the pc. -/
def Advances (s t : State) : Prop := Result s t 0 0

/-- The executing thread has taken the exception `tr` (R124): M mode, the pc at mtvec, mepc, mcause, mtval and mtrapx
written, MPP the mode left; no register, and nothing but the thread, has changed. -/
def Took (s t : State) (cause : Nat) (tval info epc : Word) : Prop :=
  OnlyMe s t ∧ t.me.mode = .m ∧ t.me.pc = s.me.csr.mtvec &&& ~~~(3 : Word) ∧ t.me.csr.mepc = epc ∧
    t.me.csr.mcause = word cause ∧ t.me.csr.mtval = tval ∧ t.me.csr.mtrapx = info ∧
    t.me.csr.mstatus.extractLsb' 11 2 = 0 ∧ SameRegs s t

/-- A trap taken in place of the instruction that executes. -/
def Trapped (s t : State) (cause : Nat) (tval info : Word) : Prop := Took s t cause tval info s.me.pc

/-- Every byte of memory outside a run is as before. -/
def MemOutside (s t : State) (pa n : Nat) : Prop :=
  ∀ a, a < pa ∨ pa + n ≤ a → Memory.read t.mem a = Memory.read s.mem a

/-- Every byte of memory is as before. -/
def SameMem (s t : State) : Prop := ∀ a, Memory.read t.mem a = Memory.read s.mem a

/-! Base instructions (R272). -/

/-- The register that a base instruction writes and its value; none for a branch or a jump. -/
def baseWrites (s : State) : BaseOp → Option (Reg × Word)
  | .lui rd imm => some (rd, (imm ++ (0 : BitVec 12)).signExtend 64)
  | .auipc rd imm => some (rd, s.me.pc + (imm ++ (0 : BitVec 12)).signExtend 64)
  | .imm op rd rs1 i => some (rd, immResult op (s.rd rs1) (i.signExtend 64))
  | .shift op rd rs1 sh => some (rd, shiftResult op (s.rd rs1) sh.toNat)
  | .alu op rd rs1 rs2 => some (rd, aluResult op (s.rd rs1) (s.rd rs2))
  | .unary op rd rs1 => some (rd, unaryResult op (s.rd rs1))
  | _ => none

/-- Where a branch or a jump goes, the register it writes (x0 for none) and the value. -/
def baseJumps (s : State) : BaseOp → Option (Word × Reg × Word)
  | .jal rd off => some (s.me.pc + (off ++ (0 : BitVec 1)).signExtend 64, rd, s.me.npc)
  | .jalr rd rs1 imm => some ((s.rd rs1 + imm.signExtend 64) &&& ~~~(1 : Word), rd, s.me.npc)
  | .branch c rs1 rs2 off =>
    let taken := match c with
      | .eq => decide (s.rd rs1 = s.rd rs2)
      | .ne => decide (s.rd rs1 ≠ s.rd rs2)
      | .lt => decide ((s.rd rs1).toInt < (s.rd rs2).toInt)
      | .ge => decide ((s.rd rs2).toInt ≤ (s.rd rs1).toInt)
      | .ltu => decide ((s.rd rs1).toNat < (s.rd rs2).toNat)
      | .geu => decide ((s.rd rs2).toNat ≤ (s.rd rs1).toNat)
    some (if taken then s.me.pc + (off ++ (0 : BitVec 1)).signExtend 64 else s.me.npc, 0, 0)
  | _ => none

/-- A jump's whole effect. -/
def Jumped (s t : State) (pc : Word) (rd : Reg) (v : Word) : Prop :=
  OnlyMe s t ∧ At s t pc ∧ Regs s t rd v ∧ CsrsAre t s.me.csr ∧ SameRest s t

/-! Scalar memory (R102, R156, R162, R374 to R378). -/

/-- The value a load gives from its bytes. -/
def loadValue (k : LoadKind) (n : Nat) : Word :=
  match k with
  | .lb => (BitVec.ofNat 8 n).signExtend 64
  | .lh => (BitVec.ofNat 16 n).signExtend 64
  | .lw => (BitVec.ofNat 32 n).signExtend 64
  | .ld => BitVec.ofNat 64 n
  | .lbu => (BitVec.ofNat 8 n).setWidth 64
  | .lhu => (BitVec.ofNat 16 n).setWidth 64
  | .lwu => (BitVec.ofNat 32 n).setWidth 64

/-- The access goes to memory at `pa`, now: it is aligned, translated with its permission, in memory, held by nothing. -/
def goesTo (s : State) (need : Need) (cs : Causes) (va : Word) (n : Nat) (reads writes : Bool) (pa : Nat) : Prop :=
  s.place need cs va n reads writes = .mem pa

/-- The thread's view after a load: the die has observed the line (R164), and nothing else but the thread has changed. -/
def Loaded (s t : State) (rd : Reg) (v : Word) (pa : Nat) : Prop :=
  ({ t with threads := s.threads, dies := s.dies } : State) = s ∧ Others s t ∧ At s t s.me.npc ∧ Regs s t rd v ∧
    CsrsAre t s.me.csr ∧ SameRest s t ∧ t.dies = (s.observe (dieOf s.cur) (lineOf pa)).dies

/-- Nothing of a live sequence or an index table lies in the line: no descriptor and no block-table entry (R211, R218). -/
def plainBut (s : State) (pa : Nat) : Prop :=
  s.seqOfLine (lineOf pa) = none ∧ s.tableOfLine (lineOf pa) = none ∧
    ∀ k, k < 8 → s.seqOfEntry (lineOf pa * 64 + 8 * k) = none

/-- No unit watches the line: no bound barrier either (R383). -/
def plainLine (s : State) (pa : Nat) : Prop := Tab.get none s.bars (lineOf pa) = none ∧ plainBut s pa

/-- An atomic at `pa` performs now. -/
def atomicGoes (s : State) (rl : Bool) (va : Word) (n pa : Nat) : Prop :=
  goesTo s .write storeCauses va n true true pa ∧ s.rlWaits rl = false ∧ s.atomicWaits s.cur pa n = false ∧
    plainLine s pa ∧ pa % 64 + n ≤ 64

/-- What an atomic leaves: its location, the old value in `rd`, every other byte and every other register. -/
def Atomic (s t : State) (rd : Reg) (old : Word) (pa n new : Nat) : Prop :=
  t.homeNum pa n = new % 2 ^ (8 * n) ∧ MemOutside s t pa n ∧ Regs s t rd old ∧ At s t s.me.npc

/-- The new value of an integer AMO on `n` bits. -/
def amoValue (op : AmoOp) (n old x : Nat) : Nat :=
  let a := old % 2 ^ n
  let b := x % 2 ^ n
  match op with
  | .swap => b
  | .add => a + b
  | .xor => a ^^^ b
  | .and => a &&& b
  | .or => a ||| b
  | .min => if (BitVec.ofNat n a).toInt ≤ (BitVec.ofNat n b).toInt then a else b
  | .max => if (BitVec.ofNat n b).toInt ≤ (BitVec.ofNat n a).toInt then a else b
  | .minu => if a ≤ b then a else b
  | .maxu => if b ≤ a then a else b

/-- The FP atomics and their operation. -/
def fpAtomOf : Instr → Option (AtomOp × Reg × Reg × Reg)
  | .afaddS rd a b => some (.fadd, rd, a, b)
  | .afminS rd a b => some (.fmin, rd, a, b)
  | .afmaxS rd a b => some (.fmax, rd, a, b)
  | .afminnS rd a b => some (.fminn, rd, a, b)
  | .afmaxnS rd a b => some (.fmaxn, rd, a, b)
  | _ => none

/-! Fences (R157, R373). -/

/-- A FENCE orders earlier writes before later reads or accesses to devices, so it waits for them. -/
def fenceNow (pred succ : BitVec 4) : Prop :=
  pred.getLsbD 0 = true ∧ (succ.getLsbD 1 = true ∨ succ.getLsbD 2 = true ∨ succ.getLsbD 3 = true)

/-- It orders earlier reads or writes before later writes only, so it stands before the thread's next write. -/
def fenceLater (pred succ : BitVec 4) : Prop :=
  ¬fenceNow pred succ ∧ (pred.getLsbD 0 = true ∨ pred.getLsbD 1 = true) ∧ succ.getLsbD 0 = true

/-- The fences of a scope, with the condition under which each performs at once. -/
def fenceReady (s : State) : Instr → Prop
  | .scfence sp | .relfence sp => sp.toNat ≤ 5 ∧ s.quiet s.cur sp.toNat = true
  | .acqfence sp => sp.toNat ≤ 5
  | _ => False

/-- The whole effect of an instruction that goes on and changes nothing but whether a fence stands before the next write. -/
def Fenced (s t : State) (stands : Prop) : Prop :=
  OnlyMe s t ∧ At s t s.me.npc ∧ SameRegs s t ∧ CsrsAre t s.me.csr ∧ (t.me.wfence = true ↔ stands) ∧
    ({ t.me with wfence := s.me.wfence, pc := s.me.pc, csr := s.me.csr, wait := s.me.wait, arrived := s.me.arrived } : Thread)
      = s.me

end Sys2Proof.Say

open Sys2Proof Sys2Proof.Machine Sys2Proof.Say

/-- A base instruction that computes a result writes it to rd and goes on; x0 discards it (R272; log entry 7). -/
def Obligations.BaseResultsAreWritten : Prop :=
  ∀ (op : BaseOp) (s : State) (rd : Reg) (v : Word), baseWrites s op = some (rd, v) →
    Does (.baseInstruction op) s fun t => Result s t rd v

/-- Jumps and branches move the pc to their target and write the link register (R272; log entry 7). -/
def Obligations.JumpsAndBranchesMoveThePc : Prop :=
  ∀ (op : BaseOp) (s : State) (pc : Word) (rd : Reg) (v : Word), baseJumps s op = some (pc, rd, v) →
    Does (.baseInstruction op) s fun t => Jumped s t pc rd v

/-- A scalar load that goes to memory writes rd with the bytes as the thread sees them, extended (R102, R156). -/
def Obligations.LoadsReadWhatTheThreadSees : Prop :=
  ∀ (k : LoadKind) (rd rs1 : Reg) (off : BitVec 12) (s : State) (pa : Nat),
    goesTo s .read loadCauses (s.rd rs1 + off.signExtend 64) (loadBytes k) true false pa →
    Does (.scalarLoad k rd rs1 off) s fun t =>
      Loaded s t rd (loadValue k (leNat (s.bytesOf s.cur pa (loadBytes k)))) pa

/-- A scalar store that goes to memory enters the store buffer last; the thread sees it at once, and no byte of memory has
changed yet (R102, R156). That a fence stands before it as a mark of its buffer entry is the model's choice (log entry 103). -/
def Obligations.StoresEnterTheStoreBuffer : Prop :=
  ∀ (k : StoreKind) (rs1 rs2 : Reg) (off : BitVec 12) (s : State) (pa : Nat),
    goesTo s .write storeCauses (s.rd rs1 + off.signExtend 64) (storeBytes k) false false pa →
    Does (.scalarStore k rs1 rs2 off) s fun t =>
      OnlyMe s t ∧ At s t s.me.npc ∧ SameRegs s t ∧ CsrsAre t s.me.csr ∧
      ({ t.me with sb := s.me.sb, wfence := s.me.wfence, pc := s.me.pc, csr := s.me.csr, wait := s.me.wait
                   arrived := s.me.arrived } : Thread) = s.me ∧
      t.me.sb = s.me.sb ++ [{ addr := pa, bytes := leBytes (storeBytes k) (s.rd rs2).toNat
                              va := s.rd rs1 + off.signExtend 64, fence := s.me.wfence }] ∧ t.me.wfence = false ∧
      (∀ i, i < storeBytes k → t.byteOf s.cur (pa + i) = BitVec.ofNat 8 ((s.rd rs2).toNat / 256 ^ i)) ∧
      (∀ a, a < pa ∨ pa + storeBytes k ≤ a → t.byteOf s.cur a = s.byteOf s.cur a) ∧ SameMem s t

/-- LR reads the location and takes the reservation; SC with the reservation stores and gives 0, without it gives 1 and
stores nothing; either way SC ends the reservation (R378). -/
def Obligations.LoadReservedAndStoreConditional : Prop :=
  (∀ (dbl aq rl : Bool) (rd rs1 : Reg) (s : State) (pa : Nat),
    goesTo s .read loadCauses (s.rd rs1) (atomBytes dbl) true false pa → s.rlWaits rl = false →
    s.atomicWaits s.cur pa (atomBytes dbl) = false →
    Does (.lr dbl aq rl rd rs1) s fun t =>
      Regs s t rd (loadValue (if dbl then .ld else .lw) (s.homeNum pa (atomBytes dbl))) ∧ At s t s.me.npc ∧
      t.me.resv = some ⟨lineOf pa, pa, atomBytes dbl⟩ ∧ Others s t ∧ SameMem s t) ∧
  (∀ (dbl aq rl : Bool) (rd rs1 rs2 : Reg) (s : State) (pa : Nat),
    goesTo s .write storeCauses (s.rd rs1) (atomBytes dbl) false true pa → s.rlWaits rl = false →
    s.atomicWaits s.cur pa (atomBytes dbl) = false → plainLine s pa → pa % 64 + atomBytes dbl ≤ 64 →
    Does (.sc dbl aq rl rd rs1 rs2) s fun t =>
      t.me.resv = none ∧ At s t s.me.npc ∧
      (if ∃ r, s.me.resv = some r ∧ r.addr = pa ∧ r.size = atomBytes dbl then
        Regs s t rd 0 ∧ t.homeNum pa (atomBytes dbl) = (s.rd rs2).toNat % 2 ^ (8 * atomBytes dbl) ∧
          MemOutside s t pa (atomBytes dbl)
      else Regs s t rd 1 ∧ SameMem s t))

/-- An AMO that goes to memory reads the old value into rd, leaves the new one and writes no other byte; so do AFADD.S, AFMIN.S,
AFMAX.S, AFMINN.S and AFMAXN.S with their FP32 result, and they merge their flags into vxstat (R162, R374, R375, R377). -/
def Obligations.AtomicsReadAndWriteAtTheHome : Prop :=
  (∀ (op : AmoOp) (dbl aq rl : Bool) (rd rs1 rs2 : Reg) (s : State) (pa : Nat),
    atomicGoes s rl (s.rd rs1) (atomBytes dbl) pa →
    Does (.amo op dbl aq rl rd rs1 rs2) s fun t =>
      Atomic s t rd (loadValue (if dbl then .ld else .lw) (s.homeNum pa (atomBytes dbl))) pa (atomBytes dbl)
        (amoValue op (8 * atomBytes dbl) (s.homeNum pa (atomBytes dbl)) (s.rd rs2).toNat)) ∧
  (∀ (i : Instr) (op : AtomOp) (rd rs1 rs2 : Reg) (s : State) (pa : Nat), fpAtomOf i = some (op, rd, rs1, rs2) →
    atomicGoes s false (s.rd rs1) 4 pa →
    Does i s fun t =>
      let r := fpAtomic op FP32 (s.homeNum pa 4) ((s.rd rs2).toNat % 2 ^ 32)
      Atomic s t rd (loadValue .lw (s.homeNum pa 4)) pa 4 r.1 ∧ t.me.csr.vxstat = s.me.csr.vxstat ||| r.2)


/-- SCFENCE, ACQFENCE and RELFENCE whose accesses have performed at their scope only advance the pc. FENCE goes on once every
write has performed when it orders writes before reads or devices; ordering reads or writes before writes only, FENCE and
FENCE.TSO stand before the thread's next write. Which predecessors hold a fence back, and that it stands before a write as a mark,
are the model's choices, which rest on loads returning at issue (log entries 5, 19, 103). FENCE.I with an empty store buffer also empties the core's instruction cache and no
other (R109, R157, R373). -/
def Obligations.FencesAdvanceWhenQuiet : Prop :=
  (∀ (i : Instr) (s : State), fenceReady s i → Does i s fun t => Advances s t) ∧
  (∀ (pred succ : BitVec 4) (s : State), (fenceNow pred succ → s.quiet s.cur 5 = true) →
    Does (.fence pred succ) s fun t => Fenced s t (s.me.wfence = true ∨ fenceLater pred succ)) ∧
  (∀ s : State, Does .fenceTso s fun t => Fenced s t True) ∧
  ∀ s : State, s.me.sb = [] → Does .fenceI s fun t =>
    t.myCore = { s.myCore with icache := [] } ∧ (∀ c, c ≠ coreOf s.cur → t.core c = s.core c) ∧
      At s t s.me.npc ∧ SameRegs s t ∧ SameMem s t ∧ Others s t

namespace Sys2Proof.Say

open Sys2Proof Sys2Proof.Machine

/-! CSRs (R259 to R263, R272). -/

/-- The plain Zicsr rows: the operation, rd, the source field and the CSR. -/
def csrOf : Instr → Option (CsrOp × Reg × Reg × Nat)
  | .csrAccess op rd src csr => some (op, rd, src, csr.toNat)
  | .csrWriteVqlim op rd src => some (op, rd, src, 0x804)
  | .csrWriteWcnt op rd src => some (op, rd, src, 0x814)
  | .csrAccessRng op rd src csr => some (op, rd, src, csr.toNat)
  | _ => none

/-- What the row waits for does not hold it (R167, R185). -/
def csrFree (s : State) : Instr → Prop
  | .csrWriteWcnt _ _ _ => s.onCupola = true ∨ s.queued s.cur notifyWord = false
  | .csrAccessRng _ _ _ csr => s.me.vq = [] ∧ (csr = 0x811 ∨ csr = 0x812)
  | _ => True

/-- The access is legal: the CSR exists, it is not both read-only and written, and M mode reaches its address (R103, R259). -/
def csrLegal (s : State) (a : Nat) (writes : Bool) (old : Word) : Prop :=
  s.csrValue a = some old ∧ (writes = true → a / 1024 ≠ 3) ∧ (s.me.mode = .u → a / 256 % 4 = 0 ∧ (a < 0xC03 ∨ 0xC1F < a))

/-- What a CSR reads as after `v` was written over `old` (R104, R112, R115, R116, R148, R149, R183, R187, R188, R261, R263). -/
def csrHolds (a : Nat) (old v : Word) : Option Word :=
  match a with
  | 0x803 => some (v &&& 0xF)
  | 0x804 => some (if v &&& 0x7F = 0 then 1 else if 64 < (v &&& 0x7F).toNat then 64 else v &&& 0x7F)
  | 0x805 => some (v &&& 0xFF)
  | 0x806 | 0x807 | 0x808 | 0x809 | 0x80A | 0x80B | 0x80C | 0x80D => some (v &&& 0xFFFFFFFF)
  | 0x80E => some (if (v &&& 7).toNat < 5 then v &&& 7 else old)
  | 0x80F => some (v &&& 0xFFFFFFFFFF)
  | 0x810 => some (v &&& 0xFFFFFFFF00FFFFFF)
  | 0x811 | 0x812 | 0x814 => some v
  | 0x813 => some ((v &&& 0x0FFFFFFE) ||| 1)
  | 0x340 | 0x342 | 0x343 | 0x7C5 | 0xB02 => some v
  | 0x341 => some (v &&& ~~~(1 : Word))
  | 0x305 => some (v &&& ~~~(3 : Word))
  | 0x7C0 => some (v &&& 0xFFFF)
  | 0x7C3 => some (v &&& 0x3FFFFFFF0000)
  | 0x7C4 => some (v &&& 0xFFFF)
  | _ => none

/-- The value a Zicsr form writes. -/
def csrNewValue (op : CsrOp) (old v : Word) : Word :=
  match op with
  | .rw | .rwi => v
  | .rs | .rsi => old ||| v
  | .rc | .rci => old &&& ~~~v

/-- The source of a Zicsr form: the register, or the field itself. -/
def csrFrom (s : State) (op : CsrOp) (src : Reg) : Word :=
  match op with
  | .rw | .rs | .rc => s.rd src
  | .rwi | .rsi | .rci => src.setWidth 64

/-- The writes that have effects of their own (R104, R106, R260, R275). -/
def csrSpecial : Instr → Option (CsrOp × Reg × Reg × Nat)
  | .csrWriteVl op rd src => some (op, rd, src, 0x800)
  | .csrWriteVw op rd src => some (op, rd, src, 0x801)
  | .csrWriteVctx op rd src => some (op, rd, src, 0x802)
  | _ => none

/-- The three vector settings after such a write of `v`: vl as VSETVL sets it, vw as VSETW, vctx as VCTX. -/
def csrSets (s t : State) (a : Nat) (v : Word) : Prop :=
  match a with
  | 0x800 => t.me.csr.vl.toNat = min v.toNat (min s.mvl s.me.vlc.toNat) ∧ t.me.csr.vw = s.me.csr.vw ∧
      t.me.csr.vctx = s.me.csr.vctx
  | 0x801 => t.me.csr.vw = v.setWidth 12 ∧ t.me.csr.vl = s.me.csr.vl ∧ t.me.csr.vctx = s.me.csr.vctx
  | _ => t.me.csr.vw = s.me.csr.vw ∧
      if s.ctxOk v then t.me.csr.vctx = v.setWidth 10 ∧ t.me.csr.vl.toNat = min s.me.csr.vl.toNat (s.myCore.mvl (v.setWidth 10))
      else t.me.csr.vctx = s.me.csr.vctx ∧ t.me.csr.vl = s.me.csr.vl

/-! Vector settings (R275 to R280). -/

/-- A new vl never exceeds the request, mvl and VLC (R275). -/
def vlFor (s : State) (req : Word) : Nat := min req.toNat (min s.mvl s.me.vlc.toNat)

/-- The instructions that set vl, vw, the slip, the live state or the context: the register each writes, its value, and the
CSRs after it (R106, R275, R277 to R280). -/
def setsTo (s : State) : Instr → Option (Reg × Word × Csrs)
  | .vsetvl rd rs1 => some (rd, word (vlFor s (s.rd rs1)), { s.me.csr with vl := BitVec.ofNat 18 (vlFor s (s.rd rs1)) })
  | .vsetvli rd rs1 w =>
    some (rd, word (vlFor s (s.rd rs1)), { s.me.csr with vl := BitVec.ofNat 18 (vlFor s (s.rd rs1)), vw := w })
  | .vsetw rd rs1 => some (rd, s.rd rs1 &&& 0xFFF, { s.me.csr with vw := (s.rd rs1).setWidth 12 })
  | .vslip rd rs1 =>
    let n := min 15 (s.rd rs1).toNat
    some (rd, word n, { s.me.csr with vslip := BitVec.ofNat 4 n })
  | .vlive rd rs1 rs2 =>
    let old := s.me.csr.vlive
    some (rd, old, { s.me.csr with vlive := ((old &&& ~~~(s.rd rs2)) ||| (s.rd rs1 &&& s.rd rs2)) &&& 0xFFFFFFFF00FFFFFF })
  | .vctx rd rs1 =>
    let v := s.rd rs1
    let m := s.myCore.mvl (v.setWidth 10)
    some (if s.ctxOk v then (rd, word m, { s.me.csr with vctx := v.setWidth 10, vl := BitVec.ofNat 18 (min s.me.csr.vl.toNat m) })
      else (rd, 0, s.me.csr))
  | _ => none

/-- What each waits for or is refused for does not hold: no Cupola thread, no pre-emption pending at a strip boundary,
nothing queued at a change of context. -/
def setFree (s : State) : Instr → Prop
  | .vsetvl _ _ | .vsetvli _ _ _ => s.onCupola = false ∧ s.stripStop = false
  | .vctx _ _ => s.onCupola = false ∧ s.ctxWaits = false
  | _ => s.onCupola = false

/-! Dispatch, draining and reading results (R281 to R283). -/

/-- The block of a VFETCH at `a`: the snapshot of a0 to a7 and of the vector settings (R108). -/
def blockAt (s : State) (a : Word) : Block :=
  { addr := a, epoch := s.me.epoch, mmode := s.me.mode == .m
    snap := { g := #v[s.rd 10, s.rd 11, s.rd 12, s.rd 13, s.rd 14, s.rd 15, s.rd 16, s.rd 17], vl := s.me.csr.vl
              vw := s.me.csr.vw, vround := s.me.csr.vround, vslip := s.me.csr.vslip, vctx := s.me.csr.vctx } }

/-- VDRAIN, VQDRAIN and SVFENCE when nothing holds them. -/
def drainReady (s : State) : Instr → Prop
  | .vdrain kinds sp => s.onCupola = false ∧ kinds ≠ 0 ∧ sp.toNat ≤ 5 ∧ s.drainWaits kinds sp.toNat = false
  | .vqdrain => s.onCupola = false ∧ s.me.vq = [] ∧ s.me.held = []
  | _ => False

/-- VGET, with its register, whether it names a pair, and the register it writes. -/
def vgetOf : Instr → Option (Reg × BitVec 4 × Bool)
  | .vget rd v => some (rd, v, false)
  | .vgetP rd v => some (rd, v, true)
  | _ => none

/-! Condition bits (R284 to R287). -/

/-- CBCMP, CBLOG and CBSETI: the bit they write and its value. -/
def condWrites (s : State) : Instr → Option (Reg × Bool)
  | .cbcmpEq c a b => some (c, decide (s.rd a = s.rd b))
  | .cbcmpNe c a b => some (c, decide (s.rd a ≠ s.rd b))
  | .cbcmpLt c a b => some (c, decide ((s.rd a).toInt < (s.rd b).toInt))
  | .cbcmpGe c a b => some (c, decide ((s.rd b).toInt ≤ (s.rd a).toInt))
  | .cbcmpLtu c a b => some (c, decide ((s.rd a).toNat < (s.rd b).toNat))
  | .cbcmpGeu c a b => some (c, decide ((s.rd b).toNat ≤ (s.rd a).toNat))
  | .cblogAnd c a b => some (c, s.cond a && s.cond b)
  | .cblogOr c a b => some (c, s.cond a || s.cond b)
  | .cblogXor c a b => some (c, xor (s.cond a) (s.cond b))
  | .cblogAndn c a b => some (c, s.cond a && !s.cond b)
  | .cbseti c v => some (c, v == 1)
  | _ => none

/-- The sources of a CBLOG are not interlocked (R286). -/
def condFree (s : State) : Instr → Prop
  | .cblogAnd _ a b | .cblogOr _ a b | .cblogXor _ a b | .cblogAndn _ a b => s.condWaits a = false ∧ s.condWaits b = false
  | _ => True

/-- Condition bits after a write of bit `c`: c0 and c28 to c31 ignore it (R115). -/
def CondIs (s t : State) (c : Reg) (v : Bool) : Prop :=
  ∀ i, i < 32 → t.me.csr.cb.getLsbD i = if i = c.toNat ∧ 1 ≤ i ∧ i < 28 then v else s.me.csr.cb.getLsbD i

/-- Condition bits after a write under a mask: only c1 to c27 change. -/
def CondMasked (s t : State) (mask v : Word) : Prop :=
  ∀ i, i < 32 → t.me.csr.cb.getLsbD i = if 1 ≤ i ∧ i < 28 ∧ mask.getLsbD i then v.getLsbD i else s.me.csr.cb.getLsbD i

/-- Nothing of the CSRs beside cb has changed. -/
def CbOnly (s t : State) : Prop := CsrsAre t { s.me.csr with cb := t.me.csr.cb }

end Sys2Proof.Say

/-- A legal CSR instruction gives rd the old value, and a write leaves in the CSR what its fields hold of the value; no
other CSR, no register and nothing but the thread changes (R259 to R263; log entry 7 for the standard machine CSRs). -/
def Obligations.CsrAccessReadsAndWrites : Prop :=
  ∀ (i : Instr) (op : CsrOp) (rd src : Reg) (a : Nat) (s : State) (old : Word), csrOf i = some (op, rd, src, a) →
    csrFree s i → csrLegal s a (csrWrites op src) old → s.onCupola = false →
    Does i s fun t =>
      OnlyMe s t ∧ At s t s.me.npc ∧ Regs s t rd old ∧
      (csrWrites op src = false → CsrsAre t s.me.csr) ∧
      (csrWrites op src = true → ∀ v, csrHolds a old (csrNewValue op old (csrFrom s op src)) = some v →
        t.csrValue a = some v ∧
        ∀ b, b ≠ a → b ≠ 0xB02 → b ≠ 0xC02 → (a = 0x7C0 → b ≠ 0x7C1 ∧ b ≠ 0x7C2) → t.csrValue b = s.csrValue b)

/-- An access that R103 or R259 forbids raises illegal instruction with the instruction bits in mtval. -/
def Obligations.CsrAccessTraps : Prop :=
  ∀ (i : Instr) (op : CsrOp) (rd src : Reg) (a : Nat) (s : State), csrOf i = some (op, rd, src, a) → csrFree s i →
    s.me.mode = .u →
    (s.csrValue a = none ∨ (csrWrites op src = true ∧ a / 1024 = 3) ∨ a / 256 % 4 ≠ 0 ∨ (0xC03 ≤ a ∧ a ≤ 0xC1F)) →
    Does i s fun t => Trapped s t 2 (s.ir.setWidth 64) 0

/-- A CSR write of vl, vw or vctx gives rd the old value and sets what VSETVL, VSETW or VCTX sets (R104, R260); on a Cupola
thread it changes nothing (R259). -/
def Obligations.CsrWritesOfVectorSettings : Prop :=
  ∀ (i : Instr) (op : CsrOp) (rd src : Reg) (a : Nat) (s : State) (old : Word), csrSpecial i = some (op, rd, src, a) →
    csrWrites op src = true → s.csrValue a = some old → (a = 0x802 → s.onCupola = true ∨ s.ctxWaits = false) →
    Does i s fun t =>
      Others s t ∧ At s t s.me.npc ∧ Regs s t rd old ∧
      if s.onCupola then CsrsAre t s.me.csr else csrSets s t a (csrNewValue op old (csrFrom s op src))

/-- VSETVL, VSETVLI, VSETW, VSLIP, VLIVE and VCTX set what they name, return it in rd, and change no other setting, no
register, no queued block and nothing but the thread (R275 to R280). -/
def Obligations.SettingsAreSet : Prop :=
  ∀ (i : Instr) (s : State) (rd : Reg) (v : Word) (c : Csrs), setsTo s i = some (rd, v, c) → setFree s i →
    Does i s fun t => OnlyMe s t ∧ At s t s.me.npc ∧ Regs s t rd v ∧ CsrsAre t c ∧ t.me.vq = s.me.vq

/-- VFETCH of an aligned address appends the block with its snapshot to a queue that has room and writes nothing else; a
misaligned address, or a thread without banks, raises illegal instruction with the address. VDRAIN and VQDRAIN with nothing
outstanding only advance the pc; SVFENCE holds later VFETCHes for the stores now in the store buffer (R108, R112, R281,
R282). -/
def Obligations.BlocksAreQueuedAndDrained : Prop :=
  (∀ (rs1 : Reg) (off : BitVec 12) (s : State), s.onCupola = false →
    let a := s.rd rs1 + off.signExtend 64
    (a.toNat % 8 = 0 → s.me.csr.vctx.getLsbD 9 = false → s.queueFull = false → s.me.svMark = 0 →
      Does (.vfetch rs1 off) s fun t =>
        OnlyMe s t ∧ At s t s.me.npc ∧ SameRegs s t ∧ CsrsAre t s.me.csr ∧ t.me.vq = s.me.vq ++ [blockAt s a]) ∧
    (a.toNat % 8 ≠ 0 ∨ s.me.csr.vctx.getLsbD 9 = true → s.me.mode = .u →
      Does (.vfetch rs1 off) s fun t => Trapped s t 2 (s.ir.setWidth 64) (a &&& 0xFFFFFFFFFFFF))) ∧
  ((∀ (i : Instr) (s : State), drainReady s i → Does i s fun t => Advances s t) ∧
  ∀ s : State, s.onCupola = false → Does .svfence s fun t =>
    OnlyMe s t ∧ At s t s.me.npc ∧ SameRegs s t ∧ CsrsAre t s.me.csr ∧ t.me.svMark = s.me.sb.length ∧ t.me.sb = s.me.sb)


/-- VGET gives element 0 of the register or the pair as last written, and 0 on a thread without banks; it waits for no
queued writer (R113, R283). -/
def Obligations.VgetReadsElementZero : Prop :=
  ∀ (i : Instr) (rd : Reg) (v : BitVec 4) (pair : Bool) (s : State), vgetOf i = some (rd, v, pair) → s.onCupola = false →
    (pair = true → v.getLsbD 0 = false) →
    (s.me.csr.vctx.getLsbD 9 = true ∨ s.me.vq = []) →
    Does i s fun t => Result s t rd
      (if s.me.csr.vctx.getLsbD 9 then 0
      else if pair then (BitVec.ofNat 32 (elemOf (s.myCore.readPair (ctxFirst s.me.csr.vctx) v.toNat) 0)).signExtend 64
      else s.elem0 v.toNat)

/-- CBCMP, CBLOG and CBSETI write their condition bit and nothing else; a destination among c16 to c27 raises illegal
instruction. CBPUT and CBCLR change c1 to c27 under their mask and nothing else; CBGET of an idle queue gives all 32 bits
(R115, R284, R285, R286). -/
def Obligations.ConditionBitsAreWritten : Prop :=
  (∀ (i : Instr) (c : Reg) (v : Bool) (s : State), condWrites s i = some (c, v) → condFree s i →
    ((c.toNat < 16 ∨ 28 ≤ c.toNat) →
      Does i s fun t => OnlyMe s t ∧ At s t s.me.npc ∧ SameRegs s t ∧ CondIs s t c v ∧ CbOnly s t ∧ SameRest s t) ∧
    (16 ≤ c.toNat ∧ c.toNat < 28 → s.me.mode = .u → Does i s fun t => Trapped s t 2 (s.ir.setWidth 64) 0)) ∧
  ((∀ (rs1 rs2 : Reg) (s : State), Does (.cbput rs1 rs2) s fun t =>
    OnlyMe s t ∧ At s t s.me.npc ∧ SameRegs s t ∧ CondMasked s t (s.rd rs2) (s.rd rs1) ∧ CbOnly s t) ∧
  (∀ (rs1 : Reg) (s : State), Does (.cbclr rs1) s fun t =>
    OnlyMe s t ∧ At s t s.me.npc ∧ SameRegs s t ∧ CondMasked s t (s.rd rs1) 0 ∧ CbOnly s t) ∧
  ∀ (rd : Reg) (s : State), s.me.vq = [] → s.me.held = [] →
    Does (.cbget rd) s fun t => Result s t rd (s.me.csr.cb.setWidth 64))


/-- BC branches when its condition bit is 1 and BNC when it is 0; neither changes anything else (R286, R287). -/
def Obligations.ConditionBranches : Prop :=
  ∀ (c : Reg) (off : BitVec 12) (s : State), s.condWaits c = false →
    let target := s.me.pc + (off ++ (0 : BitVec 1)).signExtend 64
    Does (.bc c off) s (fun t => Jumped s t (if s.cond c then target else s.me.npc) 0 0) ∧
    Does (.bnc c off) s (fun t => Jumped s t (if s.cond c then s.me.npc else target) 0 0)

namespace Sys2Proof.Say

open Sys2Proof Sys2Proof.Machine

/-! Exceptions and system instructions (R103, R124 to R129, R245, R272, R288 to R295). -/

/-- The instructions whose effect is an exception: cause and mtval in U mode, cause in M mode. -/
def raises : Instr → Option (Nat × Word × Nat)
  | .ecall => some (8, 0, 11)
  | .ebreak => some (3, 0, 3)
  | .illegalInstruction bits => some (2, bits.setWidth 64, 2)
  | _ => none

/-- Instructions that only M mode may execute (R103). -/
def machineOnlyInstr : Instr → Prop
  | .mret | .wfi | .ctxsave _ _ _ | .ctxload _ _ | .laneretire _ _ | .bblog _ _ _ => True
  | _ => False

/-- Instructions that a Cupola core does not have (R123): those of the vector unit. -/
def notOnCupolaInstr : Instr → Prop
  | .vsetvl _ _ | .vsetvli _ _ _ | .vsetw _ _ | .vctx _ _ | .vslip _ _ | .vlive _ _ _ | .vfetch _ _ | .vdrain _ _
  | .vqdrain | .svfence | .vget _ _ | .vgetP _ _ => True
  | _ => False

/-- A record as it stands once it has moved to its completion: it holds and keeps nothing. -/
def ended (r : Rec) (status detail : Nat) : Rec :=
  { r with st := .ending status detail, claim := none, keptH := [], keptB := [], keptG := [] }

/-- The record has not yet moved to its completion. -/
def Unended (r : Rec) : Prop := (∀ a b, r.st ≠ .ending a b) ∧ r.st ≠ .posted

/-- Record `e` has moved to its completion with this status and detail, unless it had before (R78, R129). -/
def Ending (s t : State) (e status detail : Nat) : Prop :=
  ∀ r, s.rec? e = some r → Unended r → t.rec? e = some (ended r status detail)

/-- The executing thread is not in a wait that a store can end. -/
def NotWoken (s : State) : Prop := ∀ a b c d, s.me.wait ≠ .deadline a b c d

/-- Bits of mstatus on a return: MIE := MPIE, MPIE := 1, MPP := U. -/
def MstatusReturned (old new : Word) : Prop :=
  new.getLsbD 3 = old.getLsbD 7 ∧ new.getLsbD 7 = true ∧ new.extractLsb' 11 2 = 0

/-- PREEMPTPT and YIELD, MRET and WFI, RNGSEED, BBLOG: what each leaves beside the pc. -/
def sysReady (s : State) : Instr → Prop
  | .yield => True
  | .preemptpt _ => True
  | .wfi => s.me.mode = .m ∧ (s.me.convTrap.isSome ∨ s.me.laneTraps ≠ [] ∨ s.me.engTraps ≠ [] ∨ s.me.prq = true)
  | .rngseed _ _ => s.me.vq = []
  | .rngnext _ => s.me.vq = []
  | .bblog _ _ _ => s.me.mode = .m
  | _ => False

/-- The key and counter mixed as R186 gives. -/
def draw (key ctr : Word) : Word :=
  let z0 := ctr ^^^ (key * 0xC4D396A15E7B20F9)
  let z1 := (z0 ^^^ (z0 >>> 31)) * 0x8F251D6BE34A97C7
  let z2 := (z1 ^^^ (z1 >>> 29)) * 0xC4D396A15E7B20F9
  z2 ^^^ (z2 >>> 32)

/-- The instructions that wait for every queued convoy to have issued (R185, R292). -/
def drawsState : Instr → Prop
  | .rngseed _ _ | .rngnext _ => True
  | _ => False

def sysDone (s t : State) : Instr → Prop
  | .yield => OnlyMe s t ∧ SameRegs s t ∧ CsrsAre t s.me.csr ∧ t.me.yielded = true
  | .preemptpt rd =>
    let asked := s.me.prq = true ∧ s.me.mode = .u
    OnlyMe s t ∧ CsrsAre t s.me.csr ∧
      (asked → Regs s t rd 1 ∧ t.me.stopNow = true) ∧ (¬asked → Regs s t rd 0 ∧ t.me.stopNow = s.me.stopNow)
  | .wfi => OnlyMe s t ∧ SameRegs s t ∧ CsrsAre t s.me.csr
  | .rngseed a b => OnlyMe s t ∧ SameRegs s t ∧ CsrsAre t { s.me.csr with rngkey := s.rd a, rngctr := s.rd b }
  | .rngnext rd => OnlyMe s t ∧ Regs s t rd (draw s.me.csr.rngkey s.me.csr.rngctr) ∧
      CsrsAre t { s.me.csr with rngctr := s.me.csr.rngctr + 1 }
  | .bblog c a b =>
    let e := Tab.get 0 t.camp.bb s.camp.bbHead.toNat
    Others s t ∧ SameRegs s t ∧ CsrsAre t s.me.csr ∧ SameMem s t ∧ t.camp.bbHead = s.camp.bbHead + 1 ∧
      t.camp.bbSeq = s.camp.bbSeq + 1 ∧ e.extractLsb' 64 8 = 0x80#8 ||| ((s.rd c).setWidth 8 &&& 0x7F) ∧
      e.extractLsb' 96 32 = s.camp.bbSeq ∧ e.extractLsb' 128 64 = s.rd a ∧ e.extractLsb' 192 64 = s.rd b ∧
      e.extractLsb' 0 64 = BitVec.ofNat 64 ((s.now - s.camp.cold) * 10) ∧ e.extractLsb' 72 2 = BitVec.ofNat 2 (s.cur / 2048) ∧
      e.extractLsb' 74 3 = BitVec.ofNat 3 (s.cur / 256) ∧ e.extractLsb' 84 4 = 1 ∧ e.getLsbD 88 = isCup s.cur ∧
      e.extractLsb' 77 4 = (if isCup s.cur then 0 else BitVec.ofNat 4 (s.cur / 8)) ∧
      e.extractLsb' 81 3 = (if isCup s.cur then 0 else BitVec.ofNat 3 s.cur)
  | _ => False

/-- The bits of a record that a scalar instruction reads at its operand, and the state in which its lines are observed. -/
def reads (s : State) (va : Word) (n : Nat) (bits : Nat) (s1 : State) : Prop := s.getRecord va n n = .ok bits s1

end Sys2Proof.Say

/-- A trap taken in M mode ends the gang: the thread ends and the record completes FAULT with the cause in DETAIL (R129). -/
def Obligations.ExceptionsInMachineModeEndTheGang : Prop :=
  ∀ (i : Instr) (cause : Nat) (tval : Word) (m : Nat) (s : State) (r : Rec), raises i = some (cause, tval, m) →
    s.me.mode = .m → s.rec? s.me.gang = some r → s.cur ∈ r.seats.map Seat.tid →
    Does i s fun t => t.me.live = false ∧ t.me.stopped = false ∧ Ending s t s.me.gang 1 m ∧ SameMem s t

/-- ECALL, EBREAK and an illegal encoding take their exception in U mode: mepc is the instruction, no register and nothing
but the thread changes. In U mode a machine instruction raises illegal instruction, and so does an instruction of the vector
unit on a Cupola thread, with the instruction bits in mtval and no effect of its own (R103, R123, R124, R245; log entry 7 for
mtval of ECALL and EBREAK). -/
def Obligations.ExceptionsAreTaken : Prop :=
  (∀ (i : Instr) (cause : Nat) (tval : Word) (m : Nat) (s : State), raises i = some (cause, tval, m) →
    s.me.mode = .u → Does i s fun t => Trapped s t cause tval 0) ∧
  ((∀ (i : Instr) (s : State), machineOnlyInstr i → s.me.mode = .u → Does i s fun t => Trapped s t 2 (s.ir.setWidth 64) 0) ∧
  ∀ (i : Instr) (s : State), notOnCupolaInstr i → s.onCupola = true → s.me.mode = .u →
    Does i s fun t => Trapped s t 2 (s.ir.setWidth 64) 0)


/-- MRET in M mode returns: pc := mepc, the mode from MPP, MIE := MPIE, MPIE := 1, MPP := U; registers and everything else
of the CSRs stay, but for ffst, which a held word of a frozen queue that no longer translates writes (R124, R151; log entry 7,
and log entry 93 for the held words). -/
def Obligations.MretReturns : Prop :=
  ∀ s : State, s.me.mode = .m → s.me.retransWaits s s.cur (s.unpinned s.cur) = false → Does .mret s fun t =>
    OnlyMe s t ∧ SameRegs s t ∧ t.me.pc = s.me.csr.mepc ∧
    t.me.mode = (if s.me.csr.mstatus.extractLsb' 11 2 = 0 then .u else .m) ∧
    MstatusReturned s.me.csr.mstatus t.me.csr.mstatus ∧
    CsrsAre t { s.me.csr with mstatus := t.me.csr.mstatus, ffst := if s.me.frozen then t.me.csr.ffst else s.me.csr.ffst }

/-- TRAP_TAKE takes the pending trap of a thread in U mode: the convoy trap first, then LANE_ERROR, then an engine trap that
is due; mepc is the next instruction, and the queue freezes (R124, R126; log entry 92 for mtval of LANE_ERROR). -/
def Obligations.TrapTakeTakesTheNextTrap : Prop :=
  ∀ s : State, let th := s.thread s.ev.tid
    th.live = true → th.mode = .u → (∀ n, th.wait ≠ .cancelling n) → (∀ id, th.wait ≠ .sent id) →
    (∀ id rd, th.wait ≠ .accepted id rd) →
    (∀ tr, th.convTrap = some tr → Does .trapTake s fun t =>
      Took { s with cur := s.ev.tid } t tr.cause tr.tval tr.info th.pc ∧ t.me.frozen = true ∧ t.me.convTrap = none ∧
        t.me.engTraps = th.engTraps ∧ t.me.laneTraps = th.laneTraps) ∧
    (∀ tr rest, th.convTrap = none → th.laneTraps = tr :: rest → (th.vq ≠ [] ∨ tr.info.getLsbD 63 = false) → Does .trapTake s fun t =>
      Took { s with cur := s.ev.tid } t tr.cause th.headConvoy tr.info th.pc ∧ t.me.laneTraps = rest ∧
        t.me.engTraps = th.engTraps) ∧
    (∀ tr rest, th.convTrap = none → th.laneTraps = [] → th.engTraps = tr :: rest → tr.due = true →
      Does .trapTake s fun t =>
        Took { s with cur := s.ev.tid } t tr.cause tr.tval tr.info th.pc ∧ t.me.engTraps = rest)

/-- YIELD, PREEMPTPT, WFI with something pending, RNGSEED, RNGNEXT and BBLOG have their effects and advance the pc; RNGSEED and
RNGNEXT wait, and change nothing, while convoys are queued (R186,
R272, R290, R292, R295). -/
def Obligations.SystemInstructions : Prop :=
  (∀ (i : Instr) (s : State), sysReady s i → Does i s fun t => At s t s.me.npc ∧ sysDone s t i) ∧
  ∀ (i : Instr) (s : State), drawsState i → s.me.vq ≠ [] → Does i s fun t =>
    OnlyMe s t ∧ t.me.pc = s.me.pc ∧ SameRegs s t ∧ t.me.csr = s.me.csr ∧ t.me.vq = s.me.vq

/-- HALTT with no trap pending and nothing outstanding ends the thread and counts it as halted in its record; a pending trap is
taken first, the convoy trap before an engine trap. HALTT.F ends the gang at once, FAULT from M mode and ABORTED from U mode,
with x[rs1] bits [7:0] as DETAIL (R126, R129, R289). -/
def Obligations.HalttEndsTheThread : Prop :=
  (∀ (s : State) (r : Rec), s.me.convTrap = none → s.me.laneTraps = [] → s.me.engTraps = [] → s.haltWaits = false →
    s.rec? s.me.gang = some r → Unended r →
    Does .haltt s fun t => t.me.live = false ∧ SameMem s t ∧
      t.rec? s.me.gang = some (if r.seats.length ≤ r.halted.length + 1 then ended { r with halted := s.me.rank :: r.halted } 0 0
        else { r with halted := s.me.rank :: r.halted })) ∧
  (∀ (s : State) (tr : Trap), s.me.mode = .u → s.me.convTrap = some tr ∨
      (s.me.convTrap = none ∧ s.me.laneTraps = [] ∧ s.me.engTraps.head? = some tr) →
    Does .haltt s fun t => Took s t tr.cause tr.tval tr.info s.me.pc ∧ t.me.frozen = true) ∧
  ∀ (rs1 : Reg) (s : State),
    Does (.halttF rs1) s fun t => t.me.live = false ∧ SameMem s t ∧
      Ending s t s.me.gang (match s.me.mode with | .m => 1 | .u => 4) ((s.rd rs1).toNat % 256)

/-- LAUNCH appends the 128-byte record at x[rs1] to a device queue that is ON and has a free slot: the record stands in the slot
at TAIL, no byte outside the slot changes, TAIL moves on, and rd is 0. It gives 5 for a full queue and 6 for one that is not ON,
and appends nothing (R69, R291). That a slot which cannot be written takes the access fault of a store is the model's choice (log
entry 114). -/
def Obligations.LaunchAppendsTheRecord : Prop :=
  ∀ (rd rs1 : Reg) (n : BitVec 5) (s : State) (bits : Nat) (s1 : State), s.ovtHolds s.cur = false → s.quiet s.cur 5 = true →
    NotWoken s → reads s (s.rd rs1) 128 bits s1 → s.appendWaits (64 + n.toNat) = false →
    let q := 64 + n.toNat
    let k := s.queue q
    let a := k.slot k.tail
    (k.st = .on → (k.tail - k.head).toNat ≠ k.slots → s.slotBad a = false → Does (.launch rd rs1 n) s fun t =>
      At s t s.me.npc ∧ Regs s t rd 0 ∧ t.queue q = { k with tail := k.tail + 1 } ∧
        (plainLine s a → plainLine s (a + 64) → t.homeNum a 128 = bits ∧ MemOutside s t a 128)) ∧
    (k.st = .on → (k.tail - k.head).toNat = k.slots → Does (.launch rd rs1 n) s fun t =>
      At s t s.me.npc ∧ Regs s t rd 5 ∧ t.queue q = k ∧ SameMem s t) ∧
    (k.st ≠ .on → Does (.launch rd rs1 n) s fun t =>
      At s t s.me.npc ∧ Regs s t rd 6 ∧ t.queue q = k ∧ SameMem s t) ∧
    (k.st = .on → (k.tail - k.head).toNat ≠ k.slots → s.slotBad a = true → s.me.mode = .u →
      Does (.launch rd rs1 n) s fun t => ∃ info, Trapped s t 7 (s.rd rs1) info)

/-- LANERETIRE in M mode marks a good lane and gives 0; it gives 2 for a lane that does not exist or a reserved bit, 1 for a
lane retired or marked before, and then marks nothing (R294). -/
def Obligations.LaneretireMarksTheLane : Prop :=
  ∀ (rd rs1 : Reg) (s : State), s.me.mode = .m →
    let v := (s.rd rs1).toNat
    let b := v % 64
    let l := v / 64 % 4096
    let c := s.myCore
    Does (.laneretire rd rs1) s fun t => At s t s.me.npc ∧ SameMem s t ∧ Others s t ∧
      (2080 ≤ l ∨ v / 2 ^ 18 ≠ 0 → Regs s t rd 2 ∧ t.myCore = c) ∧
      (l < 2080 → v / 2 ^ 18 = 0 → l ∈ Tab.get [] c.retired b ∨ l ∈ Tab.get [] c.marked b →
        Regs s t rd 1 ∧ t.myCore = c) ∧
      (l < 2080 → v / 2 ^ 18 = 0 → l ∉ Tab.get [] c.retired b → l ∉ Tab.get [] c.marked b →
        Regs s t rd 0 ∧ l ∈ Tab.get [] t.myCore.marked b ∧ t.myCore.retired = c.retired)

/-- CTXSAVE in M mode keeps the thread's registers, with mepc as its pc, in the region at x[rs1] and returns the size of
what it wrote; CTXLOAD of a region that a thread with a context of the same size saved there returns 0 and leaves the thread in M
mode with the saved registers and, in the lanes that the banks of its context have, the saved rows; any other size returns 1 and
changes nothing else (R293; log entries 18 and 90 for the size and for what CTXLOAD keeps). -/
def Obligations.CtxsaveAndCtxload : Prop :=
  (∀ (rd rs1 : Reg) (f : BitVec 1) (s : State), s.me.mode = .m → s.regionErr false (s.rd rs1) = none →
    s.regionWaits (dieOf s.cur) (s.rd rs1).toNat = false → s.me.midConvoy = false → NotWoken s →
    Does (.ctxsave rd rs1 f) s fun t => At s t s.me.npc ∧
      ∃ v : Saved, Tab.get none t.saves (2 * (s.rd rs1).toNat + 1) = some v ∧ v.thread.x = s.me.x ∧
        v.epc = s.me.csr.mepc ∧ Regs s t rd (word (0x2000 + 256 * v.rows.length))) ∧
  ∀ (rd rs1 : Reg) (s : State) (v : Saved), s.me.mode = .m → s.regionErr true (s.rd rs1) = none →
    s.regionWaits (dieOf s.cur) (s.rd rs1).toNat = false → s.me.vq = [] → s.me.held = [] → Tab.get none s.saves (2 * (s.rd rs1).toNat + 1) = some v → s.me.csr.vctx.getLsbD 9 = false →
    (v.lgn = ctxLgn s.me.csr.vctx → s.imageStands v = true → v.thread.retransWaits s s.cur (fun _ => true) = false →
      let first := v.banks.headD 0
      Does (.ctxload rd rs1) s fun t => At s t s.me.npc ∧ t.me.csr.mepc = v.epc ∧ t.me.csr.vctx = s.me.csr.vctx ∧
        (∀ q, t.rd q = if q = rd ∧ rd ≠ 0 then 0 else v.thread.getX q) ∧
        ((v.rows.map (·.1)).Nodup → (∀ p ∈ v.rows, first ≤ p.1 / 512) → ∀ p ∈ v.rows,
          Memory.readList s.mem (v.rowAt p.1) 256 = rowBytes p.2 →
          let bank := ctxFirst s.me.csr.vctx + (p.1 / 512 - first)
          t.myCore.row bank (p.1 % 512) = p.2 &&& s.myCore.lanes bank)) ∧
    (v.lgn ≠ ctxLgn s.me.csr.vctx → Does (.ctxload rd rs1) s fun t => Result s t rd 1)

namespace Sys2Proof.Say

open Sys2Proof Sys2Proof.Machine

/-! Tiles and streams (R136 to R138, R332 to R341), engine commands (R342 to R347), watermarks and publishing (R348, R349),
line operations (R170, R344). -/

/-- An engine command has issued: operation number `s.nextOp` of the executing thread is in flight with the lines it owns,
it is one of the thread's copies, c16 and c17 are 0 (R347); registers, memory and the other threads are as before, but for
reservations on those lines (R378). -/
def Issued (s t : State) (owns : List (Nat × Nat)) (op : UnitOp) : Prop :=
  t.nextOp = s.nextOp + 1 ∧
  (∃ pages, t.ops = Tab.set none s.ops s.nextOp (some
    { tid := s.cur, mode := s.me.mode, root := s.me.csr.vptbase, owns, pins := [], op, asid := s.me.csr.vasid, pages
      gang := s.me.gang })) ∧
  t.me.copies = s.me.copies ++ [s.nextOp] ∧ t.me.csr.cb.getLsbD 16 = false ∧ t.me.csr.cb.getLsbD 17 = false ∧
  SameRegs s t ∧ At s t s.me.npc ∧ SameMem s t ∧ ∀ k, k ≠ s.cur → t.thread k = (s.thread k).loseOwned owns

/-- Handle `h` of the executing thread names entry `i`, which holds the tile `x` with no readers. -/
def Holds (s : State) (h i : Nat) (x : Tile) : Prop :=
  s.me.handle h = some i ∧ s.myCore.tile? i = some x ∧ x.rdrs = 0

/-- What an entry becomes: it goes with a thread that has ended once no engine uses it (R172). -/
def kept (x : Tile) : Option Tile := if x.owner = noHart ∧ x.inUse = false then none else some x

/-- A copy-class command that fails as it issues completes at once: nothing of it is in flight, the thread has its trap, and
c16 and c17 tell so when no other copy is outstanding. -/
def FailedAtIssue (s t : State) (tr : Trap) : Prop :=
  At s t s.me.npc ∧ SameRegs s t ∧ SameMem s t ∧ t.me.copies = (s.me.copies ++ [s.nextOp]).erase s.nextOp ∧
    t.op? s.nextOp = none ∧
    t.me.engTraps = s.me.engTraps ++ [tr] ∧
    (s.me.copies = [] → t.me.csr.cb.getLsbD 16 = true ∧ t.me.csr.cb.getLsbD 17 = true)

/-- Nothing holds an engine command of a class back (R159, R160, R345). -/
def engineFree (s : State) (cls : Fin 4) : Prop := s.engineWaits = false ∧ s.me.joinStalls cls = false

/-- Destination lines of a TSTORE, from issue (R169). -/
def drainLines (s : State) (x : Tile) (off : Word) : List (Nat × Nat) :=
  (List.range x.shape.ext0).flatMap fun r =>
    s.engLines s.whoMe (x.shape.base + off + word (r * x.shape.stride)) x.shape.rowBytes

/-- The thread's batches after a class has been closed. -/
def ClassClosed (s t : State) (c : Fin 4) : Prop :=
  if (s.me.open_ c).isEmpty then t.me.open_ c = [] ∧ t.me.closed_ c = s.me.closed_ c
  else t.me.open_ c = [] ∧ t.me.closed_ c = s.me.closed_ c ++ [s.me.open_ c]

/-- The classes a WAIT closes and waits for, and none of which holds it. -/
def waitFree (s : State) (ld st cp ti : BitVec 3) : Prop :=
  ∀ c : Fin 4, waitField ld st cp ti c < 7 →
    s.me.closeFull c = false ∧ (s.me.closeBatch c).incomplete c ≤ waitField ld st cp ti c

/-- The line operations that change no value: their operands and what each leaves of a line's backing value. -/
def lineOf? : Instr → Option (Reg × Reg × Bool)
  | .lineClean rc rs1 => some (rc, rs1, true)
  | .lineFlush rc rs1 => some (rc, rs1, true)
  | .lineInval rc rs1 => some (rc, rs1, false)
  | .lineLastuse rc rs1 => some (rc, rs1, true)
  | _ => none

/-- The `n` lines from `va` lie in reachable memory, line `i` at line address `f i`. -/
def linesGo (s : State) (need : Need) (va : Word) (n : Nat) (f : Nat → Nat) : Prop :=
  s.ovtHolds s.cur = false ∧ s.me.sb = [] ∧ s.linesBusy need va n = false ∧
  ∀ i, i < n → ∃ pa, s.xlateMe need (va + word (64 * i)) = .ok pa ∧ inMemory pa 1 = true ∧
    s.homeErr (dieOf s.cur) false pa = none ∧ lineOf pa = f i

/-- The instructions that name a scope, of which two codes are reserved. -/
def scopeOf? : Instr → Option (BitVec 3)
  | .wmwait sp _ _ | .wmwaitArm sp _ _ | .wmwaitDisarm sp | .wmpub sp _ _ => some sp
  | _ => none

/-- The bound that WMWAIT takes from its register. -/
def boundOf (v : Word) : Word := v &&& 0x7FFFFFFFFFFFFFFF

/-- The ATOMIC MAXU that WMPUB sends to a peer's window (R32, R37, R42). -/
def maxuSent (p : Peer) (v : Word) (tag : BitVec 32) (k : Conn) : Packet :=
  { packet0 with typ := 3, op := 3, addr := word (p.win % 16 * 2 ^ 60 + p.ofs % 2 ^ 60), key := p.key, tag
                 payload := beBytes 8 v.toNat, conn := k.sconn, src := k.addr, sport := k.sport, here := k.here }

/-- An operation of the copies class joins the open batch, which closes when it is the 64th in it (R345). -/
def JoinsCopies (s t : State) (id : Nat) : Prop :=
  if (s.me.open_ 2).length < 63 then t.me.open_ 2 = s.me.open_ 2 ++ [id] ∧ t.me.closed_ 2 = s.me.closed_ 2
  else t.me.open_ 2 = [] ∧ t.me.closed_ 2 = s.me.closed_ 2 ++ [s.me.open_ 2 ++ [id]]

end Sys2Proof.Say

/-- TCFG of a free handle with a shape record that passes every check binds it to the lowest free entry, EMPTY, with its rows;
a record that fails check n raises SHAPE_FAULT with n, of 16 for a tile of more than 240 rows and 17 where no entry or no rows
are free; a handle in use raises TILE_STATE 6 (R334, R335, R338). -/
def Obligations.TcfgBindsATile : Prop :=
  ∀ (h rs1 rs2 : Reg) (s : State), s.ovtHolds s.cur = false →
    (∀ e, s.me.handle h.toNat = some e → s.me.mode = .u →
      Does (.tcfg h rs1 rs2) s fun t => Trapped s t 28 0 (word (6 + 2 ^ 8 * e + 2 ^ 14 * h.toNat))) ∧
    ∀ (r : Nat) (s1 : State), s.me.handle h.toNat = none → reads s (s.rd rs1) 64 r s1 →
      let sh := Shape.of r
      let fb := (s.rd rs2).toNat
      let u := s.myCore.groupLanes fb sh.lgbk
      let check := shapeCheck sh r (s.rd rs2) (s.groupHeld (fb % 64) sh.lgbk)
      let room := s.myCore.findTile fb sh.lgbk (sh.nrows u)
      (∀ n, (check = some n ∨ (check = none ∧ 240 < sh.nrows u ∧ n = 16) ∨
          (check = none ∧ sh.nrows u ≤ 240 ∧ room = none ∧ n = 17)) → s.me.mode = .u →
        Does (.tcfg h rs1 rs2) s fun t =>
          t.me.mode = .m ∧ t.me.csr.mcause = 26 ∧ t.me.csr.mtrapx = word n ∧ t.me.csr.mepc = s.me.pc ∧ t.cores = s.cores) ∧
      ∀ i row, check = none → sh.nrows u ≤ 240 → room = some (i, row) →
        Does (.tcfg h rs1 rs2) s fun t =>
          At s t s.me.npc ∧ SameRegs s t ∧ SameMem s t ∧ t.me.handle h.toNat = some i ∧
          t.myCore = s.myCore.setTile i (some { st := .empty, flt := false, stream := none, owner := thrOf s.cur
                                                frow := row, nrows := sh.nrows u, fbank := fb, shape := sh, usable := u })

/-- TILE_STATE (R138, R338): reason 2 for an unbound handle, 1 for an EMPTY tile, 3 for a store of a read-only tile; the
trap names the entry and the handle, and nothing but the thread changes. -/
def Obligations.TileStateTraps : Prop :=
  ∀ (h r1 r2 : Reg) (s : State), s.me.mode = .u →
    (s.me.handle h.toNat = none →
      let w := word (2 + 2 ^ 14 * h.toNat)
      Does (.tload h r1 r2) s (fun t => Trapped s t 28 0 w) ∧ Does (.tstore h r1) s (fun t => Trapped s t 28 0 w) ∧
      Does (.tfree h) s (fun t => Trapped s t 28 0 w) ∧ Does (.tcopy r1 h) s (fun t => Trapped s t 28 0 w)) ∧
    ∀ i x, s.me.handle h.toNat = some i → s.myCore.tile? i = some x →
      (x.st = .empty →
        let w := word (1 + 2 ^ 8 * i + 2 ^ 14 * h.toNat)
        Does (.tstore h r1) s (fun t => Trapped s t 28 0 w) ∧ Does (.tcopy r1 h) s (fun t => Trapped s t 28 0 w)) ∧
      (x.st = .ready → x.shape.ro = true →
        Does (.tstore h r1) s fun t => Trapped s t 28 0 (word (3 + 2 ^ 8 * i + 2 ^ 14 * h.toNat)))

/-- TLOAD, TSTORE and TCOPY hand their command to the fetch unit: the destination is FILLING, the source DRAINING. TFREE
unbinds the handle and frees its entry, or gives a stream's slot back as EMPTY with FLT clear; TSTAT gives the entry's word, 0 for an unbound
handle (R136, R137, R336, R340). -/
def Obligations.TileInstructionsActOnTheirEntry : Prop :=
  ((∀ (h rs1 rs2 : Reg) (s : State) (i : Nat) (x : Tile), Holds s h.toNat i x → (x.st = .empty ∨ x.st = .ready) →
    engineFree s 0 → Does (.tload h rs1 rs2) s fun t =>
      Issued s t [] (.fill (coreOf s.cur) i (s.rd rs1) (s.rd rs2)) ∧
      t.myCore = s.myCore.setTile i (some { x with st := .filling, flt := false })) ∧
  (∀ (h rs1 : Reg) (s : State) (i : Nat) (x : Tile), Holds s h.toNat i x → x.st = .ready → x.shape.ro = false →
    engineFree s 1 → s.linesPending s.cur (drainLines s x (s.rd rs1)) = false → Does (.tstore h rs1) s fun t =>
      Issued s t (drainLines s x (s.rd rs1)) (.drain (coreOf s.cur) i (s.rd rs1)) ∧
      t.myCore = s.myCore.setTile i (some { x with st := .draining })) ∧
  ∀ (hd hs : Reg) (s : State) (i j : Nat) (x d : Tile), Holds s hs.toNat i x → Holds s hd.toNat j d → i ≠ j →
    x.st = .ready → (d.st = .empty ∨ d.st = .ready) → d.shape.lgbk = x.shape.lgbk → d.nrows = x.nrows →
    d.shape.w = x.shape.w → d.usable = x.usable → engineFree s 2 →
    Does (.tcopy hd hs) s fun t =>
      Issued s t [] (.tcopy (coreOf s.cur) j i) ∧
      t.myCore.tile? j = some { d with st := .filling } ∧ t.myCore.tile? i = some { x with st := .draining }) ∧
  ((∀ (h : Reg) (s : State) (i : Nat) (x : Tile), Holds s h.toNat i x → (x.st = .empty ∨ x.st = .ready) →
    Does (.tfree h) s fun t => At s t s.me.npc ∧ SameRegs s t ∧ SameMem s t ∧ t.me.handle h.toNat = none ∧
      t.myCore = s.myCore.setTile i (if x.stream.isSome then kept { x with st := .empty, flt := false } else none)) ∧
  ∀ (rd h : Reg) (s : State),
    (s.me.handle h.toNat = none → Does (.tstat rd h) s fun t => Result s t rd 0) ∧
    ∀ i x, s.me.handle h.toNat = some i → s.myCore.tile? i = some x → Does (.tstat rd h) s fun t => Result s t rd x.word)


/-- STRCFG of an unconfigured unit binds its NSM + 1 slots and leaves it IDLE with the record's fields; a configured unit
raises STREAM_FAULT 2 (R339, R340, R341; log entry 20 for the slots' bank group). -/
def Obligations.StrcfgConfiguresAStream : Prop :=
  ∀ (q : BitVec 3) (rs1 : Reg) (s : State),
    ((s.myCore.stream q.toNat).st ≠ .uncfg → s.me.mode = .u →
      Does (.strcfg q rs1) s fun t => Trapped s t 29 0 (word (2 + 2 ^ 16 * q.toNat))) ∧
    ∀ (r sr : Nat) (s1 s2 : State) (sl : List Nat) (c : Core), (s.myCore.stream q.toNat).st = .uncfg →
      s.ovtHolds s.cur = false → reads s (s.rd rs1) 64 r s1 → streamReserved r = false →
      reads s1 (va48 (bitsOf r 47 0)) 64 sr s2 →
      let sh := Shape.of sr
      let fb := ctxFirst s.me.csr.vctx / 2 ^ sh.lgbk * 2 ^ sh.lgbk
      shapeCheck sh sr (word fb) (s.groupHeld fb sh.lgbk) = none → sh.ro = true →
      sh.nrows (s.myCore.groupLanes fb sh.lgbk) ≤ 240 →
      Core.newSlots sh fb (thrOf s.cur) q.toNat (bitsOf r 226 224 + 1) s.myCore = some (sl, c) →
      Does (.strcfg q rs1) s fun t =>
        At s t s.me.npc ∧ SameRegs s t ∧ SameMem s t ∧
        t.myCore = c.setStream q.toNat
          { st := .idle, owner := thrOf s.cur, slots := sl, step := word (bitsOf r 127 64), mstep := word (bitsOf r 191 128)
            nwin := bitsOf r 223 192, nsm := bitsOf r 226 224, last := decide (bitsOf r 228 227 = 2)
            mode := s.me.mode, root := s.me.csr.vptbase }

/-- STRSTART makes an IDLE unit of the thread RUN; STRSTOP unconfigures it; STRSTAT gives its word; STRBIND binds the handle
to the next filled window, or sets END after the last, and raises TILE_STATE 1 where a FAULT unit has no filled window left
(R138, R340). -/
def Obligations.StreamsStartStopAndBind : Prop :=
  ∀ (q : BitVec 3) (h : Reg) (s : State), let x := s.myCore.stream q.toNat
    (x.st = .idle → x.owner = thrOf s.cur → s.engineWaits = false → Does (.strstart q) s fun t =>
      At s t s.me.npc ∧ SameRegs s t ∧ SameMem s t ∧ t.myCore = s.myCore.setStream q.toNat { x with st := .run }) ∧
    (x.owner = thrOf s.cur → (∀ i ∈ x.slots, ∀ d, s.myCore.tile? i = some d → d.rdrs = 0 ∧ d.st ≠ .filling ∧ d.st ≠ .draining) →
      Does (.strstop q) s fun t => At s t s.me.npc ∧ SameRegs s t ∧ SameMem s t ∧ t.myCore.stream q.toNat = {} ∧
        ∀ i ∈ x.slots, t.myCore.tile? i = none) ∧
    (Does (.strstat h q) s fun t => Result s t h
      (word ((match x.st with | .uncfg => 0 | .idle => 1 | .run => 2 | .fault => 3) + 4 * b2n x.atEnd + 8 * x.owner
        + 64 * x.nsm + 2 ^ 16 * (x.dlv % 2 ^ 32)))) ∧
    (x.st = .fault → x.owner = thrOf s.cur → s.me.handle h.toNat = none → (x.nwin = 0 ∨ x.dlv < x.nwin) → s.me.mode = .u →
      let slot := x.slots.getD (x.dlv % (x.nsm + 1)) 0
      (∀ d, s.myCore.tile? slot = some d → d.st ≠ .ready) →
      Does (.strbind h q) s fun t => Trapped s t 28 0 (word (1 + 2 ^ 8 * slot + 2 ^ 14 * h.toNat))) ∧
    (x.st = .run → x.owner = thrOf s.cur → s.me.handle h.toNat = none →
      (x.nwin ≠ 0 → x.nwin ≤ x.dlv → Does (.strbind h q) s fun t => At s t s.me.npc ∧ SameRegs s t ∧
        t.me.handle h.toNat = none ∧ t.myCore = s.myCore.setStream q.toNat { x with atEnd := true }) ∧
      ∀ d, (x.nwin = 0 ∨ x.dlv < x.nwin) → x.dlv < x.filled →
        s.myCore.tile? (x.slots.getD (x.dlv % (x.nsm + 1)) 0) = some d → d.st = .ready →
        Does (.strbind h q) s fun t => At s t s.me.npc ∧ SameRegs s t ∧
          t.me.handle h.toNat = some (x.slots.getD (x.dlv % (x.nsm + 1)) 0) ∧
          t.myCore = s.myCore.setStream q.toNat
            { x with dlv := x.dlv + 1, atEnd := decide (x.nwin ≠ 0) && decide (x.nwin ≤ x.dlv + 1) })

/-- XCOPY between addresses of the device hands the copy to the engine with its destination lines owned; a copy of no bytes is
DONE at once; reserved option bits raise illegal instruction. XFORM of a sound record hands the transform to Awl: a tile
target is FILLING, memory lines are owned; an unsound record completes at once as a fault with reason 7, a memory address that
is not aligned to 64 bytes as one with reason 5 (R169, R337, R342, R343). -/
def Obligations.EngineCommandsIssue : Prop :=
  (∀ (o d r : Reg) (s : State), let opt := (s.rd o).toNat
    (bitsOf opt 63 36 ≠ 0 ∨ (bitOf opt 34 = true ∧ bitOf opt 35 = true) → s.me.mode = .u →
      Does (.xcopy o d r) s fun t => Trapped s t 2 (s.ir.setWidth 64) 0) ∧
    (bitsOf opt 63 34 = 0 → engineFree s 2 → bitsOf opt 31 0 ≠ 0 →
      s.linesPending s.cur (s.engLines s.whoMe (s.rd d) (bitsOf opt 31 0)) = false →
      s.pagesWait s.whoMe .read (s.rd r) (bitsOf opt 31 0) = false → s.pagesWait s.whoMe .write (s.rd d) (bitsOf opt 31 0) = false →
      Does (.xcopy o d r) s fun t => Issued s t (s.engLines s.whoMe (s.rd d) (bitsOf opt 31 0))
        (.xcopy (s.rd d) (s.rd r) (bitsOf opt 31 0) (decide (bitsOf opt 33 32 = 2)))) ∧
    (bitsOf opt 63 36 = 0 → ¬(bitOf opt 34 = true ∧ bitOf opt 35 = true) → engineFree s 2 → bitsOf opt 31 0 = 0 →
      s.me.copies = [] →
      Does (.xcopy o d r) s fun t => At s t s.me.npc ∧ SameRegs s t ∧ SameMem s t ∧ t.me.copies = [] ∧
        t.me.csr.cb.getLsbD 16 = true ∧ t.me.csr.cb.getLsbD 17 = false)) ∧
  (∀ (rs1 : Reg) (s : State) (rec : Nat) (s1 : State), engineFree s 2 → reads s (s.rd rs1) 32 rec s1 →
    let r := BitVec.ofNat 256 rec
    (xfOk r = true → xfTgt r = false → (xfAddr r).toNat % 64 = 0 → s1.linesPending s.cur (s1.xfLines r) = false → Does (.xform rs1) s fun t =>
      Issued s t (s1.xfLines r) (.awl (coreOf s.cur) r none)) ∧
    (∀ i x, xfOk r = true → xfTgt r = true → Holds s (bitsOf rec 9 5) i x → x.st = .ready →
      Does (.xform rs1) s fun t => Issued s t [] (.awl (coreOf s.cur) r (some i)) ∧
        t.myCore = s.myCore.setTile i (some { x with st := .filling })) ∧
    (xfOk r = true → xfTgt r = false → (xfAddr r).toNat % 64 ≠ 0 → Does (.xform rs1) s fun t =>
      FailedAtIssue s t { cause := 51, tval := xfAddr r, info := word 1280 }) ∧
    (xfOk r = false → Does (.xform rs1) s fun t =>
      FailedAtIssue s t { cause := 51, tval := s.rd rs1, info := word 1792 }))


/-- CLOSE closes the open batch of each class it names that holds an operation, and nothing else; with no class it is an
illegal instruction. WAIT closes the classes it names; with no more incomplete batches left than its fields allow it goes on,
and takes the first pending engine trap with mepc at the next instruction (R126, R346). -/
def Obligations.BatchesCloseAndWait : Prop :=
  (∀ (m : BitVec 4) (s : State),
    (m = 0 → s.me.mode = .u → Does (.close m) s fun t => Trapped s t 2 (s.ir.setWidth 64) 0) ∧
    (m ≠ 0 → (∀ c : Fin 4, s.me.closeFull c = false) → Does (.close m) s fun t =>
      OnlyMe s t ∧ At s t s.me.npc ∧ SameRegs s t ∧ CsrsAre t s.me.csr ∧
      ∀ c : Fin 4, if m.getLsbD c.val then ClassClosed s t c
        else t.me.open_ c = s.me.open_ c ∧ t.me.closed_ c = s.me.closed_ c)) ∧
  (∀ (ld st cp ti : BitVec 3) (s : State), waitFree s ld st cp ti →
    (s.me.engTraps = [] → Does (.wait ld st cp ti) s fun t =>
      OnlyMe s t ∧ At s t s.me.npc ∧ SameRegs s t ∧ CsrsAre t s.me.csr ∧
      ∀ c : Fin 4, if waitField ld st cp ti c < 7 then ClassClosed s t c
        else t.me.open_ c = s.me.open_ c ∧ t.me.closed_ c = s.me.closed_ c) ∧
    ∀ tr rest, s.me.engTraps = tr :: rest → s.me.mode = .u → Does (.wait ld st cp ti) s fun t =>
      Took s t tr.cause tr.tval tr.info s.me.npc ∧ t.me.frozen = true ∧ t.me.engTraps = rest.map fun x => { x with due := true })


/-- CLEAN, FLUSH, INVAL and LASTUSE change no byte; CLEAN, FLUSH and LASTUSE leave every line they name without a backing value
of its own, which is then its value; DISCARD of a line gives it its backing value and changes no byte outside it (R170,
R344). That INVAL leaves what memory and the line's backing hold is the model's choice (log entry 31). -/
def Obligations.LineOperationsActOnTheirLines : Prop :=
  (∀ (i : Instr) (rc rs1 : Reg) (wb : Bool) (s : State) (f : Nat → Nat), lineOf? i = some (rc, rs1, wb) →
    let va := s.rd rs1 &&& ~~~(63 : Word)
    let n := s.lineCount rc
    linesGo s .read va n f →
    Does i s fun t =>
      ({ t with threads := s.threads, backing := s.backing } : State) = s ∧ Others s t ∧ At s t s.me.npc ∧ SameRegs s t ∧
      (wb = true → ∀ k, Tab.get none t.backing k = if ∃ j, j < n ∧ f j = k then none else Tab.get none s.backing k) ∧
      (wb = false → t.backing = s.backing)) ∧
  (∀ (rc rs1 : Reg) (s : State) (f : Nat → Nat), s.lineCount rc = 1 →
    linesGo s .write (s.rd rs1 &&& ~~~(63 : Word)) 1 f → plainLine s (f 0 * 64) →
    Does (.lineDiscard rc rs1) s fun t =>
      At s t s.me.npc ∧ SameRegs s t ∧ MemOutside s t (f 0 * 64) 64 ∧
      t.lineVal (f 0) = (Tab.get none s.backing (f 0)).getD (s.lineVal (f 0)) ∧ Tab.get none t.backing (f 0) = none)


/-- WMWAIT on a word that has reached its bound advances, and on one below it waits with a monitor; the arming form keeps word,
scope and bound; the disarming form clears them. WMPUB, once what it releases has performed, leaves the unsigned maximum at its
word and changes no other byte. Each of them with a reserved scope is an illegal instruction. WMPUB to a peer sends an ATOMIC
MAXU as an operation of the copies class; of another scope than sys it is an illegal instruction. That with an unsound descriptor
or a connection that is not open it completes at once as a fault of the descriptor is the model's choice (log entry 104). Completes: wmwait, wmwaitArm, wmwaitDisarm,
wmpub, wmpubRemote (R348, R349). -/
def Obligations.WatermarksAndPublishing : Prop :=
  ((∀ (sp : BitVec 3) (a b : Reg) (s : State) (pa : Nat), sp.toNat ≤ 5 → (s.rd b).getLsbD 63 = false →
    goesTo s .read loadCauses (s.rd a) 8 true false pa →
    ((boundOf (s.rd b)).toNat ≤ leNat (s.bytesOf s.cur pa 8) →
      Does (.wmwait sp a b) s fun t => Loaded s t 0 0 pa) ∧
    (leNat (s.bytesOf s.cur pa 8) < (boundOf (s.rd b)).toNat → s.monitorsUsed (coreOf s.cur) < 256 →
      Does (.wmwait sp a b) s fun t => OnlyMe s t ∧ t.me = { s.me with wait := .monitor pa (boundOf (s.rd b)) })) ∧
  (∀ (sp : BitVec 3) (a b : Reg) (s : State) (pa : Nat), sp.toNat ≤ 5 → (s.rd b).getLsbD 63 = true →
    goesTo s .read loadCauses (s.rd a) 8 false false pa →
    Does (.wmwaitArm sp a b) s fun t => OnlyMe s t ∧ At s t s.me.npc ∧ SameRegs s t ∧ CsrsAre t s.me.csr ∧
      t.me.water = some { va := s.rd a, mode := s.me.mode, scope := sp, bound := boundOf (s.rd b) }) ∧
  (∀ (sp : BitVec 3) (s : State), sp.toNat ≤ 5 → Does (.wmwaitDisarm sp) s fun t =>
    OnlyMe s t ∧ At s t s.me.npc ∧ SameRegs s t ∧ CsrsAre t s.me.csr ∧ t.me.water = none) ∧
  ∀ (i : Instr) (sp : BitVec 3) (s : State), scopeOf? i = some sp → 6 ≤ sp.toNat → s.me.mode = .u →
    Does i s fun t => Trapped s t 2 (s.ir.setWidth 64) 0) ∧
  ((∀ (sp : BitVec 3) (a b : Reg) (s : State) (pa : Nat), sp.toNat ≤ 5 →
    goesTo s .write storeCauses (s.rd a) 8 true true pa → s.released sp.toNat = true →
    s.atomicWaits s.cur pa 8 = false → plainLine s pa → pa % 64 + 8 ≤ 64 →
    Does (.wmpub sp a b) s fun t => At s t s.me.npc ∧ SameRegs s t ∧
      t.homeNum pa 8 = max (s.homeNum pa 8) (s.rd b).toNat ∧ MemOutside s t pa 8) ∧
  ∀ (a b : Reg) (s : State), (s.rd a).getLsbD 0 = true →
    (s.ir.extractLsb' 7 5 ≠ 5 → s.me.mode = .u → Does (.wmpubRemote a b) s fun t => Trapped s t 2 (s.ir.setWidth 64) 0) ∧
    ∀ (r : Nat) (s1 : State), s.ir.extractLsb' 7 5 = 5 → s.released 5 = true → engineFree s 2 →
      reads s (s.rd a - 1) 16 r s1 →
      (∀ p, Peer.of r = some p → (s.conn p.conn).st = .opened → Does (.wmpubRemote a b) s fun t =>
        let k := s.conn p.conn
        Issued s t [] (.remote p.conn false [(k.nextTag, 0)] none) ∧ JoinsCopies s t s.nextOp ∧
        (t.conn p.conn).nextTag = k.nextTag + 1 ∧ (t.conn p.conn).reqs = k.reqs ++ [(k.nextTag, .atomic s.nextOp)] ∧
        (t.conn p.conn).waiting = k.waiting ++ [maxuSent p (s.rd b) k.nextTag k]) ∧
      ((∀ p, Peer.of r = some p → (s.conn p.conn).st ≠ .opened) → Does (.wmpubRemote a b) s fun t =>
        FailedAtIssue s t { cause := 51, tval := s.rd a - 1, info := word 1792 }))


namespace Sys2Proof.Say

open Sys2Proof Sys2Proof.Machine

/-! Barriers (R168, R379 to R386). -/

/-- The barrier instructions on a handle. -/
def barOp : Instr → Option (BitVec 4)
  | .bararrive b => some b
  | .barwait b => some b
  | .bararrwait b => some b
  | .barinv b => some b
  | _ => none

/-- BARWAIT, or BARARRWAIT whose arrival has issued. -/
def barWaits (s : State) : Instr → Option (BitVec 4)
  | .barwait b => some b
  | .bararrwait b => if (s.me.mode, s.me.pc) ∈ s.me.arrived then some b else none
  | _ => none

/-- Handle `b` names the bound barrier `bar`, in whose domain the thread lies. -/
def Bound (s : State) (b : BitVec 4) (h : BarHandle) (bar : Bar) : Prop :=
  s.me.bar? b.toNat = some h ∧ s.barOf h = some bar ∧ inDomain bar.scope bar.home s.cur = true

/-! Sequences (R203 to R214, R388 to R396) and index tables (R215 to R230, R397, R398). -/

/-- The operand names a 256-byte object in memory at `d`, reachable now. -/
def unitObject (s : State) (chg : Bool) (va : Word) (d : Nat) : Prop :=
  s.place (if chg then .write else .read) (if chg then storeCauses else loadCauses) va 1 true chg = .mem d ∧
    s.atomicWaits s.cur d 256 = false ∧ va.toNat % 256 = 0 ∧ d % 256 = 0 ∧ inMemory d 256 = true

/-- The operand names `n` readable bytes at `p`, reachable now. -/
def sourceAt (s : State) (va : Word) (n p : Nat) : Prop :=
  s.place .read loadCauses va 1 true false = .mem p ∧ s.atomicWaits s.cur p n = false ∧ p % n = 0

/-- The unit of the object at `d` reads some runs of bytes now: every line of them can be read, and nothing stands before it. -/
def unitReads (s : State) (d : Nat) (rs : List (Nat × Nat)) : Prop :=
  s.readsFail (homeDie d) rs = none ∧ s.readsWait rs = false

/-- An operation of the sequence unit has performed: its result, and the descriptor it leaves. -/
def SqDid (s t : State) (rd : Reg) (v : Word) (d : Nat) (q : Sq) : Prop :=
  At s t s.me.npc ∧ Regs s t rd v ∧ CsrsAre t s.me.csr ∧ t.homeNum d 80 = q.image

/-- An operation of the sequence unit has answered and changed no memory. -/
def SqSaid (s t : State) (rd : Reg) (v : Word) : Prop := At s t s.me.npc ∧ Regs s t rd v ∧ SameMem s t

/-- The instructions that need a LIVE sequence and an operand in range: their rd and descriptor operand (R206). -/
def onLive? (s : State) : Instr → Option (Reg × Reg)
  | .sqres rd a b => if 1 ≤ (s.rd b).toNat ∧ (s.rd b).toNat ≤ 256 then some (rd, a) else none
  | .sqcommit rd a b => if (s.rd b).toNat < 2 ^ 32 then some (rd, a) else none
  | .sqabandon rd a b => if (s.rd b).toNat < 2 ^ 32 then some (rd, a) else none
  | .sqseal rd a _ => some (rd, a)
  | .sqevict rd a _ => some (rd, a)
  | _ => none

/-- A fault of a unit about the object at `d` (R214, R230). -/
def UnitTrap (s t : State) (cause code d : Nat) : Prop := Trapped s t cause 0 (word (code + d / 256 % 2 ^ 38 * 256))

/-- The blocks that SQRES of `n` slots enters: those with slots in the range that hold no frame of their own (R206, R210). -/
def newBlocks (s : State) (q : Sq) (n : Nat) : List Nat :=
  ((List.range ((q.rlen + n - 1) / 64 + 1 - q.rlen / 64)).map (q.rlen / 64 + ·)).filter fun b =>
    !entV (s.entry q b) || entSh (s.entry q b)

/-- A fork's template and its position (R395). -/
def forkPos (s : State) (p : Nat) : Nat := (Sq.of (s.homeNum p 64)).forkpos

/-- Blocks `lo` up to below `hi`. -/
def blocksFrom (lo hi : Nat) : List Nat := (List.range (hi - lo)).map (lo + ·)

/-- The thread's instruction has not been sent to a unit yet, and nothing holds the table at `d` up there (R391). -/
def unheld (s : State) (d : Nat) : Prop := (∀ id, s.me.wait ≠ .sent id) ∧ s.unitBusy d none = false

/-- A table's operand, once the thread's stores have performed. -/
def tableAt (s : State) (va : Word) (d : Nat) : Prop := unitObject s true va d ∧ s.drained s.cur = true ∧ unheld s d

/-- IXINS and IXDEL: rd, the table's register, the row's register. -/
def rowOp : Instr → Option (Reg × Reg × Reg)
  | .ixins rd a b => some (rd, a, b)
  | .ixdel rd a b => some (rd, a, b)
  | _ => none

/-- An operation that the unit has accepted and will finish on its own: it owns lines, and its thread waits for it. -/
def AcceptedOp (s t : State) (rd : Reg) (owns : List (Nat × Nat)) (op : UnitOp) : Prop :=
  t.me.wait = .accepted s.nextOp rd ∧ t.me.pc = s.me.pc ∧ SameRegs s t ∧ SameMem s t ∧
    t.op? s.nextOp = some { tid := s.cur, mode := s.me.mode, root := s.me.csr.vptbase, owns, pins := [], op
                            asid := s.me.csr.vasid, gang := s.me.gang }

/-- An operation that was sent to its unit and waits, or goes on, there: it completes whatever happens to its thread (R391). -/
def SentTo (s t : State) (op : UnitOp) : Prop :=
  t.me.wait = .sent s.nextOp ∧ t.me.pc = s.me.pc ∧ SameRegs s t ∧ SameMem s t ∧
    t.op? s.nextOp = some { tid := s.cur, mode := s.me.mode, root := s.me.csr.vptbase, owns := [], pins := [], op
                            asid := s.me.csr.vasid, gang := s.me.gang }

/-- The bytes of a record operand: where they lie, and their value. -/
def recordAt (s : State) (va : Word) (n v : Nat) : Prop :=
  ∃ ps, s.operandBytes .read loadCauses va n = .ok ps ∧ v = leNat (s.gather ps)

/-- A family's buckets read zero, but for those that lie in the first `n` bytes of the descriptor. -/
def BucketsZero (t : State) (f : Fam) (d n : Nat) : Prop :=
  inMemory f.base (64 * f.buckets) = true → ∀ a, f.base ≤ a → a < f.base + 64 * f.buckets → a < d ∨ d + n ≤ a →
    Memory.read t.mem a = 0

/-- c24 after an operation that counts a drop, an eviction or a new overflow bucket, or not (R221). -/
def Overflowed (s t : State) (ov : Bool) : Prop := t.me.csr.cb.getLsbD 24 = (s.me.csr.cb.getLsbD 24 || ov)

/-- The thread's IXREHASH is operation `id` at the unit of the table at `d`, which is to move `k` buckets yet, the first of them
now. -/
def moving (s : State) (id d : Nat) (va : Word) (k : Nat) (ov : Bool) : Prop :=
  0 < k ∧ s.me.wait = .sent id ∧ (s.op? id).map Op.op = some (.sent d none va (.moving k ov)) ∧ s.behind d none id = false ∧
    s.syncQueued (dieOf s.cur) (homeDie d) = false

/-- The descriptor after a bucket has moved: the table is LIVE under the new family after the last one (R223). -/
def rehashed (r : Filing) : Ix := if r.x.left = 0 then { r.x with cur := r.x.new, new := 0, split := 0, st := 1 } else r.x

end Sys2Proof.Say

/-- BARINIT of a line without a barrier binds one: its image with TARGET, SCOPE and BOUND lies in the line, the unit's identity
counter moves on, and the handle names phase 0; on a bound line of the same parameters it takes the phase. BARINV unbinds the
barrier, zeroes its line and clears the handle, and without write permission takes the page fault of a store; that the address
it needs it at is the one its BARINIT named is the model's choice (log entry 58) (R379, R381, R384). -/
def Obligations.BarriersAreBoundAndUnbound : Prop :=
  (∀ (b : BitVec 4) (r1 r2 : Reg) (s : State) (pa : Nat), s.place .write storeCauses (s.rd r1) 1 false true = .mem pa →
    barParamsBad (s.rd r1) (s.rd r2) = false → s.atomicWaits s.cur (lineOf pa * 64) 64 = false →
    let line := lineOf pa
    let id := Tab.get 0 s.barCnt (barUnit line)
    let bar : Bar := { target := Fld (s.rd r2) 15 0, scope := Fld (s.rd r2) 18 16, arr := 0, phase := 0, id, home := s.cur }
    (s.bar? line = none → (s.bars.filter fun p => barUnit p.1 == barUnit line).length < 1024 → plainLine s (line * 64) →
      Does (.barinit b r1 r2) s fun t => At s t s.me.npc ∧ SameRegs s t ∧ t.bar? line = some bar ∧
        t.me.bar? b.toNat = some ⟨line, id, 0, false, s.rd r1⟩ ∧ Tab.get 0 t.barCnt (barUnit line) = id + 1 ∧
        t.homeNum (line * 64) 64 = bar.image true % 2 ^ 512 ∧ MemOutside s t (line * 64) 64) ∧
    (∀ old, s.bar? line = some old → (s.rd r2).getLsbD 19 = false → old.target = bar.target → old.scope = bar.scope →
      inDomain old.scope old.home s.cur = true →
      Does (.barinit b r1 r2) s fun t => OnlyMe s t ∧ At s t s.me.npc ∧ SameRegs s t ∧
        t.me.bar? b.toNat = some ⟨line, old.id, old.phase, false, s.rd r1⟩)) ∧
  ∀ (b : BitVec 4) (s : State) (h : BarHandle) (bar : Bar), s.me.bar? b.toNat = some h → s.barOf h = some bar →
    ((∃ pa, s.xlateMe .write h.va = .ok pa) → s.homeErr (dieOf s.cur) false (h.line * 64) = none →
    s.pathHolds (dieOf s.cur) (h.line * 64) = false → s.writeWaits h.line s.cur = false →
    s.atomicWaits s.cur (h.line * 64) 64 = false → plainBut s (h.line * 64) →
    Does (.barinv b) s fun t => At s t s.me.npc ∧ SameRegs s t ∧ t.bar? h.line = none ∧ t.me.bar? b.toNat = none ∧
      t.homeNum (h.line * 64) 64 = 0 ∧ MemOutside s t (h.line * 64) 64) ∧
    ((s.xlateMe .write h.va = .error .invalid ∨ s.xlateMe .write h.va = .error .permission) → s.me.mode = .u → Does (.barinv b) s fun t => Trapped s t 15 h.va 0)

/-- An arrival issues and stays pending; performed, it counts in ARR, or completes the phase and clears ARR. BARWAIT and
BARARRWAIT go on once the phase has passed the handle's, with c22 = 0; a handle whose barrier is gone sets c22 and goes on;
an unset handle raises BARRIER_FAULT 1 (R168, R382, R383, R385). -/
def Obligations.BarriersAreReachedAndPassed : Prop :=
  (∀ (b : BitVec 4) (s : State) (h : BarHandle) (bar : Bar), Bound s b h bar →
    Does (.bararrive b) s fun t => OnlyMe s t ∧ At s t s.me.npc ∧ SameRegs s t ∧ CsrsAre t s.me.csr ∧
      t.me.bar? b.toNat = some { h with pending := true } ∧ t.me.arrivals.length = s.me.arrivals.length + 1) ∧
  (∀ (i : Instr) (b : BitVec 4) (s : State) (h : BarHandle) (bar : Bar), barWaits s i = some b → Bound s b h bar →
    s.homeErr (dieOf s.cur) false (h.line * 64) = none → h.pending = false → BitVec.slt 0 (bar.phase - h.exp) = true →
    Does i s fun t => OnlyMe s t ∧ At s t s.me.npc ∧ SameRegs s t ∧ t.me.csr.cb.getLsbD 22 = false ∧ CbOnly s t ∧
      t.me.bar? b.toNat = some { h with exp := bar.phase }) ∧
  (∀ (i : Instr) (b : BitVec 4) (s : State) (h : BarHandle), barOp i = some b → s.me.bar? b.toNat = some h →
    s.barOf h = none → Does i s fun t => OnlyMe s t ∧ At s t s.me.npc ∧ SameRegs s t ∧ t.me.csr.cb.getLsbD 22 = true) ∧
  (∀ (i : Instr) (b : BitVec 4) (s : State), barOp i = some b → s.me.bar? b.toNat = none → s.me.mode = .u → Does i s fun t => Trapped s t 50 0 (word (1 + 2 ^ 8 * b.toNat))) ∧
  ∀ (s : State) (a : Arrival) (bar : Bar), (s.thread s.ev.tid).arrivals[s.ev.idx]? = some a →
    s.arrivalReady s.ev.tid a = true → s.homeErr (dieOf s.ev.tid) false (a.line * 64) = none → s.bar? a.line = some bar →
    bar.id = a.id →
    Does .barrierArrivalPerform s fun t =>
      t.bar? a.line = some (if bar.arr + 1 = bar.target then { bar with arr := 0, phase := bar.phase + 1 }
        else { bar with arr := bar.arr + 1 }) ∧
      (t.thread s.ev.tid).arrivals = (s.thread s.ev.tid).arrivals.eraseIdx s.ev.idx ∧ MemOutside s t (a.line * 64) 64

/-- SQCREATE of a sound template leaves a LIVE sequence with REFCNT 1; SQFORK leaves a LIVE child with the parent's pool and
units, its lengths at the fork's position and REFCNT 1; SQRELEASE of a sequence with more references returns what are left
(R207, R210, R213, R395). -/
def Obligations.SequencesAreCreatedForkedAndReleased : Prop :=
  (∀ (rd a b : Reg) (s : State) (d p : Nat), unitObject s true (s.rd a) d → sourceAt s (s.rd b) 64 p →
    let q := Sq.of (s.homeNum p 64)
    (s.sq d).st ≠ 1 → (s.sq d).st ≠ 3 → ((s.sq d).st = 2 → s.frames.any (·.2.2 == d) = false) →
    unitReads s d [(d, 80), (p, 64), (q.pool, 16), (q.btbase, 8 * q.btcap)] → templateBad (s.homeNum p 64) = false →
    64 + 64 * 64 * (q.kbu + q.vbu) ≤ s.poolSize q.pool →
    Does (.sqcreate rd a b) s fun t => SqDid s t rd 0 d { q with refcnt := 1, st := 1 } ∧ t.seqs = d :: s.seqs.erase d) ∧
  (∀ (r a b : Reg) (s : State) (d c p : Nat), unitObject s true (s.rd a) d → unitObject s true (s.rd b) c →
    sourceAt s (s.rd r) 64 p →
    let q := s.sq d
    let n := forkPos s p
    q.st = 1 → (s.sq c).st = 0 → forkBad (s.homeNum p 64) q.btcap = false → n ≤ q.clen → q.refcnt < 0xFFFF →
    (∀ k, k < ceilDiv n 64 → (s.frame (entFrame (s.entry q k))).refcnt < 0xFFFF) →
    unitReads s d ((c, 80) :: (p, 64) :: s.seqReads d (blocksFrom 0 (ceilDiv n 64))) →
    Does (.sqfork r a b) s fun t =>
      SqDid s t 0 0 c { q with rlen := n, clen := n, forkpos := n, parent := d, refcnt := 1
                               btbase := (Sq.of (s.homeNum p 64)).btbase, fill := 2 ^ (n % 64) - 1 } ∧
      t.seqs = c :: s.seqs.erase c) ∧
  ∀ (rd a : Reg) (s : State) (d : Nat), unitObject s true (s.rd a) d → ((s.sq d).st = 1 ∨ (s.sq d).st = 3) →
    (1 < (s.sq d).refcnt → unitReads s d [(d, 80)] → Does (.sqrelease rd a) s fun t =>
      SqDid s t rd (word ((s.sq d).refcnt - 1)) d { s.sq d with refcnt := (s.sq d).refcnt - 1 }) ∧
    ((s.sq d).refcnt = 1 → unitReads s d (s.seqReads d (blocksFrom 0 (s.sq d).btcap)) → NotWoken s →
      Does (.sqrelease rd a) s fun t => At s t s.me.npc ∧ Regs s t rd 0)

/-- On a LIVE sequence: SQRES returns RLEN and moves it up, or -1 where the window, the table or the pool has no room; SQCOMMIT
of a reserved slot moves CLEN and the bitmaps, and gives 1 beyond RLEN; SQABANDON drops the slots from its operand up; SQSEAL
seals a full block; SQEVICT returns the next version, and like BTINV waits at the unit behind a BTINV of its block (R206, R208,
R209, R211, R391, R393, R396). That an entry which software wrote on a pool's stack after naming it supplies no frame is the
model's choice (log entry 44). -/
def Obligations.SequencesGrow : Prop :=
  ∀ (a b : Reg) (s : State) (d : Nat), unitObject s true (s.rd a) d →
    let q := s.sq d
    let n := (s.rd b).toNat
    (∀ id, s.me.wait ≠ .sent id) →
    (∀ (i : Instr) (rd : Reg), onLive? s i = some (rd, a) → q.st ≠ 1 → s.btinvBusy d n = false → s.me.mode = .u →
      Does i s fun t => UnitTrap s t 30 1 d) ∧
    (q.st = 1 → ∀ rd : Reg,
      (1 ≤ n → n ≤ 256 → unitReads s d (s.resReads d n) → (64 * (q.clen / 64 + 4) < q.rlen + n ∨ 64 * q.btcap < q.rlen + n ∨
          s.poolTop q.pool < (newBlocks s q n).length) →
        Does (.sqres rd a b) s fun t => SqSaid s t rd (-1)) ∧
      (1 ≤ n → n ≤ 256 → unitReads s d (s.resReads d n) → q.rlen + n ≤ 64 * (q.clen / 64 + 4) → q.rlen + n ≤ 64 * q.btcap →
        s.poolHas q.pool (newBlocks s q n).length = true →
        Does (.sqres rd a b) s fun t => SqDid s t rd (word q.rlen) d { q with rlen := q.rlen + n }) ∧
      (n < 2 ^ 32 → unitReads s d [(d, 80)] → s.quiet s.cur q.scope = true → s.vecQuiet s.cur q.scope = true → NotWoken s →
        (q.rlen ≤ n → Does (.sqcommit rd a b) s fun t => SqSaid s t rd 1) ∧
        (q.clen ≤ n → n < q.rlen → bitOf q.fill (n - 64 * (q.clen / 64)) = false →
          Does (.sqcommit rd a b) s fun t => SqDid s t rd 0 d (q.commit n) ∧ (q.commit n).rlen = q.rlen ∧
            q.clen ≤ (q.commit n).clen ∧ (n ≠ q.clen → (q.commit n).clen = q.clen))) ∧
      (n < 2 ^ 32 → q.clen ≤ n → n ≤ q.rlen → unitReads s d (s.seqReads d (blocksFrom (ceilDiv n 64) (ceilDiv q.rlen 64))) →
        Does (.sqabandon rd a b) s fun t =>
        SqDid s t rd (word (q.rlen - n)) d { q with rlen := n, fill := q.fill % 2 ^ (n - 64 * (q.clen / 64)) }) ∧
      (n < q.btcap → 64 * n + 64 ≤ q.clen → unitReads s d (s.seqReads d [n]) → inMemory (entFrame (s.entry q n)) 16 = true →
        Does (.sqseal rd a b) s fun t => At s t s.me.npc ∧ Regs s t rd 0 ∧
          t.frame (entFrame (s.entry q n)) = { s.frame (entFrame (s.entry q n)) with sealed_ := true }) ∧
      (n < q.btcap → unitReads s d (s.evictReads d n (s.rd rd)) → s.btinvBusy d n = false → s.isSealed q n = true →
        s.poolHas q.pool 1 = true →
        Does (.sqevict rd a b) s fun t => At s t s.me.npc ∧
          Regs s t rd (word (((s.frame (entFrame (s.entry q n))).ver + 1) % 2 ^ 32))) ∧
      (s.btinvBusy d n = true →
        Does (.sqevict rd a b) s (fun t => SentTo s t (.sent d (some n) (s.rd a) (.evict n (s.rd rd)))) ∧
        Does (.btinv rd a b) s fun t => SentTo s t (.sent d (some n) (s.rd a) (.inv n))))

/-- SQLEN and SQWAIT return CLEN with c23 = 0 once it has reached the bound, and with c23 = 1 for a sequence no longer LIVE;
a waiting SQWAIT whose limit has passed returns so, with c23 = 1 unless its bound has been reached. BTINV takes the entry as
system software left it and returns 0, at once or, behind a pin, when BTINV_COMPLETE has ended it, with the old frame's
reference given up; FRAME_RETURN gives a frame back to its pool (R205, R206, R211, R212, R391, R394). -/
def Obligations.SequencesAreReadAndWaitedFor : Prop :=
  (∀ (rd a b : Reg) (s : State) (d : Nat), unitObject s false (s.rd a) d →
    ((s.sq d).st = 1 →
      Does (.sqlen rd a) s (fun t => At s t s.me.npc ∧ Regs s t rd (word (s.sq d).clen) ∧ t.me.csr.cb.getLsbD 23 = false ∧
        SameMem s t) ∧
      (Fld (s.rd b) 31 0 ≤ (s.sq d).clen → Does (.sqwait rd a b) s fun t =>
        At s t s.me.npc ∧ Regs s t rd (word (s.sq d).clen) ∧ t.me.csr.cb.getLsbD 23 = false ∧ SameMem s t)) ∧
    ((s.sq d).st = 2 ∨ (s.sq d).st = 3 →
      Does (.sqlen rd a) s (fun t => At s t s.me.npc ∧ Regs s t rd (word (s.sq d).clen) ∧ t.me.csr.cb.getLsbD 23 = true) ∧
      Does (.sqwait rd a b) s fun t =>
        At s t s.me.npc ∧ Regs s t rd (word (s.sq d).clen) ∧ t.me.csr.cb.getLsbD 23 = true)) ∧
  (∀ (s : State) (end_ : Nat) (rd : Reg) (d bound : Nat), let th := s.thread s.ev.tid
    th.wait = .deadline (some end_) rd d bound → th.live = true → end_ ≤ s.now →
    Does .sqwaitTimeout s fun t =>
      (t.thread s.ev.tid).pc = th.npc ∧ (t.thread s.ev.tid).wait = .none ∧
      (t.thread s.ev.tid).csr.cb.getLsbD 23 = !(decide ((s.sq d).st = 1) && decide (bound ≤ (s.sq d).clen)) ∧
      (rd ≠ 0 → (t.thread s.ev.tid).getX rd = word (s.sq d).clen)) ∧
  (∀ (rd a b : Reg) (s : State) (d : Nat), unitObject s true (s.rd a) d → (s.sq d).st = 1 →
    (∀ id r, s.me.wait ≠ .accepted id r) → (∀ id, s.me.wait ≠ .sent id) → (s.rd b).toNat < (s.sq d).btcap → s.btinvBusy d (s.rd b).toNat = false →
    unitReads s d (s.seqReads d [(s.rd b).toNat]) → s.isSealed (s.sq d) (s.rd b).toNat = true →
    let pa := (s.sq d).entryAt (s.rd b).toNat
    let new := word (s.entry (s.sq d) (s.rd b).toNat)
    (s.entryPinned pa = false → Does (.btinv rd a b) s fun t => At s t s.me.npc ∧ Regs s t rd 0 ∧ Tab.get 0 t.btab pa = new) ∧
    (s.entryPinned pa = true → Does (.btinv rd a b) s fun t => Tab.get 0 t.btab pa = new ∧
      AcceptedOp s t rd [] (.btinv d (s.rd b).toNat pa (s.sq d).pool (Tab.get 0 s.btab pa) new))) ∧
  (∀ (rd a b : Reg) (s : State) (id : Nat) (r : Reg), s.me.wait = .accepted id r → s.op? id = none →
    Does (.btinv rd a b) s fun t => Result s t rd 0) ∧
  (∀ (s : State) (o : Op) (d b entry pool : Nat) (old new : Word), s.op? s.ev.idx = some o →
    o.op = .btinv d b entry pool old new → s.entryPinned entry = false →
    let f := entFrame old.toNat
    Does .btinvComplete s fun t => t.op? s.ev.idx = none ∧ t.btab = s.btab ∧
      (¬(entV old.toNat = true ∧ f ≠ entFrame new.toNat) → SameMem s t) ∧
      (entV old.toNat = true → f ≠ entFrame new.toNat → 1 < (s.frame f).refcnt → inMemory f 16 = true →
        t.frame f = { s.frame f with refcnt := (s.frame f).refcnt - 1 })) ∧
  ∀ (s : State) (f pool d : Nat), s.frames[s.ev.idx]? = some (f, pool, d) → s.framePinned f = false →
    pool % 64 = 0 → inMemory pool 64 = true → s.poolTop pool < (s.pool pool).cap →
    Does .frameReturn s fun t => t.frames = s.frames.eraseIdx s.ev.idx ∧ t.poolTop pool = (s.poolTop pool + 1) % 2 ^ 32

/-- IXCREATE and IXFAMILY of sound records are accepted and own the descriptor and the lines they will zero;
INDEX_ZEROING_COMPLETE zeroes the buckets and makes the table LIVE with the template's image, or puts it in REHASH with the
family; the instruction then returns 0. Completes: ixcreate, ixfamily (R218, R219, R391, R397). -/
def Obligations.IndexTablesAreCreated : Prop :=
  (∀ (rd a b : Reg) (s : State) (d v : Nat), tableAt s (s.rd a) d → (∀ id r, s.me.wait ≠ .accepted id r) →
    unitReads s d [(d, 96)] → let x := s.ix d
    (recordAt s (s.rd b) 256 v → (s.rd b).toNat % 64 = 0 → x.ready = false → tableBad (homeDie d) v = false →
      let owns := [(lineOf d, 4), (Fam.of (Ix.of v).cur).lines]
      s.rangesWait owns = false →
      Does (.ixcreate rd a b) s fun t => AcceptedOp s t rd owns (.ixcreate d (leBytes 256 (v + 1)))) ∧
    (recordAt s (s.rd b) 16 v → (s.rd b).toNat % 16 = 0 → x.st = 1 → famBad (homeDie d) (Fam.of v) = false →
      (Fam.of v).fmt = (Fam.of x.cur).fmt → (Fam.of v).d = (Fam.of x.cur).d →
      let owns := [(lineOf d, 4), (Fam.of v).lines, x.bitmapLines]
      s.rangesWait owns = false →
      Does (.ixfamily rd a b) s fun t => AcceptedOp s t rd owns (.ixfamily d (BitVec.ofNat 128 v)))) ∧
  (∀ (rd a b : Reg) (s : State) (id : Nat) (r : Reg), s.me.wait = .accepted id r → s.op? id = none →
    Does (.ixcreate rd a b) s (fun t => Result s t rd 0) ∧ Does (.ixfamily rd a b) s fun t => Result s t rd 0) ∧
  ∀ (s : State) (o : Op) (d : Nat), s.op? s.ev.idx = some o → (s.die (homeDie d)).window = none → d % 256 = 0 →
    inMemory d 256 = true →
    (∀ image, o.op = .ixcreate d image → image.length = 256 →
      Does .indexZeroingComplete s fun t => t.op? s.ev.idx = none ∧ Memory.readList t.mem d 256 = image ∧
        t.tables = d :: s.tables.erase d ∧ BucketsZero t (Fam.of (Ix.of (leNat image)).cur) d 256) ∧
    (∀ fam, o.op = .ixfamily d fam → Does .indexZeroingComplete s fun t => t.op? s.ev.idx = none ∧
      t.homeNum d 96 = ({ s.ix d with new := fam.toNat, st := 2, split := 0 } : Ix).image ∧
      BucketsZero t (Fam.of fam.toNat) d 96)

/-- IXINS and IXDEL of a row of a ready table file it in, or remove it from, every sub-table, in REHASH those of both families,
and return which; an insert into a head with room appends the row. IXREHASH outside REHASH returns 0; in REHASH it moves as
many buckets as it names, one by one, and returns how many are left, the table LIVE after the last, or faults and moves none;
IXSTAT returns the words of R398; IXPROBE writes the candidates, at most CAP of them, and returns how many. A table that is not ready raises INDEX_FAULT
1, a row past NROWS 2, and a row that cannot be filed or found its own code. Completes: ixins, ixdel, ixrehash, ixstat, ixprobe
(R221, R222, R223, R224, R225, R230, R398). The model's choices are that IXDEL during a rehash answers for the sub-tables of
the new family (log entry 45), and that an IXREHASH settles its buckets when it is accepted (log entry 88). -/
def Obligations.IndexTablesAreUsed : Prop :=
  (∀ (i : Instr) (rd a b : Reg) (s : State) (d : Nat), rowOp i = some (rd, a, b) → tableAt s (s.rd a) d →
    s.me.mode = .u → unitReads s d [(d, 96)] →
    ((s.ix d).ready = false → Does i s fun t => UnitTrap s t 31 1 d) ∧
    ((s.ix d).ready = true → (s.ix d).nrows ≤ (s.rd b).toNat → Does i s fun t => UnitTrap s t 31 2 d)) ∧
  (∀ (rd a b : Reg) (s : State) (d : Nat), tableAt s (s.rd a) d → (s.ix d).ready = true →
    (s.rd b).toNat < (s.ix d).nrows → unitReads s d [(d, 96)] → unitReads s d (s.onRowReads d (s.rd b).toNat) →
    let x := s.ix d
    let row := (s.rd b).toNat
    let filed := (Filing.mk s x 0 0).fileAll (dieOf s.cur) row x.fam
    (∀ r, filed = .ok r →
      Does (.ixins rd a b) s fun t => At s t s.me.npc ∧ Regs s t rd (word (r.lo + 2 ^ 16 * r.hi)) ∧
        t.mem = ((if x.st = 2 then r.s.setMoved (dieOf s.cur) x row else r.s).putIx (dieOf s.cur) d r.x).mem ∧
        t.homeNum d 96 = r.x.image ∧ Overflowed s t (decide (r.hi ≠ 0))) ∧
    (∀ h k, x.st = 1 → x.ovp < 2 → x.fam.l = 1 → s.keyHash x x.fam row = some [k] → s.chainOf x x.fam 0 k = some [h] →
      row ∉ h.ids → h.ids.length < 14 → inMemory h.addr 64 = true → h.addr % 64 = 0 → h.addr + 64 ≤ d ∨ d + 96 ≤ h.addr →
      Does (.ixins rd a b) s fun t => At s t s.me.npc ∧ Regs s t rd 1 ∧
        t.homeNum h.addr 64 = ({ h with ids := h.ids ++ [row] } : Bucket).value) ∧
    (∀ c, s.me.mode = .u → filed = .error c → Does (.ixins rd a b) s fun t => UnitTrap s t 31 c d) ∧
    (∀ c, s.me.mode = .u → s.unfileAll (dieOf s.cur) x x.fam row = .error c →
      Does (.ixdel rd a b) s fun t => UnitTrap s t 31 c d) ∧
    ∀ r, s.unfileAll (dieOf s.cur) x x.fam row = .ok r →
      (x.st = 1 → Does (.ixdel rd a b) s fun t => At s t s.me.npc ∧ Regs s t rd (word r.2) ∧ t.mem = r.1.mem) ∧
      ∀ q, x.st = 2 → r.1.unfileAll (dieOf s.cur) x (Fam.of x.cur) row = .ok q →
        Does (.ixdel rd a b) s fun t => At s t s.me.npc ∧ Regs s t rd (word r.2) ∧ t.mem = q.1.mem) ∧
  (∀ (rd a b : Reg) (s : State) (d : Nat), tableAt s (s.rd a) d → unitReads s d [(d, 96)] →
    let k := min (min (s.rd b).toNat 256) (s.ix d).left
    let m := s.tryMoves (dieOf s.cur) d k
    ((s.ix d).st = 1 → Does (.ixrehash rd a b) s fun t => Result s t rd 0) ∧
    ((s.ix d).st = 2 → k = 0 → Does (.ixrehash rd a b) s fun t => Result s t rd (word (s.ix d).left)) ∧
    ((s.ix d).st = 2 → k ≠ 0 → unitReads s d m.1 →
      (∀ c, m.2 = some c → s.me.mode = .u → Does (.ixrehash rd a b) s fun t => UnitTrap s t 31 c d) ∧
      (m.2 = none → Does (.ixrehash rd a b) s fun t => SentTo s t (.sent d none (s.rd a) (.moving k false))))) ∧
  (∀ (rd a b : Reg) (s : State) (id d k : Nat) (va : Word) (ov : Bool) (r : Filing), moving s id d va k ov → (s.ix d).st = 2 →
    unitReads s d (s.moveReads d) → (Filing.mk s (s.ix d) 0 0).move (dieOf s.cur) = .ok r →
    Does (.ixrehash rd a b) s fun t =>
      t.mem = (r.s.putIx (dieOf s.cur) d (rehashed r)).mem ∧ t.homeNum d 96 = (rehashed r).image ∧
      (k = 1 → At s t s.me.npc ∧ Regs s t rd (word r.x.left) ∧ Overflowed s t (ov || decide (r.hi ≠ 0)) ∧ t.op? id = none) ∧
      (1 < k → t.me.pc = s.me.pc ∧ SameRegs s t ∧ moving t id d va (k - 1) (ov || decide (r.hi ≠ 0)))) ∧
  (∀ (rd a b : Reg) (s : State) (d : Nat), unitObject s false (s.rd a) d → s.drained s.cur = true → unheld s d →
    unitReads s d [(d, 96)] →
    let x := s.ix d
    let c := Fam.of x.cur
    Does (.ixstat rd a b) s fun t => Result s t rd (word (
      if (s.rd b).toNat = 0 then
        x.st + 4 * x.ovp + 2 ^ 4 * (c.l - 1) + 2 ^ 8 * c.kb + 2 ^ 32 * (if x.st = 2 then c.buckets - x.split else 0)
      else if (s.rd b).toNat = 1 then x.ndrop + 2 ^ 32 * x.nevict
      else if (s.rd b).toNat = 2 then x.ovnext + 2 ^ 32 * x.ovcap else 0))) ∧
  ∀ (rd a : Reg) (s : State) (d v : Nat) (ins out : List (Nat × Nat)) (ids lines : List Nat), (s.rd a).toNat % 32 = 0 →
    s.drained s.cur = true → recordAt s (s.rd a) 32 v →
    let r := Probe.of v
    let x := s.ix d
    let f := Fam.of x.cur
    let xs := f.elems (s.gather ins)
    let n := min ids.length r.cap
    r.bad = false → unitObject s false r.table d → unheld s d → unitReads s d [(d, 96)] → x.ready = true → r.inp.toNat % f.align = 0 →
    s.operandBytes .read loadCauses r.inp f.bytes = .ok ins → unitReads s d (s.probeReads d x (x.consulted xs)) →
    s.candidateSet x xs = some (ids, lines) →
    s.operandBytes .write storeCauses r.list (4 * n) = .ok out → NotWoken s →
    Does (.ixprobe rd a) s fun t => At s t s.me.npc ∧ Regs s t rd (word (n + (if r.cap < ids.length then 2 ^ 63 else 0))) ∧
      t.mem = ((s.observeLines (dieOf s.cur) lines).scatter s.cur out ((ids.take n).flatMap (leBytes 4))).mem ∧
      t.me.csr.vxstat = (if xs.isNone then s.me.csr.vxstat ||| 64 else s.me.csr.vxstat) ∧
      ∀ p, out = [(p, 4 * n)] → plainLine s p → MemOutside s t p (4 * n) ∧
        ∀ i, i < n → t.homeNum (p + 4 * i) 4 = ids.getD i 0 % 2 ^ 32

namespace Sys2Proof.Say

open Sys2Proof Sys2Proof.Machine

/-! Attention jobs (R231 to R242, R399 to R401). -/

/-- The card at the operand, read. -/
def cardAt (s : State) (va : Word) (ps : List (Nat × Nat)) : Prop :=
  s.engineWaits = false ∧ va.toNat % 64 = 0 ∧ s.operandBytes .read loadCauses va 128 = .ok ps

/-- Where the status record lies: nowhere for STW = 0. -/
def statusAt (s : State) (va : Word) (p : Option Nat) : Prop :=
  (va = 0 ∧ p = none) ∨
    ∃ pa, va ≠ 0 ∧ s.place .write storeCauses va 1 false true = .mem pa ∧ s.atomicWaits s.cur pa 16 = false ∧ p = some pa

/-- No check fails, no trap is due, and both tiles stand ready. -/
def tilesReady (s : State) (c : Card) (d qt ot : Nat) (y : Tile) : Prop :=
  s.attnCheck c (s.sq d) = none ∧ s.me.engTraps.any (s.me.attnTrap c) = false ∧ (∃ x, s.named c.qh = .ready qt x) ∧
    s.namedDst c.oh = .ready ot y

/-- The output tile holds the job's rows of D elements, and the entries of its blocks can be read. -/
def blocksReady (s : State) (c : Card) (d : Nat) (y : Tile) : Prop :=
  outFits y c (outFmt c.ofmt).width = true ∧ unitReads s d ((d, 80) :: (s.attnPins c (s.sq d)).map fun p => (p.1, 8))

/-- Everything a job needs stands ready: every block of its key range is there too, and a place in a Lantern's queue and in
the batch. -/
def jobReady (s : State) (c : Card) (d qt ot lan : Nat) : Prop :=
  (∃ y, tilesReady s c d qt ot y ∧ blocksReady s c d y) ∧ (∀ p ∈ s.attnPins c (s.sq d), entV p.2.toNat = true) ∧
    (s.cluster (cluOf s.cur)).lantern = some lan ∧ s.me.joinStalls 3 = false

/-- ATTN has ended with a check code: no job, no write. -/
def AttnCode (s t : State) (rd : Reg) (n : Nat) : Prop := At s t s.me.npc ∧ Regs s t rd (word n) ∧ SameMem s t

/-- Job `j` of cluster `s.ev.clu` is the one the event names; its thread lies in that cluster, holds its hart and belongs to the
job's gang; its status record can be written. -/
def evJobIs (s : State) (j : Job) : Prop :=
  (s.cluster s.ev.clu).job? s.ev.idx = some j ∧ s.ev.clu = cluOf j.tid ∧ (s.thread j.tid).present = true ∧
    (s.thread j.tid).gang = j.gang ∧ s.statusWaits j = false

/-- The job has left its cluster. -/
def JobGone (s t : State) (j : Job) : Prop :=
  (t.cluster s.ev.clu).jobs = (s.cluster s.ev.clu).jobs.filter (·.id ≠ j.id)

/-! Matrix operations (R350 to R368). -/

/-- The four operations on matrices: function code, A word and C word. -/
def mmOf (s : State) : Instr → Option (Nat × Word × Word)
  | .mmissue a c => some (1, s.rd a, s.rd c)
  | .mmsparse a c => some (2, s.rd a, s.rd c)
  | .mmgather a c => some (3, s.rd a, s.rd c)
  | .mmret a c => some (4, s.rd a, s.rd c)
  | .acczero a => some (5, s.rd a, 0)
  | .accscale a c => some (6, s.rd a, s.rd c)
  | _ => none

/-- The instructions of a Cupola thread (R123). -/
def cupolaInstr : Instr → Prop
  | .mmcfg _ _ | .mmissue _ _ | .mmsparse _ _ | .mmgather _ _ | .mmret _ _ | .acczero _ | .accscale _ _ | .mmstat _
  | .mmfence => True
  | _ => False

/-- Checks 29 and 30, the tile states, groups being zeroed and the eight places let the operation in (R354). -/
def mmFree (s : State) (t : AccRange) (c : Option Word) : Prop := s.finalChecks s.me.mcfg t c = .ok

/-- An operation is accepted: in flight under the next number on every engaged core, outstanding for its thread, c18 and c19
zero. -/
def Accepted (s t : State) (funct g : Nat) (w x : Shape) (a c : Word) : Prop :=
  At s t s.me.npc ∧ SameRegs s t ∧ SameMem s t ∧ t.me.mmOut = s.me.mmOut ++ [s.nextOp] ∧
    t.me.csr.cb.getLsbD 18 = false ∧ t.me.csr.cb.getLsbD 19 = false ∧
    ∃ pins pages tiles, t.op? s.nextOp = some
      { tid := s.cur, mode := s.me.mode, root := s.me.csr.vptbase, owns := [], pins
        op := .matrix ((engaged s.me.mcfg).map (clusterCore s.cur)) funct (BitVec.ofNat 512 g) w x a c s.me.mcfg s.me.csr.vround
          s.me.csr.rngctr s.me.csr.rngkey
        asid := s.me.csr.vasid, pages, gang := s.me.gang, tiles }

/-- Operation `id` has ended, and is no more outstanding. -/
def OpGone (t : State) (id : Nat) : Prop := t.op? id = none

/-- The operation that the event names. -/
def evOp (s : State) (o : Op) : Prop := s.op? s.ev.idx = some o

/-- A write of operation `id` is on its way to its home. -/
def onItsWay (s : State) (o : Op) (id : Nat) : Prop := ∃ w ∈ (s.die (dieOf o.tid)).out, w.tid = engAgent id

/-- A tile whose drain has ended (R137). -/
def drainedTile (fault : Bool) (x : Tile) : Option Tile := kept { x with st := .ready, flt := x.flt || fault }

/-- Operation `id` has written its lines, in `d`: it ends, and its tile is READY again, once none of its writes is on its
way; until then it stays with the trap it will raise (R169). -/
def Posts (d t : State) (id : Nat) (o : Op) (core : Nat) (tile : Option Nat) (tr : Option Trap) : Prop :=
  t.mem = d.mem ∧
    (onItsWay d o id → t.op? id = some { o with op := .posting core tile tr 0 } ∧
      ∀ i, (t.core core).tile? i = (d.core core).tile? i) ∧
    (¬onItsWay d o id → OpGone t id ∧
      ∀ i, tile = some i → (t.core core).tile? i = ((d.core core).tile? i).bind (drainedTile tr.isSome))

end Sys2Proof.Say

/-- ATTN with a sound card and everything ready queues the job with its card, its pins and its tiles, and returns 0; a card
that is misaligned or unsound returns 1, and a failed check its number, up to an output tile too small, 6, and a block that is
not there, 7. ATTNSTAT gives its word. ATTNCANCEL with nothing to cancel returns 0, with waiting jobs only their number, and
with running jobs it marks them and waits until they have stopped (R233, R234, R399, R400, R401). -/
def Obligations.AttentionJobsAreQueued : Prop :=
  (∀ (rd a : Reg) (s : State), s.engineWaits = false → (s.rd a).toNat % 64 ≠ 0 →
    Does (.attn rd a) s fun t => AttnCode s t rd 1) ∧
  (∀ (rd a : Reg) (s : State) (ps : List (Nat × Nat)), cardAt s (s.rd a) ps →
    let card := leNat (s.gather ps)
    let c := Card.of card
    (cardBad card = true → Does (.attn rd a) s fun t => AttnCode s t rd 1) ∧
    ∀ (d : Nat) (stw : Option Nat), cardBad card = false → unitObject s false c.seq d → statusAt s c.stw stw →
      (∀ n, s.attnCheck c (s.sq d) = some n → Does (.attn rd a) s fun t => AttnCode s t rd n) ∧
      (∀ qt ot y, tilesReady s c d qt ot y →
        (outFits y c (outFmt c.ofmt).width = false → Does (.attn rd a) s fun t => AttnCode s t rd 6) ∧
        (blocksReady s c d y → (∃ p ∈ s.attnPins c (s.sq d), entV p.2.toNat = false) →
          Does (.attn rd a) s fun t => AttnCode s t rd 7)) ∧
      ∀ qt ot lan, jobReady s c d qt ot lan → Does (.attn rd a) s fun t => At s t s.me.npc ∧ Regs s t rd 0 ∧ SameMem s t ∧
        t.me.csr.cb.getLsbD 20 = false ∧ t.me.csr.cb.getLsbD 21 = false ∧
        (t.cluster (cluOf s.cur)).jobs = (s.cluster (cluOf s.cur)).jobs ++
          [{ id := s.nextOp, tid := s.cur, card := BitVec.ofNat 1024 card, cardVa := s.rd a, st := .queued, lan
             replayed := false, pins := s.attnPins c (s.sq d), qt, ot, stw, kbu := (s.sq d).kbu, vbu := (s.sq d).vbu
             blocks := s.me.vq.length, cancel := false, ran := false, gang := s.me.gang, mode := s.me.mode
             asid := s.me.csr.vasid, vas := if stw.isSome then s.vpages s.me.mode s.me.csr.vptbase c.stw 16 else [] }]) ∧
  (∀ (rd : Reg) (s : State), Does (.attnstat rd) s fun t => Result s t rd
    (word ((s.jobList s.cur).length + 2 ^ 5 * b2n s.me.atFlt + 2 ^ 6 * b2n s.me.atRpl + 2 ^ 7 * b2n s.me.atCan
      + 2 ^ 32 * s.me.atDone.toNat))) ∧
  ∀ (rd a : Reg) (s : State),
    let jobs := (s.cluster (cluOf s.cur)).jobs
    let hit := (s.jobList s.cur).filter fun j => s.rd a == 0 || j.cardVa == s.rd a
    (s.me.wait = .none → (s.rd a).toNat % 64 ≠ 0 → s.me.mode = .u →
      Does (.attncancel rd a) s fun t => Trapped s t 2 (s.ir.setWidth 64) 0) ∧
    (s.me.wait = .none → (s.rd a).toNat % 64 = 0 → (∀ j ∈ hit, j.st ≠ .running ∧ s.statusWaits j = false) →
      Does (.attncancel rd a) s fun t => At s t s.me.npc ∧ Regs s t rd (word hit.length)) ∧
    (s.me.wait = .none → (s.rd a).toNat % 64 = 0 → hit ≠ [] → (∀ j ∈ hit, j.st = .running) → (jobs.map (·.id)).Nodup →
      Does (.attncancel rd a) s fun t => t.me.wait = .cancelling 0 ∧ t.me.pc = s.me.pc ∧ SameRegs s t ∧ SameMem s t ∧
        (t.cluster (cluOf s.cur)).jobs = jobs.map fun j => if j ∈ hit then { j with cancel := true } else j) ∧
    ∀ n, s.me.wait = .cancelling n → (∀ j ∈ s.jobList s.cur, j.cancel = false) →
      Does (.attncancel rd a) s fun t => Result s t rd (word n)

/-- A Lantern starts a job that may start; a job that is done leaves, with DONE counted; the watchdog first sends a job to the
other Lantern and resets its own, and the second time ends it with cause 48; a read error ends it with cause 51; a cancelled
job leaves (R235, R239, R240, R241). -/
def Obligations.LanternsRunJobs : Prop :=
  ∀ (s : State) (j : Job), evJobIs s j →
    let c := s.cluster s.ev.clu
    (c.canStart j = true → Does .lanternJobStart s fun t =>
      t.cluster s.ev.clu = c.setJob { j with st := .running, ran := true } ∧ t.mem = s.mem ∧ t.threads = s.threads) ∧
    (j.st = .replay → j.cancel = false → c.lanternIdle j.lan = true →
      (∀ x ∈ c.jobs.takeWhile (·.id != j.id), x.lan ≠ j.lan ∨ x.st ≠ .replay) →
      Does .lanternReplayStart s fun t =>
        t.cluster s.ev.clu = c.setJob { j with st := .running, replayed := true } ∧ (t.thread j.tid).atRpl = true) ∧
    (Does .lanternResetDone s fun t => t.cluster s.ev.clu = { c with reset := c.reset.filter (· ≠ s.ev.lane) }) ∧
    (∀ qt ot, (s.core (coreOf j.tid)).tile? j.qt = some qt → (s.core (coreOf j.tid)).tile? j.ot = some ot →
      j.st = .running → j.cancel = false → s.jobReadBad j (Card.of j.card.toNat) = none →
      s.jobReadWaits j (Card.of j.card.toNat) = false →
      Does .lanternJobDone s fun t => JobGone s t j ∧ (t.thread j.tid).atDone = (s.thread j.tid).atDone + 1) ∧
    (j.st = .running → j.replayed = false → Does .lanternWatchdogExpire s fun t =>
      t.cluster s.ev.clu = { c with jobs := (c.jobs.filter (·.id ≠ j.id)) ++ [{ j with st := .replay, lan := 1 - j.lan }]
                                    reset := j.lan :: c.reset }) ∧
    (j.st = .running → j.replayed = true → Does .lanternWatchdogExpire s fun t => JobGone s t j ∧
      (t.thread j.tid).atFlt = true ∧ ∃ tr ∈ (t.thread j.tid).engTraps, tr.cause = 48) ∧
    (∀ e, s.jobReadBad j (Card.of j.card.toNat) = some e → j.st = .running →
      Does .lanternReadError s fun t => JobGone s t j ∧ (t.thread j.tid).atFlt = true ∧
        ∃ tr ∈ (t.thread j.tid).engTraps, tr.cause = 51) ∧
    (j.cancel = true → Does .lanternCancelStop s fun t => JobGone s t j ∧ (t.thread j.tid).atCan = true)

/-- On a Cupola thread MMCFG sets the configuration and returns the old one; MMISSUE, MMSPARSE, MMGATHER, MMRET, ACCZERO and
ACCSCALE that pass every check are accepted; MMSTAT gives its word and clears FLT; MMFENCE with nothing outstanding and no
matrix trap only advances. On another thread all of them are illegal (R123, R352 to R365). -/
def Obligations.MatrixOperationsAreAccepted : Prop :=
  (∀ (rd a : Reg) (s : State), isCup s.cur = true →
    (mcfgBad (s.rd a) = false → Does (.mmcfg rd a) s fun t => OnlyMe s t ∧ At s t s.me.npc ∧
      Regs s t rd (s.me.mcfg.setWidth 64) ∧ t.me.mcfg = (s.rd a).setWidth 9) ∧
    (mcfgBad (s.rd a) = true → s.me.mode = .u → Does (.mmcfg rd a) s fun t => Trapped s t 26 0 20) ∧
    (Does (.mmstat rd) s fun t => OnlyMe s t ∧ At s t s.me.npc ∧ t.me.mmFltStat = false ∧ Regs s t rd
      (word (min 8 s.me.mmOut.length + 16 * b2n s.me.mmFltStat + 2 ^ 8 * s.me.mmLast.toNat + 2 ^ 32 * s.me.mmDone.toNat))) ∧
    (s.me.mmOut = [] → s.me.engTraps.find? (·.mtx) = none → Does .mmfence s fun t => Advances s t)) ∧
  (∀ (i : Instr) (s : State), cupolaInstr i → isCup s.cur = false → s.me.mode = .u →
    Does i s fun t => Trapped s t 2 (s.ir.setWidth 64) 0) ∧
  ∀ (i : Instr) (f : Nat) (a c : Word) (s : State), mmOf s i = some (f, a, c) → isCup s.cur = true →
    let m := s.me.mcfg
    let ts := (s.cTiles m c).map (·.2)
    (∀ r s1, f ≤ 2 → aWordBad a = false → cWordBad c = false → s.engineWaits = false → reads s a 64 r s1 →
      let w := Shape.of r
      let b := match ts with | x :: _ => x.shape | [] => w
      operandCheck w r = none → shapeChecks f m 0 w w c ts = none →
      mmFree s (targetOf f m 0 w w a c b.ext0) (some c) →
      Does i s fun t => Accepted s t f 0 w.asOperand w.asOperand a c) ∧
    (∀ g s1 rw s2 rx s3, f = 3 ∨ f = 4 → aWordBad a = false → cWordBad c = false → s.engineWaits = false →
      reads s a 64 g s1 → gatherBad g = false → reads s1 (gW g) 64 rw s2 → reads s1 (gX g) 64 rx s3 →
      let w := Shape.of rw
      let x := Shape.of rx
      operandCheck w rw = none → operandCheck x rx = none → (f = 3 → w.fmt < 7 ∧ x.fmt < 7) →
      shapeChecks f m g w x c ts = none → mmFree s (targetOf f m g w x a c 0) (some c) →
      Does i s fun t => Accepted s t f g w.asOperand x.asOperand a c) ∧
    (5 ≤ f → regionBad a = false → mmFree s (targetOf f m 0 noShape noShape a c 0) none →
      Does i s fun t => Accepted s t f 0 noShape noShape a c)

/-- The first matrix operation on its cores performs: it is in flight no more, its thread counts it or holds its trap, and
ACCZERO leaves zeros in its rows and columns on every engaged core. A freed group of accumulator rows is zeroed, and a pinned
line is released as consumed, its value kept by the operation (R145, R363 to R367; log entry 91). -/
def Obligations.MatrixOperationsPerform : Prop :=
  (∀ (s : State) (q : Mm), s.mm? s.ev.idx = some q → s.mmBehind q = false → s.mmReaders q = false → s.mmWaits q = false →
    (s.thread q.who.tid).mmOut.contains q.id = true →
    Does .matrixOpComplete s fun t => OpGone t s.ev.idx ∧
      (t.thread q.who.tid).mmOut = (s.thread q.who.tid).mmOut.erase q.id ∧
      (match (s.mmResult q).2.2 with
        | none => (t.thread q.who.tid).mmDone = (s.thread q.who.tid).mmDone + 1
        | some tr => tr ∈ (t.thread q.who.tid).engTraps ∧ (t.thread q.who.tid).mmFltStat = true) ∧
      (q.funct = 5 → ∀ core ∈ q.cores, ∀ r, r < rRows q.a → ∀ j, j < rCols q.a →
        (t.core core).accWord ((rRow q.a + r) * 512 + rCol q.a + j) = 0)) ∧
  (∀ s : State, s.ev.idx ∈ (s.core s.ev.core).zeroing → Does .accumulatorGroupZero s fun t =>
    (∀ w, (t.core s.ev.core).accWord w = if w / 8192 = s.ev.idx then 0 else (s.core s.ev.core).accWord w) ∧
    s.ev.idx ∉ (t.core s.ev.core).zeroing) ∧
  ∀ (s : State) (o : Op), evOp s o → Does .pinRelease s fun t =>
    let line := s.ev.addr
    t.op? s.ev.idx = some (if line ∈ o.pins then
      { o with pins := o.pins.erase line, kept := (line, BitVec.ofNat 512 (s.viewNum (coreOf o.tid) (line * 64) 64)) :: o.kept }
      else o) ∧ t.mem = s.mem ∧ t.threads = s.threads

/-- Engines end their commands: a fill leaves the tile READY, or EMPTY with FLT; a drain leaves it READY once its lines are at
their homes; a copy goes on line by line, and ends when all are there; a copy of a tile leaves it READY and its source READY,
or EMPTY for a stream slot; a transform of a tile leaves it READY, one of memory writes all or nothing; a stream's window
becomes READY, or the stream FAULT; one that has to wait for a line changes nothing; completed batches leave their class; a
watermark that has been reached frees its thread (R137, R147, R169, R340, R345, R348). -/
def Obligations.EnginesEndTheirCommands : Prop :=
  (∀ (s : State) (o : Op) (core i : Nat) (off soff : Word) (x : Tile), evOp s o → o.op = .fill core i off soff →
    (s.core core).tile? i = some x → let result := s.fill (o.who s.ev.idx) x.shape off soff
    (∀ ls sc fl s1, result = .ok (ls, sc, fl, s1) → Does .tileFillComplete s fun t =>
      OpGone t s.ev.idx ∧ (t.core core).tile? i = ((s1.core core).tile? i).bind (fun y => kept { y with st := .ready }) ∧
      t.mem = s1.mem) ∧
    (∀ e, result = .error e → e ≠ .hold → Does .tileFillComplete s fun t =>
      OpGone t s.ev.idx ∧ (t.core core).tile? i = kept { x with st := .empty, flt := true } ∧ t.mem = s.mem) ∧
    (result = .error .hold → Does .tileFillComplete s fun t => t = s)) ∧
  (∀ (s : State) (o : Op) (core i : Nat) (off : Word) (x : Tile), evOp s o → o.op = .drain core i off →
    (s.core core).tile? i = some x → let d := s.drainRows (o.who s.ev.idx) core i off
    (d.2 ≠ some .hold → Does .tileDrainComplete s fun t => Posts d.1 t s.ev.idx o core (some i) (d.2.map (·.trap (some i)))) ∧
    (d.2 = some .hold → Does .tileDrainComplete s fun t => t = s)) ∧
  (∀ (s : State) (o : Op), evOp s o →
    (∀ d r n l, o.op = .xcopy d r n l → let c := s.runCopy (o.who s.ev.idx) d r n
      (c.2.2 ≠ some .hold → Does .engineCommandDone s fun t => Posts c.1 t s.ev.idx o 0 none (c.2.2.map (·.trap none))) ∧
      (c.2.2 = some .hold → Does .engineCommandDone s fun t => t.mem = c.1.mem ∧
        t.op? s.ev.idx = some { o with op := .xcopy (d + word c.2.1) (r + word c.2.1) (n - c.2.1) l })) ∧
    (∀ core j i x, o.op = .tcopy core j i → (s.core core).tile? j = some x → j ≠ i →
      Does .engineCommandDone s fun t => OpGone t s.ev.idx ∧ (t.core core).tile? j = kept { x with st := .ready } ∧
        (t.core core).tile? i =
          ((s.core core).tile? i).bind fun y => kept { y with st := if y.stream.isSome then .empty else .ready }) ∧
    (∀ core i tr fl, o.op = .posting core (some i) tr fl → ¬onItsWay s o s.ev.idx →
      Does .tileDrainComplete s fun t => OpGone t s.ev.idx ∧ t.mem = s.mem ∧
        (t.core core).tile? i = ((s.core core).tile? i).bind (drainedTile tr.isSome)) ∧
    (∀ core tr fl, o.op = .posting core none tr fl → ¬onItsWay s o s.ev.idx →
      Does .engineCommandDone s fun t => OpGone t s.ev.idx ∧ t.mem = s.mem) ∧
    (∀ core r i x, o.op = .awl core r (some i) → (s.core core).tile? i = some x →
      Does .awlCommand s fun t => OpGone t s.ev.idx ∧ (t.core core).tile? i = kept { x with st := .ready }) ∧
    ∀ core r, o.op = .awl core r none → let result := s.xfMemory { o.who s.ev.idx with atHome := true } r
      (∀ s1, result = .ok s1 → Does .awlCommand s fun t => Posts s1 t s.ev.idx o 0 none none) ∧
      (∀ e, result = .error e → e ≠ .hold → Does .awlCommand s fun t => OpGone t s.ev.idx ∧ t.mem = s.mem) ∧
      (result = .error .hold → Does .awlCommand s fun t => t = s)) ∧
  (∀ s : State, let x := (s.core s.ev.core).stream s.ev.unit
    let slot := x.slots.getD (x.filled % (x.nsm + 1)) 0
    let who : Who := { tid := s.streamOwner s.ev.core s.ev.unit, mode := x.mode, root := x.root, last := x.last, id := s.nextOp }
    ∀ d, x.st = .run → (x.nwin = 0 ∨ x.filled < x.nwin) → (s.core s.ev.core).tile? slot = some d → d.st = .empty →
      d.rdrs = 0 → let result := s.fill who d.shape (x.step * word x.filled) (x.mstep * word x.filled)
      (∀ ls sc fl s1, result = .ok (ls, sc, fl, s1) →
        Does .streamFill s fun t => (t.core s.ev.core).stream s.ev.unit = { x with filled := x.filled + 1 } ∧
          (t.core s.ev.core).tile? slot = ((s1.core s.ev.core).tile? slot).bind fun y =>
            kept { y with st := .ready, flt := false }) ∧
      (∀ e, result = .error e → e ≠ .hold →
        Does .streamFill s fun t => (t.core s.ev.core).stream s.ev.unit = { x with st := .fault } ∧
          (t.core s.ev.core).tile? slot = kept { d with flt := true }) ∧
      (result = .error .hold → Does .streamFill s fun t => t = s)) ∧
  (∀ s : State, Does .batchComplete s fun t => ∀ c : Fin 4, (t.thread s.ev.tid).closed_ c =
    ((s.thread s.ev.tid).closed_ c).filter fun b => !b.complete) ∧
  ∀ (s : State) (pa : Nat) (b : Word), (s.thread s.ev.tid).wait = .monitor pa b →
    s.homeErr (dieOf s.ev.tid) true pa = none → b.toNat ≤ leNat (s.bytesOf s.ev.tid pa 8) →
    Does .watermarkPassed s fun t => (t.thread s.ev.tid).wait = .none ∧ SameMem s t

namespace Sys2Proof.Say

open Sys2Proof Sys2Proof.Machine

/-! Vector words (R105, R111, R113, R114, R135, R184 to R192, R296 to R319). -/

/-- Width of a destination. -/
def dstWidth : Dst → Nat
  | .reg _ w _ => w
  | .pair _ _ => 32
  | .msk _ => 1

/-- What a core's destination register, pair or mask holds for an element. -/
def dstEl (c : Core) (d : Dst) (e : El) : Nat :=
  match d with
  | .reg r w _ => elemOf (c.readReg e.bank r w) e.lane
  | .pair r _ => elemOf (c.readPair e.bank r) e.lane
  | .msk m => b2n ((c.maskRow e.bank m).getLsbD e.lane)

/-- A destination that a legal word names: a register at 1 to 16 planes, an even pair, a mask other than m0 (R114, R132,
R252). -/
def dstOk : Dst → Prop
  | .reg r w _ => r < 16 ∧ 1 ≤ w ∧ w ≤ 16
  | .pair r _ => r < 16 ∧ r % 2 = 0
  | .msk m => 1 ≤ m ∧ m < 8

/-- SE = 1 names a mask, and only words that write a register or a pair have it (R190). -/
def seOk (v : VWord) (d : Dst) : Prop := v.se = 1 → 1 ≤ v.ms.toNat ∧ ∀ m, d ≠ .msk m

/-- A vector word changes its core's registers, and what its convoy has come to; nothing else. -/
def CoreOnly (s t : State) : Prop :=
  ({ t with cores := s.cores, act := s.act } : State) = s ∧ ∀ c, c ≠ coreOf s.act.tid → t.core c = s.core c

/-- The banks that execute, and whether they trap or wait, are as before. -/
def Goes (s t : State) : Prop :=
  t.act.tid = s.act.tid ∧ t.act.banks = s.act.banks ∧ t.act.trap = s.act.trap ∧ t.act.stall = s.act.stall ∧
    t.act.snap = s.act.snap

/-- An elementwise word: every active element of the destination takes its result, every other keeps its value; the flags of
the active elements join the convoy's; with SE = 1 mask MS takes a 1 wherever a result saturated (R114, R187, R190). -/
def Each (s t : State) (v : VWord) (d : Dst) (f : El → Nat × BitVec 8) : Prop :=
  CoreOnly s t ∧ Goes s t ∧
  (∀ e ∈ s.els, dstEl t.vcore d e = if s.isOn v e then (f e).1 % 2 ^ dstWidth d else dstEl s.vcore d e) ∧
  t.act.fx.flags = (s.on v).foldl (fun a e => a ||| (f e).2) s.act.fx.flags ∧
  (v.se = 1 → ∀ e ∈ s.els, dstEl t.vcore (.msk v.ms.toNat) e =
    if s.isOn v e && (f e).2.getLsbD 0 then 1 else dstEl s.vcore (.msk v.ms.toNat) e)

/-- An elementwise result: the destination and the result of each element. -/
abbrev Ew := Dst × (El → Nat × BitVec 8)

/-- An integer word of A and B: how each is read, how the result is written (R297). -/
def two (s : State) (v : VWord) (sa sb sd wr : Bool) (f : Int → Int → Int) : Ew :=
  (.reg v.vd.toNat (s.wD v) sd, fun e =>
    let r := f (s.opA v sa e) (s.opB v sb e)
    if wr then (ofSigned (s.wD v) r, 0) else satTo sd (s.wD v) r)
/-- An integer word of A. -/
def one (s : State) (v : VWord) (sa sd wr : Bool) (f : Int → Int) : Ew :=
  (.reg v.vd.toNat (s.wD v) sd, fun e =>
    let r := f (s.opA v sa e)
    if wr then (ofSigned (s.wD v) r, 0) else satTo sd (s.wD v) r)
/-- A shift: the amount is B unsigned. -/
def sh (s : State) (v : VWord) (g : Bool) (f : Int → Nat → Int) : Ew :=
  (.reg v.vd.toNat (s.wD v) g, fun e =>
    let r := f (s.opA v g e) (s.bitsB v e)
    if v.fn.getLsbD 1 then (ofSigned (s.wD v) r, 0) else satTo g (s.wD v) r)
/-- A logic word: A and B extended to 16 bits. -/
def logic (s : State) (v : VWord) (f : Nat → Nat → Nat) : Ew :=
  let g := v.fn.getLsbD 0
  (.reg v.vd.toNat (s.wD v) g, fun e => (f (ofSigned 16 (s.opA v g e)) (ofSigned 16 (s.opB v g e)) % 2 ^ s.wD v, 0))

/-- The integer, logic, move, mask and cross-lane words whose results are elementwise (R302 to R311, R315, R317). -/
def intWord (s : State) : Instr → Option (VWord × Ew)
  | .vadd v => let g := v.fn.getLsbD 0; some (v, two s v g g g (v.fn.getLsbD 1) fun a b => a + b)
  | .vsub v => let g := v.fn.getLsbD 0; some (v, two s v g g g (v.fn.getLsbD 1) fun a b => a - b)
  | .vrsub v => let g := v.fn.getLsbD 0; some (v, two s v g g g (v.fn.getLsbD 1) fun a b => b - a)
  | .vabsd v => let g := v.fn.getLsbD 0; some (v, two s v g g g (v.fn.getLsbD 1) fun a b => ((a - b).natAbs : Int))
  | .vavg v => let g := v.fn.getLsbD 0; some (v, two s v g g g (v.fn.getLsbD 1) fun a b => (a + b + 1) / 2)
  | .vmin v => some (v, two s v true true true (v.fn.getLsbD 1) min)
  | .vmax v => some (v, two s v true true true (v.fn.getLsbD 1) max)
  | .vminu v => some (v, two s v false false false (v.fn.getLsbD 1) min)
  | .vmaxu v => some (v, two s v false false false (v.fn.getLsbD 1) max)
  | .vmul v => some (v, two s v (v.fn.getLsbD 0) (v.fn.getLsbD 1) (v.fn.getLsbD 0 || v.fn.getLsbD 1) (v.fn.getLsbD 2)
      fun a b => a * b)
  | .vmulh v => some (v, two s v (v.fn.getLsbD 0) (v.fn.getLsbD 1) (v.fn.getLsbD 0 || v.fn.getLsbD 1) (v.fn.getLsbD 2)
      fun a b => a * b / ((2 ^ (v.imm.toNat % 32) : Nat) : Int))
  | .vmac v =>
    let sd := v.fn.getLsbD 0 || v.fn.getLsbD 1
    some (v, .reg v.vd.toNat (s.wD v) sd, fun e =>
      let r := valOf sd (s.wD v) (s.regEl v.vd.toNat (s.wD v) e)
        + s.opA v (v.fn.getLsbD 0) e * s.opB v (v.fn.getLsbD 1) e
      if v.fn.getLsbD 2 then (ofSigned (s.wD v) r, 0) else satTo sd (s.wD v) r)
  | .vand v => some (v, logic s v fun a b => a &&& b)
  | .vor v => some (v, logic s v fun a b => a ||| b)
  | .vxor v => some (v, logic s v fun a b => a ^^^ b)
  | .vandn v => some (v, logic s v fun a b => a &&& (b ^^^ 0xFFFF))
  | .vnot v => let g := v.fn.getLsbD 0
    some (v, .reg v.vd.toNat (s.wD v) g, fun e => ((ofSigned 16 (s.opA v g e) ^^^ 0xFFFF) % 2 ^ s.wD v, 0))
  | .vsll v => some (v, sh s v (v.fn.getLsbD 0) fun a k => a * ((2 ^ k : Nat) : Int))
  | .vsrl v => some (v, sh s v false fun a k => a / ((2 ^ min k 16 : Nat) : Int))
  | .vsra v => some (v, sh s v true fun a k => a / ((2 ^ min k 16 : Nat) : Int))
  | .vshrr v => some (v, sh s v (v.fn.getLsbD 0) fun a k =>
      if k = 0 then a else (a + ((2 ^ (k - 1) : Nat) : Int)) / ((2 ^ k : Nat) : Int))
  | .vneg v => let g := v.fn.getLsbD 0; some (v, one s v g g (v.fn.getLsbD 1) fun a => -a)
  | .vabs v => let g := v.fn.getLsbD 0; some (v, one s v g g (v.fn.getLsbD 1) fun a => (a.natAbs : Int))
  | .vmov v => let g := v.fn.getLsbD 0; some (v, one s v g g (v.fn.getLsbD 1) fun a => a)
  | .vpopc v => some (v, one s v false false (v.fn.getLsbD 1) fun a => (popNat (s.wA v) a.toNat : Int))
  | .vclz v => some (v, one s v false false (v.fn.getLsbD 1) fun a => (clzNat (s.wA v) a.toNat : Int))
  | .vsext v => some (v, one s v true true (v.fn.getLsbD 1) fun a => a)
  | .vzext v => some (v, one s v false false (v.fn.getLsbD 1) fun a => a)
  | .vmovi v =>
    let g := v.fn.getLsbD 0
    let r := toSigned 15 v.imm.toNat
    some (v, .reg v.vd.toNat (s.wD v) g, fun _ =>
      if v.fn.getLsbD 1 then (ofSigned (s.wD v) r, 0) else satTo g (s.wD v) r)
  | .vmovg v =>
    let g := v.fn.getLsbD 0
    some (v, .reg v.vd.toNat (s.wD v) g, fun e =>
      if v.fn.getLsbD 1 then (ofSigned (s.wD v) (s.opB v g e), 0) else satTo g (s.wD v) (s.opB v g e))
  | .vsatw v =>
    let g := v.fn.getLsbD 0
    let n := v.imm.toNat % 16 + 1
    some (v, .reg v.vd.toNat (s.wD v) g, fun e =>
      (ofSigned (s.wD v) (valOf g n (satTo g n (s.opA v g e)).1), (satTo g n (s.opA v g e)).2))
  | .vrand v => some (v, .reg v.vd.toNat (s.wD v) false, fun e => ((s.drawOf e.i).toNat % 2 ^ s.wD v, 0))
  | .vsegd v => some (v, .pair v.vd.toNat false, fun e => ((s.vcore.segd e.bank v.va.toNat).toNat, 0))
  | .vcmp v =>
    let g := cmpSigned v.fn.toNat
    some (v, .msk (v.vd.toNat % 8), fun e => (b2n (cmpHolds v.fn.toNat (s.opA v g e) (s.opB v g e)), 0))
  | .mlog v => some (v, .msk (v.vd.toNat % 8), fun e =>
      (b2n (mlogOp v.fn.toNat (s.mskEl v.va.toNat e) (s.mskEl v.vb.toNat e)), 0))
  | .mset v => some (v, .msk (v.vd.toNat % 8), fun _ => (v.imm.toNat % 2, 0))
  | .vperm v => some (v, .reg v.vd.toNat (s.wD v) (s.srcSgn v), fun e =>
      (s.srcEl v (if v.fn.getLsbD 0 then s.pairEl v.vb.toNat e else s.regEl v.vb.toNat (s.wB v) e), 0))
  | .vslidedn v => some (v, .reg v.vd.toNat (s.wD v) (s.srcSgn v), fun e => (s.srcEl v (e.i + s.amount v), 0))
  | .vbcast v => some (v, .reg v.vd.toNat (s.wD v) (s.srcSgn v), fun _ => (s.srcEl v (s.amount v), 0))
  | .vramp v => some (v, .pair v.vd.toNat false, fun e => ((e.i + s.amount v) % 2 ^ 32, 0))
  | _ => none

/-- Format and rounding of an FP word, and its operands (R254). -/
def ff (v : VWord) : Fmt := fpFmt (v.fn.toNat % 4)
def fa (s : State) (v : VWord) (e : El) : Fv := (ff v).read (s.fpEl (v.fn.toNat % 4) v.va.toNat e)
def fb (s : State) (v : VWord) (e : El) : Fv := (ff v).read (s.fpB v (v.fn.toNat % 4) e)
def fd (v : VWord) : Dst := fpDst (v.fn.toNat % 4) v.vd.toNat
def fr (s : State) (v : VWord) (e : El) : Rm := s.rm (v.fn.toNat / 4) e.i

/-- The FP words, the conversions and VMXSC (R310, R313, R314, R371). -/
def fpWord (s : State) : Instr → Option (VWord × Ew)
  | .vfadd v => some (v, fd v, fun e => (ff v).add (fr s v e) (fa s v e) (fb s v e))
  | .vfsub v => some (v, fd v, fun e => (ff v).add (fr s v e) (fa s v e) (fb s v e).negate)
  | .vfmul v => some (v, fd v, fun e => (ff v).mul (fr s v e) (fa s v e) (fb s v e))
  | .vfma v => some (v, fd v, fun e => (ff v).fma (fr s v e) (fa s v e) (fb s v e)
      ((ff v).read (s.fpEl (v.fn.toNat % 4) v.vd.toNat e)))
  | .vfmin v => some (v, fd v, fun e =>
      (ff v).minmax false (s.fpEl (v.fn.toNat % 4) v.va.toNat e) (s.fpB v (v.fn.toNat % 4) e))
  | .vfmax v => some (v, fd v, fun e =>
      (ff v).minmax true (s.fpEl (v.fn.toNat % 4) v.va.toNat e) (s.fpB v (v.fn.toNat % 4) e))
  | .vfdiv v => some (v, fd v, fun e => (ff v).div (fr s v e) (fa s v e) (fb s v e))
  | .vfsqrt v => some (v, fd v, fun e => (ff v).sqrt (fr s v e) (fa s v e))
  | .vfrecip v => some (v, fd v, fun e => (ff v).div (fr s v e) (.fin false 1 0) (fa s v e))
  | .vfrsqrt v => some (v, fd v, fun e => (ff v).rsqrt (fr s v e) (fa s v e))
  | .vfexp2 v => some (v, fd v, fun e => (ff v).exp2 (fr s v e) (fa s v e))
  | .vfcmp v => some (v, .msk (v.vd.toNat % 8), fun e =>
      (b2n (fcmp (v.imm.toNat % 8) (fa s v e) (fb s v e)).1, (fcmp (v.imm.toNat % 8) (fa s v e) (fb s v e)).2))
  | .vfclass v => some (v, .reg v.vd.toNat 10 false, fun e =>
      (2 ^ (ff v).classOf (s.fpEl (v.fn.toNat % 4) v.va.toNat e), 0))
  | .vfscale v => some (v, fd v, fun e => (ff v).ofFv (fr s v e)
      ((fa s v e).scale (toSigned 16 (if v.so = 1 then (s.slot v).toNat else s.regEl v.vb.toNat 16 e))))
  | .vfsgn v => some (v, fd v, fun e =>
      let a := s.fpEl (v.fn.toNat % 4) v.va.toNat e
      let n := (ff v).width - 1
      let sb := bitOf (s.fpB v (v.fn.toNat % 4) e) n
      if ((ff v).read a).isNan then (ff v).nanR ((ff v).read a).isSig
      else (a % 2 ^ n + (ff v).sgn
        (if v.imm.toNat % 4 = 0 then sb else if v.imm.toNat % 4 = 1 then !sb else bitOf a n != sb), 0))
  | .vcvt v => some (v, s.cvtDst v, s.cvt v)
  | .vmxsc v => some (v, .pair v.vd.toNat false, fun e =>
      mxscEl (s.rmode (v.fn.toNat / 4)) ((s.drawOf e.i).toNat % 2 ^ 32) ((s.drawOf (s.lay.vl + e.i)).toNat % 2 ^ 32)
        (s.regEl v.vb.toNat 16 e) (s.regEl (v.imm.toNat % 16) 16 e) (toSigned 32 (s.pairEl v.va.toNat e))
        (if v.imm.getLsbD 4 then some (s.pairEl v.vd.toNat e) else none))
  | _ => none

/-- The words that reduce the active elements to element 0 of a destination: destination, value, flags (R306, R311, R316). -/
def reduceWord (s : State) : Instr → Option (VWord × Dst × Nat × BitVec 8)
  | .vdotr v =>
    let sd := v.fn.getLsbD 0 || v.fn.getLsbD 1
    let r := satTo sd 32 ((s.on v).foldl (fun n e => n + s.opA v (v.fn.getLsbD 0) e * s.opB v (v.fn.getLsbD 1) e) 0)
    some (v, .pair v.vd.toNat sd, r.1, r.2)
  | .mpop v => some (v, .pair v.vd.toNat false, ((s.on v).filter (s.mskEl v.va.toNat)).length, 0)
  | .mfirst v => some (v, .pair v.vd.toNat false,
      ((((s.on v).filter (s.mskEl v.va.toNat)).map El.i).head?).getD 0xFFFFFFFF, 0)
  | .vred v =>
    let g := redSigned v.fn.toNat
    let r := satTo g 32 ((s.on v).foldl (fun x e => redOp v.fn.toNat x (s.opA v g e)) (redIdent v.fn.toNat 32))
    some (v, .pair v.vd.toNat g, r.1, r.2)
  | .vfred v =>
    let xs := (s.on v).map (s.fpEl (v.fn.toNat % 4) v.va.toNat)
    let r := if v.imm.toNat % 4 = 0 then (ff v).sum (s.rm (v.fn.toNat / 4) 0) (xs.map (ff v).read)
      else (ff v).extreme (v.imm.toNat % 4 == 2) xs
    some (v, fd v, r.1, r.2)
  | _ => none

/-- Element 0 of a destination takes a value, every other element keeps its own; its flags join the convoy's, and with SE = 1
mask MS takes a 1 there if it saturated (R188, R306, R316). -/
def Element0 (s t : State) (v : VWord) (d : Dst) (x : Nat) (fl : BitVec 8) : Prop :=
  CoreOnly s t ∧ Goes s t ∧ dstEl t.vcore d (s.lay.el 0) = x % 2 ^ dstWidth d ∧
    (∀ e ∈ s.els, e ≠ s.lay.el 0 → dstEl t.vcore d e = dstEl s.vcore d e) ∧
    t.act.fx.flags = s.act.fx.flags ||| fl ∧
    (v.se = 1 → ∀ e ∈ s.els, dstEl t.vcore (.msk v.ms.toNat) e =
      if e = s.lay.el 0 ∧ fl.getLsbD 0 then 1 else dstEl s.vcore (.msk v.ms.toNat) e)

/-- VANY and VALL: the condition bit and its value. -/
def postWord (s : State) : Instr → Option (Nat × Bool)
  | .vany v => some (v.imm.toNat % 32, (s.on v).any (s.mskEl v.va.toNat))
  | .vall v => some (v.imm.toNat % 32, (s.on v).all (s.mskEl v.va.toNat))
  | _ => none

/-- The element number in ffst, as the convoy's earlier words leave it. -/
def ffstIdx (s : State) : Nat := ((s.act.fx.ffst.getD (s.thread s.act.tid).csr.ffst).extractLsb' 0 32).toNat

/-- VTRIM and VSETVLB: the new vl, and what they post (R312). -/
def vlWord (s : State) : Instr → Option (Nat × List (Nat × Bool))
  | .vtrim _ => some (min s.act.snap.vl.toNat (ffstIdx s), [(25, decide (ffstIdx s < s.act.snap.vl.toNat))])
  | .vsetvlb v => some (min (if v.so = 1 then (s.slot v).toNat else s.regEl v.va.toNat (s.wA v) ⟨s.lay.first, 0, 0⟩)
      (min (s.vcore.mvl s.act.snap.vctx) (s.thread s.act.tid).vlc.toNat), [])
  | _ => none

/-- VCOMPACT and VNZSCAN: the word, where the list goes, and the list (R318). -/
def listWord (s : State) : Instr → Option (VWord × Dst × List Nat)
  | .vcompact v => some (v, .reg v.vd.toNat (s.wD v) (s.srcSgn v), (s.on v).map fun e => s.srcEl v e.i)
  | .vnzscan v => some (v, .pair v.vd.toNat false,
      ((s.on v).filter fun e => s.regEl v.va.toNat (s.wA v) e ≠ 0).map El.i)
  | _ => none

/-- A destination does not overlap the pair at register `r`. -/
def apart (r : Nat) : Dst → Prop
  | .reg x _ _ => x / 2 ≠ r / 2
  | .pair x _ => x ≠ r
  | .msk _ => True

/-- The words that change nothing. -/
def idleWord : Instr → Prop
  | .vbar _ | .vnop _ | .vpref _ => True
  | _ => False

/-! Vector memory words (R118, R167, R320 to R330). -/

/-- The loads, with their addressing. -/
def loadForm : Instr → Option (Addr × VWord)
  | .vld v => some (.unit, v)
  | .vlds v => some (.strided, v)
  | .vldx v => some (.indexed, v)
  | .vldseg v => some (.segment, v)
  | _ => none
/-- The stores. -/
def storeForm : Instr → Option (Addr × VWord)
  | .vst v => some (.unit, v)
  | .vsts v => some (.strided, v)
  | .vstx v => some (.indexed, v)
  | .vstseg v => some (.segment, v)
  | _ => none
/-- The atomics on memory: the word, and whether it is an FP one. -/
def atomForm : Instr → Option (VWord × Bool)
  | .vamo v => some (v, false)
  | .vamof v => some (v, true)
  | _ => none

/-- What a load writes from the bytes as its core sees them: packed bits and pairs unchanged, other values saturated to wd
(R320). -/
def loaded (s : State) (v : VWord) (x : Acc × List Nat) : Nat :=
  let n := leNat (x.2.map (s.viewByte (coreOf s.act.tid)))
  if v.fn.toNat % 4 = 3 then n / 2 ^ x.1.off % 2 ^ s.wD v
  else if v.fn.getLsbD 3 then n
  else (satTo (v.fn.getLsbD 2) (s.wD v) (valOf (v.fn.getLsbD 2) (8 * 2 ^ (v.fn.toNat % 4)) n)).1

/-- The accesses of a word reach memory. -/
def reached (s : State) (need : Need) (al : Bool) (as : List Acc) (xs : List (Acc × List Nat)) : Prop :=
  s.reachAll need al as = .ok xs

/-- The first fault that the homes of a word's accesses have for it. -/
def homeFault (s : State) (rd : Bool) (xs : List (Acc × List Nat)) : Option VFault := xs.findSome? fun x => s.homeBad rd x.1 x.2

/-- The registers of a load's fields are legal destinations. -/
def loadDstOk (s : State) (k : Addr) (v : VWord) : Prop :=
  s.act.banks.Nodup ∧ ∀ f, f < nfOf k v → dstOk (s.loadDst v f) ∧ seOk v (s.loadDst v f)

/-- The accesses have been written to the registers of their fields, and elements without an access keep their values. -/
def LoadWrote (s t : State) (k : Addr) (v : VWord) (xs : List (Acc × List Nat)) : Prop :=
  ∀ f, f < nfOf k v →
    (∀ x ∈ xs, x.1.f = f →
      dstEl t.vcore (s.loadDst v f) x.1.el = loaded s v x % 2 ^ dstWidth (s.loadDst v f)) ∧
    ∀ e ∈ s.els, (∀ x ∈ xs, x.1.el ≠ e) → dstEl t.vcore (s.loadDst v f) e = dstEl s.vcore (s.loadDst v f) e

/-- A load has performed: its registers written, no thread and no byte of memory changed. -/
def Loads (s t : State) (k : Addr) (v : VWord) (xs : List (Acc × List Nat)) : Prop :=
  SameMem s t ∧ t.threads = s.threads ∧ Goes s t ∧ (loadDstOk s k v → LoadWrote s t k v xs)

/-- Nothing of a word's accesses has performed before, and nothing stands before them. -/
def fresh (s : State) (xs : List (Acc × List Nat)) : Prop :=
  (∀ x ∈ xs, s.loaded? x.1 = none ∧ ∀ k, k < 2 → (s.thread s.act.tid).done.lookup (partKey x.1 k) = none) ∧
    s.loadWaits xs = false

/-- The word raises VECTOR_ACCESS with its element in ffst; its convoy leaves nothing (R125, R323). -/
def AccessTrap (s t : State) (f : VFault) : Prop :=
  t.act.trap = some { cause := 25, tval := f.va, info := word (f.code + 2 ^ 8 * (s.act.addr.toNat % 2 ^ 48) + f.home) } ∧
    t.act.fx.ffst = some (BitVec.ofNat 40 (f.i % 2 ^ 32 + 2 ^ 32 * f.code)) ∧ t.mem = s.mem ∧ t.cores = s.cores

/-- The number under which the executing word's elements perform: after its own convoy, or for a diverged bank after those
before the divergence. -/
def needOf (s : State) : Nat := if s.act.still then s.act.n else s.act.n + 1

/-- The pages that elements pin (R151). -/
def pinsFor (s : State) (es : List Elem) : List VPage :=
  (es.flatMap fun e => s.vpages s.vmode s.vroot e.va e.pas.length).eraseDups

/-- The held word that elements of a convoy make. -/
def newHeld (s : State) (v : VWord) (atomic vamof : Bool) (es : List Elem) : Held :=
  { id := s.nextOp, need := needOf s, addr := s.act.addr, ord := v.imm.getLsbD 14, ovt := v.imm.getLsbD 13
    scope := v.imm.extractLsb' 8 3, atomic, elems := es, ntf := v.imm.getLsbD 7, vamof
    last := v.imm.getLsbD 12 && !v.imm.getLsbD 11, asid := (s.thread s.act.tid).csr.vasid, mode := s.vmode
    pins := pinsFor s es }

/-- The elements of a store or an atomic have joined the held words: those of the same convoy on other banks, or a word of
their own in convoy order (R118). -/
def JoinsHeld (s t : State) (v : VWord) (atomic vamof : Bool) (es : List Elem) : Prop :=
  let old := (s.thread s.act.tid).held
  (t.thread s.act.tid).held =
    if es = [] then old
    else match old.find? fun x => !s.act.still && x.need == needOf s && x.addr == s.act.addr with
      | some h => old.map fun x => if x.id = h.id then { x.join es with pins := (x.pins ++ pinsFor s es).eraseDups } else x
      | none => placeHeld old (newHeld s v atomic vamof es)

/-- The element of an atomic, held until it performs. -/
def atomElem (s : State) (v : VWord) (fp : Bool) (x : Acc × List Nat) : Elem :=
  { idx := x.1.el.i, va := x.1.va, pas := x.2, mask := [], bytes := leBytes x.1.n (s.atomData v fp x.1.el)
    op := some ((Atom.of v fp).op, (Atom.of v fp).kind) }

/-- The locations of a RET word are apart, each within a line that no unit watches, and its elements are distinct. -/
def atomsApart (s : State) (xs : List (Acc × List Nat)) : Prop :=
  xs.Pairwise (fun x y => overlaps (x.2.headD 0) x.1.n (y.2.headD 0) y.1.n = false) ∧ (xs.map (·.1.el.i)).Nodup ∧
    ∀ x ∈ xs, plainLine s (x.2.headD 0) ∧ x.2.headD 0 % 64 + x.1.n ≤ 64 ∧ s.atomWaits x.2 = false

/-- The words that VWAITN waits for, and their bounds. -/
def waitAccs (s : State) (v : VWord) : List Acc := (s.on v).map fun e => { el := e, va := s.slot v + word (8 * e.i), n := 8 }
def waitWords (s : State) (v : VWord) (xs : List (Acc × List Nat)) : List (Nat × Word) :=
  xs.map fun x => (x.2.headD 0,
    word (if v.fn.getLsbD 3 then s.pairEl v.va.toNat x.1.el else s.regEl v.va.toNat (s.wA v) x.1.el))

/-- Element `k` of held word `j` of thread `s.ev.tid`, ready to perform. -/
def heldElem (s : State) (h : Held) (e : Elem) : Prop :=
  (s.thread s.ev.tid).held[s.ev.unit]? = some h ∧ h.elems[s.ev.idx]? = some e ∧
    s.elemReady s.ev.tid s.ev.unit s.ev.idx = true

/-! Words on tiles, accumulators, sequences and index tables (R328, R369, R370, R402 to R405). -/

/-- The accumulator words of the active elements exist, belong to the task and are not being written or zeroed. -/
def accFree (s : State) (v : VWord) : Prop :=
  (s.lay.vl ≠ 0 → Fld (s.slot v) 63 17 = 0) ∧
  (∀ e ∈ s.on v, Fld (s.slot v) 16 0 + e.i < 131072 ∧
    s.accForeign (Fld (s.slot v) 16 0 + e.i) = false) ∧
  s.rowsBusy (coreOf s.act.tid) (((s.on v).map (s.accAt v)).map (· / 512)).eraseDups = false ∧
  (((s.on v).map (s.accAt v)).map (· / 8192)).eraseDups.any s.vcore.zeroing.contains = false

/-- VACCWR and VACCZ: the word and what an element writes. -/
def accWord? (s : State) : Instr → Option (VWord × (El → BitVec 32))
  | .vaccwr v => some (v, fun e => BitVec.ofNat 32 (s.pairEl v.va.toNat e))
  | .vaccz v => some (v, fun _ => 0)
  | _ => none

/-- The handle in slot GS names a READY tile that fits the context, with no trap due that names it. -/
def tileReady (s : State) (v : VWord) (i : Nat) (x : Tile) : Prop :=
  (s.thread s.act.tid).handle (Fld (s.slot v) 4 0) = some i ∧ s.traps? i = false ∧ s.vcore.tile? i = some x ∧
    x.st = .ready

/-- The layer that slot GS names: planes and first row. -/
def layerIs (s : State) (v : VWord) (x : Tile) (w r : Nat) : Prop :=
  Fld (s.slot v) 63 14 = 0 ∧ x.fbank = s.lay.first ∧ x.shape.lgbk = ctxLgn s.act.snap.vctx ∧
    x.layer ((s.slot v).getLsbD 13) (Fld (s.slot v) 12 5) = (w, r, true)

/-- Reads that a word makes at their homes can be made now. -/
def readsGo (s : State) (v : VWord) (rs : List (Nat × Nat)) : Prop :=
  s.unitFails (s.firstOn v) (s.slot v) rs = none ∧ s.unitWaits rs = false

/-- The object in slot GS lies in memory at `d`, its first `n` bytes readable now. -/
def objectAt (s : State) (v : VWord) (n d : Nat) : Prop :=
  (s.slot v).toNat % 256 = 0 ∧
    (∃ x, s.reach .read false (objAcc (s.firstOn v) (s.slot v) 1) = .ok x ∧ x.2.headD 0 = d) ∧ readsGo s v [(d, n)]

/-- The blocks that a word's elements name in a sequence's table: positions and packed indices alike (R403). -/
def namedBlocks (s : State) (v : VWord) (q : Sq) : List Nat :=
  ((s.on v).map fun e => s.pairEl v.va.toNat e / 64).eraseDups.filter fun b => decide (b < q.btcap)

/-- The buckets that VIXHASH computes: the active elements below D, 0 for any other; all 0 for a non-finite one (R404). -/
def bucketsOf (s : State) (v : VWord) (f : Fam) : List Nat × Bool :=
  let ins := (s.on v).filter fun e => decide (e.i < f.d)
  let nan := ins.any fun e => (s.hashIn v e).isNone
  (f.hashes (if nan then none else some ((List.range f.d).map fun j =>
    match ins.find? (·.i == j) with | some e => (s.hashIn v e).getD (0, 0) | none => (0, 0))), nan)

/-- A probe comes to its result or to a fault of the unit. -/
def settles : ProbeOut → Prop
  | .done .. | .fault .. => True
  | _ => False

/-- VSQMAP and VSQPOS: the word and the value of an element through the block table of `q` (R403). -/
def sqWord? (s : State) : Instr → Option (VWord × (Sq → Nat → Nat))
  | .vsqmap v => some (v, s.sqMap)
  | .vsqpos v => some (v, s.sqPos)
  | _ => none

end Sys2Proof.Say

/-- The integer, logic, shift, move, mask, FP and conversion words, VRAND, VRAMP, VPERM, the slides down and the broadcasts, and
VMXSC: each active element of the destination takes the result the table gives, and the others keep their values; flags join
the convoy's; MS records saturation; no other core, no memory and no thread changes (R114, R187, R190, R297, R302 to R317,
R371). -/
def Obligations.ElementwiseWordsWriteTheirResults : Prop :=
  (∀ (i : Instr) (v : VWord) (d : Dst) (f : El → Nat × BitVec 8) (s : State), intWord s i = some (v, d, f) → dstOk d →
    seOk v d → Does i s fun t => Each s t v d f) ∧
  ∀ (i : Instr) (v : VWord) (d : Dst) (f : El → Nat × BitVec 8) (s : State), fpWord s i = some (v, d, f) → dstOk d →
    seOk v d → Does i s fun t => Each s t v d f

/-- Reductions write element 0 with their result and its flags, and nothing at vl = 0; VANY and VALL post their bit; VTRIM and
VSETVLB set vl for the rest of the block, and VTRIM posts whether it fell; VCOMPACT and VNZSCAN write their list to the first
elements, and its length; VSEL takes A where active and B elsewhere; VPACK leaves its register packed, with A where active and
the old values elsewhere; VSLIDEUP moves elements up; VSCAN and VPFXPOP combine the active elements before each, and leave the
others; VBAR, VNOP and VPREF change nothing. Completes: vdotr, mpop, mfirst, vred, vfred, vany, vall, vtrim, vsetvlb, vcompact,
vnzscan, vsel, vpack, vslideup, vscan, vpfxpop, vbar, vnop, vpref (R188, R305, R306, R309, R311, R312, R315 to R319, R330).
That VFRED with SE = 1 keeps a saturation record is the model's choice (log entry 117). -/
def Obligations.ReductionsScansAndLists : Prop :=
  (∀ (i : Instr) (v : VWord) (d : Dst) (x : Nat) (fl : BitVec 8) (s : State), reduceWord s i = some (v, d, x, fl) →
    dstOk d → seOk v d →
    (s.act.snap.vl = 0 → Does i s fun t => t = s) ∧
    (s.act.snap.vl ≠ 0 → s.lay.first ∈ s.act.banks → Does i s fun t => Element0 s t v d x fl)) ∧
  (∀ (i : Instr) (k : Nat) (b : Bool) (s : State), postWord s i = some (k, b) → Does i s fun t =>
    ({ t with act := s.act } : State) = s ∧ Goes s t ∧ t.act.fx.posts = s.act.fx.posts ++ [(k, b)]) ∧
  (∀ (i : Instr) (n : Nat) (l : List (Nat × Bool)) (s : State), vlWord s i = some (n, l) → Does i s fun t =>
    ({ t with act := s.act } : State) = s ∧ t.act.snap.vl = BitVec.ofNat 18 n ∧ t.act.fx.vl = some (BitVec.ofNat 18 n) ∧
      t.act.fx.posts = s.act.fx.posts ++ l ∧ t.act.trap = s.act.trap ∧ t.act.banks = t.lay.busy) ∧
  (∀ (i : Instr) (v : VWord) (d : Dst) (xs : List Nat) (s : State), listWord s i = some (v, d, xs) → dstOk d →
    v.vb.toNat % 2 = 0 → apart v.vb.toNat d →
    (s.act.snap.vl = 0 → Does i s fun t => t = s) ∧
    (s.act.snap.vl ≠ 0 → s.lay.e ≠ 0 → s.lay.first ∈ s.act.banks → (∀ k, k < xs.length → (s.lay.el k).bank ∈ s.act.banks) →
      Does i s fun t => CoreOnly s t ∧ Goes s t ∧
        dstEl t.vcore (.pair v.vb.toNat false) (s.lay.el 0) = xs.length % 2 ^ 32 ∧
        (∀ k, k < xs.length → dstEl t.vcore d (s.lay.el k) = xs.getD k 0 % 2 ^ dstWidth d) ∧
        ∀ e ∈ s.els, xs.length ≤ e.i → dstEl t.vcore d e = dstEl s.vcore d e)) ∧
  (∀ (v : VWord) (s : State), let g := v.fn.getLsbD 0
    let d : Dst := .reg v.vd.toNat (s.wD v) g
    let r (e : El) : Int := if s.isOn v e then s.opA v g e else s.opB v g e
    seOk v d → Does (.vsel v) s fun t => CoreOnly s t ∧ Goes s t ∧
      ∀ e ∈ s.els, dstEl t.vcore d e = if v.fn.getLsbD 1 then ofSigned (s.wD v) (r e) else (satTo g (s.wD v) (r e)).1) ∧
  (∀ (v : VWord) (s : State), let g := v.fn.getLsbD 0
    let d : Dst := .reg v.vd.toNat (s.wD v) g
    seOk v d → Does (.vpack v) s fun t => CoreOnly s t ∧ Goes s t ∧
      (∀ b ∈ s.act.banks, s.lay.count b ≠ 0 → segPk (t.vcore.segd b v.vd.toNat) = true ∧
        segSgn (t.vcore.segd b v.vd.toNat) = g ∧ segWidth (t.vcore.segd b v.vd.toNat) = s.wD v) ∧
      ∀ e ∈ s.els, e.lane < s.vcore.usable e.bank → dstEl t.vcore d e =
        if s.isOn v e then
          (if v.fn.getLsbD 1 then ofSigned (s.wD v) (s.opA v g e) else (satTo g (s.wD v) (s.opA v g e)).1)
        else dstEl s.vcore d e) ∧
  (∀ (v : VWord) (s : State), let d : Dst := .reg v.vd.toNat (s.wD v) (s.srcSgn v)
    Does (.vslideup v) s fun t => CoreOnly s t ∧ Goes s t ∧ ∀ e ∈ s.els, dstEl t.vcore d e =
      if s.isOn v e ∧ s.amount v ≤ e.i then s.srcEl v (e.i - s.amount v) % 2 ^ s.wD v else dstEl s.vcore d e) ∧
  (∀ (v : VWord) (s : State), s.act.banks.Nodup → let g := redSigned v.fn.toNat
    let d : Dst := .reg v.vd.toNat (s.wD v) g
    seOk v d → Does (.vscan v) s fun t => CoreOnly s t ∧ Goes s t ∧
      (∀ e ∈ s.els, s.isOn v e = false → dstEl t.vcore d e = dstEl s.vcore d e) ∧
      ∀ l1 l2 e, s.on v = l1 ++ e :: l2 →
        let xs := l1.map (s.opA v g)
        let all := match xs ++ [s.opA v g e] with | x :: r => r.foldl (redOp v.fn.toNat) x | [] => 0
        let before := match xs with | x :: r => r.foldl (redOp v.fn.toNat) x | [] => redIdent v.fn.toNat (s.wD v)
        dstEl t.vcore d e =
          if v.imm.toNat % 2 = 1 then (if xs = [] then ofSigned (s.wD v) before else (satTo g (s.wD v) before).1)
          else (satTo g (s.wD v) all).1) ∧
  (∀ (v : VWord) (s : State), s.act.banks.Nodup → v.vd.toNat % 2 = 0 → let d : Dst := .pair v.vd.toNat false
    Does (.vpfxpop v) s fun t => CoreOnly s t ∧ Goes s t ∧
      (∀ e ∈ s.els, s.isOn v e = false → dstEl t.vcore d e = dstEl s.vcore d e) ∧
      ∀ l1 l2 e, s.on v = l1 ++ e :: l2 → dstEl t.vcore d e = (l1.filter (s.mskEl v.va.toNat)).length % 2 ^ 32) ∧
  ∀ (i : Instr) (s : State), idleWord i → Does i s fun t => t = s

/-- A load whose accesses reach memory writes what its core sees there to its active elements, field by field, and leaves the
others; that some of its accesses may perform before the others, while the word waits, is the model's choice (log entry 5). A
word whose access faults raises VECTOR_ACCESS and writes nothing; VLDFF keeps the elements before the fault and names
it in ffst. A store or an atomic without RET joins the held words and changes no memory yet; one with RET performs and writes
the old values. A held store becomes visible to its core, fragment by fragment, and a held atomic performs at its home; one
that its home refuses raises VECTOR_ACCESS as the lowest that has not performed; a progress word takes the maximum; the flags of a
VAMOF merge last. VWAITN arms its words as far as monitors are free, waits, and goes on when all have reached their bounds.
Completes: vld, vlds, vldx, vldseg, vldff, vst, vsts, vstx, vstseg, vamo, vamof, vwaitn, heldStorePerform, notifyUpdate,
vamofFlagMerge (R118, R125, R151, R167, R188, R320 to R327, R329). -/
def Obligations.VectorMemoryWords : Prop :=
  (∀ (i : Instr) (k : Addr) (v : VWord) (s : State), loadForm i = some (k, v) →
    (∀ xs, reached s .read false (s.accs k v) xs → fresh s xs →
      (homeFault s true xs = none →
        (s.act.only = none → Does i s fun t => Loads s t k v xs) ∧
        ∀ which, s.act.only = some which → Does i s fun t => t.act.stall = true ∧ t.mem = s.mem ∧ t.cores = s.cores) ∧
      ∀ f, homeFault s true xs = some f → Does i s fun t => AccessTrap s t f) ∧
    ∀ f, s.reachAll .read false (s.accs k v) = .error f → f.code ≠ 0 → Does i s fun t => AccessTrap s t f) ∧
  (∀ (v : VWord) (s : State) (xs : List (Acc × List Nat)) (bad : Option VFault),
    s.untilFault (s.accs .unit v) = (xs, bad) → fresh s xs →
    (bad = none → Does (.vldff v) s fun t => Loads s t .unit v xs ∧ t.act.fx.ffst = some 0x00FFFFFFFF) ∧
    ∀ f, bad = some f → f.code ≠ 0 →
      (xs = [] → Does (.vldff v) s fun t => AccessTrap s t f) ∧
      (xs ≠ [] → Does (.vldff v) s fun t => Loads s t .unit v xs ∧
        t.act.fx.ffst = some (BitVec.ofNat 40 (f.i % 2 ^ 32 + 2 ^ 32 * f.code)))) ∧
  (∀ (i : Instr) (k : Addr) (v : VWord) (s : State), storeForm i = some (k, v) →
    (∀ n xs, s.progressWord v = .ok n → reached s .write false (s.accs k v) xs → Does i s fun t => t.mem = s.mem ∧ Goes s t ∧
      JoinsHeld s t v false false ((xs.map (s.storeElem v)).flatMap Elem.fragments) ∧ (n ≠ none → t.act.fx.ntf = n)) ∧
    (∀ f, s.progressWord v = .error f → f.code ≠ 0 → Does i s fun t => AccessTrap s t f) ∧
    ∀ n f, s.progressWord v = .ok n → s.reachHeld false (·.accs k v) = .error f → f.code ≠ 0 →
      Does i s fun t => AccessTrap s t f) ∧
  (∀ (i : Instr) (v : VWord) (fp : Bool) (s : State), atomForm i = some (v, fp) →
    (∀ n xs, s.progressWord v = .ok n → reached s .write true (s.atomAccs v) xs →
      (v.fn.getLsbD 2 = false → Does i s fun t => t.mem = s.mem ∧ Goes s t ∧
        JoinsHeld s t v true fp (xs.map (atomElem s v fp)) ∧ (n ≠ none → t.act.fx.ntf = n)) ∧
      (v.fn.getLsbD 2 = true → atomsApart s xs → homeFault s true xs = none → (s.thread s.act.tid).done = [] →
        s.lagging = false →
        let d := s.atomDst v fp
        dstOk d → seOk v d → s.act.banks.Nodup → Does i s fun t => Goes s t ∧ (n ≠ none → t.act.fx.ntf = n) ∧
          (∀ x ∈ xs, let old := s.homeNum (x.2.headD 0) x.1.n
            t.homeNum (x.2.headD 0) x.1.n =
              (atomRun (Atom.of v fp).op (Atom.of v fp).kind x.1.n old (s.atomData v fp x.1.el)).1 % 2 ^ (8 * x.1.n) ∧
            dstEl t.vcore d x.1.el = (s.atomOld v fp old).1 % 2 ^ dstWidth d) ∧
          (∀ e ∈ s.els, s.isOn v e = false → dstEl t.vcore d e = dstEl s.vcore d e) ∧
          ∀ a, (∀ x ∈ xs, a < x.2.headD 0 ∨ x.2.headD 0 + x.1.n ≤ a) → Memory.read t.mem a = Memory.read s.mem a)) ∧
    (∀ f, s.progressWord v = .error f → f.code ≠ 0 → Does i s fun t => AccessTrap s t f) ∧
    ∀ n f, s.progressWord v = .ok n → s.reachHeld true (·.atomAccs v) = .error f → f.code ≠ 0 →
      Does i s fun t => AccessTrap s t f) ∧
  (∀ (s : State) (h : Held) (e : Elem), heldElem s h e → let th := s.thread s.ev.tid
    (s.elemBad s.ev.tid h.atomic e.pas = none →
      (e.op = none → Does .heldStorePerform s fun t => t.mem = s.mem ∧
        (t.core (coreOf s.ev.tid)).buf = (s.core (coreOf s.ev.tid)).buf ++
          [{ tid := s.ev.tid, addr := e.pas.headD 0, bytes := e.bytes, mask := e.mask, last := h.last
             org := { word := h.id, hold := !h.ovt, va := e.va, idx := e.idx, addr := h.addr } }] ∧
        (t.thread s.ev.tid).held = putHeld th.held s.ev.unit (h.after s.ev.idx 0)) ∧
      ∀ op kind, e.op = some (op, kind) → let pa := e.pas.headD 0
        let n := e.bytes.length
        let r := atomRun op kind n (s.homeNum pa n) (leNat e.bytes)
        plainLine s pa → pa % 64 + n ≤ 64 → Does .heldStorePerform s fun t =>
          t.homeNum pa n = r.1 % 2 ^ (8 * n) ∧ MemOutside s t pa n ∧
          (t.thread s.ev.tid).held = putHeld th.held s.ev.unit (h.after s.ev.idx r.2)) ∧
    ∀ bad, s.elemBad s.ev.tid h.atomic e.pas = some bad → th.present = true → th.convTrap = none → th.frozen = false →
      (∀ x ∈ h.elems, e.idx ≤ x.idx) → Does .heldStorePerform s fun t => SameMem s t ∧ (t.thread s.ev.tid).held = th.held ∧
        (t.thread s.ev.tid).convTrap =
          some { cause := 25, tval := e.va, info := word (bad + 2 ^ 61 + 2 ^ 8 * (h.addr.toNat % 2 ^ 48)) }) ∧
  (∀ (s : State) (n : Notify) (rest : List Notify), (s.thread s.ev.tid).notifies = n :: rest →
    s.notifyReady s.ev.tid n = true → s.elemBad s.ev.tid true [n.word] = none → n.word % 64 + 8 ≤ 64 → plainLine s n.word →
    Does .notifyUpdate s fun t => t.homeNum n.word 8 = max (s.homeNum n.word 8) n.count.toNat ∧ MemOutside s t n.word 8 ∧
      (t.thread s.ev.tid).notifies = rest) ∧
  (∀ (s : State) (h : Held), (s.thread s.ev.tid).held[s.ev.unit]? = some h → h.vamof = true → h.elems = [] →
    Does .vamofFlagMerge s fun t => let th := s.thread s.ev.tid
      (t.thread s.ev.tid).csr.vxstat = th.csr.vxstat ||| h.flags ∧ (t.thread s.ev.tid).held = th.held.eraseIdx s.ev.unit ∧
      (h.flags.getLsbD 0 = true → (t.thread s.ev.tid).csr.cb.getLsbD 26 = true) ∧
      (h.flags.getLsbD 6 = true → (t.thread s.ev.tid).csr.cb.getLsbD 27 = true) ∧ t.mem = s.mem) ∧
  ∀ (v : VWord) (s : State),
    (∀ xs, reached s .read true (waitAccs s v) xs → (∀ x ∈ xs, s.loaded? x.1 = none) →
      (homeFault s true xs = none → let th := s.thread s.act.tid
        let free := 256 - s.monitorsUsed (coreOf s.act.tid)
        (th.armed = none → 0 < free ∨ xs = [] → Does (.vwaitn v) s fun t => t.act.stall = true ∧ t.mem = s.mem ∧
          (t.thread s.act.tid).armed =
            some ((match xs[free]? with | some x => x.1.el.i | none => 0xFFFFFFFF), (waitWords s v xs).take free)) ∧
        (th.armed = none → free = 0 → xs ≠ [] → Does (.vwaitn v) s fun t => t.act.stall = true ∧ t.threads = s.threads) ∧
        ∀ i ws, th.armed = some (i, ws) → let met := ∀ p ∈ ws, p.2.toNat ≤ s.viewNum (coreOf s.act.tid) p.1 8
          (met → Does (.vwaitn v) s fun t => (t.thread s.act.tid).armed = none ∧ t.mem = s.mem ∧
            t.act.stall = s.act.stall ∧ t.act.fx.ffst = some (BitVec.ofNat 40 (i % 2 ^ 32))) ∧
          (¬met → Does (.vwaitn v) s fun t => t.act.stall = true ∧ t.threads = s.threads)) ∧
      ∀ f x rest, homeFault s true xs = some f →
        (xs.filter fun x => !((s.homeBad true x.1 x.2).isNone && s.waitMet v x)) = x :: rest →
        Does (.vwaitn v) s fun t => AccessTrap s t { f with i := x.1.el.i }) ∧
    ∀ f, s.reachAll .read true (waitAccs s v) = .error f → f.code ≠ 0 → Does (.vwaitn v) s fun t => AccessTrap s t f

/-- VACCRD reads and VACCWR and VACCZ write the accumulator words w0 + i of the active elements; VLDT reads and VSTT writes the
planes of a tile's layer; VAMO to a tile updates its elements in ascending order; VSQMAP and VSQPOS map elements through a LIVE
sequence and trap otherwise; VIXHASH writes the buckets to elements 0 to L - 1; VIXPROBE writes each probe's list and count, and
traps with INDEX_FAULT at the first element whose probe faults (R326, R328, R369, R370, R402 to R405). Completes: vaccrd,
vaccwr, vaccz, vldt, vstt, vamoTile, vsqmap, vsqpos, vixhash, vixprobe.
That the cause recorded beside the first-fault index of VIXPROBE is 0 is the model's choice (log entry 46). -/
def Obligations.WordsOnSideUnits : Prop :=
  (∀ (v : VWord) (s : State), accFree s v → v.vd.toNat % 2 = 0 →
    Does (.vaccrd v) s fun t => CoreOnly s t ∧ Goes s t ∧ ∀ e ∈ s.els, dstEl t.vcore (.pair v.vd.toNat true) e =
      if s.isOn v e then (s.vcore.accWord (Fld (s.slot v) 16 0 + e.i)).toNat
      else dstEl s.vcore (.pair v.vd.toNat true) e) ∧
  (∀ (i : Instr) (v : VWord) (f : El → BitVec 32) (s : State), accWord? s i = some (v, f) → accFree s v →
    ((s.on v).map (·.i)).Nodup → Does i s fun t => CoreOnly s t ∧ Goes s t ∧
      (∀ e ∈ s.on v, t.vcore.accWord (Fld (s.slot v) 16 0 + e.i) = f e ∧
        Tab.get none t.vcore.accOwner ((Fld (s.slot v) 16 0 + e.i) / 8192) = some (s.thread s.act.tid).gang) ∧
      ∀ w, (∀ e ∈ s.on v, w ≠ Fld (s.slot v) 16 0 + e.i) → t.vcore.accWord w = s.vcore.accWord w) ∧
  (∀ (v : VWord) (s : State) (i : Nat) (x : Tile), s.act.snap.vl ≠ 0 → tileReady s v i x →
    let free := s.readersAhead (coreOf s.act.tid) i x = false
    (∀ w r, layerIs s v x w r → 1 ≤ w → w ≤ 16 →
      let g := !(s.slot v).getLsbD 13 && (x.shape.fmt == 0 || x.shape.fmt == 10)
      Does (.vldt v) s (fun t => CoreOnly s t ∧ Goes s t ∧ ∀ e ∈ s.els, dstEl t.vcore (.reg v.vd.toNat w g) e =
        if s.isOn v e then elemOf ((List.range w).map fun j => s.vcore.row e.bank (r + j)) e.lane
        else dstEl s.vcore (.reg v.vd.toNat w g) e) ∧
      (free → Does (.vstt v) s fun t => CoreOnly s t ∧ Goes s t ∧ (r + w ≤ 512 → ∀ e ∈ s.on v, ∀ j, j < w →
        (t.vcore.row e.bank (r + j)).getLsbD e.lane = bitOf (s.regEl v.vd.toNat w e) j))) ∧
    let idx (e : El) : Nat := s.regEl v.vb.toNat (s.wB v) e
    (free → Fld (s.slot v) 63 5 = 0 → (∀ e ∈ s.on v, idx e < x.shape.elems) →
      Does (.vamoTile v) s fun t => CoreOnly s t ∧ Goes s t ∧ t.vcore.tiles = s.vcore.tiles ∧ t.vcore.seg = s.vcore.seg ∧
        (0 < x.usable → x.usable ≤ 2048 → x.frow + x.shape.w * x.layers ≤ 512 → ∀ k, k < x.shape.elems →
          let w := x.shape.w
          let n := v.imm.toNat % 16
          x.elem t.vcore k = ((s.on v).filter fun e => idx e == k).foldl
            (fun old e => tileAtom n w (x.shape.fmt == 0 || x.shape.fmt == 10) old (wrapTo w (s.opA v (vamoSigned n) e)) % 2 ^ w)
            (x.elem s.vcore k)))) ∧
  (∀ (i : Instr) (v : VWord) (f : Sq → Nat → Nat) (s : State) (d : Nat), sqWord? s i = some (v, f) →
    s.act.snap.vl ≠ 0 → objectAt s v 80 d →
    ((s.sq d).st = 1 → readsGo s v (s.blockReads (s.sq d) (namedBlocks s v (s.sq d))) → v.vd.toNat % 2 = 0 → v.se = 0 →
      Does i s fun t => SameMem s t ∧ Goes s t ∧ t.threads = s.threads ∧
        ∀ e ∈ s.els, dstEl t.vcore (.pair v.vd.toNat false) e =
          if s.isOn v e then f (s.sq d) (s.pairEl v.va.toNat e) % 2 ^ 32 else dstEl s.vcore (.pair v.vd.toNat false) e) ∧
    ((s.sq d).st ≠ 1 → Does i s fun t => t.act.trap =
      some { cause := 30, tval := s.act.addr, info := word (1 + d / 256 % 2 ^ 38 * 256) } ∧ t.cores = s.cores)) ∧
  (∀ (v : VWord) (s : State) (d : Nat), objectAt s v 96 d → let x := s.ix d
    let new := v.fn.getLsbD 2
    let r := bucketsOf s v (Fam.of (if new then x.new else x.cur))
    (x.ready = true → (new = true → x.st = 2) → v.vd.toNat % 2 = 0 → 0 < s.lay.e → s.lay.e ≤ 2048 →
      Does (.vixhash v) s fun t => SameMem s t ∧ Goes s t ∧ t.threads = s.threads ∧
        t.act.fx.flags = s.act.fx.flags ||| (if r.2 then fNAN else 0) ∧
        ∀ k, dstEl t.vcore (.pair v.vd.toNat false) (s.lay.el k) =
          if k < r.1.length then r.1.getD k 0 % 2 ^ 32 else dstEl s.vcore (.pair v.vd.toNat false) (s.lay.el k)) ∧
    (¬(x.ready = true ∧ (new = true → x.st = 2)) → Does (.vixhash v) s fun t => t.act.trap =
      some { cause := 31, tval := s.act.addr, info := word (1 + d / 256 % 2 ^ 38 * 256) } ∧ t.cores = s.cores)) ∧
  ∀ (v : VWord) (s : State), s.act.snap.vl ≠ 0 → (s.thread s.act.tid).done = [] →
    ((s.slot v).toNat % 32 ≠ 0 → Does (.vixprobe v) s fun t =>
      t.act.trap = some { cause := 31, tval := s.slot v, info := 5 } ∧ t.cores = s.cores ∧ SameMem s t) ∧
    ((s.slot v).toNat % 32 = 0 → (∀ e ∈ s.on v, settles (s.probe v e.i)) →
      (∀ t1, s.probeRun v (s.on v) = (t1, none) → Does (.vixprobe v) s fun t => t.mem = t1.mem ∧ Goes s t ∧
        (s.act.banks.Nodup → v.vd.toNat % 2 = 0 → ∀ e ∈ s.els, s.isOn v e = false →
          dstEl t.vcore (.pair v.vd.toNat false) e = dstEl s.vcore (.pair v.vd.toNat false) e)) ∧
      (∀ t1 i c pa, s.probeRun v (s.on v) = (t1, some (i, .fault c pa)) → Does (.vixprobe v) s fun t => t.mem = t1.mem ∧
        t.act.fx.ffst = some (BitVec.ofNat 40 i) ∧
        t.act.trap = some { cause := 31, tval := if c = 5 then s.slot v + word (32 * i) else s.act.addr
                            info := word (c + pa / 256 % 2 ^ 38 * 256 + 2 ^ 61) }) ∧
      ∀ e nan total lines pas ids, s.on v = [e] → s.probe v e.i = .done nan total lines pas ids → pas.Nodup →
        (∀ a ∈ pas, plainLine s a) → pas.length = 4 * ids.length → v.vd.toNat % 2 = 0 → v.se = 0 →
        Does (.vixprobe v) s fun t =>
          dstEl t.vcore (.pair v.vd.toNat false) e = ids.length % 2 ^ 32 ∧
          t.act.fx.flags = s.act.fx.flags ||| ((if ids.length < total then fSAT else 0) ||| (if nan then fNAN else 0)) ∧
          (∀ k, k < pas.length → Memory.read t.mem (pas.getD k 0) = (ids.flatMap (leBytes 4)).getD k 0) ∧
          ∀ a, a ∉ pas → Memory.read t.mem a = Memory.read s.mem a)

/-- VSTOP ends the head block; VSTOP.R leaves its banks waiting at their rejoin points; VTFETCH sends a bank with an active
element to the target and any other to the next word; VTRAP and an illegal word raise their trap at the convoy; BANK_REJOIN
joins the banks once all wait; a convoy watchdog that expires freezes the queue with WATCHDOG (R119, R128, R257, R319). -/
def Obligations.BlocksAreControlled : Prop :=
  (∀ (v : VWord) (s : State), let th := s.thread s.act.tid
    Does (.vstop v) s (fun t => (t.thread s.act.tid).vq = th.vq.drop 1 ∧ (t.thread s.act.tid).banks = [] ∧
      (t.thread s.act.tid).csr = th.csr ∧ t.mem = s.mem ∧ t.cores = s.cores) ∧
    Does (.vstopR v) s (fun t => (t.thread s.act.tid).banks = th.banks.map fun p =>
      if s.act.banks.contains p.1 then (p.1, { p.2 with div := .waiting, pc := p.2.rejoin, n := p.2.n + 1 }) else p) ∧
    Does (.vtfetch v) s (fun t => ∀ p ∈ th.banks, p.1 ∈ s.act.banks → p.2.div ≠ .diverged →
      let on := (s.lay.els p.1).any (s.isOn v)
      let next := s.act.addr + 8
      (p.1, if on then { p.2 with n := p.2.n + 1, pc := s.slot v + (v.imm.signExtend 64 <<< 3), div := .diverged
                                  rejoin := next, draw := s.act.draw }
        else { p.2 with n := p.2.n + 1, pc := next, div := .waiting, rejoin := next }) ∈ (t.thread s.act.tid).banks) ∧
    Does (.vtrap v) s fun t => t.act.trap = some { cause := 3, tval := s.act.addr, info := v.imm.setWidth 64 } ∧
      t.mem = s.mem ∧ t.cores = s.cores ∧ t.threads = s.threads) ∧
  (∀ (bits : BitVec 64) (s : State), Does (.vectorIllegal bits) s fun t =>
    t.act.trap = some { cause := 24, tval := s.act.addr, info := word (s.ev.unit % 256 + 256 * (s.ev.idx % 4)) } ∧
      t.mem = s.mem ∧ t.cores = s.cores ∧ t.threads = s.threads) ∧
  (∀ s : State, (s.thread s.ev.tid).allWaiting = true → Does .bankRejoin s fun t => (t.thread s.ev.tid).banks =
    (s.thread s.ev.tid).banks.map fun p => (p.1, { p.2 with div := .joined, pc := p.2.rejoin })) ∧
  ∀ (s : State) (va : Word) (b : Nat), s.waitPoint s.ev.tid = some (va, b) → (s.thread s.ev.tid).frozen = false →
    (s.thread s.ev.tid).convTrap = none → Does .convoyWatchdogExpire s fun t => (t.thread s.ev.tid).frozen = true ∧
      (t.thread s.ev.tid).convTrap = some { cause := 52, tval := va, info := word (b % 64) } ∧ t.mem = s.mem

namespace Sys2Proof.Say

open Sys2Proof Sys2Proof.Machine

/-! Starting, health, clocks and the chain (R18 to R25, R44 to R59, R163, R164). Ready says when the event has the effect
that Done gives; its operands stand in `ev`. -/

/-- The module is ready after a start of this kind and cause: no task, no safe mode, and of the starts asked for those left. -/
def Started (t : State) (warm : Bool) (cause : BitVec 4) (left : List StartAsk) : Prop :=
  t.camp.power = true ∧ t.camp.ready = true ∧ t.camp.safe = false ∧ t.camp.tripped = false ∧ t.camp.warm = warm ∧
    t.camp.cause = cause ∧ t.camp.step = 12 ∧ t.camp.reset = left ∧ t.threads = []

/-- No attempt of the start is made to fail from outside, and the stacks are warm. -/
def cleanStart (e : StartEnv) : Prop := e.cold = false ∧ e.attempts = []

/-- A firmware slot verifies: what is released decides it (R61). -/
def firmware (s : State) : Prop := s.camp.imageOf 0 ≠ none ∨ s.camp.imageOf 1 ≠ none

/-- After the attempts of a start: ready, or in safe mode when no slot verifies (R44, R47, R61). -/
def StartEnds (s t : State) (P : Prop) : Prop :=
  (firmware s → P) ∧ (¬firmware s → t.camp.safe = true ∧ t.camp.ready = false)

/-- A start of this cause and kind has been asked for. -/
def Asked (t : State) (cause : Nat) (warm : Bool) : Prop := ∃ a ∈ t.camp.reset, a.cause = cause ∧ a.warm = warm

def healthReady (s : State) : Instr → Prop
  | .powerOn => s.camp.power = false ∧ cleanStart s.ev.env ∧ (s.buildMaps s.ev.env.marks).mapsGood = true
  | .startBegin => (∃ a, s.camp.reset.find? s.mayStart = some a) ∧ cleanStart s.ev.env ∧
      (s.buildMaps s.ev.env.marks).mapsGood = true
  | .preHeatDone => s.preheating = true ∧ s.camp.env.cold = true ∧ s.camp.env.attempts = [] ∧
      (s.buildMaps s.camp.env.marks).mapsGood = true
  | .preHeatTimeout => s.preheating = true ∧ s.camp.env.cold = true ∧ s.camp.env.attempts.length ≤ 1 ∧
      s.camp.heatAt + 9000000000 ≤ s.now
  | .ethernetLinkUp => s.camp.power = true
  | .thermalTrip => s.camp.power = true ∧ s.camp.tripped = false
  | .thermalRecovery => s.camp.tripped = true
  | .ethernetLinkDown | .thermalThrottle | .hbmRefreshDouble | .hbmStopIssue | .hbmIssueResume | .powerCapAdjust
  | .lossOfPower | .droopDetected | .targetFreqAdjust => True
  | .retrainWindowOpen => (s.die s.ev.die).window = none
  | .retrainWindowClose => (s.die s.ev.die).window.isSome = true
  | .retrainFailed => (s.die s.ev.die).window.isSome = true ∧ s.camp.safe = false
  | .uncorrectableMemoryError => inMemory s.ev.addr 1 = true
  | .scratchpadSoftError => True
  | _ => False

/-- A pre-heat that has not warmed the stacks fails its start (R47, R49). -/
def HeatFails (s t : State) : Prop :=
  if 2 ≤ s.camp.cfail.toNat then t.camp.safe = true ∧ t.camp.ready = false
  else t.preheating = true ∧ t.camp.cfail = s.camp.cfail + 1

def healthDone (s t : State) : Instr → Prop
  | .powerOn => StartEnds s t (Started t false 0 [] ∧ t.mem = [] ∧ t.port.link = if s.ev.env.link then 2 else 1)
  | .startBegin => ∀ a, s.camp.reset.find? s.mayStart = some a →
      StartEnds s t (Started t a.warm (BitVec.ofNat 4 a.cause) ((s.camp.reset.erase a).filter (·.outlasts a.warm)) ∧
        if a.warm && a.keep then
          (∀ d ∈ s.dies.toList, d.out = []) → (∀ p ∈ s.cores, p.2.buf = []) → (∀ p ∈ s.clusters, p.2.buf = []) → SameMem s t
        else t.mem = [])
  | .preHeatDone =>
    if s.now ≤ s.camp.heatAt + 9000000000 then StartEnds s t (t.camp.ready = true ∧ t.mem = []) else HeatFails s t
  | .preHeatTimeout => HeatFails s t
  | .ethernetLinkUp => t = { s with port := { s.port with link := 2 } }
  | .ethernetLinkDown => t = { s with port := { s.port with link := if s.ev.up then 3 else 0 } }
  | .thermalThrottle =>
    let v := s.ev.value.toNat
    let old := (s.die s.ev.die).throttle
    (t.die s.ev.die).throttle = (if 1050 ≤ v ∨ (old ≠ 0 ∧ 1000 ≤ v) then min 700 (old + 50) else if v < 1000 then 0 else old) ∧
      SameMem s t
  | .hbmRefreshDouble =>
    let bit : BitVec 2 := 1#2 <<< (s.ev.unit % 2)
    let hot := (s.die s.ev.die).hot
    (t.die s.ev.die).hot = if 850 ≤ s.ev.value.toNat then hot ||| bit else hot &&& ~~~bit
  | .hbmStopIssue => (t.die s.ev.die).stopIss = (s.die s.ev.die).stopIss ||| (1#2 <<< (s.ev.unit % 2))
  | .hbmIssueResume => (t.die s.ev.die).stopIss = (s.die s.ev.die).stopIss &&& ~~~(1#2 <<< (s.ev.unit % 2))
  | .thermalTrip => t.camp.tripped = true ∧ t.camp.bbHead = s.camp.bbHead + 1 ∧ SameMem s t
  | .thermalRecovery =>
    if s.camp.safe then t.camp.tripped = false ∧ t.camp.reset = s.camp.reset
    else Asked t 3 false
  | .powerCapAdjust => t.camp.cut =
      if s.ev.up then s.camp.cut - s.ev.value.toNat else min 700 (s.camp.cut + s.ev.value.toNat)
  | .lossOfPower => t.camp.power = false ∧ t.mem = [] ∧ t.camp.store = s.camp.store ∧ t.camp.minSvn = s.camp.minSvn ∧
      t.camp.lanes = s.camp.lanes ∧ t.camp.cak = s.camp.cak ∧ t.camp.bbSeq = s.camp.bbSeq ∧ t.camp.bb = []
  | .droopDetected => t.core s.ev.core =
      { s.core s.ev.core with droop := s.ev.up, eff := BitVec.ofNat 12 s.ev.value.toNat }
  | .targetFreqAdjust =>
    let x := (s.core s.ev.core).tgt.toNat
    (t.core s.ev.core).tgt.toNat = if s.ev.up then min 2300 (x + 25) else max 1600 (x - 25)
  | .retrainWindowOpen => (t.die s.ev.die).window = some s.ev.unit
  | .retrainWindowClose => t.die s.ev.die = { s.die s.ev.die with
      window := none, rtcnt := satAdd16 (s.die s.ev.die).rtcnt 1, rtretry := satAdd16 (s.die s.ev.die).rtretry s.ev.idx }
  | .retrainFailed => Asked t 5 false ∧
      t.camp.bbHead = s.camp.bbHead + 1 ∧ (t.die s.ev.die).rtretry = satAdd16 (s.die s.ev.die).rtretry 3 ∧
      (t.die s.ev.die).window = none ∧ (t.die s.ev.die).failed = (s.die s.ev.die).window
  | .uncorrectableMemoryError =>
    if s.ev.up = true ∧ Tab.get none s.backing (lineOf s.ev.addr) = none then t = s
    else t.poison.contains (lineOf s.ev.addr) = true ∧ t.camp.bbHead = s.camp.bbHead + 1 ∧ SameMem s t
  | .scratchpadSoftError =>
    let e := s.ev
    let own (p : Thread → Prop) := ∀ tid ∈ s.holders e.core e.bank, p (t.thread tid)
    let marked (lane : Nat) := lane ∈ Tab.get [] (t.core e.core).marked e.bank
    let tr : Trap := { cause := 49, tval := 0, info := laneInfo e.bank e.lane e.row }
    match e.soft with
    | .singleTransient | .doubleTransient =>
      (t.die (e.core / 256)).secorr = satAdd16 (s.die (e.core / 256)).secorr 1 ∧ t.threads = s.threads ∧ SameMem s t ∧
        (∀ r, (t.core e.core).row e.bank r = (s.core e.core).row e.bank r) ∧
        ((Tab.get none (s.core e.core).soft e.bank).all (fun p => p.1 + 100000 ≤ s.now) = true →
          t.camp.bbHead = s.camp.bbHead + 1)
    | .singleHard => marked e.lane ∧ SameMem s t ∧ own fun th => tr ∈ th.laneTraps
    | .doubleHard => marked e.lane ∧ marked e.idx ∧ SameMem s t ∧ own fun th => th.laneBad = some (e.bank, tr)
  | _ => False

/-- The queue that FLIT_RECEIVE takes from: the class named, on the link named (R19). -/
def linkKey (s : State) : Nat := 4 * s.ev.idx + if s.ev.cls = .wr then 0 else 1

/-- The die at the end of the link named. -/
def linkEnd (s : State) : Nat := if s.ev.idx % 2 = 0 then s.ev.idx / 2 + 1 else s.ev.idx / 2

/-- A flit of class `c` for another die goes on in order on the next link (R18, R19). -/
def Forwarded (s t : State) (d c : Nat) (f : Flit) : Prop :=
  let k := (hop (linkEnd s) d).1 * 4 + c
  Tab.get [] t.links k = Tab.get [] s.links k ++ [f] ∧ t.dies = s.dies

def chainReady (s : State) : Instr → Prop
  | .linkCrcReplay | .lrWriteDeferralEnd => True
  | .linkRetrain => s.ev.idx < 3 ∧ ((s.die s.ev.idx).lnkHi = 2 ∨ (s.die s.ev.idx).lnkHi = 1)
  | .adjacencyFailed => s.ev.idx < 3 ∧ s.ev.idx ∉ s.dead ∧ s.camp.safe = false
  | .ucieModuleLost => s.ev.idx < 3 ∧ 1 < (s.die s.ev.idx).modHi.toNat
  | .flitReceive => s.ev.idx < 6 ∧ (s.ev.cls = .wr ∨ s.ev.cls = .sync) ∧ s.ev.idx / 2 ∉ s.dead ∧
      (s.die (s.ev.idx / 2)).lnkHi ≠ 1 ∧ Tab.get [] s.links (linkKey s) ≠ []
  | .causalWriteApply => ∃ w, (s.die s.ev.die).inb[s.ev.idx]? = some w ∧ s.mayApply s.ev.die w = true ∧
      plainLine s w.addr ∧ w.addr % 64 + w.bytes.length ≤ 64 ∧ w.bytes ≠ [] ∧ w.mask = []
  | .sequenceReport => s.ev.die < 4 ∧ s.dead = []
  | _ => False

def chainDone (s t : State) : Instr → Prop
  | .linkCrcReplay => t.die s.ev.die = { s.die s.ev.die with replay := satAdd16 (s.die s.ev.die).replay 1 }
  | .lrWriteDeferralEnd => t = { s with deferred := s.deferred.filter fun p => p.2 ≠ s.ev.tid }
  | .linkRetrain =>
    let up := (s.die s.ev.idx).lnkHi = 2
    let n := if up then 1 else 0
    (t.die s.ev.idx).lnkHi = (if up then 1 else 2) ∧ (t.die (s.ev.idx + 1)).lnkLo = (if up then 1 else 2) ∧
      (t.die s.ev.idx).retrn = satAdd16 (s.die s.ev.idx).retrn n ∧
      (t.die (s.ev.idx + 1)).retrn = satAdd16 (s.die (s.ev.idx + 1)).retrn n ∧ SameMem s t ∧ t.links = s.links
  | .ucieModuleLost =>
    (t.die s.ev.idx).modHi = (s.die s.ev.idx).modHi - 1 ∧ (t.die (s.ev.idx + 1)).modLo = (s.die (s.ev.idx + 1)).modLo - 1 ∧
      t.links = s.links ∧ t.dead = s.dead
  | .adjacencyFailed =>
    t.cut s.ev.idx (s.ev.idx + 1) = true ∧ (t.die s.ev.idx).lnkHi = 3 ∧ (t.die (s.ev.idx + 1)).lnkLo = 3 ∧
      Asked t 2 true ∧ t.camp.bbHead = s.camp.bbHead + 1 ∧ SameMem s t
  | .flitReceive =>
    let here := linkEnd s
    ∀ f rest, Tab.get [] s.links (linkKey s) = f :: rest → Tab.get [] t.links (linkKey s) = rest ∧ SameMem s t ∧
      match f with
      | .wr d w =>
        if (s.die w.src).out.any (·.seq == w.seq) = false then t.dies = s.dies
        else if d = here then (t.die here).inb = (s.die here).inb ++ [w]
        else Forwarded s t d 0 f
      | .report d c upto =>
        if d = here then ∀ k, k < 4 → (t.die here).applied.toList.getD k 0 =
          if k = c % 4 then seqMax ((s.die here).applied.toList.getD k 0) upto else (s.die here).applied.toList.getD k 0
        else Forwarded s t d 1 f
  | .causalWriteApply => ∀ w, (s.die s.ev.die).inb[s.ev.idx]? = some w →
      t.homeNum w.addr w.bytes.length = leNat w.bytes ∧ MemOutside s t w.addr w.bytes.length ∧
        (t.die w.src).out = (s.die w.src).out.filter (·.seq ≠ w.seq)
  | .sequenceReport => ∀ d < 4, d ≠ s.ev.die →
      .report d s.ev.die ((s.die s.ev.die).applied.toList.getD s.ev.die 0) ∈ Tab.get [] t.links ((hop s.ev.die d).1 * 4 + 1)
  | _ => False

end Sys2Proof.Say

/-- The events of starting, temperature, clocks, memory and scratchpad have the effects their rules give (R24, R25, R44 to
R59). The model's choices are the operands that the droop, target frequency and power cap events bring (log entry 14), the last
row of the table for a fourth failed start (log entry 77), the end of a throttle (log entry 79), which starts wait beside which
and a recovery in safe mode (log entry 80), what EFF shows (log entry 81), and SRC of a 0x11 entry (log entry 112). -/
def Obligations.StartsAndHealthEvents : Prop :=
  ∀ (i : Instr) (s : State), healthReady s i → Does i s fun t => healthDone s t i

/-- The events of the chain: counters, lost modules, a failed adjacency with its forced warm start, flits delivered or forwarded,
writes applied in causal order, reports, and the end of a deferral (R18 to R22, R163, R164, R378). -/
def Obligations.ChainEvents : Prop :=
  ∀ (i : Instr) (s : State), chainReady s i → Does i s fun t => chainDone s t i

namespace Sys2Proof.Say

open Sys2Proof Sys2Proof.Machine

/-! Messages and the port (R26 to R43, R63, R64, R73). -/

/-- The device may hear packet `p`, which the event brings. -/
def heard (s : State) (p : Packet) : Prop :=
  s.ev.pkt = some p ∧ s.portUp = true ∧ s.filtered p = false ∧ (s.port.msen = true → p.macsec = true) ∧ p.sack = none

/-- `p` is the next packet in order on an open connection on which nothing is outstanding; it continues the message begun there,
or begins one. -/
def nextPacket (s : State) (p : Packet) : Prop :=
  let k := s.conn p.conn.toNat
  heard s p ∧ p.conn ≠ 0 ∧ k.st = .opened ∧ k.rx = p.psn ∧ k.buf = [] ∧ k.unacked = [] ∧ k.waiting = [] ∧ 0 < k.cwnd ∧
    0 < k.credit.toNat ∧ p.ackreq = false ∧ p.ecne = false ∧ (k.part = [] ∨ p.first = false)

/-- It is the last of a message that R33 admits, and no WRITE of the connection is on its way to another die. -/
def nextMessage (s : State) (p : Packet) : Prop :=
  let k := s.conn p.conn.toNat
  nextPacket s p ∧ p.last = true ∧ malformed (k.part ++ [p]) = false ∧ k.wrote = false ∧
    ((s.die 0).out.any fun w => w.tid == connAgent p.conn.toNat) = false

/-- The message that `p` ends: the header of its first packet, with the payloads of all (R33). -/
def whole (s : State) (p : Packet) : Packet :=
  let ps := (s.conn p.conn.toNat).part ++ [p]
  { ps.headD p with conn := p.conn, payload := ps.flatMap (·.payload) }

/-- The device has sent the completion of `p`: status and data under its tag, and nothing else. -/
def Answered (s t : State) (p : Packet) (status : Nat) (data : List Byte) : Prop :=
  let k := s.conn p.conn.toNat
  ∃ c : Packet, t.port.wire = s.port.wire ++ [c] ∧ c.typ = 4 ∧ c.op.toNat = status ∧ c.tag = p.tag ∧ c.conn = k.sconn ∧
    c.psn = k.tx ∧ c.payload = data

/-- The answer of a message that performs nothing. -/
def Refused (s t : State) (p : Packet) (status : Nat) : Prop := Answered s t p status [] ∧ SameMem s t

/-- A message that meets no limit of service. -/
def served (s : State) (p : Packet) : Prop := nextMessage s p ∧ s.limited = false

/-- The connection of `p` is an OWNER connection. -/
def owns (s : State) (p : Packet) : Prop := (s.conn p.conn.toNat).owner = true

/-- Bits 0 to 2 of a window's permissions: READ, WRITE, ATOMIC (R36, R41). -/
def msgPerm (m : Packet) : Nat := m.typ.toNat - 1

/-- The address lies within what the connection of `m` reaches: R36's physical addresses for an OWNER, the window that the
address selects, usable and long enough, for a PEER. -/
def inReach (s : State) (m : Packet) (len : Nat) : Prop :=
  let a := m.addr.toNat
  let w := s.winEntry (a / 2 ^ 60)
  if (s.conn m.conn.toNat).owner then a < 2 ^ 46
  else bitsOf a 59 40 = 0 ∧ w.usable = true ∧ a % 2 ^ 40 + len ≤ w.size.toNat

/-- Key and permission match: always for an OWNER. -/
def unlocked (s : State) (m : Packet) : Prop :=
  let w := s.winEntry (m.addr.toNat / 2 ^ 60)
  (s.conn m.conn.toNat).owner = true ∨ w.key = m.key ∧ w.perm.getLsbD (msgPerm m) = true

/-- The physical address that a message reaches. -/
def msgPa (s : State) (m : Packet) : Nat :=
  let a := m.addr.toNat
  if (s.conn m.conn.toNat).owner then a else (s.winEntry (a / 2 ^ 60)).base.toNat + a % 2 ^ 40

/-- Operation code of the ATOMIC rows (R33). -/
def atomicCode : Instr → Option Nat
  | .atomicAdd => some 0
  | .atomicSwap => some 1
  | .atomicCas => some 2
  | .atomicMaxu => some 3
  | .atomicFaddS => some 4
  | _ => none

/-- The value an ATOMIC leaves: add, swap, the second operand of a matching compare, unsigned maximum, FADD.S (R37). -/
def atomicNew (op old x y : Nat) : Nat :=
  match op with
  | 0 => (old + x) % 2 ^ 64
  | 1 => x
  | 2 => y
  | 3 => max old x
  | _ => (fpAtomic .fadd FP32 old (x % 2 ^ 32)).1

def atomicWidth (op : Nat) : Nat := if op = 4 then 4 else 8

/-- `i` is the row of message `m`, which reaches `len` bytes: a READ, a WRITE or an ATOMIC. -/
def reaches (m : Packet) (len : Nat) : Instr → Prop
  | .read => m.typ = 1 ∧ len = beNat m.payload
  | .write => m.typ = 2 ∧ len = m.payload.length
  | .atomicAdd | .atomicSwap | .atomicCas | .atomicMaxu | .atomicFaddS =>
    m.typ = 3 ∧ len = atomicWidth m.op.toNat
  | _ => False

/-- No line of a run is owned, pinned or deferred, none waits for its channel or a link, and none has an error to report. -/
def freeRun (s : State) (agent pa n : Nat) : Prop :=
  (∀ l ∈ linesOf pa n, s.owned l = false ∧ s.writeWaits l agent = false ∧ s.pathHolds 0 (l * 64) = false) ∧
    ∀ reads, s.linkBad pa n reads = false

/-- Kind of the RESET rows (R64). -/
def resetKind : Instr → Option Nat
  | .manageResetWarm => some 0
  | .manageResetKeep => some 1
  | .manageResetCold => some 2
  | _ => none

/-- An OPEN that is sound and no repeat of an open connection's (R29, R31). -/
def openSound (s : State) (p : Packet) : Prop :=
  let b := p.payload
  heard s p ∧ p.conn = 0 ∧ p.typ = 5 ∧ p.op = 0 ∧ malformed [p] = false ∧ p.last = true ∧ p.psn = 0 ∧ p.apsn = 0 ∧ p.key = 0 ∧
    p.ackreq = false ∧ (b.getD 0 0).toNat ≤ 1 ∧ b.getD 1 0 = 0 ∧ (b.drop 8).any (· != 0) = false ∧
    BitVec.ofNat 16 (beNat (sub b 2 2)) ≠ 0 ∧
    ∀ x ∈ s.port.conns, ¬(x.2.st = .opened ∧ x.2.got = false ∧ x.2.addr = p.src ∧ x.2.sport = p.sport ∧
      x.2.sconn = BitVec.ofNat 16 (beNat (sub b 2 2)) ∧ x.2.isn = BitVec.ofNat 32 (beNat (sub b 4 4)))

/-- The lowest connection number that is free. -/
def lowestFree (s : State) : Option Nat := (List.range 1024).find? fun i => (s.conn (i + 1)).st == .closed

/-- Why a sound OPEN is refused (R29, R31): another address holds the port, the frame is not protected, no number is free. -/
def openRefusal (s : State) (p : Packet) : Option Nat :=
  if (p.payload.getD 0 0).toNat = 0 ∧ s.port.owner ≠ none ∧ s.port.owner ≠ some p.src then some 8
  else if s.port.msreq = true ∧ p.macsec = false then some 2
  else if lowestFree s = none then some 9 else none

def messageReady (s : State) (p : Packet) (i : Instr) : Prop :=
  let m := whole s p
  let pa := msgPa s m
  let n := beNat m.payload
  let len := m.payload.length
  let agent := connAgent p.conn.toNat
  match i with
  | .post => served s p ∧ m.typ = 0 ∧ (owns s p → m.qw.toNat < 64 ∧ s.appendWaits m.qw.toNat = false)
  | .read => served s p ∧ m.typ = 1 ∧ inReach s m n ∧ unlocked s m ∧ inMemory pa n = true ∧ n ≤ 8192 ∧ freeRun s agent pa n
  | .write => served s p ∧ m.typ = 2 ∧ inReach s m len ∧ unlocked s m ∧ inMemory pa len = true ∧ homeDie pa = 0 ∧
      (∀ l ∈ linesOf pa len, plainLine s (l * 64) ∧ homeDie (l * 64) = 0) ∧ freeRun s agent pa len
  | .atomicAdd | .atomicSwap | .atomicCas | .atomicMaxu | .atomicFaddS =>
    ∃ op, atomicCode i = some op ∧ served s p ∧ m.typ = 3 ∧ m.op.toNat = op ∧ inReach s m (atomicWidth op) ∧ unlocked s m ∧
      inMemory pa 8 = true ∧ pa % atomicWidth op = 0 ∧ plainLine s pa ∧ freeRun s agent pa (atomicWidth op) ∧
      s.pathHolds 0 pa = false ∧ s.syncQueued 0 (homeDie pa) = false ∧ s.pendingTo 0 pa (atomicWidth op) = false
  | .completion => nextMessage s p ∧ m.typ = 4 ∧ (s.conn p.conn.toNat).part = [] ∧
      ∃ q, (s.conn p.conn.toNat).reqs = [(p.tag, .queue q)] ∨ ∃ e, (s.conn p.conn.toNat).reqs = [(p.tag, .record q e)]
  | .ack => heard s p ∧ p.conn ≠ 0 ∧ (s.conn p.conn.toNat).st = .opened ∧ (s.conn p.conn.toNat).waiting = [] ∧
      p.typ = 6 ∧ badAck p = false
  | .manageOpen => openSound s p
  | .manageClose => nextMessage s p ∧ p.typ = 5 ∧ p.op = 1 ∧ n = 0 ∧ (s.conn p.conn.toNat).reqs = []
  | .manageAttest => nextMessage s p ∧ p.typ = 5 ∧ p.op = 2
  | .manageBbread => served s p ∧ p.typ = 5 ∧ p.op = 3 ∧ n < 2 ^ 20
  | .manageResetWarm | .manageResetKeep | .manageResetCold => served s p ∧ p.typ = 5 ∧ p.op = 4 ∧ resetKind i = some n
  | .manageCakset => served s p ∧ p.typ = 5 ∧ p.op = 5
  | _ => False

/-- A start of MANAGE RESET has been asked for, beside those that wait (R64). -/
def Asks (s t : State) (p : Packet) (warm keep : Bool) : Prop :=
  t.camp.reset = s.camp.reset ++ [{ cause := 1, warm, keep, by_ := some (p.conn.toNat, p.tag), at_ := s.now }] ∧
    Answered s t p 0 [] ∧ SameMem s t

def messageDone (s t : State) (p : Packet) (i : Instr) : Prop :=
  let m := whole s p
  let pa := msgPa s m
  let n := beNat m.payload
  let c := p.conn.toNat
  match i with
  | .post =>
    let q := m.qw.toNat
    let k := s.queue q
    let a := k.slot k.tail
    (¬owns s p → Refused s t m 2 ∧ t.queue q = k) ∧
    (owns s p → k.st = .on → (k.tail - k.head).toNat ≠ k.slots → s.slotBad a = false →
      Answered s t m 0 [] ∧ t.queue q = { k with tail := k.tail + 1 } ∧
        (plainLine s a → plainLine s (a + 64) → t.homeNum a 128 = leNat m.payload ∧ MemOutside s t a 128)) ∧
    (owns s p → k.st = .on → (k.tail - k.head).toNat ≠ k.slots → s.slotBad a = true → Refused s t m 7 ∧ t.queue q = k) ∧
    (owns s p → k.st = .on → (k.tail - k.head).toNat = k.slots → Refused s t m 5 ∧ t.queue q = k) ∧
    (owns s p → k.st ≠ .on → Refused s t m 6 ∧ t.queue q = k)
  | .read => Answered s t m 0 (s.bytesAt 0 pa n) ∧ SameMem s t
  | .write => t.homeNum pa m.payload.length = leNat m.payload ∧ MemOutside s t pa m.payload.length ∧
      (if m.cpl then Answered s t m 0 [] else t.port.wire = s.port.wire)
  | .atomicAdd | .atomicSwap | .atomicCas | .atomicMaxu | .atomicFaddS => ∀ op, atomicCode i = some op →
    let w := atomicWidth op
    let old := s.homeNum pa w
    let x := beNat (m.payload.take 8)
    Answered s t m 0 (beBytes 8 old) ∧ MemOutside s t pa w ∧
      t.homeNum pa w = (if op = 2 ∧ old ≠ x then old else atomicNew op old x (beNat (m.payload.drop 8)) % 2 ^ (8 * w))
  | .completion => (t.conn c).reqs = [] ∧ SameMem s t ∧ t.port.wire = s.port.wire ∧
      (∀ q, (s.conn c).reqs = [(p.tag, .queue q)] →
        t.queue q = (if p.op = 0 then s.queue q else { s.queue q with lasterr := 14 }) ∧ t.belfry = s.belfry) ∧
      (∀ q e, (s.conn c).reqs = [(p.tag, .record q e)] → t.rec? e = none ∧
        t.queue q = if p.op = 0 then s.queue q else { s.queue q with lasterr := 14 })
  | .ack => (t.conn c).unacked = (s.conn c).unacked.filter (fun x => !ackedBy p.apsn x.pkt.psn) ∧
      t.port.wire = s.port.wire ∧ SameMem s t
  | .manageOpen =>
    let sconn := BitVec.ofNat 16 (beNat (sub p.payload 2 2))
    let owner := (p.payload.getD 0 0).toNat = 0
    let reply (status : Nat) (data : List Byte) := ∃ a : Packet, t.port.wire = s.port.wire ++ [a] ∧ a.typ = 4 ∧
      a.op.toNat = status ∧ a.tag = p.tag ∧ a.conn = sconn ∧ a.payload = data
    (∀ st, openRefusal s p = some st → reply st [] ∧ t.port.conns = s.port.conns ∧ t.port.owner = s.port.owner) ∧
    (∀ j, openRefusal s p = none → lowestFree s = some j →
      let k := t.conn (j + 1)
      k.st = .opened ∧ (k.owner = true ↔ owner) ∧ k.addr = p.src ∧ k.sport = p.sport ∧ k.sconn = sconn ∧
        k.rx = BitVec.ofNat 32 (beNat (sub p.payload 4 4)) ∧ k.tx = k.disn ∧
        (∀ d, d ≠ j + 1 → t.conn d = s.conn d) ∧ t.port.owner = (if owner then some p.src else s.port.owner) ∧
        reply 0 (beBytes 2 (j + 1) ++ [0, 0] ++ beBytes 4 k.disn.toNat))
  | .manageClose => (t.conn c).st = .held ∧ Answered s t p 0 [] ∧ SameMem s t
  | .manageAttest => Answered s t p 0 (s.report p.payload) ∧ t.camp.bbHead = s.camp.bbHead + 1 ∧ SameMem s t
  | .manageBbread => (¬owns s p → Refused s t p 2) ∧
      (owns s p → Answered s t p 0 ((List.range (bitsOf n 23 12 + 1)).flatMap fun i =>
        leBytes 32 (Tab.get 0 s.camp.bb ((n + i) % 4096)).toNat) ∧ SameMem s t)
  | .manageResetWarm => (owns s p → Asks s t p true false) ∧ (¬owns s p → Refused s t p 2 ∧ t.camp.reset = s.camp.reset)
  | .manageResetKeep => (owns s p → Asks s t p true true) ∧ (¬owns s p → Refused s t p 2 ∧ t.camp.reset = s.camp.reset)
  | .manageResetCold => (owns s p → Asks s t p false false) ∧ (¬owns s p → Refused s t p 2 ∧ t.camp.reset = s.camp.reset)
  | .manageCakset => (owns s p → t.camp.cak = some p.payload ∧ Answered s t p 0 [] ∧ SameMem s t) ∧
      (¬owns s p → Refused s t p 2 ∧ t.camp.cak = s.camp.cak)
  | _ => False

/-- The status of a READ, WRITE or ATOMIC that its connection does not reach: ADDRESS outside it, KEY where a window's key or
permission does not match (R36, R38). -/
def TurnedAway (s t : State) (m : Packet) (status : Nat) : Prop :=
  SameMem s t ∧ if m.typ = 2 ∧ m.cpl = false then t.port.wire = s.port.wire else Answered s t m status []

/-- A packet that is not the last of its message joins those before it (R33, R34). -/
def Joined (s t : State) (p : Packet) : Prop :=
  let k := s.conn p.conn.toNat
  (t.conn p.conn.toNat).part = k.part ++ [p] ∧ (t.conn p.conn.toNat).rx = k.rx + 1 ∧ t.port.wire = s.port.wire ∧ SameMem s t

/-- The events of the port that bring no message; `ev.idx` is the connection. -/
def portReady (s : State) : Instr → Prop
  | .mkaKeyChange => s.camp.power = true ∧ s.camp.cak.isSome = true
  | .frameDrop => (s.portUp = true ∨ s.camp.power = true ∧ s.port.link = 2) ∧ ∀ p, s.ev.pkt = some p →
      (if s.portUp then s.filtered p else s.badFrame p) = true
  | .icmpv6NdAnswer => True
  | .ackDelayExpire => (s.conn s.ev.idx).buf = [] ∧ (s.conn s.ev.idx).ackDue = true
  | .retransmissionTimerExpire => ∃ x, (s.conn s.ev.idx).unacked.find? (·.pkt.psn == s.ev.psn) = some x ∧
      (x.tries < 12 ∨ (s.conn s.ev.idx).st = .opened ∧ (s.conn s.ev.idx).reqs = [])
  | .connectionHoldExpire => (s.conn s.ev.idx).st = .held ∨ (s.conn s.ev.idx).st = .failed
  | .outboundTransferSend => ∃ p, (s.conn s.ev.idx).waiting = [p] ∧
      (s.conn s.ev.idx).unacked.length < min (s.conn s.ev.idx).credit.toNat (s.conn s.ev.idx).cwnd
  | _ => False

def portDone (s t : State) (i : Instr) : Prop :=
  let c := s.ev.idx
  let k := s.conn c
  let sent (p : Packet → Prop) := ∃ a : Packet, t.port.wire = s.port.wire ++ [a] ∧ p a
  match i with
  | .mkaKeyChange => t = { s with port := { s.port with msec := true, key := s.port.key + 1 } }
  | .frameDrop => t = { s with port := { s.port with drop := satAdd16 s.port.drop 1 } }
  | .icmpv6NdAnswer => t = s
  | .ackDelayExpire => (sent fun a => a.typ = 6 ∧ a.conn = k.sconn ∧ a.apsn = k.rx) ∧ (t.conn c).ackDue = false ∧ SameMem s t
  | .retransmissionTimerExpire => ∀ x, k.unacked.find? (·.pkt.psn == s.ev.psn) = some x →
      if x.tries < 12 then
        (sent fun a => a.psn = x.pkt.psn ∧ a.retx = true ∧ a.payload = x.pkt.payload) ∧
          t.port.retx = satAdd16 s.port.retx 1 ∧ SameMem s t
      else (t.conn c).st = .failed ∧ t.port.wire = s.port.wire ∧ SameMem s t
  | .connectionHoldExpire => t.conn c = {} ∧ SameMem s t ∧ t.port.wire = s.port.wire
  | .outboundTransferSend => ∀ p, k.waiting = [p] →
      (sent fun a => a.psn = k.tx ∧ a.payload = p.payload ∧ a.conn = p.conn) ∧ (t.conn c).tx = k.tx + 1 ∧
        (t.conn c).waiting = [] ∧ SameMem s t
  | _ => False

/-! Register accesses (R17, R22, R41, R43, R54, R60, R66 to R69, R75, R98, R99, R152, R430). -/

/-- The event is an access of 8 bytes to register `r`. -/
def named (s : State) (r : DevReg) : Prop := s.ev.width = 8 ∧ devAccess s.ev.addr 8 = some (r, true, true)

/-- Records that a SCHCANCEL of `v` cancels. -/
def schHits (s : State) (v : Word) : List (Nat × Rec) :=
  let q := Fld v 5 0 + if v.getLsbD 6 then 64 else 0
  s.recList.filter fun p => p.2.q == q && (v.getLsbD 7 || recTag p.2.bits == Fld v 63 32) &&
    (match p.2.st with
     | .wait | .ready => true
     | .place | .run | .stop | .saved => v.getLsbD 8
     | .ending _ _ | .posted => false)

/-- The records of queue `q` not yet taken that can be read: those before the first slot with an error to report (R69). -/
def readable (s : State) (q : Nat) : List (BitVec 32) :=
  (s.queue q).held.takeWhile fun i =>
    (linesOf ((s.queue q).slot i) 128).all fun l => (s.homeErr 0 true (l * 64)).isNone

/-- Slots of queue `q` that a QCANCEL cancels: all, or those whose record bears a tag. -/
def qHits (s : State) (q : Nat) (tag : Option Nat) : List (BitVec 32) :=
  (readable s q).filter fun i => !(s.queue q).cancelled.contains i &&
    (match tag with | none => true | some t => recTag (s.slotRec ((s.queue q).slot i)) == t)

/-- What QCANCEL leaves in a queue (R69, R75). -/
def Cancelled (s t : State) (q : Nat) (hit : List (BitVec 32)) : Prop :=
  (t.queue q).cancelled = (s.queue q).cancelled ++ hit ∧ (t.queue q).canc = BitVec.ofNat 16 hit.length ∧
    ((readable s q).length ≠ (s.queue q).held.length → (t.queue q).st = .error ∧ (t.queue q).lasterr = 12)

def accessReady (s : State) : Instr → Prop
  | .registerWrite => named s .portcfg ∨ named s .schcfg ∨ named s .addrLo ∨ named s .xlva ∨
      (∃ n, named s (.window n 0) ∨ named s (.window n 1)) ∨ (∃ q, (named s (.queue q 0) ∨ named s (.queue q 3)) ∧ (s.queue q).st = .off)
  | .windowCommit => ∃ n, named s (.window n 2)
  | .portaddrCommit => named s .addrHi
  | .campanileStore => ∃ off, named s (.camp off)
  | .xlinvPage => named s .xlinv ∧ s.ev.value.getLsbD 16 = false ∧ s.ev.value.getLsbD 17 = false
  | .xlinvAsid => named s .xlinv ∧ s.ev.value.getLsbD 16 = false ∧ s.ev.value.getLsbD 17 = true
  | .xlinvAll => named s .xlinv ∧ s.ev.value.getLsbD 16 = true
  | .queueEnable => ∃ q, named s (.queue q 1) ∧ s.ev.value.getLsbD 0 = true ∧ (s.queue q).st = .off
  | .queueDisable => ∃ q, named s (.queue q 1) ∧ s.ev.value.getLsbD 0 = false ∧
      ((s.queue q).st = .on ∨ (s.queue q).st = .error)
  | .qcancelTag => ∃ q, named s (.queue q 5) ∧ s.ev.value.getLsbD 32 = false
  | .qcancelAll => ∃ q, named s (.queue q 5) ∧ s.ev.value.getLsbD 32 = true
  | .schcancelTag => s.ev.value.getLsbD 7 = false ∧ (s.ev.value.getLsbD 6 = true → Fld s.ev.value 5 0 ≤ 31)
  | .schcancelAll => s.ev.value.getLsbD 7 = true ∧ (s.ev.value.getLsbD 6 = true → Fld s.ev.value 5 0 ≤ 31)
  | .chainstRead => ∃ d, named s (.chainst d)
  | .portstRead => named s .portst
  | .memhlthRead => ∃ d, named s (.memhlth d)
  | .qstatRead => ∃ q, named s (.queue q 4)
  | .schstRead => named s .schst
  | .unassignedAccess => (s.thread s.ev.tid).live = true ∧ devAccess s.ev.addr s.ev.width = none ∧
      (region s.ev.addr = .registers ∨ region s.ev.addr = .campanile)
  | .cancelledSlotPass =>
    let k := s.queue s.ev.idx
    (k.st = .on ∨ k.st = .draining) ∧ k.head ≠ k.tail ∧ k.cancelled.contains k.head = true
  | _ => False

/-- What a store of `v` leaves in register `r`. -/
def Stored (s t : State) (v : Nat) : DevReg → Prop
  | .portcfg => t.port.dscp = BitVec.ofNat 6 v ∧ t.port.msreq = bitOf v 6 ∧ t.port.msen = bitOf v 7
  | .schcfg => t.belfry.depto = BitVec.ofNat 16 v ∧ t.belfry.nopre = bitOf v 16
  | .addrLo => t.port.staged.toNat = v ∧ t.port.addr = s.port.addr
  | .addrHi => t.port.addr.toNat = s.port.staged.toNat + 2 ^ 64 * v
  | .xlva => (t.die 0).xlva = BitVec.ofNat 32 (v / 65536)
  | .window n k =>
    let w := s.winEntry n
    t.winEntry n =
      if k = 0 then { w with sbase := word v } else if k = 1 then { w with ssize := word v }
      else if k = 2 then
        { w with base := w.sbase, size := w.ssize, key := BitVec.ofNat 32 v, perm := BitVec.ofNat 3 (v / 2 ^ 32) }
      else w
  | .queue q k => t.queue q =
      if k = 0 then { s.queue q with base := BitVec.ofNat 34 (v / 4096) }
      else { s.queue q with conn := BitVec.ofNat 16 v, win := BitVec.ofNat 4 (v / 65536), key := BitVec.ofNat 32 (v / 2 ^ 32) }
  | .camp off => t.camp.bytes off 8 = leBytes 8 v ∧
      ∀ a, a < off ∨ off + 8 ≤ a → Memory.read t.camp.store a = Memory.read s.camp.store a
  | _ => True

def accessDone (s t : State) (i : Instr) : Prop :=
  let v := s.ev.value.toNat
  match i with
  | .registerWrite => SameMem s t ∧ ∀ r, named s r → Stored s t v r
  | .windowCommit | .portaddrCommit | .campanileStore => SameMem s t ∧ ∀ r, named s r → Stored s t v r
  | .xlinvPage | .xlinvAsid | .xlinvAll => t = s
  | .queueEnable => ∀ q, named s (.queue q 1) →
    let k := { s.queue q with lgsize := BitVec.ofNat 4 (v / 2), qprio := BitVec.ofNat 3 (v / 32) }
    t.queue q = if k.ringOk then { k with qen := true, st := .on, head := 0, tail := 0, cancelled := [] }
      else { k with qen := false, lasterr := 13 }
  | .queueDisable => ∀ q, named s (.queue q 1) →
    let k := s.queue q
    (t.queue q).qen = false ∧ (t.queue q).qprio = BitVec.ofNat 3 (v / 32) ∧ (t.queue q).lgsize = k.lgsize ∧
      (t.queue q).st = (if k.st = .on ∧ k.head ≠ k.tail then .draining else .off)
  | .qcancelTag => ∀ q, named s (.queue q 5) → Cancelled s t q (qHits s q (some (v % 2 ^ 32)))
  | .qcancelAll => ∀ q, named s (.queue q 5) → Cancelled s t q (qHits s q none)
  | .schcancelTag | .schcancelAll => t.belfry.canc = BitVec.ofNat 16 (schHits s s.ev.value).length ∧
      ∀ p ∈ schHits s s.ev.value, Ending s t p.1 2 0
  | .chainstRead => ∀ d, named s (.chainst d) → t.bus = word (s.devValue (.chainst d)) ∧
      t.die d = { s.die d with retrn := 0, replay := 0 }
  | .portstRead => t.bus = word (s.devValue .portst) ∧ t.port = { s.port with feccor := 0, drop := 0, retx := 0 }
  | .memhlthRead => ∀ d, named s (.memhlth d) → t.bus = word (s.devValue (.memhlth d)) ∧
      t.die d = { s.die d with rtcnt := 0, rtretry := 0, mcorr := 0, secorr := 0 }
  | .qstatRead => ∀ q, named s (.queue q 4) → t.bus = word (s.devValue (.queue q 4)) ∧
      t.queue q = { s.queue q with rej := 0 }
  | .schstRead => t.bus = word (s.devValue .schst) ∧ t.belfry = { s.belfry with preempt := 0, forced := 0 }
  | .unassignedAccess =>
    let cause := if s.ev.up then 7 else 5
    ((s.thread s.ev.tid).mode = .u → Took { s with cur := s.ev.tid } t cause (word s.ev.addr)
      (accessInfo s.ev.addr false false) (s.thread s.ev.tid).pc) ∧
    ((s.thread s.ev.tid).mode = .m → Ending s t (s.thread s.ev.tid).gang 1 cause ∧ SameMem s t)
  | .cancelledSlotPass => (t.queue s.ev.idx).head = (s.queue s.ev.idx).head + 1 ∧ SameMem s t
  | _ => False

/-! Belfry (R74 to R99). -/

/-- The record at the head of queue `q`. -/
def headRec (s : State) (q : Nat) : BitVec 1024 := s.slotRec ((s.queue q).slot (s.queue q).head)

/-- A line of the record at the head of queue `q` has an error to report. -/
def headFails (s : State) (q : Nat) : Prop :=
  ((linesOf ((s.queue q).slot (s.queue q).head) 128).any fun l => (s.homeErr 0 true (l * 64)).isSome) = true

/-- A line of it has to be waited for. -/
def headWaits (s : State) (q : Nat) : Prop :=
  ((linesOf ((s.queue q).slot (s.queue q).head) 128).any fun l => s.owned l || s.pathHolds 0 (l * 64)) = true

/-- The queue has been passed and it is the next one's turn. -/
def passed (s : State) (q : Nat) : State := { s.passHead q with belfry := { s.belfry with takeAt := (q + 1) % 96 } }

def schedReady (s : State) : Instr → Prop
  | .recordTake => s.serving = true ∧ ∃ q, s.nextQueue = some q
  | .dependencePass => ∃ r, s.rec? s.ev.idx = some r ∧ r.st = .wait ∧ recNdep r.bits ≤ 4
  | .dependenceTimeout => ∃ r, s.rec? s.ev.idx = some r ∧ r.st = .wait ∧ s.belfry.depto ≠ 0 ∧
      s.belfry.depto.toNat * msTicks ≤ s.now - r.taken
  | .claimFormed => ∃ r, s.rec? s.ev.idx = some r ∧ s.mayClaim s.ev.idx r = true ∧
      ∀ p ∈ s.recList, p.1 ≠ s.ev.idx → s.mayClaim p.1 p.2 = true → p.2.dies.any r.dies.contains = true →
        s.claimsBefore p (s.ev.idx, r) = false
  | .placement => s.serving = true ∧ Tab.wf none s.belfry.recs = true ∧ ∃ x, s.nextPlaced = some x
  | .gangStart => ∃ r, s.rec? s.ev.idx = some r ∧ r.st = .place ∧ s.restoring s.ev.idx = false ∧ r.prefetch = [] ∧
      s.primed r = true
  | .prefetchFault => ∃ r, s.rec? s.ev.idx = some r ∧ r.st = .place ∧ s.restoring s.ev.idx = false ∧ s.streamDead r = true
  | .preemptRequest => s.serving = true ∧ s.belfry.nopre = false ∧ ∃ e r vs, s.topRecord = some (e, r) ∧
      r.victims.any s.standing = false ∧
      s.place? e r = none ∧ s.addVictims e r [] (s.candidates e r) = some vs
  | .threadStopSave =>
    let t := s.thread s.ev.tid
    s.mayStop s.ev.tid = true ∧ (t.stopNow = true ∨ t.blocked = true ∨ t.frc = true) ∧
      ∃ r, s.rec? t.gang = some r ∧ s.areaOk r false = true ∧ s.areaWaits r = false
  | .preemptForceExpire =>
    let t := s.thread s.ev.tid
    s.mayStop s.ev.tid = true ∧ t.stopNow = false ∧ t.frc = false ∧ 20 * usTicks ≤ s.now - t.prqAt
  | .gangSaved => ∃ r, s.rec? s.ev.idx = some r ∧ r.st = .stop ∧ s.areaOk r false = true ∧ s.areaWaits r = false ∧
      (∀ x ∈ r.seats, (s.thread x.tid).gang = s.ev.idx → (s.thread x.tid).live = false ∧
        ((s.thread x.tid).stopped = true → s.quietStop x.tid = true)) ∧
      ∃ x ∈ r.seats, (s.thread x.tid).gang = s.ev.idx ∧ (s.thread x.tid).stopped = true
  | .saveRestoreFail => ∃ r, s.rec? s.ev.idx = some r ∧
      (r.st = .stop ∧ s.areaOk r false = false ∨ r.st = .place ∧ s.restoring s.ev.idx = true ∧ s.areaOk r true = false)
  | .recordComplete => s.belfry.words = [] ∧ ∃ r a b, s.rec? s.ev.idx = some r ∧ r.st = .ending a b ∧
      (noWord r.bits = true ∨ s.gangQuiet s.ev.idx r = true ∧ (recRmt r.bits = true ∨ s.wordWaits (recCplw r.bits) = false))
  | _ => False

def schedDone (s t : State) (i : Instr) : Prop :=
  let e := s.ev.idx
  match i with
  | .recordTake => ∀ q, s.nextQueue = some q →
    let k := s.queue q
    let r := headRec s q
    (headFails s q → t.queue q = { k with st := .error, lasterr := 12 } ∧ SameMem s t) ∧
    (¬headFails s q → headWaits s q → t = s) ∧
    (¬headFails s q → ¬headWaits s q → ∀ code, recCheck k r = some code →
      (t.queue q).rej = satAdd16 k.rej 1 ∧ (t.queue q).head = k.head + 1 ∧ (∀ e, s.rec? e = none → t.rec? e = none) ∧
        (recRmt r = false → (t.queue q).lasterr = BitVec.ofNat 8 code)) ∧
    (¬headFails s q → ¬headWaits s q → recCheck k r = none → (passed s q).fitsIdle r = true →
      selfDep r = false → s.deadDep r = false →
      (t.queue q).head = k.head + 1 ∧ ∃ x, t.rec? s.belfry.nextRec = some x ∧ x.bits = r ∧ x.q = q ∧ x.taken = s.now ∧
        x.prio = min (recPrio r) k.qprio.toNat ∧
        x.st = if ∀ i < recNdep r, s.depPasses r i = true then .ready else .wait)
  | .dependencePass => ∀ r, s.rec? e = some r →
    (s.deadDep r.bits = true → Ending s t e 3 18) ∧
    (s.deadDep r.bits = false → (∀ i < recNdep r.bits, s.depPasses r.bits i = true) →
      ∃ p, t.rec? e = some { r with passed := p, st := .ready, since := s.now })
  | .dependenceTimeout => Ending s t e 3 17
  | .claimFormed => ∀ r, s.rec? e = some r → t.rec? e = some { r with claim := s.claimTarget e r }
  | .placement => ∀ e r seats, s.nextPlaced = some (e, r, seats) →
      ∃ x, t.rec? e = some x ∧ x.bits = r.bits ∧ x.st = .place ∧ x.seats = seats ∧ x.claim = none ∧ x.victims = [] ∧
        x.keptH = [] ∧ x.keptB = [] ∧ x.keptG = []
  | .gangStart => ∀ r, s.rec? e = some r → t.rec? e = some { r with st := .run, started := s.now } ∧
      (∀ x ∈ r.seats, (t.thread x.tid).live = true) ∧ SameMem s t
  | .prefetchFault => Ending s t e 1 29
  | .preemptRequest => ∀ e r vs, s.topRecord = some (e, r) → s.addVictims e r [] (s.candidates e r) = some vs →
      let vs := s.dropVictims e r vs
      (∀ v ∈ vs, ∀ x, t.rec? v = some x → x.st = .stop) ∧ (e ∉ vs → ∃ x, t.rec? e = some x ∧ x.victims = vs)
  | .threadStopSave =>
    let th := s.thread s.ev.tid
    (t.thread s.ev.tid).live = false ∧ (t.thread s.ev.tid).stopped = true ∧
      (s.quietStop s.ev.tid = true → (Tab.get none t.saves (saveKey th.gang th.rank)).isSome = true)
  | .preemptForceExpire => (t.thread s.ev.tid).frc = true ∧ t.belfry.forced = satAdd16 s.belfry.forced 1 ∧ SameMem s t
  | .gangSaved => ∀ r, s.rec? e = some r → t.rec? e = some { r with st := .saved, since := s.now, claim := none, victims := r.victims.erase e } ∧
      t.belfry.preempt = satAdd16 s.belfry.preempt 1
  | .saveRestoreFail => Ending s t e 1 51
  | .recordComplete => ∀ r a b, s.rec? e = some r → r.st = .ending a b →
    let k := (s.queue r.q).conn.toNat
    (recRmt r.bits = true → k ≠ 0 → (s.conn k).st = .opened → t.rec? e = some { r with st := .posted }) ∧
    (recRmt r.bits = true → k = 0 ∨ (s.conn k).st ≠ .opened → t.rec? e = none) ∧
    (recRmt r.bits = false → t.rec? e = none ∧
      (recCplw r.bits ≠ 0 → inMemory (recCplw r.bits) 8 = true → plainLine s (recCplw r.bits) →
        s.wordFails (recCplw r.bits) = false →
        t.homeNum (recCplw r.bits) 8 = max (s.homeNum (recCplw r.bits) 8)
            (word (a + 256 * (b % 256) + 2 ^ 32 * recCseq r.bits)).toNat ∧
          MemOutside s t (recCplw r.bits) 8) ∧ (s.wordFails (recCplw r.bits) = true → SameMem s t))
  | _ => False

end Sys2Proof.Say

/-- A message that is next in order on an open connection is performed and answered: POST appends, READ and WRITE and the
ATOMICs act at the home slice, a COMPLETION settles its request, an ACK frees what it acknowledges, and the management
operations open, close, attest, read the black box, ask for a reset, and set the key (R27 to R42, R63, R64, R73; log entry 85
for the 8 bytes of FADD.S, the number that an OPEN gets and the order of its refusals, log entry 115 for a KEY on an OWNER
connection). A packet that is not the last joins its message; a message that its connection does not reach gets ADDRESS, and
one that a window's key or permission stops gets KEY (log entry 115 for one that both stop), and performs nothing. The rest of
the port's events answer acknowledgements, timers and frames as R26, R28, R30, R35 and R42 give. -/
def Obligations.MessagesAndPortEvents : Prop :=
  (∀ (i : Instr) (p : Packet) (s : State), messageReady s p i → Does i s fun t => messageDone s t p i) ∧
  (∀ (p : Packet) (s : State), nextPacket s p → p.last = false →
    (p.typ = 2 → Does .write s fun t => Joined s t p) ∧ (p.typ = 4 → Does .completion s fun t => Joined s t p)) ∧
  (∀ (i : Instr) (p : Packet) (s : State) (len : Nat), served s p → reaches (whole s p) len i →
    (∀ op, atomicCode i = some op → (whole s p).op.toNat = op) →
      (¬inReach s (whole s p) len → Does i s fun t => TurnedAway s t (whole s p) 1) ∧
      (inReach s (whole s p) len → ¬unlocked s (whole s p) → Does i s fun t => TurnedAway s t (whole s p) 2)) ∧
  ∀ (i : Instr) (s : State), portReady s i → Does i s fun t => portDone s t i

/-- Stores and loads of the register space: fields, committed pairs, queue enables, cancels, read-to-clear counters, the
access fault of an unassigned offset, which in M mode ends the gang FAULT (R17, R22, R41, R43, R54, R67, R69, R75, R98, R99,
R129, R152, R430). XLINV has no other effect than to wait, since the model keeps no cached translation (log entry 11); a store to
it by a thread waits while a pin that it matches is held (`xlinvWaits`: R151, R152, log entries 11 and 93), and then goes on. -/
def Obligations.RegisterAccesses : Prop :=
  (∀ (i : Instr) (s : State), accessReady s i → Does i s fun t => accessDone s t i) ∧
  ∀ (s : State) (rs1 rs2 : Reg) (off : BitVec 12) (pa : Nat),
    s.place .write storeCauses (s.rd rs1 + off.signExtend 64) 8 false false = .dev pa →
      devAccess pa 8 = some (.xlinv, true, true) → s.fenceWaits = false →
        Does (.scalarStore .sd rs1 rs2 off) s fun t =>
          if s.xlinvWaits (s.rd rs2).toNat then OnlyMe s t ∧ SameRegs s t ∧ t.me.pc = s.me.pc ∧ t.me.mode = s.me.mode
          else Advances s t

/-- The events of the scheduler: records taken and checked, dependences, timeouts, claims, placement, starting, pre-emption,
saving, and completion words (R74, R76, R78 to R82, R84, R85, R89, R94, R95). The model's choices are a dependence of KIND 0 (log
entry 84), the cores of a restored gang (log entry 98), the dependence word that cannot be read (log entry 106), the completion
word that cannot be written (log entry 108), a slot behind a failed adjacency (log entry 113), and a claim's target that has
become too narrow (log entry 116). -/
def Obligations.SchedulerEvents : Prop :=
  ∀ (i : Instr) (s : State), schedReady s i → Does i s fun t => schedDone s t i

namespace Sys2Proof.Say

open Sys2Proof Sys2Proof.Machine

/-! Words, steps, reset and what every step keeps. -/

/-- Thread `tid` may issue: it lives, holds no YIELD, and the turn at the head of the agenda is its own. -/
def threadTurnAt (s : State) (tid : Nat) (rest : List Turn) : Prop :=
  s.agenda = .thread tid :: rest ∧ s.issues tid = true ∧ (s.thread tid).yielded = false

/-- The state in which the thread's instruction is fetched. -/
def onTurn (s : State) (tid : Nat) (rest : List Turn) : State := { s with agenda := rest, cur := tid }

/-- The two bytes at `va` lie at `pa` and are there to be fetched. -/
def halfAt (u : State) (va : Word) (pa : Nat) : Prop := u.halfPa va = .ok pa

/-- No trap is due when `i` issues: none of the thread's own, of its queue or of a tile or stream that `i` names (R126). -/
def noTrapDue (v : State) (i : Instr) : Prop :=
  let t := v.me.markDue i (if v.me.engTraps.isEmpty then [] else handlesOf i ++ v.recordHandles i)
  (t.mayTrap && t.nextTrap.isSome) = false

/-- The queue of thread `tid` may run and its banks `bs` stand together at the convoy of bank run `r` of block `b`. -/
def banksTurnAt (s : State) (tid : Nat) (bs : List Nat) (rest : List Turn) (b : Block) (r : BankRun) : Prop :=
  s.agenda = .banks tid bs :: rest ∧
    let u := ({ s with agenda := rest } : State).beginBlock tid
    (u.thread tid).vq.head? = some b ∧ (bs.head?.bind fun k => (u.thread tid).banks.lookup k) = some r ∧
      u.vectorRuns tid = true ∧ u.together tid (bs.headD 0) = some bs ∧
      ∀ p, (u.thread tid).laneBad = some p → bs.contains p.1 = false

end Sys2Proof.Say

/-- A few words written out from the encoding tables decode to their instructions: scalar words of each map, a compressed one,
and vector words (R244 to R256). -/
def Obligations.WordsDecode : Prop :=
  (decode32 0x7775228B = .vsetvli 5 10 0x777 ∧ decode32 0x0005900B = .vfetch 11 0 ∧ decode32 0x1002060B = .vget 12 4 ∧
    decode32 0x1606008B = .cbcmpLt 1 12 0 ∧ decode32 0x0A00000B = .vqdrain ∧ decode32 0x0A01005B = .scfence 2 ∧
    decode32 0x0201805B = .bararrive 3 ∧ decode32 0x1CB5065B = .sqres 12 10 11 ∧ decode32 0x3E0807DB = .attn 15 16 ∧
    decode32 0x02B5207B = .mmissue 10 11 ∧ decode32 0x00000073 = .ecall ∧
    decode32 0x00C58533 = .baseInstruction (.alu .add 10 11 12) ∧ decode32 0xFFFFFFFF = .illegalInstruction 0xFFFFFFFF) ∧
  decode16 0x0001 = .baseInstruction (.imm .addi 0 0 0) ∧
  (decode64 0x0003320077780000 =
      .vadd { c := 0, fn := 0, vd := 3, va := 3, vb := 2, mk := 0, mi := 0, ms := 0, se := 0, wa := 7, wb := 7, wd := 7
              wo := 1, gs := 0, so := 0, imm := 0 } ∧
    decode64 0x2A00200000000001 =
      .vany { c := 0, fn := 0, vd := 0, va := 2, vb := 0, mk := 0, mi := 0, ms := 0, se := 0, wa := 0, wb := 0, wd := 0
              wo := 0, gs := 0, so := 0, imm := 1 })

/-- Every well-formed instruction that has a word is what its word decodes to, scalar and vector: no bit of an operand is
dropped by the encoding (R244 to R257). -/
def Obligations.EncodedWordsDecodeBack : Prop :=
  ∀ i : Instr, i.wf = true →
    (∀ w, encode32 i = some w → decode32 w = i) ∧ (∀ w, encode64 i = some w → decode64 w = i)

/-- A step at a thread's turn executes what the bytes at its pc decode to, with the pc of the next instruction after it and the
instruction bits latched; a step at a turn of banks executes the word of a one-word convoy; a step at a turn of an event or a
packet executes that event (R92, R102, R108 to R110; log entry 1 for the turns). -/
def Obligations.StepRunsTheDecodedInstruction : Prop :=
  (∀ (s : State) (tid : Nat) (rest : List Turn) (p0 : Nat) (i : Instr) (n : Nat), threadTurnAt s tid rest →
    let u := onTurn s tid rest
    halfAt u u.me.pc p0 →
    let u1 := u.icFill (coreOf tid) p0
    let lo := u1.icBytes (coreOf tid) p0 2
    (leNat lo % 4 ≠ 3 → decodeBytes lo = .ok (i, n) →
      let v := u1.latch lo n
      noTrapDue v (v.resolve i) → step s = exec (v.resolve i) v ∧ v.me.pc = u.me.pc ∧ v.me.npc = u.me.pc + word n) ∧
    (∀ p1 : Nat, leNat lo % 4 = 3 → halfAt u1 (u.me.pc + 2) p1 →
      let u2 := u1.icFill (coreOf tid) p1
      let bs := lo ++ u2.icBytes (coreOf tid) p1 2
      decodeBytes bs = .ok (i, n) →
      let v := u2.latch bs n
      noTrapDue v (v.resolve i) → step s = exec (v.resolve i) v ∧ v.me.pc = u.me.pc ∧ v.me.npc = u.me.pc + word n)) ∧
  (∀ (s : State) (tid : Nat) (bs : List Nat) (rest : List Turn) (b : Block) (r : BankRun) (w : BitVec 64),
    banksTurnAt s tid bs rest b r →
    let u := ({ s with agenda := rest } : State).beginBlock tid
    let u1 := u.vecFill tid b.mmode r.pc
    let a := (u.thread tid).actOf tid bs b r
    u.convoy tid b.mmode 4 r.pc = [some w] → convoyBad r.div b.snap.vw 1 0 [] [w] = none →
    ∀ x, exec (decode64 w) { u1 with act := a } = .next x →
      step s = .next { x.afterConvoy u1 tid b r [w] a.draw with act := {} }) ∧
  (∀ (s : State) (i : Instr) (ev : Ev) (rest : List Turn), s.agenda = .event i ev :: rest → i ≠ .trapTake →
    s.admits i = true → step s = exec i { s with agenda := rest, ev }) ∧
  ∀ (s : State) (p : Packet) (rest : List Turn), s.agenda = .packet p :: rest → s.admits (rowOf p) = true →
    step s = exec (rowOf p) { s with agenda := rest, ev := { pkt := some p } }

/-- After reset the module stands before power-on: DEVST, the queue registers and the die registers read zero, no task, no
connection and no queue lives, every x register is zero, vl 0, vw 0x777, vslip 4, vqlim 64, vxstat 0, the flag indices and ffst
all ones, cb 0x1 (R60, R66, R67, R90, R259); memory lists nothing and is canonical (log entries 8 and 10 for the x registers
and for what an unlisted byte reads as). -/
def Obligations.ResetState : Prop :=
  let s := State.reset
  Memory.wf s.mem = true ∧ (∀ a, Memory.read s.mem a = 0) ∧ s.camp.power = false ∧ s.devst = 0 ∧
    (∀ q, (s.queue q).st = .off ∧ s.devValue (.queue q 0) = 0 ∧ s.devValue (.queue q 1) = 0 ∧
      s.devValue (.queue q 2) = 0 ∧ s.devValue (.queue q 3) = 0 ∧ s.devValue (.queue q 4) = 0) ∧
    (∀ d < 4, s.devValue (.memhlth d) = 0 ∧ s.devValue (.chainst d) = 0) ∧ s.devValue .schst = 0 ∧
    s.devValue .portst = 0 ∧ (∀ tid, (s.thread tid).live = false) ∧ (∀ c, (s.conn c).st = .closed) ∧
    ∀ tid, let t := s.thread tid
      (∀ r : Reg, t.getX r = 0) ∧ t.csr.vl = 0 ∧ t.csr.vw = 0x777 ∧ t.csr.vslip = 4 ∧ t.csr.vqlim = 64 ∧ t.csr.vxstat = 0 ∧
        (∀ k : Fin 8, t.csr.fidx[k] = 0xFFFFFFFF) ∧ t.csr.vround = 0 ∧ t.csr.ffst = 0xFFFFFFFF ∧
        t.csr.vlive = 0xFFFFFFFF00FFFFFF ∧ t.csr.rngkey = 0 ∧ t.csr.rngctr = 0 ∧ t.csr.cb = 1 ∧ t.csr.wcnt = 0 ∧
        t.csr.mtrapx = 0 ∧ t.csr.vptbase = 0 ∧ t.csr.vasid = 0

/-- Every step keeps memory canonical: from any state whose memory is, a step leaves memory so (log entry 10). -/
def Obligations.StepKeepsMemoryCanonical : Prop :=
  ∀ s t : State, Memory.wf s.mem = true → step s = .next t → Memory.wf t.mem = true
end

