-- ==== Sys2Proof/Laws/Tab.lean ====
section
/-! SUPPORT. Laws of sparse tables and of memory: what a read answers after a write, and that every operation keeps the
canonical form. -/

namespace Sys2Proof.Machine

section
variable {α : Type}

@[simp] theorem Tab.get_nil (d : α) (k : Nat) : Tab.get d [] k = d := rfl

theorem Tab.get_cons (d : α) (k' k : Nat) (v : α) (r : Tab α) :
    Tab.get d ((k', v) :: r) k = if k' = k then v else Tab.get d r k := rfl

theorem Tab.get_erase_same (d : α) (t : Tab α) (k : Nat) : Tab.get d (Tab.erase t k) k = d := by
  induction t with
  | nil => rfl
  | cons p r ih =>
    obtain ⟨k', v⟩ := p
    by_cases h : k' = k
    · simp [Tab.erase, h, ih]
    · simp [Tab.erase, h, Tab.get_cons, ih]

theorem Tab.get_erase_other (d : α) (t : Tab α) {j k : Nat} (h : j ≠ k) :
    Tab.get d (Tab.erase t k) j = Tab.get d t j := by
  induction t with
  | nil => rfl
  | cons p r ih =>
    obtain ⟨k', v⟩ := p
    by_cases hk : k' = k
    · have : k' ≠ j := by omega
      simp [Tab.erase, hk, Tab.get_cons, ih, hk ▸ this]
    · simp [Tab.erase, hk, Tab.get_cons, ih]

theorem Tab.get_insert_same (d : α) (t : Tab α) (k : Nat) (v : α) : Tab.get d (Tab.insert t k v) k = v := by
  induction t with
  | nil => simp [Tab.insert, Tab.get_cons]
  | cons p r ih =>
    obtain ⟨k', v'⟩ := p
    simp only [Tab.insert]
    split
    · simp [Tab.get_cons]
    · split
      · simp [Tab.get_cons]
      · simp [Tab.get_cons, *]

theorem Tab.get_insert_other (d : α) (t : Tab α) {j k : Nat} (v : α) (h : j ≠ k) :
    Tab.get d (Tab.insert t k v) j = Tab.get d t j := by
  induction t with
  | nil => simp [Tab.insert, Tab.get_cons, Ne.symm h]
  | cons p r ih =>
    obtain ⟨k', v'⟩ := p
    simp only [Tab.insert]
    split
    · simp [Tab.get_cons, Ne.symm h]
    · split
      · rename_i hk
        subst hk
        simp [Tab.get_cons, Ne.symm h]
      · simp [Tab.get_cons, ih]

/-- A read after a write of a sparse table. -/
theorem Tab.get_set [DecidableEq α] (d : α) (t : Tab α) (k j : Nat) (v : α) :
    Tab.get d (Tab.set d t k v) j = if j = k then v else Tab.get d t j := by
  unfold Tab.set
  by_cases h : j = k
  · subst h
    by_cases hv : v = d
    · simp [hv, Tab.get_erase_same]
    · simp [hv, Tab.get_insert_same]
  · by_cases hv : v = d
    · simp [hv, h, Tab.get_erase_other d t h]
    · simp [hv, h, Tab.get_insert_other d t v h]

@[simp] theorem Tab.get_set_same [DecidableEq α] (d : α) (t : Tab α) (k : Nat) (v : α) :
    Tab.get d (Tab.set d t k v) k = v := by simp [Tab.get_set]

theorem Tab.get_set_other [DecidableEq α] (d : α) (t : Tab α) {j k : Nat} (v : α) (h : j ≠ k) :
    Tab.get d (Tab.set d t k v) j = Tab.get d t j := by simp [Tab.get_set, h]

theorem Tab.get_upd [DecidableEq α] (d : α) (t : Tab α) (k j : Nat) (f : α → α) :
    Tab.get d (Tab.upd d t k f) j = if j = k then f (Tab.get d t k) else Tab.get d t j := by
  simp [Tab.upd, Tab.get_set]

/-! The canonical form. -/

variable [DecidableEq α]

theorem Tab.wfFrom_mono (d : α) (t : Tab α) {lo lo' : Nat} (h : lo' ≤ lo) (hw : Tab.wfFrom d lo t = true) :
    Tab.wfFrom d lo' t = true := by
  cases t with
  | nil => rfl
  | cons p r =>
    obtain ⟨k, v⟩ := p
    simp only [Tab.wfFrom, Bool.and_eq_true, decide_eq_true_eq] at hw ⊢
    exact ⟨⟨Nat.le_trans h hw.1.1, hw.1.2⟩, hw.2⟩

theorem Tab.wfFrom_erase (d : α) (t : Tab α) (lo k : Nat) (hw : Tab.wfFrom d lo t = true) :
    Tab.wfFrom d lo (Tab.erase t k) = true := by
  induction t generalizing lo with
  | nil => rfl
  | cons p r ih =>
    obtain ⟨k', v⟩ := p
    simp only [Tab.wfFrom, Bool.and_eq_true, decide_eq_true_eq] at hw
    by_cases h : k' = k
    · simp only [Tab.erase, h, if_true]
      exact ih lo (Tab.wfFrom_mono d r (by omega) hw.2)
    · simp only [Tab.erase, h, if_false, Tab.wfFrom, Bool.and_eq_true, decide_eq_true_eq]
      exact ⟨hw.1, ih _ hw.2⟩

theorem Tab.wfFrom_insert (d : α) (t : Tab α) (lo k : Nat) (v : α) (hv : v ≠ d) (hk : lo ≤ k)
    (hw : Tab.wfFrom d lo t = true) : Tab.wfFrom d lo (Tab.insert t k v) = true := by
  induction t generalizing lo with
  | nil => simp [Tab.insert, Tab.wfFrom, hv, hk]
  | cons p r ih =>
    obtain ⟨k', v'⟩ := p
    simp only [Tab.wfFrom, Bool.and_eq_true, decide_eq_true_eq] at hw
    simp only [Tab.insert]
    split
    · simp only [Tab.wfFrom, Bool.and_eq_true, decide_eq_true_eq]
      exact ⟨⟨hk, hv⟩, ⟨by omega, hw.1.2⟩, hw.2⟩
    · split
      · rename_i h
        subst h
        simp only [Tab.wfFrom, Bool.and_eq_true, decide_eq_true_eq]
        exact ⟨⟨hk, hv⟩, hw.2⟩
      · simp only [Tab.wfFrom, Bool.and_eq_true, decide_eq_true_eq]
        exact ⟨hw.1, ih _ (by omega) hw.2⟩

/-- A write keeps the canonical form of a sparse table. -/
theorem Tab.wf_set (d : α) (t : Tab α) (k : Nat) (v : α) (hw : Tab.wf d t = true) : Tab.wf d (Tab.set d t k v) = true := by
  unfold Tab.set
  split
  · exact Tab.wfFrom_erase d t 0 k hw
  · exact Tab.wfFrom_insert d t 0 k v ‹_› (Nat.zero_le _) hw

end

/-! Memory. -/

/-- A read after a write of memory. -/
theorem Memory.read_write (m : List Host.Cell) (a k : Nat) (b : Byte) :
    Memory.read (Memory.write m a b) k = if k = a then b else Memory.read m k :=
  Tab.get_set Memory.empty m a k b

theorem Memory.wf_nil : Memory.wf [] = true := rfl

/-- A write of one byte keeps memory canonical. -/
theorem Memory.wf_write (m : List Host.Cell) (a : Nat) (b : Byte) (h : Memory.wf m = true) :
    Memory.wf (Memory.write m a b) = true := Tab.wf_set _ _ _ _ h

/-- A write of a run of bytes keeps memory canonical. -/
theorem Memory.wf_writeList (m : List Host.Cell) (a : Nat) (bs : List Byte) (h : Memory.wf m = true) :
    Memory.wf (Memory.writeList m a bs) = true := by
  induction bs generalizing m a with
  | nil => exact h
  | cons b bs ih => exact ih _ _ (Memory.wf_write m a b h)

/-- A byte outside the written run is as before. -/
theorem Memory.read_writeList_other (m : List Host.Cell) (a : Nat) (bs : List Byte) (k : Nat)
    (h : k < a ∨ a + bs.length ≤ k) : Memory.read (Memory.writeList m a bs) k = Memory.read m k := by
  induction bs generalizing m a with
  | nil => rfl
  | cons b bs ih =>
    simp only [List.length_cons] at h
    rw [Memory.writeList, ih _ _ (by omega), Memory.read_write]
    simp [show k ≠ a by omega]

/-- A byte of the written run is what was written. -/
theorem Memory.read_writeList_at (m : List Host.Cell) (a : Nat) (bs : List Byte) (i : Nat) (h : i < bs.length) :
    Memory.read (Memory.writeList m a bs) (a + i) = bs[i] := by
  induction bs generalizing m a i with
  | nil => simp at h
  | cons b bs ih =>
    rw [Memory.writeList]
    cases i with
    | zero =>
      rw [Nat.add_zero, Memory.read_writeList_other _ _ _ _ (by omega), Memory.read_write]
      simp
    | succ i =>
      have := ih (Memory.write m a b) (a + 1) i (by simpa using h)
      simpa [Nat.add_assoc, Nat.add_comm 1 i] using this

@[simp] theorem Memory.readList_length (m : List Host.Cell) (a n : Nat) : (Memory.readList m a n).length = n := by
  induction n generalizing a with
  | zero => rfl
  | succ n ih => simp [Memory.readList, ih]

/-- A run reads back as written. -/
theorem Memory.readList_writeList (m : List Host.Cell) (a : Nat) (bs : List Byte) :
    Memory.readList (Memory.writeList m a bs) a bs.length = bs := by
  induction bs generalizing m a with
  | nil => rfl
  | cons b bs ih =>
    simp only [List.length_cons, Memory.readList, Memory.writeList]
    rw [ih, Memory.read_writeList_other _ _ _ _ (by omega), Memory.read_write]
    simp

end Sys2Proof.Machine
end

