-- ==== Sys2Proof/Laws/Memory.lean ====
section
/-! SUPPORT. What the operations on memory do: every one keeps memory canonical, and a write to a line that holds no barrier,
descriptor or block table changes the bytes it names and no other. -/

namespace Sys2Proof.Machine

/-! Memory stays canonical. -/

@[simp] theorem State.mem_observe (s : State) (d l : Nat) : (s.observe d l).mem = s.mem := by
  unfold State.observe
  split <;> rfl

@[simp] theorem State.mem_stampLine (s : State) (l : Nat) (c : Vector (BitVec 24) 4) : (s.stampLine l c).mem = s.mem := rfl
@[simp] theorem State.mem_sendFlit (s : State) (d : Nat) (f : Flit) : (s.sendFlit d f).mem = s.mem := rfl
@[simp] theorem State.mem_setDie (s : State) (d : Nat) (x : Die) : (s.setDie d x).mem = s.mem := rfl
@[simp] theorem State.mem_updDie (s : State) (d : Nat) (f : Die → Die) : (s.updDie d f).mem = s.mem := rfl
@[simp] theorem State.mem_loseResv (s : State) (l t : Nat) : (s.loseResv l t).mem = s.mem := rfl
@[simp] theorem State.mem_writeBack (s : State) (l : Nat) : (s.writeBack l).mem = s.mem := rfl

@[simp] theorem State.mem_keepBacking (s : State) (l : Nat) : (s.keepBacking l).mem = s.mem := by
  unfold State.keepBacking
  split <;> rfl

@[simp] theorem State.mem_wakeBar (s : State) (l : Nat) (b : Bar) (x : Bool) : (s.wakeBar l b x).mem = s.mem := rfl

@[simp] theorem State.mem_takeOwned (s : State) (owns : List (Nat × Nat)) : (s.takeOwned owns).mem = s.mem := by
  unfold State.takeOwned
  split <;> rfl

theorem State.wf_writeImage (s : State) (l : Nat) (b : Bar) (x : Bool) (h : Memory.wf s.mem = true) :
    Memory.wf (s.writeImage l b x).mem = true := by
  refine Memory.wf_writeList _ _ _ ?_
  simpa using h

theorem State.wf_breakBar (s : State) (l : Nat) (h : Memory.wf s.mem = true) : Memory.wf (s.breakBar l).mem = true := by
  unfold State.breakBar
  split
  · exact h
  · rw [State.mem_wakeBar]
    exact State.wf_writeImage s l _ _ h

/-- What a fold keeps if each of its steps does. -/
theorem foldl_keeps {α β γ : Type} (p : β → γ) (f : β → α → β) (hf : ∀ s a, p (f s a) = p s) (l : List α) (s : β) :
    p (l.foldl f s) = p s := by
  induction l generalizing s with
  | nil => rfl
  | cons a l ih => exact (ih _).trans (hf s a)

@[simp] theorem State.mem_wakeWaiters (s : State) (d : Nat) : (s.wakeWaiters d).mem = s.mem := by
  unfold State.wakeWaiters
  dsimp only
  split
  · exact foldl_keeps State.mem _ (fun s p => State.mem_observe s _ _) _ _
  · rfl

@[simp] theorem State.mem_setRec (s : State) (e : Nat) (r : Option Rec) : (s.setRec e r).mem = s.mem := rfl

@[simp] theorem State.mem_evalDeps (s : State) (e : Nat) : (s.evalDeps e).mem = s.mem := by
  unfold State.evalDeps
  split
  · rfl
  · split <;> rfl

@[simp] theorem State.mem_watch (s : State) (k pa n : Nat) : (s.watch k pa n).mem = s.mem :=
  foldl_keeps State.mem (fun s (p : Nat × Rec) => s.evalDeps p.1) (fun s p => State.mem_evalDeps s p.1) _ _

theorem State.wf_breakSeq (s : State) (d : Nat) (h : Memory.wf s.mem = true) : Memory.wf (s.breakSeq d).mem = true := by
  simpa [State.breakSeq] using Memory.wf_write _ _ _ h

theorem State.wf_breakTable (s : State) (d : Nat) (h : Memory.wf s.mem = true) : Memory.wf (s.breakTable d).mem = true :=
  Memory.wf_write _ _ _ h

theorem State.wf_entryStore (s : State) (pa : Nat) (old new : Word) (h : Memory.wf s.mem = true) :
    Memory.wf (s.entryStore pa old new).mem = true := by
  unfold State.entryStore
  split
  · exact h
  · dsimp only
    split
    · exact h
    · exact State.wf_breakSeq _ _ h

theorem State.wf_beforeWrite (s : State) (l t : Nat) (h : Memory.wf s.mem = true) :
    Memory.wf (s.beforeWrite l t).mem = true := by
  simpa [State.beforeWrite] using State.wf_breakBar s l h

/-- What a fold keeps if each of its steps does. -/
theorem wf_foldl {α : Type} (f : State → α → State) (l : List α) (s : State) (h : Memory.wf s.mem = true)
    (hf : ∀ s a, Memory.wf s.mem = true → Memory.wf (f s a).mem = true) : Memory.wf (l.foldl f s).mem = true := by
  induction l generalizing s with
  | nil => exact h
  | cons a l ih => exact ih _ (hf s a h)

theorem State.wf_homeWrite (s : State) (tid pa : Nat) (bytes : List Byte) (h : Memory.wf s.mem = true) :
    Memory.wf (s.homeWrite tid pa bytes).mem = true := by
  unfold State.homeWrite
  dsimp only
  rw [State.mem_watch]
  refine wf_foldl _ _ _ ?_ fun s a h => State.wf_entryStore _ _ _ _ h
  have h1 : Memory.wf (Memory.writeList (s.beforeWrite (lineOf pa) tid).mem pa bytes) = true :=
    Memory.wf_writeList _ _ _ (State.wf_beforeWrite s _ tid h)
  split <;> split
  · refine State.wf_breakTable _ _ (State.wf_breakSeq _ _ ?_)
    exact h1
  · refine State.wf_breakTable _ _ ?_
    exact h1
  · refine State.wf_breakSeq _ _ ?_
    exact h1
  · exact h1

theorem State.wf_writeHome (s : State) (tid pa : Nat) (bytes : List Byte) (h : Memory.wf s.mem = true) :
    Memory.wf (s.writeHome tid pa bytes).mem = true :=
  wf_foldl _ _ _ h fun s _ h => State.wf_homeWrite s _ _ _ h

@[simp] theorem State.mem_ageSeqs (s : State) (t : Nat) (n : BitVec 24) : (s.ageSeqs t n).mem = s.mem := by
  unfold State.ageSeqs
  split <;> rfl

theorem State.wf_homeMerge (s : State) (tid pa : Nat) (bytes mask : List Byte) (h : Memory.wf s.mem = true) :
    Memory.wf (s.homeMerge tid pa bytes mask).mem = true :=
  State.wf_homeWrite _ _ _ _ (State.wf_breakBar s _ h)

theorem State.wf_writeLine (s : State) (die tid pa : Nat) (bytes mask : List Byte) (org : Origin) (last : Bool)
    (h : Memory.wf s.mem = true) : Memory.wf (s.writeLine die tid pa bytes mask org last).mem = true := by
  unfold State.writeLine
  dsimp only
  split
  · rw [State.mem_stampLine]
    exact State.wf_homeMerge s _ _ _ _ h
  · rw [State.mem_ageSeqs, State.mem_sendFlit, State.mem_setDie]
    exact h

theorem State.wf_writeFrom (s : State) (die tid pa : Nat) (bytes : List Byte) (h : Memory.wf s.mem = true) :
    Memory.wf (s.writeFrom die tid pa bytes).mem = true :=
  wf_foldl _ _ _ h fun s _ h => State.wf_writeLine s _ _ _ _ _ _ _ h

/-- A store that leaves its thread, or its core, is in a buffer: memory is as before. -/
@[simp] theorem State.mem_performStore (s : State) (tid k : Nat) : (s.performStore tid k).mem = s.mem := by
  unfold State.performStore
  split <;> rfl

@[simp] theorem State.mem_promote (s : State) (core : Nat) : (s.promote core).mem = s.mem := by
  unfold State.promote
  split <;> rfl

@[simp] theorem State.mem_lastUse (s : State) (l : Nat) : (s.lastUse l).mem = s.mem := by
  unfold State.lastUse
  split <;> rfl

/-- A write that leaves its cluster changes its home, or goes into the die's outbound buffer. -/
theorem State.wf_apply (s : State) (clu : Nat) (h : Memory.wf s.mem = true) : Memory.wf (s.apply clu).mem = true := by
  unfold State.apply
  split
  · exact h
  · split
    · exact h
    · dsimp only
      split
      · rw [State.mem_lastUse]; exact State.wf_writeLine _ _ _ _ _ _ _ _ h
      · exact State.wf_writeLine _ _ _ _ _ _ _ _ h

theorem State.wf_discard (s : State) (t l : Nat) (h : Memory.wf s.mem = true) : Memory.wf (s.discard t l).mem = true := by
  unfold State.discard
  dsimp only
  split <;> exact State.wf_homeWrite s _ _ _ h

theorem State.wf_atomicAt (s : State) (tid pa n : Nat) (f : Nat → Nat) (h : Memory.wf s.mem = true) :
    Memory.wf (s.atomicAt tid pa n f).2.mem = true := by
  refine State.wf_homeWrite _ _ _ _ ?_
  simpa using State.wf_breakBar s _ h

theorem State.wf_atomicAt' (s : State) (die agent pa n : Nat) (f : Nat → Nat) (h : Memory.wf s.mem = true) :
    Memory.wf (s.atomicAt' die agent pa n f).2.mem = true := by
  refine State.wf_homeWrite _ _ _ _ ?_
  simpa using State.wf_breakBar s _ h

/-! A write to a plain line. -/

/-- A store to bytes that no live sequence's block table holds is a store like any other. -/
theorem State.entryStore_none (s : State) (pa : Nat) (old new : Word) (h : s.seqOfEntry pa = none) :
    s.entryStore pa old new = s := by
  simp [State.entryStore, h]

theorem foldl_entryStore_none (l : List (Nat × Word)) (s : State) (h : ∀ p ∈ l, s.seqOfEntry p.1 = none) :
    l.foldl (fun (s : State) p => s.entryStore p.1 p.2 (word (s.homeNum p.1 8))) s = s := by
  induction l with
  | nil => rfl
  | cons a l ih =>
    rw [List.foldl_cons, State.entryStore_none s _ _ _ (h a List.mem_cons_self),
      ih fun p hp => h p (List.mem_cons_of_mem _ hp)]

/-- Bytes apart from a write read as before it. -/
theorem Memory.readList_writeList_other (m : List Host.Cell) (a : Nat) (bs : List Byte) (k n : Nat)
    (h : k + n ≤ a ∨ a + bs.length ≤ k) : Memory.readList (Memory.writeList m a bs) k n = Memory.readList m k n := by
  induction n generalizing k with
  | zero => rfl
  | succ n ih =>
    rw [Memory.readList, Memory.readList, ih (k + 1) (by omega), Memory.read_writeList_other m a bs k (by omega)]

/-- A write within a line that no live descriptor lies in leaves every block table where it was. -/
theorem State.seqOfEntry_write (s u : State) (pa : Nat) (bytes : List Byte) (hu : u.seqs = s.seqs)
    (hm : u.mem = Memory.writeList s.mem pa bytes) (hl : s.seqOfLine (lineOf pa) = none) (hn : pa % 64 + bytes.length ≤ 64)
    (a : Nat) (h : s.seqOfEntry a = none) : u.seqOfEntry a = none := by
  simp only [State.seqOfEntry, State.seqOfLine, List.find?_eq_none, hu] at *
  intro d hd
  have h1 : ¬(d / 64 ≤ pa / 64 ∧ pa / 64 < d / 64 + 4) := fun h => hl d hd (by simp [lineOf, h.1, h.2])
  have e1 : u.homeNum (d + 24) 8 = s.homeNum (d + 24) 8 := by
    rw [State.homeNum, State.homeNum, hm, Memory.readList_writeList_other _ _ _ _ _ (by omega)]
  have e2 : u.homeNum (d + 32) 2 = s.homeNum (d + 32) 2 := by
    rw [State.homeNum, State.homeNum, hm, Memory.readList_writeList_other _ _ _ _ _ (by omega)]
  have h2 := h d hd
  rw [e1, e2]
  exact h2

@[simp] theorem State.seqs_keepBacking (s : State) (l : Nat) : (s.keepBacking l).seqs = s.seqs := by
  unfold State.keepBacking
  split <;> rfl

@[simp] theorem State.tables_keepBacking (s : State) (l : Nat) : (s.keepBacking l).tables = s.tables := by
  unfold State.keepBacking
  split <;> rfl

/-- Everything a write does to memory in a line that holds no barrier, and nothing of a live sequence or an index table: the
bytes it names. -/
theorem State.mem_homeWrite (s : State) (tid pa : Nat) (bytes : List Byte) (hb : Tab.get none s.bars (lineOf pa) = none)
    (hl : s.seqOfLine (lineOf pa) = none) (he : ∀ k < 8, s.seqOfEntry (lineOf pa * 64 + 8 * k) = none)
    (ht : s.tableOfLine (lineOf pa) = none) (hn : pa % 64 + bytes.length ≤ 64) :
    (s.homeWrite tid pa bytes).mem = Memory.writeList s.mem pa bytes := by
  have hbar : s.breakBar (lineOf pa) = s := by simp [State.breakBar, hb]
  have hseq (u : State) (hu : u.seqs = s.seqs) : u.seqOfLine (lineOf pa) = none := by
    rw [← hl]; simp [State.seqOfLine, hu]
  have htab (u : State) (hu : u.tables = s.tables) : u.tableOfLine (lineOf pa) = none := by
    rw [← ht]; simp [State.tableOfLine, hu]
  unfold State.homeWrite State.beforeWrite
  dsimp only
  rw [hbar]
  rw [hseq _ (by simp [State.loseResv])]
  dsimp only
  rw [htab _ (by simp [State.loseResv])]
  dsimp only
  rw [State.mem_watch, foldl_entryStore_none]
  · simp
  · intro p hp
    simp only [List.mem_map, List.mem_range, List.map_map] at hp
    obtain ⟨k, hk, rfl⟩ := hp
    refine State.seqOfEntry_write s _ pa bytes (by simp [State.loseResv]) (by simp) hl hn _ ?_
    have := he ((pa / 8 + k) - 8 * (pa / 64)) (by omega)
    have e : lineOf pa * 64 + 8 * ((pa / 8 + k) - 8 * (pa / 64)) = (pa / 8 + k) * 8 := by simp only [lineOf]; omega
    show s.seqOfEntry ((pa / 8 + k) * 8) = none
    rw [← e]; exact this

end Sys2Proof.Machine
end

