-- ==== Sys2Proof/Laws/PerInstr.lean ====
section
/-! SUPPORT. What holds of the words of every instruction, one lemma a constructor: a scalar word is a 32-bit encoding (R244),
and a vector word holds its opcode in bits [62:56] (R251). -/

namespace Sys2Proof.Laws.Encoding

open Sys2Proof

/-- The word of an instruction says its length and its opcode. -/
def Statement (i : Instr) : Prop :=
  (∀ w, encode32 i = some w → w.toNat % 4 = 3) ∧
    (∀ w, encode64 i = some w → i.vop.map BitVec.toNat = some (w.toNat / 2 ^ 56 % 128))

/-- An appended number, as a sum. -/
theorem toNat_append {m n : Nat} (a : BitVec m) (b : BitVec n) : (a ++ b).toNat = a.toNat * 2 ^ n + b.toNat := by
  rw [BitVec.toNat_append, ← Nat.shiftLeft_add_eq_or_of_lt b.isLt, Nat.shiftLeft_eq]

/-- The low two bits of a word are those of its major opcode. -/
theorem fields_low (f : Fields) : f.bits.toNat % 4 = f.op.toNat % 4 := by
  unfold Fields.bits
  rw [toNat_append]
  omega

/-- The opcode of a vector word is the one it was written with. -/
theorem vword_op (op : BitVec 7) (v : VWord) : (v.bits op).toNat / 2 ^ 56 % 128 = op.toNat := by
  unfold VWord.bits
  simp only [toNat_append]
  omega

/-- The vector half of the statement holds of every instruction. -/
theorem vector_half (i : Instr) (w : BitVec 64) (h : encode64 i = some w) :
    i.vop.map BitVec.toNat = some (w.toNat / 2 ^ 56 % 128) := by
  unfold encode64 at h
  unfold Instr.vop
  cases hv : i.vparts with
  | none => simp [hv] at h
  | some p =>
    simp only [hv, Option.map_some, Option.some.injEq] at h ⊢
    rw [← h, vword_op]

/-- An instruction with no scalar word, or whose scalar word has a 32-bit major opcode. -/
theorem of_fields (i : Instr) (h : ∀ f, i.fields = some f → f.op.toNat % 4 = 3) : Statement i := by
  refine ⟨fun w hw => ?_, vector_half i⟩
  unfold encode32 at hw
  cases hf : i.fields with
  | none => simp [hf] at hw
  | some f =>
    simp only [hf, Option.map_some, Option.some.injEq] at hw
    rw [← hw, fields_low, h f hf]

/-- Fields whose major opcode is given. -/
theorem some_op {f g : Fields} (hg : g.op.toNat % 4 = 3) (h : some g = some f) : f.op.toNat % 4 = 3 := by
  cases h
  exact hg

@[simp] theorem bFields_op (a b : Reg) (c : BitVec 3) (d : BitVec 12) (op : BitVec 7) : (bFields a b c d op).op = op := rfl
@[simp] theorem iFields_op (a : BitVec 12) (b : Reg) (c : BitVec 3) (d : Reg) (op : BitVec 7) : (iFields a b c d op).op = op := rfl
@[simp] theorem sFields_op (a : BitVec 12) (b c : Reg) (d : BitVec 3) (op : BitVec 7) : (sFields a b c d op).op = op := rfl
@[simp] theorem uFields_op (a : BitVec 20) (b : Reg) (op : BitVec 7) : (uFields a b op).op = op := rfl
@[simp] theorem jFields_op (a : BitVec 20) (b : Reg) : (jFields a b).op = 0x6F := rfl
@[simp] theorem rFields_op (a : BitVec 7) (b c : Reg) (d : BitVec 3) (e : Reg) (op : BitVec 7) :
    (rFields a b c d e op).op = op := rfl

/-- Every base instruction has a 32-bit major opcode. -/
theorem base_op (o : BaseOp) : o.fields.op.toNat % 4 = 3 := by
  cases o with
  | imm op _ _ _ => cases op <;> simp [BaseOp.fields, ImmOp.f3op]
  | shift op _ _ _ => cases op <;> simp [BaseOp.fields, ShiftOp.code]
  | alu op _ _ _ => cases op <;> simp [BaseOp.fields, AluOp.code]
  | unary op _ _ => cases op <;> simp [BaseOp.fields, UnaryOp.code]
  | _ => simp [BaseOp.fields]

theorem scalarLoad (k : LoadKind) (rd rs1 : Reg) (off : BitVec 12) : Statement (.scalarLoad k rd rs1 off) := of_fields _ fun _ h => some_op (by simp) h
theorem scalarStore (k : StoreKind) (rs1 rs2 : Reg) (off : BitVec 12) : Statement (.scalarStore k rs1 rs2 off) := of_fields _ fun _ h => some_op (by simp) h
theorem lr (dbl : Bool) (aq rl : Bool) (rd rs1 : Reg) : Statement (.lr dbl aq rl rd rs1) := of_fields _ fun _ h => some_op (by simp) h
theorem sc (dbl : Bool) (aq rl : Bool) (rd rs1 rs2 : Reg) : Statement (.sc dbl aq rl rd rs1 rs2) := of_fields _ fun _ h => some_op (by simp) h
theorem amo (op : AmoOp) (dbl aq rl : Bool) (rd rs1 rs2 : Reg) : Statement (.amo op dbl aq rl rd rs1 rs2) := of_fields _ fun _ h => some_op (by simp) h
theorem fence (pred succ : BitVec 4) : Statement (.fence pred succ) := of_fields _ fun _ h => some_op (by simp) h
theorem csrAccess (op : CsrOp) (rd src : Reg) (csr : BitVec 12) : Statement (.csrAccess op rd src csr) := of_fields _ fun _ h => some_op (by simp) h
theorem csrWriteVl (op : CsrOp) (rd src : Reg) : Statement (.csrWriteVl op rd src) := of_fields _ fun _ h => some_op (by simp) h
theorem csrWriteVw (op : CsrOp) (rd src : Reg) : Statement (.csrWriteVw op rd src) := of_fields _ fun _ h => some_op (by simp) h
theorem csrWriteVctx (op : CsrOp) (rd src : Reg) : Statement (.csrWriteVctx op rd src) := of_fields _ fun _ h => some_op (by simp) h
theorem csrWriteVqlim (op : CsrOp) (rd src : Reg) : Statement (.csrWriteVqlim op rd src) := of_fields _ fun _ h => some_op (by simp) h
theorem csrWriteWcnt (op : CsrOp) (rd src : Reg) : Statement (.csrWriteWcnt op rd src) := of_fields _ fun _ h => some_op (by simp) h
theorem csrAccessRng (op : CsrOp) (rd src : Reg) (csr : BitVec 12) : Statement (.csrAccessRng op rd src csr) := of_fields _ fun _ h => some_op (by simp) h
theorem vsetvl (rd rs1 : Reg) : Statement (.vsetvl rd rs1) := of_fields _ fun _ h => some_op (by simp) h
theorem vsetw (rd rs1 : Reg) : Statement (.vsetw rd rs1) := of_fields _ fun _ h => some_op (by simp) h
theorem vsetvli (rd rs1 : Reg) (w : BitVec 12) : Statement (.vsetvli rd rs1 w) := of_fields _ fun _ h => some_op (by simp) h
theorem vctx (rd rs1 : Reg) : Statement (.vctx rd rs1) := of_fields _ fun _ h => some_op (by simp) h
theorem vslip (rd rs1 : Reg) : Statement (.vslip rd rs1) := of_fields _ fun _ h => some_op (by simp) h
theorem vdrain (kinds scope : BitVec 3) : Statement (.vdrain kinds scope) := of_fields _ fun _ h => some_op (by simp) h
theorem vlive (rd rs1 rs2 : Reg) : Statement (.vlive rd rs1 rs2) := of_fields _ fun _ h => some_op (by simp) h
theorem vget (rd : Reg) (vs : BitVec 4) : Statement (.vget rd vs) := of_fields _ fun _ h => some_op (by simp) h
theorem vgetP (rd : Reg) (vs : BitVec 4) : Statement (.vgetP rd vs) := of_fields _ fun _ h => some_op (by simp) h
theorem cbcmpEq (cd rs1 rs2 : Reg) : Statement (.cbcmpEq cd rs1 rs2) := of_fields _ fun _ h => some_op (by simp) h
theorem cbcmpNe (cd rs1 rs2 : Reg) : Statement (.cbcmpNe cd rs1 rs2) := of_fields _ fun _ h => some_op (by simp) h
theorem cbcmpLt (cd rs1 rs2 : Reg) : Statement (.cbcmpLt cd rs1 rs2) := of_fields _ fun _ h => some_op (by simp) h
theorem cbcmpGe (cd rs1 rs2 : Reg) : Statement (.cbcmpGe cd rs1 rs2) := of_fields _ fun _ h => some_op (by simp) h
theorem cbcmpLtu (cd rs1 rs2 : Reg) : Statement (.cbcmpLtu cd rs1 rs2) := of_fields _ fun _ h => some_op (by simp) h
theorem cbcmpGeu (cd rs1 rs2 : Reg) : Statement (.cbcmpGeu cd rs1 rs2) := of_fields _ fun _ h => some_op (by simp) h
theorem cblogAnd (cd ca cb : Reg) : Statement (.cblogAnd cd ca cb) := of_fields _ fun _ h => some_op (by simp) h
theorem cblogOr (cd ca cb : Reg) : Statement (.cblogOr cd ca cb) := of_fields _ fun _ h => some_op (by simp) h
theorem cblogXor (cd ca cb : Reg) : Statement (.cblogXor cd ca cb) := of_fields _ fun _ h => some_op (by simp) h
theorem cblogAndn (cd ca cb : Reg) : Statement (.cblogAndn cd ca cb) := of_fields _ fun _ h => some_op (by simp) h
theorem cbget (rd : Reg) : Statement (.cbget rd) := of_fields _ fun _ h => some_op (by simp) h
theorem cbput (rs1 rs2 : Reg) : Statement (.cbput rs1 rs2) := of_fields _ fun _ h => some_op (by simp) h
theorem cbclr (rs1 : Reg) : Statement (.cbclr rs1) := of_fields _ fun _ h => some_op (by simp) h
theorem cbseti (cd : Reg) (v : BitVec 1) : Statement (.cbseti cd v) := of_fields _ fun _ h => some_op (by simp) h
theorem vfetch (rs1 : Reg) (off : BitVec 12) : Statement (.vfetch rs1 off) := of_fields _ fun _ h => some_op (by simp) h
theorem tcfg (h rs1 rs2 : Reg) : Statement (.tcfg h rs1 rs2) := of_fields _ fun _ h => some_op (by simp) h
theorem tload (h rs1 rs2 : Reg) : Statement (.tload h rs1 rs2) := of_fields _ fun _ h => some_op (by simp) h
theorem tstore (h rs1 : Reg) : Statement (.tstore h rs1) := of_fields _ fun _ h => some_op (by simp) h
theorem tfree (h : Reg) : Statement (.tfree h) := of_fields _ fun _ h => some_op (by simp) h
theorem tstat (rd h : Reg) : Statement (.tstat rd h) := of_fields _ fun _ h => some_op (by simp) h
theorem tcopy (hd hs : Reg) : Statement (.tcopy hd hs) := of_fields _ fun _ h => some_op (by simp) h
theorem strcfg (q : BitVec 3) (rs1 : Reg) : Statement (.strcfg q rs1) := of_fields _ fun _ h => some_op (by simp) h
theorem strstart (q : BitVec 3) : Statement (.strstart q) := of_fields _ fun _ h => some_op (by simp) h
theorem strstop (q : BitVec 3) : Statement (.strstop q) := of_fields _ fun _ h => some_op (by simp) h
theorem strstat (rd : Reg) (q : BitVec 3) : Statement (.strstat rd q) := of_fields _ fun _ h => some_op (by simp) h
theorem strbind (rd : Reg) (q : BitVec 3) : Statement (.strbind rd q) := of_fields _ fun _ h => some_op (by simp) h
theorem xcopy (rd rs1 rs2 : Reg) : Statement (.xcopy rd rs1 rs2) := of_fields _ fun _ h => some_op (by simp) h
theorem xform (rs1 : Reg) : Statement (.xform rs1) := of_fields _ fun _ h => some_op (by simp) h
theorem close (cls : BitVec 4) : Statement (.close cls) := of_fields _ fun _ h => some_op (by simp) h
theorem lineClean (rd rs1 : Reg) : Statement (.lineClean rd rs1) := of_fields _ fun _ h => some_op (by simp) h
theorem lineFlush (rd rs1 : Reg) : Statement (.lineFlush rd rs1) := of_fields _ fun _ h => some_op (by simp) h
theorem lineInval (rd rs1 : Reg) : Statement (.lineInval rd rs1) := of_fields _ fun _ h => some_op (by simp) h
theorem lineLastuse (rd rs1 : Reg) : Statement (.lineLastuse rd rs1) := of_fields _ fun _ h => some_op (by simp) h
theorem lineDiscard (rd rs1 : Reg) : Statement (.lineDiscard rd rs1) := of_fields _ fun _ h => some_op (by simp) h
theorem wmwait (scope : BitVec 3) (rs1 rs2 : Reg) : Statement (.wmwait scope rs1 rs2) := of_fields _ fun _ h => some_op (by simp) h
theorem wmwaitArm (scope : BitVec 3) (rs1 rs2 : Reg) : Statement (.wmwaitArm scope rs1 rs2) := of_fields _ fun _ h => some_op (by simp) h
theorem wmwaitDisarm (scope : BitVec 3) : Statement (.wmwaitDisarm scope) := of_fields _ fun _ h => some_op (by simp) h
theorem wmpub (scope : BitVec 3) (rs1 rs2 : Reg) : Statement (.wmpub scope rs1 rs2) := of_fields _ fun _ h => some_op (by simp) h
theorem wmpubRemote (rs1 rs2 : Reg) : Statement (.wmpubRemote rs1 rs2) := of_fields _ fun _ h => some_op (by simp) h
theorem wait (ld st cp ti : BitVec 3) : Statement (.wait ld st cp ti) := of_fields _ fun _ h => some_op (by simp) h
theorem barinit (b : BitVec 4) (rs1 rs2 : Reg) : Statement (.barinit b rs1 rs2) := of_fields _ fun _ h => some_op (by simp) h
theorem bararrive (b : BitVec 4) : Statement (.bararrive b) := of_fields _ fun _ h => some_op (by simp) h
theorem barwait (b : BitVec 4) : Statement (.barwait b) := of_fields _ fun _ h => some_op (by simp) h
theorem bararrwait (b : BitVec 4) : Statement (.bararrwait b) := of_fields _ fun _ h => some_op (by simp) h
theorem barinv (b : BitVec 4) : Statement (.barinv b) := of_fields _ fun _ h => some_op (by simp) h
theorem scfence (scope : BitVec 3) : Statement (.scfence scope) := of_fields _ fun _ h => some_op (by simp) h
theorem acqfence (scope : BitVec 3) : Statement (.acqfence scope) := of_fields _ fun _ h => some_op (by simp) h
theorem relfence (scope : BitVec 3) : Statement (.relfence scope) := of_fields _ fun _ h => some_op (by simp) h
theorem afaddS (rd rs1 rs2 : Reg) : Statement (.afaddS rd rs1 rs2) := of_fields _ fun _ h => some_op (by simp) h
theorem afminS (rd rs1 rs2 : Reg) : Statement (.afminS rd rs1 rs2) := of_fields _ fun _ h => some_op (by simp) h
theorem afmaxS (rd rs1 rs2 : Reg) : Statement (.afmaxS rd rs1 rs2) := of_fields _ fun _ h => some_op (by simp) h
theorem afminnS (rd rs1 rs2 : Reg) : Statement (.afminnS rd rs1 rs2) := of_fields _ fun _ h => some_op (by simp) h
theorem afmaxnS (rd rs1 rs2 : Reg) : Statement (.afmaxnS rd rs1 rs2) := of_fields _ fun _ h => some_op (by simp) h
theorem sqcreate (rd rs1 rs2 : Reg) : Statement (.sqcreate rd rs1 rs2) := of_fields _ fun _ h => some_op (by simp) h
theorem sqres (rd rs1 rs2 : Reg) : Statement (.sqres rd rs1 rs2) := of_fields _ fun _ h => some_op (by simp) h
theorem sqcommit (rd rs1 rs2 : Reg) : Statement (.sqcommit rd rs1 rs2) := of_fields _ fun _ h => some_op (by simp) h
theorem sqabandon (rd rs1 rs2 : Reg) : Statement (.sqabandon rd rs1 rs2) := of_fields _ fun _ h => some_op (by simp) h
theorem sqfork (rx rs1 rs2 : Reg) : Statement (.sqfork rx rs1 rs2) := of_fields _ fun _ h => some_op (by simp) h
theorem sqlen (rd rs1 : Reg) : Statement (.sqlen rd rs1) := of_fields _ fun _ h => some_op (by simp) h
theorem sqwait (rd rs1 rs2 : Reg) : Statement (.sqwait rd rs1 rs2) := of_fields _ fun _ h => some_op (by simp) h
theorem sqseal (rd rs1 rs2 : Reg) : Statement (.sqseal rd rs1 rs2) := of_fields _ fun _ h => some_op (by simp) h
theorem sqevict (rx rs1 rs2 : Reg) : Statement (.sqevict rx rs1 rs2) := of_fields _ fun _ h => some_op (by simp) h
theorem sqrelease (rd rs1 : Reg) : Statement (.sqrelease rd rs1) := of_fields _ fun _ h => some_op (by simp) h
theorem btinv (rd rs1 rs2 : Reg) : Statement (.btinv rd rs1 rs2) := of_fields _ fun _ h => some_op (by simp) h
theorem ixcreate (rd rs1 rs2 : Reg) : Statement (.ixcreate rd rs1 rs2) := of_fields _ fun _ h => some_op (by simp) h
theorem ixfamily (rd rs1 rs2 : Reg) : Statement (.ixfamily rd rs1 rs2) := of_fields _ fun _ h => some_op (by simp) h
theorem ixins (rd rs1 rs2 : Reg) : Statement (.ixins rd rs1 rs2) := of_fields _ fun _ h => some_op (by simp) h
theorem ixdel (rd rs1 rs2 : Reg) : Statement (.ixdel rd rs1 rs2) := of_fields _ fun _ h => some_op (by simp) h
theorem ixprobe (rd rs1 : Reg) : Statement (.ixprobe rd rs1) := of_fields _ fun _ h => some_op (by simp) h
theorem ixrehash (rd rs1 rs2 : Reg) : Statement (.ixrehash rd rs1 rs2) := of_fields _ fun _ h => some_op (by simp) h
theorem ixstat (rd rs1 rs2 : Reg) : Statement (.ixstat rd rs1 rs2) := of_fields _ fun _ h => some_op (by simp) h
theorem attn (rd rs1 : Reg) : Statement (.attn rd rs1) := of_fields _ fun _ h => some_op (by simp) h
theorem attnstat (rd : Reg) : Statement (.attnstat rd) := of_fields _ fun _ h => some_op (by simp) h
theorem attncancel (rd rs1 : Reg) : Statement (.attncancel rd rs1) := of_fields _ fun _ h => some_op (by simp) h
theorem bc (c : Reg) (off : BitVec 12) : Statement (.bc c off) := of_fields _ fun _ h => some_op (by simp) h
theorem bnc (c : Reg) (off : BitVec 12) : Statement (.bnc c off) := of_fields _ fun _ h => some_op (by simp) h
theorem mmcfg (rd rs1 : Reg) : Statement (.mmcfg rd rs1) := of_fields _ fun _ h => some_op (by simp) h
theorem mmissue (rs1 rs2 : Reg) : Statement (.mmissue rs1 rs2) := of_fields _ fun _ h => some_op (by simp) h
theorem mmsparse (rs1 rs2 : Reg) : Statement (.mmsparse rs1 rs2) := of_fields _ fun _ h => some_op (by simp) h
theorem mmgather (rs1 rs2 : Reg) : Statement (.mmgather rs1 rs2) := of_fields _ fun _ h => some_op (by simp) h
theorem mmret (rs1 rs2 : Reg) : Statement (.mmret rs1 rs2) := of_fields _ fun _ h => some_op (by simp) h
theorem acczero (rs1 : Reg) : Statement (.acczero rs1) := of_fields _ fun _ h => some_op (by simp) h
theorem accscale (rs1 rs2 : Reg) : Statement (.accscale rs1 rs2) := of_fields _ fun _ h => some_op (by simp) h
theorem mmstat (rd : Reg) : Statement (.mmstat rd) := of_fields _ fun _ h => some_op (by simp) h
theorem halttF (rs1 : Reg) : Statement (.halttF rs1) := of_fields _ fun _ h => some_op (by simp) h
theorem preemptpt (rd : Reg) : Statement (.preemptpt rd) := of_fields _ fun _ h => some_op (by simp) h
theorem launch (rd rs1 : Reg) (n : BitVec 5) : Statement (.launch rd rs1 n) := of_fields _ fun _ h => some_op (by simp) h
theorem rngseed (rs1 rs2 : Reg) : Statement (.rngseed rs1 rs2) := of_fields _ fun _ h => some_op (by simp) h
theorem rngnext (rd : Reg) : Statement (.rngnext rd) := of_fields _ fun _ h => some_op (by simp) h
theorem ctxsave (rd rs1 : Reg) (f : BitVec 1) : Statement (.ctxsave rd rs1 f) := of_fields _ fun _ h => some_op (by simp) h
theorem ctxload (rd rs1 : Reg) : Statement (.ctxload rd rs1) := of_fields _ fun _ h => some_op (by simp) h
theorem laneretire (rd rs1 : Reg) : Statement (.laneretire rd rs1) := of_fields _ fun _ h => some_op (by simp) h
theorem bblog (rc rs1 rs2 : Reg) : Statement (.bblog rc rs1 rs2) := of_fields _ fun _ h => some_op (by simp) h
theorem vadd (w : VWord) : Statement (.vadd w) := of_fields _ fun _ h => nomatch h
theorem vsub (w : VWord) : Statement (.vsub w) := of_fields _ fun _ h => nomatch h
theorem vrsub (w : VWord) : Statement (.vrsub w) := of_fields _ fun _ h => nomatch h
theorem vneg (w : VWord) : Statement (.vneg w) := of_fields _ fun _ h => nomatch h
theorem vabs (w : VWord) : Statement (.vabs w) := of_fields _ fun _ h => nomatch h
theorem vmin (w : VWord) : Statement (.vmin w) := of_fields _ fun _ h => nomatch h
theorem vmax (w : VWord) : Statement (.vmax w) := of_fields _ fun _ h => nomatch h
theorem vminu (w : VWord) : Statement (.vminu w) := of_fields _ fun _ h => nomatch h
theorem vmaxu (w : VWord) : Statement (.vmaxu w) := of_fields _ fun _ h => nomatch h
theorem vmul (w : VWord) : Statement (.vmul w) := of_fields _ fun _ h => nomatch h
theorem vmulh (w : VWord) : Statement (.vmulh w) := of_fields _ fun _ h => nomatch h
theorem vmac (w : VWord) : Statement (.vmac w) := of_fields _ fun _ h => nomatch h
theorem vand (w : VWord) : Statement (.vand w) := of_fields _ fun _ h => nomatch h
theorem vor (w : VWord) : Statement (.vor w) := of_fields _ fun _ h => nomatch h
theorem vxor (w : VWord) : Statement (.vxor w) := of_fields _ fun _ h => nomatch h
theorem vandn (w : VWord) : Statement (.vandn w) := of_fields _ fun _ h => nomatch h
theorem vnot (w : VWord) : Statement (.vnot w) := of_fields _ fun _ h => nomatch h
theorem vsll (w : VWord) : Statement (.vsll w) := of_fields _ fun _ h => nomatch h
theorem vsrl (w : VWord) : Statement (.vsrl w) := of_fields _ fun _ h => nomatch h
theorem vsra (w : VWord) : Statement (.vsra w) := of_fields _ fun _ h => nomatch h
theorem vshrr (w : VWord) : Statement (.vshrr w) := of_fields _ fun _ h => nomatch h
theorem vcmp (w : VWord) : Statement (.vcmp w) := of_fields _ fun _ h => nomatch h
theorem vsel (w : VWord) : Statement (.vsel w) := of_fields _ fun _ h => nomatch h
theorem vmov (w : VWord) : Statement (.vmov w) := of_fields _ fun _ h => nomatch h
theorem vmovi (w : VWord) : Statement (.vmovi w) := of_fields _ fun _ h => nomatch h
theorem vmovg (w : VWord) : Statement (.vmovg w) := of_fields _ fun _ h => nomatch h
theorem vpopc (w : VWord) : Statement (.vpopc w) := of_fields _ fun _ h => nomatch h
theorem vclz (w : VWord) : Statement (.vclz w) := of_fields _ fun _ h => nomatch h
theorem vabsd (w : VWord) : Statement (.vabsd w) := of_fields _ fun _ h => nomatch h
theorem vavg (w : VWord) : Statement (.vavg w) := of_fields _ fun _ h => nomatch h
theorem vdotr (w : VWord) : Statement (.vdotr w) := of_fields _ fun _ h => nomatch h
theorem vrand (w : VWord) : Statement (.vrand w) := of_fields _ fun _ h => nomatch h
theorem vsext (w : VWord) : Statement (.vsext w) := of_fields _ fun _ h => nomatch h
theorem vzext (w : VWord) : Statement (.vzext w) := of_fields _ fun _ h => nomatch h
theorem vsatw (w : VWord) : Statement (.vsatw w) := of_fields _ fun _ h => nomatch h
theorem vpack (w : VWord) : Statement (.vpack w) := of_fields _ fun _ h => nomatch h
theorem vsegd (w : VWord) : Statement (.vsegd w) := of_fields _ fun _ h => nomatch h
theorem vcvt (w : VWord) : Statement (.vcvt w) := of_fields _ fun _ h => nomatch h
theorem mlog (w : VWord) : Statement (.mlog w) := of_fields _ fun _ h => nomatch h
theorem mset (w : VWord) : Statement (.mset w) := of_fields _ fun _ h => nomatch h
theorem mpop (w : VWord) : Statement (.mpop w) := of_fields _ fun _ h => nomatch h
theorem mfirst (w : VWord) : Statement (.mfirst w) := of_fields _ fun _ h => nomatch h
theorem vany (w : VWord) : Statement (.vany w) := of_fields _ fun _ h => nomatch h
theorem vall (w : VWord) : Statement (.vall w) := of_fields _ fun _ h => nomatch h
theorem vtrim (w : VWord) : Statement (.vtrim w) := of_fields _ fun _ h => nomatch h
theorem vsetvlb (w : VWord) : Statement (.vsetvlb w) := of_fields _ fun _ h => nomatch h
theorem vfadd (w : VWord) : Statement (.vfadd w) := of_fields _ fun _ h => nomatch h
theorem vfsub (w : VWord) : Statement (.vfsub w) := of_fields _ fun _ h => nomatch h
theorem vfmul (w : VWord) : Statement (.vfmul w) := of_fields _ fun _ h => nomatch h
theorem vfma (w : VWord) : Statement (.vfma w) := of_fields _ fun _ h => nomatch h
theorem vfmin (w : VWord) : Statement (.vfmin w) := of_fields _ fun _ h => nomatch h
theorem vfmax (w : VWord) : Statement (.vfmax w) := of_fields _ fun _ h => nomatch h
theorem vfdiv (w : VWord) : Statement (.vfdiv w) := of_fields _ fun _ h => nomatch h
theorem vfsqrt (w : VWord) : Statement (.vfsqrt w) := of_fields _ fun _ h => nomatch h
theorem vfrecip (w : VWord) : Statement (.vfrecip w) := of_fields _ fun _ h => nomatch h
theorem vfrsqrt (w : VWord) : Statement (.vfrsqrt w) := of_fields _ fun _ h => nomatch h
theorem vfexp2 (w : VWord) : Statement (.vfexp2 w) := of_fields _ fun _ h => nomatch h
theorem vfcmp (w : VWord) : Statement (.vfcmp w) := of_fields _ fun _ h => nomatch h
theorem vfclass (w : VWord) : Statement (.vfclass w) := of_fields _ fun _ h => nomatch h
theorem vfscale (w : VWord) : Statement (.vfscale w) := of_fields _ fun _ h => nomatch h
theorem vfsgn (w : VWord) : Statement (.vfsgn w) := of_fields _ fun _ h => nomatch h
theorem vred (w : VWord) : Statement (.vred w) := of_fields _ fun _ h => nomatch h
theorem vfred (w : VWord) : Statement (.vfred w) := of_fields _ fun _ h => nomatch h
theorem vscan (w : VWord) : Statement (.vscan w) := of_fields _ fun _ h => nomatch h
theorem vperm (w : VWord) : Statement (.vperm w) := of_fields _ fun _ h => nomatch h
theorem vslideup (w : VWord) : Statement (.vslideup w) := of_fields _ fun _ h => nomatch h
theorem vslidedn (w : VWord) : Statement (.vslidedn w) := of_fields _ fun _ h => nomatch h
theorem vbcast (w : VWord) : Statement (.vbcast w) := of_fields _ fun _ h => nomatch h
theorem vcompact (w : VWord) : Statement (.vcompact w) := of_fields _ fun _ h => nomatch h
theorem vnzscan (w : VWord) : Statement (.vnzscan w) := of_fields _ fun _ h => nomatch h
theorem vpfxpop (w : VWord) : Statement (.vpfxpop w) := of_fields _ fun _ h => nomatch h
theorem vramp (w : VWord) : Statement (.vramp w) := of_fields _ fun _ h => nomatch h
theorem vbar (w : VWord) : Statement (.vbar w) := of_fields _ fun _ h => nomatch h
theorem vld (w : VWord) : Statement (.vld w) := of_fields _ fun _ h => nomatch h
theorem vlds (w : VWord) : Statement (.vlds w) := of_fields _ fun _ h => nomatch h
theorem vldx (w : VWord) : Statement (.vldx w) := of_fields _ fun _ h => nomatch h
theorem vldseg (w : VWord) : Statement (.vldseg w) := of_fields _ fun _ h => nomatch h
theorem vldff (w : VWord) : Statement (.vldff w) := of_fields _ fun _ h => nomatch h
theorem vst (w : VWord) : Statement (.vst w) := of_fields _ fun _ h => nomatch h
theorem vsts (w : VWord) : Statement (.vsts w) := of_fields _ fun _ h => nomatch h
theorem vstx (w : VWord) : Statement (.vstx w) := of_fields _ fun _ h => nomatch h
theorem vstseg (w : VWord) : Statement (.vstseg w) := of_fields _ fun _ h => nomatch h
theorem vamo (w : VWord) : Statement (.vamo w) := of_fields _ fun _ h => nomatch h
theorem vamoTile (w : VWord) : Statement (.vamoTile w) := of_fields _ fun _ h => nomatch h
theorem vamof (w : VWord) : Statement (.vamof w) := of_fields _ fun _ h => nomatch h
theorem vldt (w : VWord) : Statement (.vldt w) := of_fields _ fun _ h => nomatch h
theorem vstt (w : VWord) : Statement (.vstt w) := of_fields _ fun _ h => nomatch h
theorem vwaitn (w : VWord) : Statement (.vwaitn w) := of_fields _ fun _ h => nomatch h
theorem vpref (w : VWord) : Statement (.vpref w) := of_fields _ fun _ h => nomatch h
theorem vaccrd (w : VWord) : Statement (.vaccrd w) := of_fields _ fun _ h => nomatch h
theorem vaccwr (w : VWord) : Statement (.vaccwr w) := of_fields _ fun _ h => nomatch h
theorem vaccz (w : VWord) : Statement (.vaccz w) := of_fields _ fun _ h => nomatch h
theorem vmxsc (w : VWord) : Statement (.vmxsc w) := of_fields _ fun _ h => nomatch h
theorem vixprobe (w : VWord) : Statement (.vixprobe w) := of_fields _ fun _ h => nomatch h
theorem vixhash (w : VWord) : Statement (.vixhash w) := of_fields _ fun _ h => nomatch h
theorem vsqmap (w : VWord) : Statement (.vsqmap w) := of_fields _ fun _ h => nomatch h
theorem vsqpos (w : VWord) : Statement (.vsqpos w) := of_fields _ fun _ h => nomatch h
theorem vstop (w : VWord) : Statement (.vstop w) := of_fields _ fun _ h => nomatch h
theorem vstopR (w : VWord) : Statement (.vstopR w) := of_fields _ fun _ h => nomatch h
theorem vtfetch (w : VWord) : Statement (.vtfetch w) := of_fields _ fun _ h => nomatch h
theorem vnop (w : VWord) : Statement (.vnop w) := of_fields _ fun _ h => nomatch h
theorem vtrap (w : VWord) : Statement (.vtrap w) := of_fields _ fun _ h => nomatch h
theorem baseInstruction (op : BaseOp) : Statement (.baseInstruction op) := of_fields _ fun _ h => some_op (base_op op) h
theorem illegalInstruction (bits : BitVec 32) : Statement (.illegalInstruction bits) := of_fields _ fun _ h => nomatch h
theorem vectorIllegal (bits : BitVec 64) : Statement (.vectorIllegal bits) := of_fields _ fun _ h => nomatch h
theorem powerOn : Statement .powerOn := of_fields _ fun _ h => nomatch h
theorem startBegin : Statement .startBegin := of_fields _ fun _ h => nomatch h
theorem preHeatTimeout : Statement .preHeatTimeout := of_fields _ fun _ h => nomatch h
theorem preHeatDone : Statement .preHeatDone := of_fields _ fun _ h => nomatch h
theorem ethernetLinkUp : Statement .ethernetLinkUp := of_fields _ fun _ h => nomatch h
theorem thermalThrottle : Statement .thermalThrottle := of_fields _ fun _ h => nomatch h
theorem hbmRefreshDouble : Statement .hbmRefreshDouble := of_fields _ fun _ h => nomatch h
theorem hbmStopIssue : Statement .hbmStopIssue := of_fields _ fun _ h => nomatch h
theorem thermalTrip : Statement .thermalTrip := of_fields _ fun _ h => nomatch h
theorem thermalRecovery : Statement .thermalRecovery := of_fields _ fun _ h => nomatch h
theorem powerCapAdjust : Statement .powerCapAdjust := of_fields _ fun _ h => nomatch h
theorem droopDetected : Statement .droopDetected := of_fields _ fun _ h => nomatch h
theorem targetFreqAdjust : Statement .targetFreqAdjust := of_fields _ fun _ h => nomatch h
theorem retrainWindowOpen : Statement .retrainWindowOpen := of_fields _ fun _ h => nomatch h
theorem retrainWindowClose : Statement .retrainWindowClose := of_fields _ fun _ h => nomatch h
theorem retrainFailed : Statement .retrainFailed := of_fields _ fun _ h => nomatch h
theorem uncorrectableMemoryError : Statement .uncorrectableMemoryError := of_fields _ fun _ h => nomatch h
theorem scratchpadSoftError : Statement .scratchpadSoftError := of_fields _ fun _ h => nomatch h
theorem linkCrcReplay : Statement .linkCrcReplay := of_fields _ fun _ h => nomatch h
theorem linkRetrain : Statement .linkRetrain := of_fields _ fun _ h => nomatch h
theorem ucieModuleLost : Statement .ucieModuleLost := of_fields _ fun _ h => nomatch h
theorem adjacencyFailed : Statement .adjacencyFailed := of_fields _ fun _ h => nomatch h
theorem flitReceive : Statement .flitReceive := of_fields _ fun _ h => nomatch h
theorem causalWriteApply : Statement .causalWriteApply := of_fields _ fun _ h => nomatch h
theorem sequenceReport : Statement .sequenceReport := of_fields _ fun _ h => nomatch h
theorem mkaKeyChange : Statement .mkaKeyChange := of_fields _ fun _ h => nomatch h
theorem frameDrop : Statement .frameDrop := of_fields _ fun _ h => nomatch h
theorem icmpv6NdAnswer : Statement .icmpv6NdAnswer := of_fields _ fun _ h => nomatch h
theorem post : Statement .post := of_fields _ fun _ h => nomatch h
theorem read : Statement .read := of_fields _ fun _ h => nomatch h
theorem write : Statement .write := of_fields _ fun _ h => nomatch h
theorem atomicAdd : Statement .atomicAdd := of_fields _ fun _ h => nomatch h
theorem atomicSwap : Statement .atomicSwap := of_fields _ fun _ h => nomatch h
theorem atomicCas : Statement .atomicCas := of_fields _ fun _ h => nomatch h
theorem atomicMaxu : Statement .atomicMaxu := of_fields _ fun _ h => nomatch h
theorem atomicFaddS : Statement .atomicFaddS := of_fields _ fun _ h => nomatch h
theorem completion : Statement .completion := of_fields _ fun _ h => nomatch h
theorem ack : Statement .ack := of_fields _ fun _ h => nomatch h
theorem manageOpen : Statement .manageOpen := of_fields _ fun _ h => nomatch h
theorem manageClose : Statement .manageClose := of_fields _ fun _ h => nomatch h
theorem manageAttest : Statement .manageAttest := of_fields _ fun _ h => nomatch h
theorem manageBbread : Statement .manageBbread := of_fields _ fun _ h => nomatch h
theorem manageResetWarm : Statement .manageResetWarm := of_fields _ fun _ h => nomatch h
theorem manageResetKeep : Statement .manageResetKeep := of_fields _ fun _ h => nomatch h
theorem manageResetCold : Statement .manageResetCold := of_fields _ fun _ h => nomatch h
theorem manageCakset : Statement .manageCakset := of_fields _ fun _ h => nomatch h
theorem ackDelayExpire : Statement .ackDelayExpire := of_fields _ fun _ h => nomatch h
theorem retransmissionTimerExpire : Statement .retransmissionTimerExpire := of_fields _ fun _ h => nomatch h
theorem connectionHoldExpire : Statement .connectionHoldExpire := of_fields _ fun _ h => nomatch h
theorem outboundTransferSend : Statement .outboundTransferSend := of_fields _ fun _ h => nomatch h
theorem registerWrite : Statement .registerWrite := of_fields _ fun _ h => nomatch h
theorem unassignedAccess : Statement .unassignedAccess := of_fields _ fun _ h => nomatch h
theorem chainstRead : Statement .chainstRead := of_fields _ fun _ h => nomatch h
theorem portstRead : Statement .portstRead := of_fields _ fun _ h => nomatch h
theorem memhlthRead : Statement .memhlthRead := of_fields _ fun _ h => nomatch h
theorem qstatRead : Statement .qstatRead := of_fields _ fun _ h => nomatch h
theorem schstRead : Statement .schstRead := of_fields _ fun _ h => nomatch h
theorem windowCommit : Statement .windowCommit := of_fields _ fun _ h => nomatch h
theorem portaddrCommit : Statement .portaddrCommit := of_fields _ fun _ h => nomatch h
theorem campanileStore : Statement .campanileStore := of_fields _ fun _ h => nomatch h
theorem xlinvPage : Statement .xlinvPage := of_fields _ fun _ h => nomatch h
theorem xlinvAsid : Statement .xlinvAsid := of_fields _ fun _ h => nomatch h
theorem xlinvAll : Statement .xlinvAll := of_fields _ fun _ h => nomatch h
theorem queueEnable : Statement .queueEnable := of_fields _ fun _ h => nomatch h
theorem queueDisable : Statement .queueDisable := of_fields _ fun _ h => nomatch h
theorem qcancelTag : Statement .qcancelTag := of_fields _ fun _ h => nomatch h
theorem qcancelAll : Statement .qcancelAll := of_fields _ fun _ h => nomatch h
theorem schcancelTag : Statement .schcancelTag := of_fields _ fun _ h => nomatch h
theorem schcancelAll : Statement .schcancelAll := of_fields _ fun _ h => nomatch h
theorem recordTake : Statement .recordTake := of_fields _ fun _ h => nomatch h
theorem cancelledSlotPass : Statement .cancelledSlotPass := of_fields _ fun _ h => nomatch h
theorem dependencePass : Statement .dependencePass := of_fields _ fun _ h => nomatch h
theorem dependenceTimeout : Statement .dependenceTimeout := of_fields _ fun _ h => nomatch h
theorem claimFormed : Statement .claimFormed := of_fields _ fun _ h => nomatch h
theorem placement : Statement .placement := of_fields _ fun _ h => nomatch h
theorem gangStart : Statement .gangStart := of_fields _ fun _ h => nomatch h
theorem prefetchFault : Statement .prefetchFault := of_fields _ fun _ h => nomatch h
theorem preemptRequest : Statement .preemptRequest := of_fields _ fun _ h => nomatch h
theorem threadStopSave : Statement .threadStopSave := of_fields _ fun _ h => nomatch h
theorem preemptForceExpire : Statement .preemptForceExpire := of_fields _ fun _ h => nomatch h
theorem gangSaved : Statement .gangSaved := of_fields _ fun _ h => nomatch h
theorem saveRestoreFail : Statement .saveRestoreFail := of_fields _ fun _ h => nomatch h
theorem recordComplete : Statement .recordComplete := of_fields _ fun _ h => nomatch h
theorem trapTake : Statement .trapTake := of_fields _ fun _ h => nomatch h
theorem convoyWatchdogExpire : Statement .convoyWatchdogExpire := of_fields _ fun _ h => nomatch h
theorem heldStorePerform : Statement .heldStorePerform := of_fields _ fun _ h => nomatch h
theorem notifyUpdate : Statement .notifyUpdate := of_fields _ fun _ h => nomatch h
theorem vamofFlagMerge : Statement .vamofFlagMerge := of_fields _ fun _ h => nomatch h
theorem watermarkPassed : Statement .watermarkPassed := of_fields _ fun _ h => nomatch h
theorem engineCommandDone : Statement .engineCommandDone := of_fields _ fun _ h => nomatch h
theorem tileFillComplete : Statement .tileFillComplete := of_fields _ fun _ h => nomatch h
theorem tileDrainComplete : Statement .tileDrainComplete := of_fields _ fun _ h => nomatch h
theorem streamFill : Statement .streamFill := of_fields _ fun _ h => nomatch h
theorem awlCommand : Statement .awlCommand := of_fields _ fun _ h => nomatch h
theorem batchComplete : Statement .batchComplete := of_fields _ fun _ h => nomatch h
theorem pinRelease : Statement .pinRelease := of_fields _ fun _ h => nomatch h
theorem frameReturn : Statement .frameReturn := of_fields _ fun _ h => nomatch h
theorem btinvComplete : Statement .btinvComplete := of_fields _ fun _ h => nomatch h
theorem indexZeroingComplete : Statement .indexZeroingComplete := of_fields _ fun _ h => nomatch h
theorem sqwaitTimeout : Statement .sqwaitTimeout := of_fields _ fun _ h => nomatch h
theorem barrierArrivalPerform : Statement .barrierArrivalPerform := of_fields _ fun _ h => nomatch h
theorem accumulatorGroupZero : Statement .accumulatorGroupZero := of_fields _ fun _ h => nomatch h
theorem matrixOpComplete : Statement .matrixOpComplete := of_fields _ fun _ h => nomatch h
theorem lanternJobStart : Statement .lanternJobStart := of_fields _ fun _ h => nomatch h
theorem lanternJobDone : Statement .lanternJobDone := of_fields _ fun _ h => nomatch h
theorem lanternWatchdogExpire : Statement .lanternWatchdogExpire := of_fields _ fun _ h => nomatch h
theorem lanternReplayStart : Statement .lanternReplayStart := of_fields _ fun _ h => nomatch h
theorem lanternResetDone : Statement .lanternResetDone := of_fields _ fun _ h => nomatch h
theorem lanternReadError : Statement .lanternReadError := of_fields _ fun _ h => nomatch h
theorem fenceTso : Statement .fenceTso := of_fields _ fun _ h => some_op (by simp) h
theorem fenceI : Statement .fenceI := of_fields _ fun _ h => some_op (by simp) h
theorem ecall : Statement .ecall := of_fields _ fun _ h => some_op (by simp) h
theorem ebreak : Statement .ebreak := of_fields _ fun _ h => some_op (by simp) h
theorem wfi : Statement .wfi := of_fields _ fun _ h => some_op (by simp) h
theorem mret : Statement .mret := of_fields _ fun _ h => some_op (by simp) h
theorem vqdrain : Statement .vqdrain := of_fields _ fun _ h => some_op (by simp) h
theorem svfence : Statement .svfence := of_fields _ fun _ h => some_op (by simp) h
theorem mmfence : Statement .mmfence := of_fields _ fun _ h => some_op (by simp) h
theorem haltt : Statement .haltt := of_fields _ fun _ h => some_op (by simp) h
theorem yield : Statement .yield := of_fields _ fun _ h => some_op (by simp) h
theorem bankRejoin : Statement .bankRejoin := of_fields _ fun _ h => nomatch h
theorem ethernetLinkDown : Statement .ethernetLinkDown := of_fields _ fun _ h => nomatch h
theorem lossOfPower : Statement .lossOfPower := of_fields _ fun _ h => nomatch h
theorem hbmIssueResume : Statement .hbmIssueResume := of_fields _ fun _ h => nomatch h
theorem lrWriteDeferralEnd : Statement .lrWriteDeferralEnd := of_fields _ fun _ h => nomatch h
theorem lanternCancelStop : Statement .lanternCancelStop := of_fields _ fun _ h => nomatch h

end Sys2Proof.Laws.Encoding
end

