-- ==== Sys2Proof/Laws/State.lean ====
section
/-! SUPPORT. One lemma a field and update of State: what each named update leaves as it was. -/

namespace Sys2Proof.Machine

@[simp] theorem State.setThread_agenda (s : State) (k : Nat) (t : Thread) : (s.setThread k t).agenda = s.agenda := rfl
@[simp] theorem State.setThread_ev (s : State) (k : Nat) (t : Thread) : (s.setThread k t).ev = s.ev := rfl
@[simp] theorem State.setThread_act (s : State) (k : Nat) (t : Thread) : (s.setThread k t).act = s.act := rfl
@[simp] theorem State.setThread_cur (s : State) (k : Nat) (t : Thread) : (s.setThread k t).cur = s.cur := rfl
@[simp] theorem State.setThread_ir (s : State) (k : Nat) (t : Thread) : (s.setThread k t).ir = s.ir := rfl
@[simp] theorem State.setThread_free (s : State) (k : Nat) (t : Thread) : (s.setThread k t).free = s.free := rfl
@[simp] theorem State.setThread_rr (s : State) (k : Nat) (t : Thread) : (s.setThread k t).rr = s.rr := rfl
@[simp] theorem State.setThread_now (s : State) (k : Nat) (t : Thread) : (s.setThread k t).now = s.now := rfl
@[simp] theorem State.setThread_bus (s : State) (k : Nat) (t : Thread) : (s.setThread k t).bus = s.bus := rfl
@[simp] theorem State.setThread_mem (s : State) (k : Nat) (t : Thread) : (s.setThread k t).mem = s.mem := rfl
@[simp] theorem State.setThread_backing (s : State) (k : Nat) (t : Thread) : (s.setThread k t).backing = s.backing := rfl
@[simp] theorem State.setThread_poison (s : State) (k : Nat) (t : Thread) : (s.setThread k t).poison = s.poison := rfl
@[simp] theorem State.setThread_stamps (s : State) (k : Nat) (t : Thread) : (s.setThread k t).stamps = s.stamps := rfl
@[simp] theorem State.setThread_cores (s : State) (k : Nat) (t : Thread) : (s.setThread k t).cores = s.cores := rfl
@[simp] theorem State.setThread_clusters (s : State) (k : Nat) (t : Thread) : (s.setThread k t).clusters = s.clusters := rfl
@[simp] theorem State.setThread_dies (s : State) (k : Nat) (t : Thread) : (s.setThread k t).dies = s.dies := rfl
@[simp] theorem State.setThread_links (s : State) (k : Nat) (t : Thread) : (s.setThread k t).links = s.links := rfl
@[simp] theorem State.setThread_dead (s : State) (k : Nat) (t : Thread) : (s.setThread k t).dead = s.dead := rfl
@[simp] theorem State.setThread_port (s : State) (k : Nat) (t : Thread) : (s.setThread k t).port = s.port := rfl
@[simp] theorem State.setThread_camp (s : State) (k : Nat) (t : Thread) : (s.setThread k t).camp = s.camp := rfl
@[simp] theorem State.setThread_queues (s : State) (k : Nat) (t : Thread) : (s.setThread k t).queues = s.queues := rfl
@[simp] theorem State.setThread_belfry (s : State) (k : Nat) (t : Thread) : (s.setThread k t).belfry = s.belfry := rfl
@[simp] theorem State.setThread_bars (s : State) (k : Nat) (t : Thread) : (s.setThread k t).bars = s.bars := rfl
@[simp] theorem State.setThread_barCnt (s : State) (k : Nat) (t : Thread) : (s.setThread k t).barCnt = s.barCnt := rfl
@[simp] theorem State.setThread_seqs (s : State) (k : Nat) (t : Thread) : (s.setThread k t).seqs = s.seqs := rfl
@[simp] theorem State.setThread_btab (s : State) (k : Nat) (t : Thread) : (s.setThread k t).btab = s.btab := rfl
@[simp] theorem State.setThread_frames (s : State) (k : Nat) (t : Thread) : (s.setThread k t).frames = s.frames := rfl
@[simp] theorem State.setThread_pools (s : State) (k : Nat) (t : Thread) : (s.setThread k t).pools = s.pools := rfl
@[simp] theorem State.setThread_tables (s : State) (k : Nat) (t : Thread) : (s.setThread k t).tables = s.tables := rfl
@[simp] theorem State.setThread_deferred (s : State) (k : Nat) (t : Thread) : (s.setThread k t).deferred = s.deferred := rfl
@[simp] theorem State.setThread_ops (s : State) (k : Nat) (t : Thread) : (s.setThread k t).ops = s.ops := rfl
@[simp] theorem State.setThread_nextOp (s : State) (k : Nat) (t : Thread) : (s.setThread k t).nextOp = s.nextOp := rfl
@[simp] theorem State.setThread_saves (s : State) (k : Nat) (t : Thread) : (s.setThread k t).saves = s.saves := rfl
@[simp] theorem State.setThread_clocks (s : State) (k : Nat) (t : Thread) : (s.setThread k t).clocks = s.clocks := rfl

@[simp] theorem State.updThread_agenda (s : State) (k : Nat) (f : Thread → Thread) : (s.updThread k f).agenda = s.agenda := rfl
@[simp] theorem State.updThread_ev (s : State) (k : Nat) (f : Thread → Thread) : (s.updThread k f).ev = s.ev := rfl
@[simp] theorem State.updThread_act (s : State) (k : Nat) (f : Thread → Thread) : (s.updThread k f).act = s.act := rfl
@[simp] theorem State.updThread_cur (s : State) (k : Nat) (f : Thread → Thread) : (s.updThread k f).cur = s.cur := rfl
@[simp] theorem State.updThread_ir (s : State) (k : Nat) (f : Thread → Thread) : (s.updThread k f).ir = s.ir := rfl
@[simp] theorem State.updThread_free (s : State) (k : Nat) (f : Thread → Thread) : (s.updThread k f).free = s.free := rfl
@[simp] theorem State.updThread_rr (s : State) (k : Nat) (f : Thread → Thread) : (s.updThread k f).rr = s.rr := rfl
@[simp] theorem State.updThread_now (s : State) (k : Nat) (f : Thread → Thread) : (s.updThread k f).now = s.now := rfl
@[simp] theorem State.updThread_bus (s : State) (k : Nat) (f : Thread → Thread) : (s.updThread k f).bus = s.bus := rfl
@[simp] theorem State.updThread_mem (s : State) (k : Nat) (f : Thread → Thread) : (s.updThread k f).mem = s.mem := rfl
@[simp] theorem State.updThread_backing (s : State) (k : Nat) (f : Thread → Thread) : (s.updThread k f).backing = s.backing := rfl
@[simp] theorem State.updThread_poison (s : State) (k : Nat) (f : Thread → Thread) : (s.updThread k f).poison = s.poison := rfl
@[simp] theorem State.updThread_stamps (s : State) (k : Nat) (f : Thread → Thread) : (s.updThread k f).stamps = s.stamps := rfl
@[simp] theorem State.updThread_cores (s : State) (k : Nat) (f : Thread → Thread) : (s.updThread k f).cores = s.cores := rfl
@[simp] theorem State.updThread_clusters (s : State) (k : Nat) (f : Thread → Thread) : (s.updThread k f).clusters = s.clusters := rfl
@[simp] theorem State.updThread_dies (s : State) (k : Nat) (f : Thread → Thread) : (s.updThread k f).dies = s.dies := rfl
@[simp] theorem State.updThread_links (s : State) (k : Nat) (f : Thread → Thread) : (s.updThread k f).links = s.links := rfl
@[simp] theorem State.updThread_dead (s : State) (k : Nat) (f : Thread → Thread) : (s.updThread k f).dead = s.dead := rfl
@[simp] theorem State.updThread_port (s : State) (k : Nat) (f : Thread → Thread) : (s.updThread k f).port = s.port := rfl
@[simp] theorem State.updThread_camp (s : State) (k : Nat) (f : Thread → Thread) : (s.updThread k f).camp = s.camp := rfl
@[simp] theorem State.updThread_queues (s : State) (k : Nat) (f : Thread → Thread) : (s.updThread k f).queues = s.queues := rfl
@[simp] theorem State.updThread_belfry (s : State) (k : Nat) (f : Thread → Thread) : (s.updThread k f).belfry = s.belfry := rfl
@[simp] theorem State.updThread_bars (s : State) (k : Nat) (f : Thread → Thread) : (s.updThread k f).bars = s.bars := rfl
@[simp] theorem State.updThread_barCnt (s : State) (k : Nat) (f : Thread → Thread) : (s.updThread k f).barCnt = s.barCnt := rfl
@[simp] theorem State.updThread_seqs (s : State) (k : Nat) (f : Thread → Thread) : (s.updThread k f).seqs = s.seqs := rfl
@[simp] theorem State.updThread_btab (s : State) (k : Nat) (f : Thread → Thread) : (s.updThread k f).btab = s.btab := rfl
@[simp] theorem State.updThread_frames (s : State) (k : Nat) (f : Thread → Thread) : (s.updThread k f).frames = s.frames := rfl
@[simp] theorem State.updThread_pools (s : State) (k : Nat) (f : Thread → Thread) : (s.updThread k f).pools = s.pools := rfl
@[simp] theorem State.updThread_tables (s : State) (k : Nat) (f : Thread → Thread) : (s.updThread k f).tables = s.tables := rfl
@[simp] theorem State.updThread_deferred (s : State) (k : Nat) (f : Thread → Thread) : (s.updThread k f).deferred = s.deferred := rfl
@[simp] theorem State.updThread_ops (s : State) (k : Nat) (f : Thread → Thread) : (s.updThread k f).ops = s.ops := rfl
@[simp] theorem State.updThread_nextOp (s : State) (k : Nat) (f : Thread → Thread) : (s.updThread k f).nextOp = s.nextOp := rfl
@[simp] theorem State.updThread_saves (s : State) (k : Nat) (f : Thread → Thread) : (s.updThread k f).saves = s.saves := rfl
@[simp] theorem State.updThread_clocks (s : State) (k : Nat) (f : Thread → Thread) : (s.updThread k f).clocks = s.clocks := rfl

@[simp] theorem State.setMe_agenda (s : State) (t : Thread) : (s.setMe t).agenda = s.agenda := rfl
@[simp] theorem State.setMe_ev (s : State) (t : Thread) : (s.setMe t).ev = s.ev := rfl
@[simp] theorem State.setMe_act (s : State) (t : Thread) : (s.setMe t).act = s.act := rfl
@[simp] theorem State.setMe_cur (s : State) (t : Thread) : (s.setMe t).cur = s.cur := rfl
@[simp] theorem State.setMe_ir (s : State) (t : Thread) : (s.setMe t).ir = s.ir := rfl
@[simp] theorem State.setMe_free (s : State) (t : Thread) : (s.setMe t).free = s.free := rfl
@[simp] theorem State.setMe_rr (s : State) (t : Thread) : (s.setMe t).rr = s.rr := rfl
@[simp] theorem State.setMe_now (s : State) (t : Thread) : (s.setMe t).now = s.now := rfl
@[simp] theorem State.setMe_bus (s : State) (t : Thread) : (s.setMe t).bus = s.bus := rfl
@[simp] theorem State.setMe_mem (s : State) (t : Thread) : (s.setMe t).mem = s.mem := rfl
@[simp] theorem State.setMe_backing (s : State) (t : Thread) : (s.setMe t).backing = s.backing := rfl
@[simp] theorem State.setMe_poison (s : State) (t : Thread) : (s.setMe t).poison = s.poison := rfl
@[simp] theorem State.setMe_stamps (s : State) (t : Thread) : (s.setMe t).stamps = s.stamps := rfl
@[simp] theorem State.setMe_cores (s : State) (t : Thread) : (s.setMe t).cores = s.cores := rfl
@[simp] theorem State.setMe_clusters (s : State) (t : Thread) : (s.setMe t).clusters = s.clusters := rfl
@[simp] theorem State.setMe_dies (s : State) (t : Thread) : (s.setMe t).dies = s.dies := rfl
@[simp] theorem State.setMe_links (s : State) (t : Thread) : (s.setMe t).links = s.links := rfl
@[simp] theorem State.setMe_dead (s : State) (t : Thread) : (s.setMe t).dead = s.dead := rfl
@[simp] theorem State.setMe_port (s : State) (t : Thread) : (s.setMe t).port = s.port := rfl
@[simp] theorem State.setMe_camp (s : State) (t : Thread) : (s.setMe t).camp = s.camp := rfl
@[simp] theorem State.setMe_queues (s : State) (t : Thread) : (s.setMe t).queues = s.queues := rfl
@[simp] theorem State.setMe_belfry (s : State) (t : Thread) : (s.setMe t).belfry = s.belfry := rfl
@[simp] theorem State.setMe_bars (s : State) (t : Thread) : (s.setMe t).bars = s.bars := rfl
@[simp] theorem State.setMe_barCnt (s : State) (t : Thread) : (s.setMe t).barCnt = s.barCnt := rfl
@[simp] theorem State.setMe_seqs (s : State) (t : Thread) : (s.setMe t).seqs = s.seqs := rfl
@[simp] theorem State.setMe_btab (s : State) (t : Thread) : (s.setMe t).btab = s.btab := rfl
@[simp] theorem State.setMe_frames (s : State) (t : Thread) : (s.setMe t).frames = s.frames := rfl
@[simp] theorem State.setMe_pools (s : State) (t : Thread) : (s.setMe t).pools = s.pools := rfl
@[simp] theorem State.setMe_tables (s : State) (t : Thread) : (s.setMe t).tables = s.tables := rfl
@[simp] theorem State.setMe_deferred (s : State) (t : Thread) : (s.setMe t).deferred = s.deferred := rfl
@[simp] theorem State.setMe_ops (s : State) (t : Thread) : (s.setMe t).ops = s.ops := rfl
@[simp] theorem State.setMe_nextOp (s : State) (t : Thread) : (s.setMe t).nextOp = s.nextOp := rfl
@[simp] theorem State.setMe_saves (s : State) (t : Thread) : (s.setMe t).saves = s.saves := rfl
@[simp] theorem State.setMe_clocks (s : State) (t : Thread) : (s.setMe t).clocks = s.clocks := rfl

@[simp] theorem State.updMe_agenda (s : State) (f : Thread → Thread) : (s.updMe f).agenda = s.agenda := rfl
@[simp] theorem State.updMe_ev (s : State) (f : Thread → Thread) : (s.updMe f).ev = s.ev := rfl
@[simp] theorem State.updMe_act (s : State) (f : Thread → Thread) : (s.updMe f).act = s.act := rfl
@[simp] theorem State.updMe_cur (s : State) (f : Thread → Thread) : (s.updMe f).cur = s.cur := rfl
@[simp] theorem State.updMe_ir (s : State) (f : Thread → Thread) : (s.updMe f).ir = s.ir := rfl
@[simp] theorem State.updMe_free (s : State) (f : Thread → Thread) : (s.updMe f).free = s.free := rfl
@[simp] theorem State.updMe_rr (s : State) (f : Thread → Thread) : (s.updMe f).rr = s.rr := rfl
@[simp] theorem State.updMe_now (s : State) (f : Thread → Thread) : (s.updMe f).now = s.now := rfl
@[simp] theorem State.updMe_bus (s : State) (f : Thread → Thread) : (s.updMe f).bus = s.bus := rfl
@[simp] theorem State.updMe_mem (s : State) (f : Thread → Thread) : (s.updMe f).mem = s.mem := rfl
@[simp] theorem State.updMe_backing (s : State) (f : Thread → Thread) : (s.updMe f).backing = s.backing := rfl
@[simp] theorem State.updMe_poison (s : State) (f : Thread → Thread) : (s.updMe f).poison = s.poison := rfl
@[simp] theorem State.updMe_stamps (s : State) (f : Thread → Thread) : (s.updMe f).stamps = s.stamps := rfl
@[simp] theorem State.updMe_cores (s : State) (f : Thread → Thread) : (s.updMe f).cores = s.cores := rfl
@[simp] theorem State.updMe_clusters (s : State) (f : Thread → Thread) : (s.updMe f).clusters = s.clusters := rfl
@[simp] theorem State.updMe_dies (s : State) (f : Thread → Thread) : (s.updMe f).dies = s.dies := rfl
@[simp] theorem State.updMe_links (s : State) (f : Thread → Thread) : (s.updMe f).links = s.links := rfl
@[simp] theorem State.updMe_dead (s : State) (f : Thread → Thread) : (s.updMe f).dead = s.dead := rfl
@[simp] theorem State.updMe_port (s : State) (f : Thread → Thread) : (s.updMe f).port = s.port := rfl
@[simp] theorem State.updMe_camp (s : State) (f : Thread → Thread) : (s.updMe f).camp = s.camp := rfl
@[simp] theorem State.updMe_queues (s : State) (f : Thread → Thread) : (s.updMe f).queues = s.queues := rfl
@[simp] theorem State.updMe_belfry (s : State) (f : Thread → Thread) : (s.updMe f).belfry = s.belfry := rfl
@[simp] theorem State.updMe_bars (s : State) (f : Thread → Thread) : (s.updMe f).bars = s.bars := rfl
@[simp] theorem State.updMe_barCnt (s : State) (f : Thread → Thread) : (s.updMe f).barCnt = s.barCnt := rfl
@[simp] theorem State.updMe_seqs (s : State) (f : Thread → Thread) : (s.updMe f).seqs = s.seqs := rfl
@[simp] theorem State.updMe_btab (s : State) (f : Thread → Thread) : (s.updMe f).btab = s.btab := rfl
@[simp] theorem State.updMe_frames (s : State) (f : Thread → Thread) : (s.updMe f).frames = s.frames := rfl
@[simp] theorem State.updMe_pools (s : State) (f : Thread → Thread) : (s.updMe f).pools = s.pools := rfl
@[simp] theorem State.updMe_tables (s : State) (f : Thread → Thread) : (s.updMe f).tables = s.tables := rfl
@[simp] theorem State.updMe_deferred (s : State) (f : Thread → Thread) : (s.updMe f).deferred = s.deferred := rfl
@[simp] theorem State.updMe_ops (s : State) (f : Thread → Thread) : (s.updMe f).ops = s.ops := rfl
@[simp] theorem State.updMe_nextOp (s : State) (f : Thread → Thread) : (s.updMe f).nextOp = s.nextOp := rfl
@[simp] theorem State.updMe_saves (s : State) (f : Thread → Thread) : (s.updMe f).saves = s.saves := rfl
@[simp] theorem State.updMe_clocks (s : State) (f : Thread → Thread) : (s.updMe f).clocks = s.clocks := rfl

@[simp] theorem State.wr_agenda (s : State) (r : Reg) (v : Word) : (s.wr r v).agenda = s.agenda := rfl
@[simp] theorem State.wr_ev (s : State) (r : Reg) (v : Word) : (s.wr r v).ev = s.ev := rfl
@[simp] theorem State.wr_act (s : State) (r : Reg) (v : Word) : (s.wr r v).act = s.act := rfl
@[simp] theorem State.wr_cur (s : State) (r : Reg) (v : Word) : (s.wr r v).cur = s.cur := rfl
@[simp] theorem State.wr_ir (s : State) (r : Reg) (v : Word) : (s.wr r v).ir = s.ir := rfl
@[simp] theorem State.wr_free (s : State) (r : Reg) (v : Word) : (s.wr r v).free = s.free := rfl
@[simp] theorem State.wr_rr (s : State) (r : Reg) (v : Word) : (s.wr r v).rr = s.rr := rfl
@[simp] theorem State.wr_now (s : State) (r : Reg) (v : Word) : (s.wr r v).now = s.now := rfl
@[simp] theorem State.wr_bus (s : State) (r : Reg) (v : Word) : (s.wr r v).bus = s.bus := rfl
@[simp] theorem State.wr_mem (s : State) (r : Reg) (v : Word) : (s.wr r v).mem = s.mem := rfl
@[simp] theorem State.wr_backing (s : State) (r : Reg) (v : Word) : (s.wr r v).backing = s.backing := rfl
@[simp] theorem State.wr_poison (s : State) (r : Reg) (v : Word) : (s.wr r v).poison = s.poison := rfl
@[simp] theorem State.wr_stamps (s : State) (r : Reg) (v : Word) : (s.wr r v).stamps = s.stamps := rfl
@[simp] theorem State.wr_cores (s : State) (r : Reg) (v : Word) : (s.wr r v).cores = s.cores := rfl
@[simp] theorem State.wr_clusters (s : State) (r : Reg) (v : Word) : (s.wr r v).clusters = s.clusters := rfl
@[simp] theorem State.wr_dies (s : State) (r : Reg) (v : Word) : (s.wr r v).dies = s.dies := rfl
@[simp] theorem State.wr_links (s : State) (r : Reg) (v : Word) : (s.wr r v).links = s.links := rfl
@[simp] theorem State.wr_dead (s : State) (r : Reg) (v : Word) : (s.wr r v).dead = s.dead := rfl
@[simp] theorem State.wr_port (s : State) (r : Reg) (v : Word) : (s.wr r v).port = s.port := rfl
@[simp] theorem State.wr_camp (s : State) (r : Reg) (v : Word) : (s.wr r v).camp = s.camp := rfl
@[simp] theorem State.wr_queues (s : State) (r : Reg) (v : Word) : (s.wr r v).queues = s.queues := rfl
@[simp] theorem State.wr_belfry (s : State) (r : Reg) (v : Word) : (s.wr r v).belfry = s.belfry := rfl
@[simp] theorem State.wr_bars (s : State) (r : Reg) (v : Word) : (s.wr r v).bars = s.bars := rfl
@[simp] theorem State.wr_barCnt (s : State) (r : Reg) (v : Word) : (s.wr r v).barCnt = s.barCnt := rfl
@[simp] theorem State.wr_seqs (s : State) (r : Reg) (v : Word) : (s.wr r v).seqs = s.seqs := rfl
@[simp] theorem State.wr_btab (s : State) (r : Reg) (v : Word) : (s.wr r v).btab = s.btab := rfl
@[simp] theorem State.wr_frames (s : State) (r : Reg) (v : Word) : (s.wr r v).frames = s.frames := rfl
@[simp] theorem State.wr_pools (s : State) (r : Reg) (v : Word) : (s.wr r v).pools = s.pools := rfl
@[simp] theorem State.wr_tables (s : State) (r : Reg) (v : Word) : (s.wr r v).tables = s.tables := rfl
@[simp] theorem State.wr_deferred (s : State) (r : Reg) (v : Word) : (s.wr r v).deferred = s.deferred := rfl
@[simp] theorem State.wr_ops (s : State) (r : Reg) (v : Word) : (s.wr r v).ops = s.ops := rfl
@[simp] theorem State.wr_nextOp (s : State) (r : Reg) (v : Word) : (s.wr r v).nextOp = s.nextOp := rfl
@[simp] theorem State.wr_saves (s : State) (r : Reg) (v : Word) : (s.wr r v).saves = s.saves := rfl
@[simp] theorem State.wr_clocks (s : State) (r : Reg) (v : Word) : (s.wr r v).clocks = s.clocks := rfl

@[simp] theorem State.advance_agenda (s : State) : (s.advance).agenda = s.agenda := rfl
@[simp] theorem State.advance_ev (s : State) : (s.advance).ev = s.ev := rfl
@[simp] theorem State.advance_act (s : State) : (s.advance).act = s.act := rfl
@[simp] theorem State.advance_cur (s : State) : (s.advance).cur = s.cur := rfl
@[simp] theorem State.advance_ir (s : State) : (s.advance).ir = s.ir := rfl
@[simp] theorem State.advance_free (s : State) : (s.advance).free = s.free := rfl
@[simp] theorem State.advance_rr (s : State) : (s.advance).rr = s.rr := rfl
@[simp] theorem State.advance_now (s : State) : (s.advance).now = s.now := rfl
@[simp] theorem State.advance_bus (s : State) : (s.advance).bus = s.bus := rfl
@[simp] theorem State.advance_mem (s : State) : (s.advance).mem = s.mem := rfl
@[simp] theorem State.advance_backing (s : State) : (s.advance).backing = s.backing := rfl
@[simp] theorem State.advance_poison (s : State) : (s.advance).poison = s.poison := rfl
@[simp] theorem State.advance_stamps (s : State) : (s.advance).stamps = s.stamps := rfl
@[simp] theorem State.advance_cores (s : State) : (s.advance).cores = s.cores := rfl
@[simp] theorem State.advance_clusters (s : State) : (s.advance).clusters = s.clusters := rfl
@[simp] theorem State.advance_dies (s : State) : (s.advance).dies = s.dies := rfl
@[simp] theorem State.advance_links (s : State) : (s.advance).links = s.links := rfl
@[simp] theorem State.advance_dead (s : State) : (s.advance).dead = s.dead := rfl
@[simp] theorem State.advance_port (s : State) : (s.advance).port = s.port := rfl
@[simp] theorem State.advance_camp (s : State) : (s.advance).camp = s.camp := rfl
@[simp] theorem State.advance_queues (s : State) : (s.advance).queues = s.queues := rfl
@[simp] theorem State.advance_belfry (s : State) : (s.advance).belfry = s.belfry := rfl
@[simp] theorem State.advance_bars (s : State) : (s.advance).bars = s.bars := rfl
@[simp] theorem State.advance_barCnt (s : State) : (s.advance).barCnt = s.barCnt := rfl
@[simp] theorem State.advance_seqs (s : State) : (s.advance).seqs = s.seqs := rfl
@[simp] theorem State.advance_btab (s : State) : (s.advance).btab = s.btab := rfl
@[simp] theorem State.advance_frames (s : State) : (s.advance).frames = s.frames := rfl
@[simp] theorem State.advance_pools (s : State) : (s.advance).pools = s.pools := rfl
@[simp] theorem State.advance_tables (s : State) : (s.advance).tables = s.tables := rfl
@[simp] theorem State.advance_deferred (s : State) : (s.advance).deferred = s.deferred := rfl
@[simp] theorem State.advance_ops (s : State) : (s.advance).ops = s.ops := rfl
@[simp] theorem State.advance_nextOp (s : State) : (s.advance).nextOp = s.nextOp := rfl
@[simp] theorem State.advance_saves (s : State) : (s.advance).saves = s.saves := rfl
@[simp] theorem State.advance_clocks (s : State) : (s.advance).clocks = s.clocks := rfl

@[simp] theorem State.jump_agenda (s : State) (pc : Word) : (s.jump pc).agenda = s.agenda := rfl
@[simp] theorem State.jump_ev (s : State) (pc : Word) : (s.jump pc).ev = s.ev := rfl
@[simp] theorem State.jump_act (s : State) (pc : Word) : (s.jump pc).act = s.act := rfl
@[simp] theorem State.jump_cur (s : State) (pc : Word) : (s.jump pc).cur = s.cur := rfl
@[simp] theorem State.jump_ir (s : State) (pc : Word) : (s.jump pc).ir = s.ir := rfl
@[simp] theorem State.jump_free (s : State) (pc : Word) : (s.jump pc).free = s.free := rfl
@[simp] theorem State.jump_rr (s : State) (pc : Word) : (s.jump pc).rr = s.rr := rfl
@[simp] theorem State.jump_now (s : State) (pc : Word) : (s.jump pc).now = s.now := rfl
@[simp] theorem State.jump_bus (s : State) (pc : Word) : (s.jump pc).bus = s.bus := rfl
@[simp] theorem State.jump_mem (s : State) (pc : Word) : (s.jump pc).mem = s.mem := rfl
@[simp] theorem State.jump_backing (s : State) (pc : Word) : (s.jump pc).backing = s.backing := rfl
@[simp] theorem State.jump_poison (s : State) (pc : Word) : (s.jump pc).poison = s.poison := rfl
@[simp] theorem State.jump_stamps (s : State) (pc : Word) : (s.jump pc).stamps = s.stamps := rfl
@[simp] theorem State.jump_cores (s : State) (pc : Word) : (s.jump pc).cores = s.cores := rfl
@[simp] theorem State.jump_clusters (s : State) (pc : Word) : (s.jump pc).clusters = s.clusters := rfl
@[simp] theorem State.jump_dies (s : State) (pc : Word) : (s.jump pc).dies = s.dies := rfl
@[simp] theorem State.jump_links (s : State) (pc : Word) : (s.jump pc).links = s.links := rfl
@[simp] theorem State.jump_dead (s : State) (pc : Word) : (s.jump pc).dead = s.dead := rfl
@[simp] theorem State.jump_port (s : State) (pc : Word) : (s.jump pc).port = s.port := rfl
@[simp] theorem State.jump_camp (s : State) (pc : Word) : (s.jump pc).camp = s.camp := rfl
@[simp] theorem State.jump_queues (s : State) (pc : Word) : (s.jump pc).queues = s.queues := rfl
@[simp] theorem State.jump_belfry (s : State) (pc : Word) : (s.jump pc).belfry = s.belfry := rfl
@[simp] theorem State.jump_bars (s : State) (pc : Word) : (s.jump pc).bars = s.bars := rfl
@[simp] theorem State.jump_barCnt (s : State) (pc : Word) : (s.jump pc).barCnt = s.barCnt := rfl
@[simp] theorem State.jump_seqs (s : State) (pc : Word) : (s.jump pc).seqs = s.seqs := rfl
@[simp] theorem State.jump_btab (s : State) (pc : Word) : (s.jump pc).btab = s.btab := rfl
@[simp] theorem State.jump_frames (s : State) (pc : Word) : (s.jump pc).frames = s.frames := rfl
@[simp] theorem State.jump_pools (s : State) (pc : Word) : (s.jump pc).pools = s.pools := rfl
@[simp] theorem State.jump_tables (s : State) (pc : Word) : (s.jump pc).tables = s.tables := rfl
@[simp] theorem State.jump_deferred (s : State) (pc : Word) : (s.jump pc).deferred = s.deferred := rfl
@[simp] theorem State.jump_ops (s : State) (pc : Word) : (s.jump pc).ops = s.ops := rfl
@[simp] theorem State.jump_nextOp (s : State) (pc : Word) : (s.jump pc).nextOp = s.nextOp := rfl
@[simp] theorem State.jump_saves (s : State) (pc : Word) : (s.jump pc).saves = s.saves := rfl
@[simp] theorem State.jump_clocks (s : State) (pc : Word) : (s.jump pc).clocks = s.clocks := rfl

@[simp] theorem State.post_agenda (s : State) (k i : Nat) (v : Bool) : (s.post k i v).agenda = s.agenda := rfl
@[simp] theorem State.post_ev (s : State) (k i : Nat) (v : Bool) : (s.post k i v).ev = s.ev := rfl
@[simp] theorem State.post_act (s : State) (k i : Nat) (v : Bool) : (s.post k i v).act = s.act := rfl
@[simp] theorem State.post_cur (s : State) (k i : Nat) (v : Bool) : (s.post k i v).cur = s.cur := rfl
@[simp] theorem State.post_ir (s : State) (k i : Nat) (v : Bool) : (s.post k i v).ir = s.ir := rfl
@[simp] theorem State.post_free (s : State) (k i : Nat) (v : Bool) : (s.post k i v).free = s.free := rfl
@[simp] theorem State.post_rr (s : State) (k i : Nat) (v : Bool) : (s.post k i v).rr = s.rr := rfl
@[simp] theorem State.post_now (s : State) (k i : Nat) (v : Bool) : (s.post k i v).now = s.now := rfl
@[simp] theorem State.post_bus (s : State) (k i : Nat) (v : Bool) : (s.post k i v).bus = s.bus := rfl
@[simp] theorem State.post_mem (s : State) (k i : Nat) (v : Bool) : (s.post k i v).mem = s.mem := rfl
@[simp] theorem State.post_backing (s : State) (k i : Nat) (v : Bool) : (s.post k i v).backing = s.backing := rfl
@[simp] theorem State.post_poison (s : State) (k i : Nat) (v : Bool) : (s.post k i v).poison = s.poison := rfl
@[simp] theorem State.post_stamps (s : State) (k i : Nat) (v : Bool) : (s.post k i v).stamps = s.stamps := rfl
@[simp] theorem State.post_cores (s : State) (k i : Nat) (v : Bool) : (s.post k i v).cores = s.cores := rfl
@[simp] theorem State.post_clusters (s : State) (k i : Nat) (v : Bool) : (s.post k i v).clusters = s.clusters := rfl
@[simp] theorem State.post_dies (s : State) (k i : Nat) (v : Bool) : (s.post k i v).dies = s.dies := rfl
@[simp] theorem State.post_links (s : State) (k i : Nat) (v : Bool) : (s.post k i v).links = s.links := rfl
@[simp] theorem State.post_dead (s : State) (k i : Nat) (v : Bool) : (s.post k i v).dead = s.dead := rfl
@[simp] theorem State.post_port (s : State) (k i : Nat) (v : Bool) : (s.post k i v).port = s.port := rfl
@[simp] theorem State.post_camp (s : State) (k i : Nat) (v : Bool) : (s.post k i v).camp = s.camp := rfl
@[simp] theorem State.post_queues (s : State) (k i : Nat) (v : Bool) : (s.post k i v).queues = s.queues := rfl
@[simp] theorem State.post_belfry (s : State) (k i : Nat) (v : Bool) : (s.post k i v).belfry = s.belfry := rfl
@[simp] theorem State.post_bars (s : State) (k i : Nat) (v : Bool) : (s.post k i v).bars = s.bars := rfl
@[simp] theorem State.post_barCnt (s : State) (k i : Nat) (v : Bool) : (s.post k i v).barCnt = s.barCnt := rfl
@[simp] theorem State.post_seqs (s : State) (k i : Nat) (v : Bool) : (s.post k i v).seqs = s.seqs := rfl
@[simp] theorem State.post_btab (s : State) (k i : Nat) (v : Bool) : (s.post k i v).btab = s.btab := rfl
@[simp] theorem State.post_frames (s : State) (k i : Nat) (v : Bool) : (s.post k i v).frames = s.frames := rfl
@[simp] theorem State.post_pools (s : State) (k i : Nat) (v : Bool) : (s.post k i v).pools = s.pools := rfl
@[simp] theorem State.post_tables (s : State) (k i : Nat) (v : Bool) : (s.post k i v).tables = s.tables := rfl
@[simp] theorem State.post_deferred (s : State) (k i : Nat) (v : Bool) : (s.post k i v).deferred = s.deferred := rfl
@[simp] theorem State.post_ops (s : State) (k i : Nat) (v : Bool) : (s.post k i v).ops = s.ops := rfl
@[simp] theorem State.post_nextOp (s : State) (k i : Nat) (v : Bool) : (s.post k i v).nextOp = s.nextOp := rfl
@[simp] theorem State.post_saves (s : State) (k i : Nat) (v : Bool) : (s.post k i v).saves = s.saves := rfl
@[simp] theorem State.post_clocks (s : State) (k i : Nat) (v : Bool) : (s.post k i v).clocks = s.clocks := rfl

@[simp] theorem State.engineTrap_agenda (s : State) (k : Nat) (tr : Trap) : (s.engineTrap k tr).agenda = s.agenda := rfl
@[simp] theorem State.engineTrap_ev (s : State) (k : Nat) (tr : Trap) : (s.engineTrap k tr).ev = s.ev := rfl
@[simp] theorem State.engineTrap_act (s : State) (k : Nat) (tr : Trap) : (s.engineTrap k tr).act = s.act := rfl
@[simp] theorem State.engineTrap_cur (s : State) (k : Nat) (tr : Trap) : (s.engineTrap k tr).cur = s.cur := rfl
@[simp] theorem State.engineTrap_ir (s : State) (k : Nat) (tr : Trap) : (s.engineTrap k tr).ir = s.ir := rfl
@[simp] theorem State.engineTrap_free (s : State) (k : Nat) (tr : Trap) : (s.engineTrap k tr).free = s.free := rfl
@[simp] theorem State.engineTrap_rr (s : State) (k : Nat) (tr : Trap) : (s.engineTrap k tr).rr = s.rr := rfl
@[simp] theorem State.engineTrap_now (s : State) (k : Nat) (tr : Trap) : (s.engineTrap k tr).now = s.now := rfl
@[simp] theorem State.engineTrap_bus (s : State) (k : Nat) (tr : Trap) : (s.engineTrap k tr).bus = s.bus := rfl
@[simp] theorem State.engineTrap_mem (s : State) (k : Nat) (tr : Trap) : (s.engineTrap k tr).mem = s.mem := rfl
@[simp] theorem State.engineTrap_backing (s : State) (k : Nat) (tr : Trap) : (s.engineTrap k tr).backing = s.backing := rfl
@[simp] theorem State.engineTrap_poison (s : State) (k : Nat) (tr : Trap) : (s.engineTrap k tr).poison = s.poison := rfl
@[simp] theorem State.engineTrap_stamps (s : State) (k : Nat) (tr : Trap) : (s.engineTrap k tr).stamps = s.stamps := rfl
@[simp] theorem State.engineTrap_cores (s : State) (k : Nat) (tr : Trap) : (s.engineTrap k tr).cores = s.cores := rfl
@[simp] theorem State.engineTrap_clusters (s : State) (k : Nat) (tr : Trap) : (s.engineTrap k tr).clusters = s.clusters := rfl
@[simp] theorem State.engineTrap_dies (s : State) (k : Nat) (tr : Trap) : (s.engineTrap k tr).dies = s.dies := rfl
@[simp] theorem State.engineTrap_links (s : State) (k : Nat) (tr : Trap) : (s.engineTrap k tr).links = s.links := rfl
@[simp] theorem State.engineTrap_dead (s : State) (k : Nat) (tr : Trap) : (s.engineTrap k tr).dead = s.dead := rfl
@[simp] theorem State.engineTrap_port (s : State) (k : Nat) (tr : Trap) : (s.engineTrap k tr).port = s.port := rfl
@[simp] theorem State.engineTrap_camp (s : State) (k : Nat) (tr : Trap) : (s.engineTrap k tr).camp = s.camp := rfl
@[simp] theorem State.engineTrap_queues (s : State) (k : Nat) (tr : Trap) : (s.engineTrap k tr).queues = s.queues := rfl
@[simp] theorem State.engineTrap_belfry (s : State) (k : Nat) (tr : Trap) : (s.engineTrap k tr).belfry = s.belfry := rfl
@[simp] theorem State.engineTrap_bars (s : State) (k : Nat) (tr : Trap) : (s.engineTrap k tr).bars = s.bars := rfl
@[simp] theorem State.engineTrap_barCnt (s : State) (k : Nat) (tr : Trap) : (s.engineTrap k tr).barCnt = s.barCnt := rfl
@[simp] theorem State.engineTrap_seqs (s : State) (k : Nat) (tr : Trap) : (s.engineTrap k tr).seqs = s.seqs := rfl
@[simp] theorem State.engineTrap_btab (s : State) (k : Nat) (tr : Trap) : (s.engineTrap k tr).btab = s.btab := rfl
@[simp] theorem State.engineTrap_frames (s : State) (k : Nat) (tr : Trap) : (s.engineTrap k tr).frames = s.frames := rfl
@[simp] theorem State.engineTrap_pools (s : State) (k : Nat) (tr : Trap) : (s.engineTrap k tr).pools = s.pools := rfl
@[simp] theorem State.engineTrap_tables (s : State) (k : Nat) (tr : Trap) : (s.engineTrap k tr).tables = s.tables := rfl
@[simp] theorem State.engineTrap_deferred (s : State) (k : Nat) (tr : Trap) : (s.engineTrap k tr).deferred = s.deferred := rfl
@[simp] theorem State.engineTrap_ops (s : State) (k : Nat) (tr : Trap) : (s.engineTrap k tr).ops = s.ops := rfl
@[simp] theorem State.engineTrap_nextOp (s : State) (k : Nat) (tr : Trap) : (s.engineTrap k tr).nextOp = s.nextOp := rfl
@[simp] theorem State.engineTrap_saves (s : State) (k : Nat) (tr : Trap) : (s.engineTrap k tr).saves = s.saves := rfl
@[simp] theorem State.engineTrap_clocks (s : State) (k : Nat) (tr : Trap) : (s.engineTrap k tr).clocks = s.clocks := rfl

@[simp] theorem State.setCore_agenda (s : State) (c : Nat) (k : Core) : (s.setCore c k).agenda = s.agenda := rfl
@[simp] theorem State.setCore_ev (s : State) (c : Nat) (k : Core) : (s.setCore c k).ev = s.ev := rfl
@[simp] theorem State.setCore_act (s : State) (c : Nat) (k : Core) : (s.setCore c k).act = s.act := rfl
@[simp] theorem State.setCore_cur (s : State) (c : Nat) (k : Core) : (s.setCore c k).cur = s.cur := rfl
@[simp] theorem State.setCore_ir (s : State) (c : Nat) (k : Core) : (s.setCore c k).ir = s.ir := rfl
@[simp] theorem State.setCore_free (s : State) (c : Nat) (k : Core) : (s.setCore c k).free = s.free := rfl
@[simp] theorem State.setCore_rr (s : State) (c : Nat) (k : Core) : (s.setCore c k).rr = s.rr := rfl
@[simp] theorem State.setCore_now (s : State) (c : Nat) (k : Core) : (s.setCore c k).now = s.now := rfl
@[simp] theorem State.setCore_bus (s : State) (c : Nat) (k : Core) : (s.setCore c k).bus = s.bus := rfl
@[simp] theorem State.setCore_mem (s : State) (c : Nat) (k : Core) : (s.setCore c k).mem = s.mem := rfl
@[simp] theorem State.setCore_backing (s : State) (c : Nat) (k : Core) : (s.setCore c k).backing = s.backing := rfl
@[simp] theorem State.setCore_poison (s : State) (c : Nat) (k : Core) : (s.setCore c k).poison = s.poison := rfl
@[simp] theorem State.setCore_stamps (s : State) (c : Nat) (k : Core) : (s.setCore c k).stamps = s.stamps := rfl
@[simp] theorem State.setCore_threads (s : State) (c : Nat) (k : Core) : (s.setCore c k).threads = s.threads := rfl
@[simp] theorem State.setCore_clusters (s : State) (c : Nat) (k : Core) : (s.setCore c k).clusters = s.clusters := rfl
@[simp] theorem State.setCore_dies (s : State) (c : Nat) (k : Core) : (s.setCore c k).dies = s.dies := rfl
@[simp] theorem State.setCore_links (s : State) (c : Nat) (k : Core) : (s.setCore c k).links = s.links := rfl
@[simp] theorem State.setCore_dead (s : State) (c : Nat) (k : Core) : (s.setCore c k).dead = s.dead := rfl
@[simp] theorem State.setCore_port (s : State) (c : Nat) (k : Core) : (s.setCore c k).port = s.port := rfl
@[simp] theorem State.setCore_camp (s : State) (c : Nat) (k : Core) : (s.setCore c k).camp = s.camp := rfl
@[simp] theorem State.setCore_queues (s : State) (c : Nat) (k : Core) : (s.setCore c k).queues = s.queues := rfl
@[simp] theorem State.setCore_belfry (s : State) (c : Nat) (k : Core) : (s.setCore c k).belfry = s.belfry := rfl
@[simp] theorem State.setCore_bars (s : State) (c : Nat) (k : Core) : (s.setCore c k).bars = s.bars := rfl
@[simp] theorem State.setCore_barCnt (s : State) (c : Nat) (k : Core) : (s.setCore c k).barCnt = s.barCnt := rfl
@[simp] theorem State.setCore_seqs (s : State) (c : Nat) (k : Core) : (s.setCore c k).seqs = s.seqs := rfl
@[simp] theorem State.setCore_btab (s : State) (c : Nat) (k : Core) : (s.setCore c k).btab = s.btab := rfl
@[simp] theorem State.setCore_frames (s : State) (c : Nat) (k : Core) : (s.setCore c k).frames = s.frames := rfl
@[simp] theorem State.setCore_pools (s : State) (c : Nat) (k : Core) : (s.setCore c k).pools = s.pools := rfl
@[simp] theorem State.setCore_tables (s : State) (c : Nat) (k : Core) : (s.setCore c k).tables = s.tables := rfl
@[simp] theorem State.setCore_deferred (s : State) (c : Nat) (k : Core) : (s.setCore c k).deferred = s.deferred := rfl
@[simp] theorem State.setCore_ops (s : State) (c : Nat) (k : Core) : (s.setCore c k).ops = s.ops := rfl
@[simp] theorem State.setCore_nextOp (s : State) (c : Nat) (k : Core) : (s.setCore c k).nextOp = s.nextOp := rfl
@[simp] theorem State.setCore_saves (s : State) (c : Nat) (k : Core) : (s.setCore c k).saves = s.saves := rfl
@[simp] theorem State.setCore_clocks (s : State) (c : Nat) (k : Core) : (s.setCore c k).clocks = s.clocks := rfl

@[simp] theorem State.updCore_agenda (s : State) (c : Nat) (f : Core → Core) : (s.updCore c f).agenda = s.agenda := rfl
@[simp] theorem State.updCore_ev (s : State) (c : Nat) (f : Core → Core) : (s.updCore c f).ev = s.ev := rfl
@[simp] theorem State.updCore_act (s : State) (c : Nat) (f : Core → Core) : (s.updCore c f).act = s.act := rfl
@[simp] theorem State.updCore_cur (s : State) (c : Nat) (f : Core → Core) : (s.updCore c f).cur = s.cur := rfl
@[simp] theorem State.updCore_ir (s : State) (c : Nat) (f : Core → Core) : (s.updCore c f).ir = s.ir := rfl
@[simp] theorem State.updCore_free (s : State) (c : Nat) (f : Core → Core) : (s.updCore c f).free = s.free := rfl
@[simp] theorem State.updCore_rr (s : State) (c : Nat) (f : Core → Core) : (s.updCore c f).rr = s.rr := rfl
@[simp] theorem State.updCore_now (s : State) (c : Nat) (f : Core → Core) : (s.updCore c f).now = s.now := rfl
@[simp] theorem State.updCore_bus (s : State) (c : Nat) (f : Core → Core) : (s.updCore c f).bus = s.bus := rfl
@[simp] theorem State.updCore_mem (s : State) (c : Nat) (f : Core → Core) : (s.updCore c f).mem = s.mem := rfl
@[simp] theorem State.updCore_backing (s : State) (c : Nat) (f : Core → Core) : (s.updCore c f).backing = s.backing := rfl
@[simp] theorem State.updCore_poison (s : State) (c : Nat) (f : Core → Core) : (s.updCore c f).poison = s.poison := rfl
@[simp] theorem State.updCore_stamps (s : State) (c : Nat) (f : Core → Core) : (s.updCore c f).stamps = s.stamps := rfl
@[simp] theorem State.updCore_threads (s : State) (c : Nat) (f : Core → Core) : (s.updCore c f).threads = s.threads := rfl
@[simp] theorem State.updCore_clusters (s : State) (c : Nat) (f : Core → Core) : (s.updCore c f).clusters = s.clusters := rfl
@[simp] theorem State.updCore_dies (s : State) (c : Nat) (f : Core → Core) : (s.updCore c f).dies = s.dies := rfl
@[simp] theorem State.updCore_links (s : State) (c : Nat) (f : Core → Core) : (s.updCore c f).links = s.links := rfl
@[simp] theorem State.updCore_dead (s : State) (c : Nat) (f : Core → Core) : (s.updCore c f).dead = s.dead := rfl
@[simp] theorem State.updCore_port (s : State) (c : Nat) (f : Core → Core) : (s.updCore c f).port = s.port := rfl
@[simp] theorem State.updCore_camp (s : State) (c : Nat) (f : Core → Core) : (s.updCore c f).camp = s.camp := rfl
@[simp] theorem State.updCore_queues (s : State) (c : Nat) (f : Core → Core) : (s.updCore c f).queues = s.queues := rfl
@[simp] theorem State.updCore_belfry (s : State) (c : Nat) (f : Core → Core) : (s.updCore c f).belfry = s.belfry := rfl
@[simp] theorem State.updCore_bars (s : State) (c : Nat) (f : Core → Core) : (s.updCore c f).bars = s.bars := rfl
@[simp] theorem State.updCore_barCnt (s : State) (c : Nat) (f : Core → Core) : (s.updCore c f).barCnt = s.barCnt := rfl
@[simp] theorem State.updCore_seqs (s : State) (c : Nat) (f : Core → Core) : (s.updCore c f).seqs = s.seqs := rfl
@[simp] theorem State.updCore_btab (s : State) (c : Nat) (f : Core → Core) : (s.updCore c f).btab = s.btab := rfl
@[simp] theorem State.updCore_frames (s : State) (c : Nat) (f : Core → Core) : (s.updCore c f).frames = s.frames := rfl
@[simp] theorem State.updCore_pools (s : State) (c : Nat) (f : Core → Core) : (s.updCore c f).pools = s.pools := rfl
@[simp] theorem State.updCore_tables (s : State) (c : Nat) (f : Core → Core) : (s.updCore c f).tables = s.tables := rfl
@[simp] theorem State.updCore_deferred (s : State) (c : Nat) (f : Core → Core) : (s.updCore c f).deferred = s.deferred := rfl
@[simp] theorem State.updCore_ops (s : State) (c : Nat) (f : Core → Core) : (s.updCore c f).ops = s.ops := rfl
@[simp] theorem State.updCore_nextOp (s : State) (c : Nat) (f : Core → Core) : (s.updCore c f).nextOp = s.nextOp := rfl
@[simp] theorem State.updCore_saves (s : State) (c : Nat) (f : Core → Core) : (s.updCore c f).saves = s.saves := rfl
@[simp] theorem State.updCore_clocks (s : State) (c : Nat) (f : Core → Core) : (s.updCore c f).clocks = s.clocks := rfl

@[simp] theorem State.updMyCore_agenda (s : State) (f : Core → Core) : (s.updMyCore f).agenda = s.agenda := rfl
@[simp] theorem State.updMyCore_ev (s : State) (f : Core → Core) : (s.updMyCore f).ev = s.ev := rfl
@[simp] theorem State.updMyCore_act (s : State) (f : Core → Core) : (s.updMyCore f).act = s.act := rfl
@[simp] theorem State.updMyCore_cur (s : State) (f : Core → Core) : (s.updMyCore f).cur = s.cur := rfl
@[simp] theorem State.updMyCore_ir (s : State) (f : Core → Core) : (s.updMyCore f).ir = s.ir := rfl
@[simp] theorem State.updMyCore_free (s : State) (f : Core → Core) : (s.updMyCore f).free = s.free := rfl
@[simp] theorem State.updMyCore_rr (s : State) (f : Core → Core) : (s.updMyCore f).rr = s.rr := rfl
@[simp] theorem State.updMyCore_now (s : State) (f : Core → Core) : (s.updMyCore f).now = s.now := rfl
@[simp] theorem State.updMyCore_bus (s : State) (f : Core → Core) : (s.updMyCore f).bus = s.bus := rfl
@[simp] theorem State.updMyCore_mem (s : State) (f : Core → Core) : (s.updMyCore f).mem = s.mem := rfl
@[simp] theorem State.updMyCore_backing (s : State) (f : Core → Core) : (s.updMyCore f).backing = s.backing := rfl
@[simp] theorem State.updMyCore_poison (s : State) (f : Core → Core) : (s.updMyCore f).poison = s.poison := rfl
@[simp] theorem State.updMyCore_stamps (s : State) (f : Core → Core) : (s.updMyCore f).stamps = s.stamps := rfl
@[simp] theorem State.updMyCore_threads (s : State) (f : Core → Core) : (s.updMyCore f).threads = s.threads := rfl
@[simp] theorem State.updMyCore_clusters (s : State) (f : Core → Core) : (s.updMyCore f).clusters = s.clusters := rfl
@[simp] theorem State.updMyCore_dies (s : State) (f : Core → Core) : (s.updMyCore f).dies = s.dies := rfl
@[simp] theorem State.updMyCore_links (s : State) (f : Core → Core) : (s.updMyCore f).links = s.links := rfl
@[simp] theorem State.updMyCore_dead (s : State) (f : Core → Core) : (s.updMyCore f).dead = s.dead := rfl
@[simp] theorem State.updMyCore_port (s : State) (f : Core → Core) : (s.updMyCore f).port = s.port := rfl
@[simp] theorem State.updMyCore_camp (s : State) (f : Core → Core) : (s.updMyCore f).camp = s.camp := rfl
@[simp] theorem State.updMyCore_queues (s : State) (f : Core → Core) : (s.updMyCore f).queues = s.queues := rfl
@[simp] theorem State.updMyCore_belfry (s : State) (f : Core → Core) : (s.updMyCore f).belfry = s.belfry := rfl
@[simp] theorem State.updMyCore_bars (s : State) (f : Core → Core) : (s.updMyCore f).bars = s.bars := rfl
@[simp] theorem State.updMyCore_barCnt (s : State) (f : Core → Core) : (s.updMyCore f).barCnt = s.barCnt := rfl
@[simp] theorem State.updMyCore_seqs (s : State) (f : Core → Core) : (s.updMyCore f).seqs = s.seqs := rfl
@[simp] theorem State.updMyCore_btab (s : State) (f : Core → Core) : (s.updMyCore f).btab = s.btab := rfl
@[simp] theorem State.updMyCore_frames (s : State) (f : Core → Core) : (s.updMyCore f).frames = s.frames := rfl
@[simp] theorem State.updMyCore_pools (s : State) (f : Core → Core) : (s.updMyCore f).pools = s.pools := rfl
@[simp] theorem State.updMyCore_tables (s : State) (f : Core → Core) : (s.updMyCore f).tables = s.tables := rfl
@[simp] theorem State.updMyCore_deferred (s : State) (f : Core → Core) : (s.updMyCore f).deferred = s.deferred := rfl
@[simp] theorem State.updMyCore_ops (s : State) (f : Core → Core) : (s.updMyCore f).ops = s.ops := rfl
@[simp] theorem State.updMyCore_nextOp (s : State) (f : Core → Core) : (s.updMyCore f).nextOp = s.nextOp := rfl
@[simp] theorem State.updMyCore_saves (s : State) (f : Core → Core) : (s.updMyCore f).saves = s.saves := rfl
@[simp] theorem State.updMyCore_clocks (s : State) (f : Core → Core) : (s.updMyCore f).clocks = s.clocks := rfl

@[simp] theorem State.updCluster_agenda (s : State) (c : Nat) (f : Cluster → Cluster) : (s.updCluster c f).agenda = s.agenda := rfl
@[simp] theorem State.updCluster_ev (s : State) (c : Nat) (f : Cluster → Cluster) : (s.updCluster c f).ev = s.ev := rfl
@[simp] theorem State.updCluster_act (s : State) (c : Nat) (f : Cluster → Cluster) : (s.updCluster c f).act = s.act := rfl
@[simp] theorem State.updCluster_cur (s : State) (c : Nat) (f : Cluster → Cluster) : (s.updCluster c f).cur = s.cur := rfl
@[simp] theorem State.updCluster_ir (s : State) (c : Nat) (f : Cluster → Cluster) : (s.updCluster c f).ir = s.ir := rfl
@[simp] theorem State.updCluster_free (s : State) (c : Nat) (f : Cluster → Cluster) : (s.updCluster c f).free = s.free := rfl
@[simp] theorem State.updCluster_rr (s : State) (c : Nat) (f : Cluster → Cluster) : (s.updCluster c f).rr = s.rr := rfl
@[simp] theorem State.updCluster_now (s : State) (c : Nat) (f : Cluster → Cluster) : (s.updCluster c f).now = s.now := rfl
@[simp] theorem State.updCluster_bus (s : State) (c : Nat) (f : Cluster → Cluster) : (s.updCluster c f).bus = s.bus := rfl
@[simp] theorem State.updCluster_mem (s : State) (c : Nat) (f : Cluster → Cluster) : (s.updCluster c f).mem = s.mem := rfl
@[simp] theorem State.updCluster_backing (s : State) (c : Nat) (f : Cluster → Cluster) : (s.updCluster c f).backing = s.backing := rfl
@[simp] theorem State.updCluster_poison (s : State) (c : Nat) (f : Cluster → Cluster) : (s.updCluster c f).poison = s.poison := rfl
@[simp] theorem State.updCluster_stamps (s : State) (c : Nat) (f : Cluster → Cluster) : (s.updCluster c f).stamps = s.stamps := rfl
@[simp] theorem State.updCluster_threads (s : State) (c : Nat) (f : Cluster → Cluster) : (s.updCluster c f).threads = s.threads := rfl
@[simp] theorem State.updCluster_cores (s : State) (c : Nat) (f : Cluster → Cluster) : (s.updCluster c f).cores = s.cores := rfl
@[simp] theorem State.updCluster_dies (s : State) (c : Nat) (f : Cluster → Cluster) : (s.updCluster c f).dies = s.dies := rfl
@[simp] theorem State.updCluster_links (s : State) (c : Nat) (f : Cluster → Cluster) : (s.updCluster c f).links = s.links := rfl
@[simp] theorem State.updCluster_dead (s : State) (c : Nat) (f : Cluster → Cluster) : (s.updCluster c f).dead = s.dead := rfl
@[simp] theorem State.updCluster_port (s : State) (c : Nat) (f : Cluster → Cluster) : (s.updCluster c f).port = s.port := rfl
@[simp] theorem State.updCluster_camp (s : State) (c : Nat) (f : Cluster → Cluster) : (s.updCluster c f).camp = s.camp := rfl
@[simp] theorem State.updCluster_queues (s : State) (c : Nat) (f : Cluster → Cluster) : (s.updCluster c f).queues = s.queues := rfl
@[simp] theorem State.updCluster_belfry (s : State) (c : Nat) (f : Cluster → Cluster) : (s.updCluster c f).belfry = s.belfry := rfl
@[simp] theorem State.updCluster_bars (s : State) (c : Nat) (f : Cluster → Cluster) : (s.updCluster c f).bars = s.bars := rfl
@[simp] theorem State.updCluster_barCnt (s : State) (c : Nat) (f : Cluster → Cluster) : (s.updCluster c f).barCnt = s.barCnt := rfl
@[simp] theorem State.updCluster_seqs (s : State) (c : Nat) (f : Cluster → Cluster) : (s.updCluster c f).seqs = s.seqs := rfl
@[simp] theorem State.updCluster_btab (s : State) (c : Nat) (f : Cluster → Cluster) : (s.updCluster c f).btab = s.btab := rfl
@[simp] theorem State.updCluster_frames (s : State) (c : Nat) (f : Cluster → Cluster) : (s.updCluster c f).frames = s.frames := rfl
@[simp] theorem State.updCluster_pools (s : State) (c : Nat) (f : Cluster → Cluster) : (s.updCluster c f).pools = s.pools := rfl
@[simp] theorem State.updCluster_tables (s : State) (c : Nat) (f : Cluster → Cluster) : (s.updCluster c f).tables = s.tables := rfl
@[simp] theorem State.updCluster_deferred (s : State) (c : Nat) (f : Cluster → Cluster) : (s.updCluster c f).deferred = s.deferred := rfl
@[simp] theorem State.updCluster_ops (s : State) (c : Nat) (f : Cluster → Cluster) : (s.updCluster c f).ops = s.ops := rfl
@[simp] theorem State.updCluster_nextOp (s : State) (c : Nat) (f : Cluster → Cluster) : (s.updCluster c f).nextOp = s.nextOp := rfl
@[simp] theorem State.updCluster_saves (s : State) (c : Nat) (f : Cluster → Cluster) : (s.updCluster c f).saves = s.saves := rfl
@[simp] theorem State.updCluster_clocks (s : State) (c : Nat) (f : Cluster → Cluster) : (s.updCluster c f).clocks = s.clocks := rfl

@[simp] theorem State.setDie_agenda (s : State) (d : Nat) (x : Die) : (s.setDie d x).agenda = s.agenda := rfl
@[simp] theorem State.setDie_ev (s : State) (d : Nat) (x : Die) : (s.setDie d x).ev = s.ev := rfl
@[simp] theorem State.setDie_act (s : State) (d : Nat) (x : Die) : (s.setDie d x).act = s.act := rfl
@[simp] theorem State.setDie_cur (s : State) (d : Nat) (x : Die) : (s.setDie d x).cur = s.cur := rfl
@[simp] theorem State.setDie_ir (s : State) (d : Nat) (x : Die) : (s.setDie d x).ir = s.ir := rfl
@[simp] theorem State.setDie_free (s : State) (d : Nat) (x : Die) : (s.setDie d x).free = s.free := rfl
@[simp] theorem State.setDie_rr (s : State) (d : Nat) (x : Die) : (s.setDie d x).rr = s.rr := rfl
@[simp] theorem State.setDie_now (s : State) (d : Nat) (x : Die) : (s.setDie d x).now = s.now := rfl
@[simp] theorem State.setDie_bus (s : State) (d : Nat) (x : Die) : (s.setDie d x).bus = s.bus := rfl
@[simp] theorem State.setDie_mem (s : State) (d : Nat) (x : Die) : (s.setDie d x).mem = s.mem := rfl
@[simp] theorem State.setDie_backing (s : State) (d : Nat) (x : Die) : (s.setDie d x).backing = s.backing := rfl
@[simp] theorem State.setDie_poison (s : State) (d : Nat) (x : Die) : (s.setDie d x).poison = s.poison := rfl
@[simp] theorem State.setDie_stamps (s : State) (d : Nat) (x : Die) : (s.setDie d x).stamps = s.stamps := rfl
@[simp] theorem State.setDie_threads (s : State) (d : Nat) (x : Die) : (s.setDie d x).threads = s.threads := rfl
@[simp] theorem State.setDie_cores (s : State) (d : Nat) (x : Die) : (s.setDie d x).cores = s.cores := rfl
@[simp] theorem State.setDie_clusters (s : State) (d : Nat) (x : Die) : (s.setDie d x).clusters = s.clusters := rfl
@[simp] theorem State.setDie_links (s : State) (d : Nat) (x : Die) : (s.setDie d x).links = s.links := rfl
@[simp] theorem State.setDie_dead (s : State) (d : Nat) (x : Die) : (s.setDie d x).dead = s.dead := rfl
@[simp] theorem State.setDie_port (s : State) (d : Nat) (x : Die) : (s.setDie d x).port = s.port := rfl
@[simp] theorem State.setDie_camp (s : State) (d : Nat) (x : Die) : (s.setDie d x).camp = s.camp := rfl
@[simp] theorem State.setDie_queues (s : State) (d : Nat) (x : Die) : (s.setDie d x).queues = s.queues := rfl
@[simp] theorem State.setDie_belfry (s : State) (d : Nat) (x : Die) : (s.setDie d x).belfry = s.belfry := rfl
@[simp] theorem State.setDie_bars (s : State) (d : Nat) (x : Die) : (s.setDie d x).bars = s.bars := rfl
@[simp] theorem State.setDie_barCnt (s : State) (d : Nat) (x : Die) : (s.setDie d x).barCnt = s.barCnt := rfl
@[simp] theorem State.setDie_seqs (s : State) (d : Nat) (x : Die) : (s.setDie d x).seqs = s.seqs := rfl
@[simp] theorem State.setDie_btab (s : State) (d : Nat) (x : Die) : (s.setDie d x).btab = s.btab := rfl
@[simp] theorem State.setDie_frames (s : State) (d : Nat) (x : Die) : (s.setDie d x).frames = s.frames := rfl
@[simp] theorem State.setDie_pools (s : State) (d : Nat) (x : Die) : (s.setDie d x).pools = s.pools := rfl
@[simp] theorem State.setDie_tables (s : State) (d : Nat) (x : Die) : (s.setDie d x).tables = s.tables := rfl
@[simp] theorem State.setDie_deferred (s : State) (d : Nat) (x : Die) : (s.setDie d x).deferred = s.deferred := rfl
@[simp] theorem State.setDie_ops (s : State) (d : Nat) (x : Die) : (s.setDie d x).ops = s.ops := rfl
@[simp] theorem State.setDie_nextOp (s : State) (d : Nat) (x : Die) : (s.setDie d x).nextOp = s.nextOp := rfl
@[simp] theorem State.setDie_saves (s : State) (d : Nat) (x : Die) : (s.setDie d x).saves = s.saves := rfl
@[simp] theorem State.setDie_clocks (s : State) (d : Nat) (x : Die) : (s.setDie d x).clocks = s.clocks := rfl

@[simp] theorem State.updDie_agenda (s : State) (d : Nat) (f : Die → Die) : (s.updDie d f).agenda = s.agenda := rfl
@[simp] theorem State.updDie_ev (s : State) (d : Nat) (f : Die → Die) : (s.updDie d f).ev = s.ev := rfl
@[simp] theorem State.updDie_act (s : State) (d : Nat) (f : Die → Die) : (s.updDie d f).act = s.act := rfl
@[simp] theorem State.updDie_cur (s : State) (d : Nat) (f : Die → Die) : (s.updDie d f).cur = s.cur := rfl
@[simp] theorem State.updDie_ir (s : State) (d : Nat) (f : Die → Die) : (s.updDie d f).ir = s.ir := rfl
@[simp] theorem State.updDie_free (s : State) (d : Nat) (f : Die → Die) : (s.updDie d f).free = s.free := rfl
@[simp] theorem State.updDie_rr (s : State) (d : Nat) (f : Die → Die) : (s.updDie d f).rr = s.rr := rfl
@[simp] theorem State.updDie_now (s : State) (d : Nat) (f : Die → Die) : (s.updDie d f).now = s.now := rfl
@[simp] theorem State.updDie_bus (s : State) (d : Nat) (f : Die → Die) : (s.updDie d f).bus = s.bus := rfl
@[simp] theorem State.updDie_mem (s : State) (d : Nat) (f : Die → Die) : (s.updDie d f).mem = s.mem := rfl
@[simp] theorem State.updDie_backing (s : State) (d : Nat) (f : Die → Die) : (s.updDie d f).backing = s.backing := rfl
@[simp] theorem State.updDie_poison (s : State) (d : Nat) (f : Die → Die) : (s.updDie d f).poison = s.poison := rfl
@[simp] theorem State.updDie_stamps (s : State) (d : Nat) (f : Die → Die) : (s.updDie d f).stamps = s.stamps := rfl
@[simp] theorem State.updDie_threads (s : State) (d : Nat) (f : Die → Die) : (s.updDie d f).threads = s.threads := rfl
@[simp] theorem State.updDie_cores (s : State) (d : Nat) (f : Die → Die) : (s.updDie d f).cores = s.cores := rfl
@[simp] theorem State.updDie_clusters (s : State) (d : Nat) (f : Die → Die) : (s.updDie d f).clusters = s.clusters := rfl
@[simp] theorem State.updDie_links (s : State) (d : Nat) (f : Die → Die) : (s.updDie d f).links = s.links := rfl
@[simp] theorem State.updDie_dead (s : State) (d : Nat) (f : Die → Die) : (s.updDie d f).dead = s.dead := rfl
@[simp] theorem State.updDie_port (s : State) (d : Nat) (f : Die → Die) : (s.updDie d f).port = s.port := rfl
@[simp] theorem State.updDie_camp (s : State) (d : Nat) (f : Die → Die) : (s.updDie d f).camp = s.camp := rfl
@[simp] theorem State.updDie_queues (s : State) (d : Nat) (f : Die → Die) : (s.updDie d f).queues = s.queues := rfl
@[simp] theorem State.updDie_belfry (s : State) (d : Nat) (f : Die → Die) : (s.updDie d f).belfry = s.belfry := rfl
@[simp] theorem State.updDie_bars (s : State) (d : Nat) (f : Die → Die) : (s.updDie d f).bars = s.bars := rfl
@[simp] theorem State.updDie_barCnt (s : State) (d : Nat) (f : Die → Die) : (s.updDie d f).barCnt = s.barCnt := rfl
@[simp] theorem State.updDie_seqs (s : State) (d : Nat) (f : Die → Die) : (s.updDie d f).seqs = s.seqs := rfl
@[simp] theorem State.updDie_btab (s : State) (d : Nat) (f : Die → Die) : (s.updDie d f).btab = s.btab := rfl
@[simp] theorem State.updDie_frames (s : State) (d : Nat) (f : Die → Die) : (s.updDie d f).frames = s.frames := rfl
@[simp] theorem State.updDie_pools (s : State) (d : Nat) (f : Die → Die) : (s.updDie d f).pools = s.pools := rfl
@[simp] theorem State.updDie_tables (s : State) (d : Nat) (f : Die → Die) : (s.updDie d f).tables = s.tables := rfl
@[simp] theorem State.updDie_deferred (s : State) (d : Nat) (f : Die → Die) : (s.updDie d f).deferred = s.deferred := rfl
@[simp] theorem State.updDie_ops (s : State) (d : Nat) (f : Die → Die) : (s.updDie d f).ops = s.ops := rfl
@[simp] theorem State.updDie_nextOp (s : State) (d : Nat) (f : Die → Die) : (s.updDie d f).nextOp = s.nextOp := rfl
@[simp] theorem State.updDie_saves (s : State) (d : Nat) (f : Die → Die) : (s.updDie d f).saves = s.saves := rfl
@[simp] theorem State.updDie_clocks (s : State) (d : Nat) (f : Die → Die) : (s.updDie d f).clocks = s.clocks := rfl

@[simp] theorem State.setRec_agenda (s : State) (e : Nat) (r : Option Rec) : (s.setRec e r).agenda = s.agenda := rfl
@[simp] theorem State.setRec_ev (s : State) (e : Nat) (r : Option Rec) : (s.setRec e r).ev = s.ev := rfl
@[simp] theorem State.setRec_act (s : State) (e : Nat) (r : Option Rec) : (s.setRec e r).act = s.act := rfl
@[simp] theorem State.setRec_cur (s : State) (e : Nat) (r : Option Rec) : (s.setRec e r).cur = s.cur := rfl
@[simp] theorem State.setRec_ir (s : State) (e : Nat) (r : Option Rec) : (s.setRec e r).ir = s.ir := rfl
@[simp] theorem State.setRec_free (s : State) (e : Nat) (r : Option Rec) : (s.setRec e r).free = s.free := rfl
@[simp] theorem State.setRec_rr (s : State) (e : Nat) (r : Option Rec) : (s.setRec e r).rr = s.rr := rfl
@[simp] theorem State.setRec_now (s : State) (e : Nat) (r : Option Rec) : (s.setRec e r).now = s.now := rfl
@[simp] theorem State.setRec_bus (s : State) (e : Nat) (r : Option Rec) : (s.setRec e r).bus = s.bus := rfl
@[simp] theorem State.setRec_mem (s : State) (e : Nat) (r : Option Rec) : (s.setRec e r).mem = s.mem := rfl
@[simp] theorem State.setRec_backing (s : State) (e : Nat) (r : Option Rec) : (s.setRec e r).backing = s.backing := rfl
@[simp] theorem State.setRec_poison (s : State) (e : Nat) (r : Option Rec) : (s.setRec e r).poison = s.poison := rfl
@[simp] theorem State.setRec_stamps (s : State) (e : Nat) (r : Option Rec) : (s.setRec e r).stamps = s.stamps := rfl
@[simp] theorem State.setRec_threads (s : State) (e : Nat) (r : Option Rec) : (s.setRec e r).threads = s.threads := rfl
@[simp] theorem State.setRec_cores (s : State) (e : Nat) (r : Option Rec) : (s.setRec e r).cores = s.cores := rfl
@[simp] theorem State.setRec_clusters (s : State) (e : Nat) (r : Option Rec) : (s.setRec e r).clusters = s.clusters := rfl
@[simp] theorem State.setRec_dies (s : State) (e : Nat) (r : Option Rec) : (s.setRec e r).dies = s.dies := rfl
@[simp] theorem State.setRec_links (s : State) (e : Nat) (r : Option Rec) : (s.setRec e r).links = s.links := rfl
@[simp] theorem State.setRec_dead (s : State) (e : Nat) (r : Option Rec) : (s.setRec e r).dead = s.dead := rfl
@[simp] theorem State.setRec_port (s : State) (e : Nat) (r : Option Rec) : (s.setRec e r).port = s.port := rfl
@[simp] theorem State.setRec_camp (s : State) (e : Nat) (r : Option Rec) : (s.setRec e r).camp = s.camp := rfl
@[simp] theorem State.setRec_queues (s : State) (e : Nat) (r : Option Rec) : (s.setRec e r).queues = s.queues := rfl
@[simp] theorem State.setRec_bars (s : State) (e : Nat) (r : Option Rec) : (s.setRec e r).bars = s.bars := rfl
@[simp] theorem State.setRec_barCnt (s : State) (e : Nat) (r : Option Rec) : (s.setRec e r).barCnt = s.barCnt := rfl
@[simp] theorem State.setRec_seqs (s : State) (e : Nat) (r : Option Rec) : (s.setRec e r).seqs = s.seqs := rfl
@[simp] theorem State.setRec_btab (s : State) (e : Nat) (r : Option Rec) : (s.setRec e r).btab = s.btab := rfl
@[simp] theorem State.setRec_frames (s : State) (e : Nat) (r : Option Rec) : (s.setRec e r).frames = s.frames := rfl
@[simp] theorem State.setRec_pools (s : State) (e : Nat) (r : Option Rec) : (s.setRec e r).pools = s.pools := rfl
@[simp] theorem State.setRec_tables (s : State) (e : Nat) (r : Option Rec) : (s.setRec e r).tables = s.tables := rfl
@[simp] theorem State.setRec_deferred (s : State) (e : Nat) (r : Option Rec) : (s.setRec e r).deferred = s.deferred := rfl
@[simp] theorem State.setRec_ops (s : State) (e : Nat) (r : Option Rec) : (s.setRec e r).ops = s.ops := rfl
@[simp] theorem State.setRec_nextOp (s : State) (e : Nat) (r : Option Rec) : (s.setRec e r).nextOp = s.nextOp := rfl
@[simp] theorem State.setRec_saves (s : State) (e : Nat) (r : Option Rec) : (s.setRec e r).saves = s.saves := rfl
@[simp] theorem State.setRec_clocks (s : State) (e : Nat) (r : Option Rec) : (s.setRec e r).clocks = s.clocks := rfl

@[simp] theorem State.setOp_agenda (s : State) (i : Nat) (o : Option Op) : (s.setOp i o).agenda = s.agenda := rfl
@[simp] theorem State.setOp_ev (s : State) (i : Nat) (o : Option Op) : (s.setOp i o).ev = s.ev := rfl
@[simp] theorem State.setOp_act (s : State) (i : Nat) (o : Option Op) : (s.setOp i o).act = s.act := rfl
@[simp] theorem State.setOp_cur (s : State) (i : Nat) (o : Option Op) : (s.setOp i o).cur = s.cur := rfl
@[simp] theorem State.setOp_ir (s : State) (i : Nat) (o : Option Op) : (s.setOp i o).ir = s.ir := rfl
@[simp] theorem State.setOp_free (s : State) (i : Nat) (o : Option Op) : (s.setOp i o).free = s.free := rfl
@[simp] theorem State.setOp_rr (s : State) (i : Nat) (o : Option Op) : (s.setOp i o).rr = s.rr := rfl
@[simp] theorem State.setOp_now (s : State) (i : Nat) (o : Option Op) : (s.setOp i o).now = s.now := rfl
@[simp] theorem State.setOp_bus (s : State) (i : Nat) (o : Option Op) : (s.setOp i o).bus = s.bus := rfl
@[simp] theorem State.setOp_mem (s : State) (i : Nat) (o : Option Op) : (s.setOp i o).mem = s.mem := rfl
@[simp] theorem State.setOp_backing (s : State) (i : Nat) (o : Option Op) : (s.setOp i o).backing = s.backing := rfl
@[simp] theorem State.setOp_poison (s : State) (i : Nat) (o : Option Op) : (s.setOp i o).poison = s.poison := rfl
@[simp] theorem State.setOp_stamps (s : State) (i : Nat) (o : Option Op) : (s.setOp i o).stamps = s.stamps := rfl
@[simp] theorem State.setOp_threads (s : State) (i : Nat) (o : Option Op) : (s.setOp i o).threads = s.threads := rfl
@[simp] theorem State.setOp_cores (s : State) (i : Nat) (o : Option Op) : (s.setOp i o).cores = s.cores := rfl
@[simp] theorem State.setOp_clusters (s : State) (i : Nat) (o : Option Op) : (s.setOp i o).clusters = s.clusters := rfl
@[simp] theorem State.setOp_dies (s : State) (i : Nat) (o : Option Op) : (s.setOp i o).dies = s.dies := rfl
@[simp] theorem State.setOp_links (s : State) (i : Nat) (o : Option Op) : (s.setOp i o).links = s.links := rfl
@[simp] theorem State.setOp_dead (s : State) (i : Nat) (o : Option Op) : (s.setOp i o).dead = s.dead := rfl
@[simp] theorem State.setOp_port (s : State) (i : Nat) (o : Option Op) : (s.setOp i o).port = s.port := rfl
@[simp] theorem State.setOp_camp (s : State) (i : Nat) (o : Option Op) : (s.setOp i o).camp = s.camp := rfl
@[simp] theorem State.setOp_queues (s : State) (i : Nat) (o : Option Op) : (s.setOp i o).queues = s.queues := rfl
@[simp] theorem State.setOp_belfry (s : State) (i : Nat) (o : Option Op) : (s.setOp i o).belfry = s.belfry := rfl
@[simp] theorem State.setOp_bars (s : State) (i : Nat) (o : Option Op) : (s.setOp i o).bars = s.bars := rfl
@[simp] theorem State.setOp_barCnt (s : State) (i : Nat) (o : Option Op) : (s.setOp i o).barCnt = s.barCnt := rfl
@[simp] theorem State.setOp_seqs (s : State) (i : Nat) (o : Option Op) : (s.setOp i o).seqs = s.seqs := rfl
@[simp] theorem State.setOp_btab (s : State) (i : Nat) (o : Option Op) : (s.setOp i o).btab = s.btab := rfl
@[simp] theorem State.setOp_frames (s : State) (i : Nat) (o : Option Op) : (s.setOp i o).frames = s.frames := rfl
@[simp] theorem State.setOp_pools (s : State) (i : Nat) (o : Option Op) : (s.setOp i o).pools = s.pools := rfl
@[simp] theorem State.setOp_tables (s : State) (i : Nat) (o : Option Op) : (s.setOp i o).tables = s.tables := rfl
@[simp] theorem State.setOp_deferred (s : State) (i : Nat) (o : Option Op) : (s.setOp i o).deferred = s.deferred := rfl
@[simp] theorem State.setOp_nextOp (s : State) (i : Nat) (o : Option Op) : (s.setOp i o).nextOp = s.nextOp := rfl
@[simp] theorem State.setOp_saves (s : State) (i : Nat) (o : Option Op) : (s.setOp i o).saves = s.saves := rfl
@[simp] theorem State.setOp_clocks (s : State) (i : Nat) (o : Option Op) : (s.setOp i o).clocks = s.clocks := rfl

@[simp] theorem State.setQueue_agenda (s : State) (q : Nat) (x : Queue) : (s.setQueue q x).agenda = s.agenda := rfl
@[simp] theorem State.setQueue_ev (s : State) (q : Nat) (x : Queue) : (s.setQueue q x).ev = s.ev := rfl
@[simp] theorem State.setQueue_act (s : State) (q : Nat) (x : Queue) : (s.setQueue q x).act = s.act := rfl
@[simp] theorem State.setQueue_cur (s : State) (q : Nat) (x : Queue) : (s.setQueue q x).cur = s.cur := rfl
@[simp] theorem State.setQueue_ir (s : State) (q : Nat) (x : Queue) : (s.setQueue q x).ir = s.ir := rfl
@[simp] theorem State.setQueue_free (s : State) (q : Nat) (x : Queue) : (s.setQueue q x).free = s.free := rfl
@[simp] theorem State.setQueue_rr (s : State) (q : Nat) (x : Queue) : (s.setQueue q x).rr = s.rr := rfl
@[simp] theorem State.setQueue_now (s : State) (q : Nat) (x : Queue) : (s.setQueue q x).now = s.now := rfl
@[simp] theorem State.setQueue_bus (s : State) (q : Nat) (x : Queue) : (s.setQueue q x).bus = s.bus := rfl
@[simp] theorem State.setQueue_mem (s : State) (q : Nat) (x : Queue) : (s.setQueue q x).mem = s.mem := rfl
@[simp] theorem State.setQueue_backing (s : State) (q : Nat) (x : Queue) : (s.setQueue q x).backing = s.backing := rfl
@[simp] theorem State.setQueue_poison (s : State) (q : Nat) (x : Queue) : (s.setQueue q x).poison = s.poison := rfl
@[simp] theorem State.setQueue_stamps (s : State) (q : Nat) (x : Queue) : (s.setQueue q x).stamps = s.stamps := rfl
@[simp] theorem State.setQueue_threads (s : State) (q : Nat) (x : Queue) : (s.setQueue q x).threads = s.threads := rfl
@[simp] theorem State.setQueue_cores (s : State) (q : Nat) (x : Queue) : (s.setQueue q x).cores = s.cores := rfl
@[simp] theorem State.setQueue_clusters (s : State) (q : Nat) (x : Queue) : (s.setQueue q x).clusters = s.clusters := rfl
@[simp] theorem State.setQueue_dies (s : State) (q : Nat) (x : Queue) : (s.setQueue q x).dies = s.dies := rfl
@[simp] theorem State.setQueue_links (s : State) (q : Nat) (x : Queue) : (s.setQueue q x).links = s.links := rfl
@[simp] theorem State.setQueue_dead (s : State) (q : Nat) (x : Queue) : (s.setQueue q x).dead = s.dead := rfl
@[simp] theorem State.setQueue_port (s : State) (q : Nat) (x : Queue) : (s.setQueue q x).port = s.port := rfl
@[simp] theorem State.setQueue_camp (s : State) (q : Nat) (x : Queue) : (s.setQueue q x).camp = s.camp := rfl
@[simp] theorem State.setQueue_belfry (s : State) (q : Nat) (x : Queue) : (s.setQueue q x).belfry = s.belfry := rfl
@[simp] theorem State.setQueue_bars (s : State) (q : Nat) (x : Queue) : (s.setQueue q x).bars = s.bars := rfl
@[simp] theorem State.setQueue_barCnt (s : State) (q : Nat) (x : Queue) : (s.setQueue q x).barCnt = s.barCnt := rfl
@[simp] theorem State.setQueue_seqs (s : State) (q : Nat) (x : Queue) : (s.setQueue q x).seqs = s.seqs := rfl
@[simp] theorem State.setQueue_btab (s : State) (q : Nat) (x : Queue) : (s.setQueue q x).btab = s.btab := rfl
@[simp] theorem State.setQueue_frames (s : State) (q : Nat) (x : Queue) : (s.setQueue q x).frames = s.frames := rfl
@[simp] theorem State.setQueue_pools (s : State) (q : Nat) (x : Queue) : (s.setQueue q x).pools = s.pools := rfl
@[simp] theorem State.setQueue_tables (s : State) (q : Nat) (x : Queue) : (s.setQueue q x).tables = s.tables := rfl
@[simp] theorem State.setQueue_deferred (s : State) (q : Nat) (x : Queue) : (s.setQueue q x).deferred = s.deferred := rfl
@[simp] theorem State.setQueue_ops (s : State) (q : Nat) (x : Queue) : (s.setQueue q x).ops = s.ops := rfl
@[simp] theorem State.setQueue_nextOp (s : State) (q : Nat) (x : Queue) : (s.setQueue q x).nextOp = s.nextOp := rfl
@[simp] theorem State.setQueue_saves (s : State) (q : Nat) (x : Queue) : (s.setQueue q x).saves = s.saves := rfl
@[simp] theorem State.setQueue_clocks (s : State) (q : Nat) (x : Queue) : (s.setQueue q x).clocks = s.clocks := rfl

@[simp] theorem State.updQueue_agenda (s : State) (q : Nat) (f : Queue → Queue) : (s.updQueue q f).agenda = s.agenda := rfl
@[simp] theorem State.updQueue_ev (s : State) (q : Nat) (f : Queue → Queue) : (s.updQueue q f).ev = s.ev := rfl
@[simp] theorem State.updQueue_act (s : State) (q : Nat) (f : Queue → Queue) : (s.updQueue q f).act = s.act := rfl
@[simp] theorem State.updQueue_cur (s : State) (q : Nat) (f : Queue → Queue) : (s.updQueue q f).cur = s.cur := rfl
@[simp] theorem State.updQueue_ir (s : State) (q : Nat) (f : Queue → Queue) : (s.updQueue q f).ir = s.ir := rfl
@[simp] theorem State.updQueue_free (s : State) (q : Nat) (f : Queue → Queue) : (s.updQueue q f).free = s.free := rfl
@[simp] theorem State.updQueue_rr (s : State) (q : Nat) (f : Queue → Queue) : (s.updQueue q f).rr = s.rr := rfl
@[simp] theorem State.updQueue_now (s : State) (q : Nat) (f : Queue → Queue) : (s.updQueue q f).now = s.now := rfl
@[simp] theorem State.updQueue_bus (s : State) (q : Nat) (f : Queue → Queue) : (s.updQueue q f).bus = s.bus := rfl
@[simp] theorem State.updQueue_mem (s : State) (q : Nat) (f : Queue → Queue) : (s.updQueue q f).mem = s.mem := rfl
@[simp] theorem State.updQueue_backing (s : State) (q : Nat) (f : Queue → Queue) : (s.updQueue q f).backing = s.backing := rfl
@[simp] theorem State.updQueue_poison (s : State) (q : Nat) (f : Queue → Queue) : (s.updQueue q f).poison = s.poison := rfl
@[simp] theorem State.updQueue_stamps (s : State) (q : Nat) (f : Queue → Queue) : (s.updQueue q f).stamps = s.stamps := rfl
@[simp] theorem State.updQueue_threads (s : State) (q : Nat) (f : Queue → Queue) : (s.updQueue q f).threads = s.threads := rfl
@[simp] theorem State.updQueue_cores (s : State) (q : Nat) (f : Queue → Queue) : (s.updQueue q f).cores = s.cores := rfl
@[simp] theorem State.updQueue_clusters (s : State) (q : Nat) (f : Queue → Queue) : (s.updQueue q f).clusters = s.clusters := rfl
@[simp] theorem State.updQueue_dies (s : State) (q : Nat) (f : Queue → Queue) : (s.updQueue q f).dies = s.dies := rfl
@[simp] theorem State.updQueue_links (s : State) (q : Nat) (f : Queue → Queue) : (s.updQueue q f).links = s.links := rfl
@[simp] theorem State.updQueue_dead (s : State) (q : Nat) (f : Queue → Queue) : (s.updQueue q f).dead = s.dead := rfl
@[simp] theorem State.updQueue_port (s : State) (q : Nat) (f : Queue → Queue) : (s.updQueue q f).port = s.port := rfl
@[simp] theorem State.updQueue_camp (s : State) (q : Nat) (f : Queue → Queue) : (s.updQueue q f).camp = s.camp := rfl
@[simp] theorem State.updQueue_belfry (s : State) (q : Nat) (f : Queue → Queue) : (s.updQueue q f).belfry = s.belfry := rfl
@[simp] theorem State.updQueue_bars (s : State) (q : Nat) (f : Queue → Queue) : (s.updQueue q f).bars = s.bars := rfl
@[simp] theorem State.updQueue_barCnt (s : State) (q : Nat) (f : Queue → Queue) : (s.updQueue q f).barCnt = s.barCnt := rfl
@[simp] theorem State.updQueue_seqs (s : State) (q : Nat) (f : Queue → Queue) : (s.updQueue q f).seqs = s.seqs := rfl
@[simp] theorem State.updQueue_btab (s : State) (q : Nat) (f : Queue → Queue) : (s.updQueue q f).btab = s.btab := rfl
@[simp] theorem State.updQueue_frames (s : State) (q : Nat) (f : Queue → Queue) : (s.updQueue q f).frames = s.frames := rfl
@[simp] theorem State.updQueue_pools (s : State) (q : Nat) (f : Queue → Queue) : (s.updQueue q f).pools = s.pools := rfl
@[simp] theorem State.updQueue_tables (s : State) (q : Nat) (f : Queue → Queue) : (s.updQueue q f).tables = s.tables := rfl
@[simp] theorem State.updQueue_deferred (s : State) (q : Nat) (f : Queue → Queue) : (s.updQueue q f).deferred = s.deferred := rfl
@[simp] theorem State.updQueue_ops (s : State) (q : Nat) (f : Queue → Queue) : (s.updQueue q f).ops = s.ops := rfl
@[simp] theorem State.updQueue_nextOp (s : State) (q : Nat) (f : Queue → Queue) : (s.updQueue q f).nextOp = s.nextOp := rfl
@[simp] theorem State.updQueue_saves (s : State) (q : Nat) (f : Queue → Queue) : (s.updQueue q f).saves = s.saves := rfl
@[simp] theorem State.updQueue_clocks (s : State) (q : Nat) (f : Queue → Queue) : (s.updQueue q f).clocks = s.clocks := rfl

@[simp] theorem State.tick_agenda (s : State) : (s.tick).agenda = s.agenda := rfl
@[simp] theorem State.tick_ev (s : State) : (s.tick).ev = s.ev := rfl
@[simp] theorem State.tick_act (s : State) : (s.tick).act = s.act := rfl
@[simp] theorem State.tick_cur (s : State) : (s.tick).cur = s.cur := rfl
@[simp] theorem State.tick_ir (s : State) : (s.tick).ir = s.ir := rfl
@[simp] theorem State.tick_rr (s : State) : (s.tick).rr = s.rr := rfl
@[simp] theorem State.tick_now (s : State) : (s.tick).now = s.now := rfl
@[simp] theorem State.tick_bus (s : State) : (s.tick).bus = s.bus := rfl
@[simp] theorem State.tick_mem (s : State) : (s.tick).mem = s.mem := rfl
@[simp] theorem State.tick_backing (s : State) : (s.tick).backing = s.backing := rfl
@[simp] theorem State.tick_poison (s : State) : (s.tick).poison = s.poison := rfl
@[simp] theorem State.tick_stamps (s : State) : (s.tick).stamps = s.stamps := rfl
@[simp] theorem State.tick_threads (s : State) : (s.tick).threads = s.threads := rfl
@[simp] theorem State.tick_cores (s : State) : (s.tick).cores = s.cores := rfl
@[simp] theorem State.tick_clusters (s : State) : (s.tick).clusters = s.clusters := rfl
@[simp] theorem State.tick_dies (s : State) : (s.tick).dies = s.dies := rfl
@[simp] theorem State.tick_links (s : State) : (s.tick).links = s.links := rfl
@[simp] theorem State.tick_dead (s : State) : (s.tick).dead = s.dead := rfl
@[simp] theorem State.tick_port (s : State) : (s.tick).port = s.port := rfl
@[simp] theorem State.tick_camp (s : State) : (s.tick).camp = s.camp := rfl
@[simp] theorem State.tick_queues (s : State) : (s.tick).queues = s.queues := rfl
@[simp] theorem State.tick_belfry (s : State) : (s.tick).belfry = s.belfry := rfl
@[simp] theorem State.tick_bars (s : State) : (s.tick).bars = s.bars := rfl
@[simp] theorem State.tick_barCnt (s : State) : (s.tick).barCnt = s.barCnt := rfl
@[simp] theorem State.tick_seqs (s : State) : (s.tick).seqs = s.seqs := rfl
@[simp] theorem State.tick_btab (s : State) : (s.tick).btab = s.btab := rfl
@[simp] theorem State.tick_frames (s : State) : (s.tick).frames = s.frames := rfl
@[simp] theorem State.tick_pools (s : State) : (s.tick).pools = s.pools := rfl
@[simp] theorem State.tick_tables (s : State) : (s.tick).tables = s.tables := rfl
@[simp] theorem State.tick_deferred (s : State) : (s.tick).deferred = s.deferred := rfl
@[simp] theorem State.tick_ops (s : State) : (s.tick).ops = s.ops := rfl
@[simp] theorem State.tick_nextOp (s : State) : (s.tick).nextOp = s.nextOp := rfl
@[simp] theorem State.tick_saves (s : State) : (s.tick).saves = s.saves := rfl
@[simp] theorem State.tick_clocks (s : State) : (s.tick).clocks = s.clocks := rfl

@[simp] theorem State.updFx_agenda (s : State) (f : Fx → Fx) : (s.updFx f).agenda = s.agenda := rfl
@[simp] theorem State.updFx_ev (s : State) (f : Fx → Fx) : (s.updFx f).ev = s.ev := rfl
@[simp] theorem State.updFx_cur (s : State) (f : Fx → Fx) : (s.updFx f).cur = s.cur := rfl
@[simp] theorem State.updFx_ir (s : State) (f : Fx → Fx) : (s.updFx f).ir = s.ir := rfl
@[simp] theorem State.updFx_free (s : State) (f : Fx → Fx) : (s.updFx f).free = s.free := rfl
@[simp] theorem State.updFx_rr (s : State) (f : Fx → Fx) : (s.updFx f).rr = s.rr := rfl
@[simp] theorem State.updFx_now (s : State) (f : Fx → Fx) : (s.updFx f).now = s.now := rfl
@[simp] theorem State.updFx_bus (s : State) (f : Fx → Fx) : (s.updFx f).bus = s.bus := rfl
@[simp] theorem State.updFx_mem (s : State) (f : Fx → Fx) : (s.updFx f).mem = s.mem := rfl
@[simp] theorem State.updFx_backing (s : State) (f : Fx → Fx) : (s.updFx f).backing = s.backing := rfl
@[simp] theorem State.updFx_poison (s : State) (f : Fx → Fx) : (s.updFx f).poison = s.poison := rfl
@[simp] theorem State.updFx_stamps (s : State) (f : Fx → Fx) : (s.updFx f).stamps = s.stamps := rfl
@[simp] theorem State.updFx_threads (s : State) (f : Fx → Fx) : (s.updFx f).threads = s.threads := rfl
@[simp] theorem State.updFx_cores (s : State) (f : Fx → Fx) : (s.updFx f).cores = s.cores := rfl
@[simp] theorem State.updFx_clusters (s : State) (f : Fx → Fx) : (s.updFx f).clusters = s.clusters := rfl
@[simp] theorem State.updFx_dies (s : State) (f : Fx → Fx) : (s.updFx f).dies = s.dies := rfl
@[simp] theorem State.updFx_links (s : State) (f : Fx → Fx) : (s.updFx f).links = s.links := rfl
@[simp] theorem State.updFx_dead (s : State) (f : Fx → Fx) : (s.updFx f).dead = s.dead := rfl
@[simp] theorem State.updFx_port (s : State) (f : Fx → Fx) : (s.updFx f).port = s.port := rfl
@[simp] theorem State.updFx_camp (s : State) (f : Fx → Fx) : (s.updFx f).camp = s.camp := rfl
@[simp] theorem State.updFx_queues (s : State) (f : Fx → Fx) : (s.updFx f).queues = s.queues := rfl
@[simp] theorem State.updFx_belfry (s : State) (f : Fx → Fx) : (s.updFx f).belfry = s.belfry := rfl
@[simp] theorem State.updFx_bars (s : State) (f : Fx → Fx) : (s.updFx f).bars = s.bars := rfl
@[simp] theorem State.updFx_barCnt (s : State) (f : Fx → Fx) : (s.updFx f).barCnt = s.barCnt := rfl
@[simp] theorem State.updFx_seqs (s : State) (f : Fx → Fx) : (s.updFx f).seqs = s.seqs := rfl
@[simp] theorem State.updFx_btab (s : State) (f : Fx → Fx) : (s.updFx f).btab = s.btab := rfl
@[simp] theorem State.updFx_frames (s : State) (f : Fx → Fx) : (s.updFx f).frames = s.frames := rfl
@[simp] theorem State.updFx_pools (s : State) (f : Fx → Fx) : (s.updFx f).pools = s.pools := rfl
@[simp] theorem State.updFx_tables (s : State) (f : Fx → Fx) : (s.updFx f).tables = s.tables := rfl
@[simp] theorem State.updFx_deferred (s : State) (f : Fx → Fx) : (s.updFx f).deferred = s.deferred := rfl
@[simp] theorem State.updFx_ops (s : State) (f : Fx → Fx) : (s.updFx f).ops = s.ops := rfl
@[simp] theorem State.updFx_nextOp (s : State) (f : Fx → Fx) : (s.updFx f).nextOp = s.nextOp := rfl
@[simp] theorem State.updFx_saves (s : State) (f : Fx → Fx) : (s.updFx f).saves = s.saves := rfl
@[simp] theorem State.updFx_clocks (s : State) (f : Fx → Fx) : (s.updFx f).clocks = s.clocks := rfl

@[simp] theorem State.vstalled_agenda (s : State) : (s.vstalled).agenda = s.agenda := rfl
@[simp] theorem State.vstalled_ev (s : State) : (s.vstalled).ev = s.ev := rfl
@[simp] theorem State.vstalled_cur (s : State) : (s.vstalled).cur = s.cur := rfl
@[simp] theorem State.vstalled_ir (s : State) : (s.vstalled).ir = s.ir := rfl
@[simp] theorem State.vstalled_free (s : State) : (s.vstalled).free = s.free := rfl
@[simp] theorem State.vstalled_rr (s : State) : (s.vstalled).rr = s.rr := rfl
@[simp] theorem State.vstalled_now (s : State) : (s.vstalled).now = s.now := rfl
@[simp] theorem State.vstalled_bus (s : State) : (s.vstalled).bus = s.bus := rfl
@[simp] theorem State.vstalled_mem (s : State) : (s.vstalled).mem = s.mem := rfl
@[simp] theorem State.vstalled_backing (s : State) : (s.vstalled).backing = s.backing := rfl
@[simp] theorem State.vstalled_poison (s : State) : (s.vstalled).poison = s.poison := rfl
@[simp] theorem State.vstalled_stamps (s : State) : (s.vstalled).stamps = s.stamps := rfl
@[simp] theorem State.vstalled_threads (s : State) : (s.vstalled).threads = s.threads := rfl
@[simp] theorem State.vstalled_cores (s : State) : (s.vstalled).cores = s.cores := rfl
@[simp] theorem State.vstalled_clusters (s : State) : (s.vstalled).clusters = s.clusters := rfl
@[simp] theorem State.vstalled_dies (s : State) : (s.vstalled).dies = s.dies := rfl
@[simp] theorem State.vstalled_links (s : State) : (s.vstalled).links = s.links := rfl
@[simp] theorem State.vstalled_dead (s : State) : (s.vstalled).dead = s.dead := rfl
@[simp] theorem State.vstalled_port (s : State) : (s.vstalled).port = s.port := rfl
@[simp] theorem State.vstalled_camp (s : State) : (s.vstalled).camp = s.camp := rfl
@[simp] theorem State.vstalled_queues (s : State) : (s.vstalled).queues = s.queues := rfl
@[simp] theorem State.vstalled_belfry (s : State) : (s.vstalled).belfry = s.belfry := rfl
@[simp] theorem State.vstalled_bars (s : State) : (s.vstalled).bars = s.bars := rfl
@[simp] theorem State.vstalled_barCnt (s : State) : (s.vstalled).barCnt = s.barCnt := rfl
@[simp] theorem State.vstalled_seqs (s : State) : (s.vstalled).seqs = s.seqs := rfl
@[simp] theorem State.vstalled_btab (s : State) : (s.vstalled).btab = s.btab := rfl
@[simp] theorem State.vstalled_frames (s : State) : (s.vstalled).frames = s.frames := rfl
@[simp] theorem State.vstalled_pools (s : State) : (s.vstalled).pools = s.pools := rfl
@[simp] theorem State.vstalled_tables (s : State) : (s.vstalled).tables = s.tables := rfl
@[simp] theorem State.vstalled_deferred (s : State) : (s.vstalled).deferred = s.deferred := rfl
@[simp] theorem State.vstalled_ops (s : State) : (s.vstalled).ops = s.ops := rfl
@[simp] theorem State.vstalled_nextOp (s : State) : (s.vstalled).nextOp = s.nextOp := rfl
@[simp] theorem State.vstalled_saves (s : State) : (s.vstalled).saves = s.saves := rfl
@[simp] theorem State.vstalled_clocks (s : State) : (s.vstalled).clocks = s.clocks := rfl

@[simp] theorem State.vtrapped_agenda (s : State) (tr : Trap) (f : Option (BitVec 40)) : (s.vtrapped tr f).agenda = s.agenda := rfl
@[simp] theorem State.vtrapped_ev (s : State) (tr : Trap) (f : Option (BitVec 40)) : (s.vtrapped tr f).ev = s.ev := rfl
@[simp] theorem State.vtrapped_cur (s : State) (tr : Trap) (f : Option (BitVec 40)) : (s.vtrapped tr f).cur = s.cur := rfl
@[simp] theorem State.vtrapped_ir (s : State) (tr : Trap) (f : Option (BitVec 40)) : (s.vtrapped tr f).ir = s.ir := rfl
@[simp] theorem State.vtrapped_free (s : State) (tr : Trap) (f : Option (BitVec 40)) : (s.vtrapped tr f).free = s.free := rfl
@[simp] theorem State.vtrapped_rr (s : State) (tr : Trap) (f : Option (BitVec 40)) : (s.vtrapped tr f).rr = s.rr := rfl
@[simp] theorem State.vtrapped_now (s : State) (tr : Trap) (f : Option (BitVec 40)) : (s.vtrapped tr f).now = s.now := rfl
@[simp] theorem State.vtrapped_bus (s : State) (tr : Trap) (f : Option (BitVec 40)) : (s.vtrapped tr f).bus = s.bus := rfl
@[simp] theorem State.vtrapped_mem (s : State) (tr : Trap) (f : Option (BitVec 40)) : (s.vtrapped tr f).mem = s.mem := rfl
@[simp] theorem State.vtrapped_backing (s : State) (tr : Trap) (f : Option (BitVec 40)) : (s.vtrapped tr f).backing = s.backing := rfl
@[simp] theorem State.vtrapped_poison (s : State) (tr : Trap) (f : Option (BitVec 40)) : (s.vtrapped tr f).poison = s.poison := rfl
@[simp] theorem State.vtrapped_stamps (s : State) (tr : Trap) (f : Option (BitVec 40)) : (s.vtrapped tr f).stamps = s.stamps := rfl
@[simp] theorem State.vtrapped_threads (s : State) (tr : Trap) (f : Option (BitVec 40)) : (s.vtrapped tr f).threads = s.threads := rfl
@[simp] theorem State.vtrapped_cores (s : State) (tr : Trap) (f : Option (BitVec 40)) : (s.vtrapped tr f).cores = s.cores := rfl
@[simp] theorem State.vtrapped_clusters (s : State) (tr : Trap) (f : Option (BitVec 40)) : (s.vtrapped tr f).clusters = s.clusters := rfl
@[simp] theorem State.vtrapped_dies (s : State) (tr : Trap) (f : Option (BitVec 40)) : (s.vtrapped tr f).dies = s.dies := rfl
@[simp] theorem State.vtrapped_links (s : State) (tr : Trap) (f : Option (BitVec 40)) : (s.vtrapped tr f).links = s.links := rfl
@[simp] theorem State.vtrapped_dead (s : State) (tr : Trap) (f : Option (BitVec 40)) : (s.vtrapped tr f).dead = s.dead := rfl
@[simp] theorem State.vtrapped_port (s : State) (tr : Trap) (f : Option (BitVec 40)) : (s.vtrapped tr f).port = s.port := rfl
@[simp] theorem State.vtrapped_camp (s : State) (tr : Trap) (f : Option (BitVec 40)) : (s.vtrapped tr f).camp = s.camp := rfl
@[simp] theorem State.vtrapped_queues (s : State) (tr : Trap) (f : Option (BitVec 40)) : (s.vtrapped tr f).queues = s.queues := rfl
@[simp] theorem State.vtrapped_belfry (s : State) (tr : Trap) (f : Option (BitVec 40)) : (s.vtrapped tr f).belfry = s.belfry := rfl
@[simp] theorem State.vtrapped_bars (s : State) (tr : Trap) (f : Option (BitVec 40)) : (s.vtrapped tr f).bars = s.bars := rfl
@[simp] theorem State.vtrapped_barCnt (s : State) (tr : Trap) (f : Option (BitVec 40)) : (s.vtrapped tr f).barCnt = s.barCnt := rfl
@[simp] theorem State.vtrapped_seqs (s : State) (tr : Trap) (f : Option (BitVec 40)) : (s.vtrapped tr f).seqs = s.seqs := rfl
@[simp] theorem State.vtrapped_btab (s : State) (tr : Trap) (f : Option (BitVec 40)) : (s.vtrapped tr f).btab = s.btab := rfl
@[simp] theorem State.vtrapped_frames (s : State) (tr : Trap) (f : Option (BitVec 40)) : (s.vtrapped tr f).frames = s.frames := rfl
@[simp] theorem State.vtrapped_pools (s : State) (tr : Trap) (f : Option (BitVec 40)) : (s.vtrapped tr f).pools = s.pools := rfl
@[simp] theorem State.vtrapped_tables (s : State) (tr : Trap) (f : Option (BitVec 40)) : (s.vtrapped tr f).tables = s.tables := rfl
@[simp] theorem State.vtrapped_deferred (s : State) (tr : Trap) (f : Option (BitVec 40)) : (s.vtrapped tr f).deferred = s.deferred := rfl
@[simp] theorem State.vtrapped_ops (s : State) (tr : Trap) (f : Option (BitVec 40)) : (s.vtrapped tr f).ops = s.ops := rfl
@[simp] theorem State.vtrapped_nextOp (s : State) (tr : Trap) (f : Option (BitVec 40)) : (s.vtrapped tr f).nextOp = s.nextOp := rfl
@[simp] theorem State.vtrapped_saves (s : State) (tr : Trap) (f : Option (BitVec 40)) : (s.vtrapped tr f).saves = s.saves := rfl
@[simp] theorem State.vtrapped_clocks (s : State) (tr : Trap) (f : Option (BitVec 40)) : (s.vtrapped tr f).clocks = s.clocks := rfl

/-! Threads. -/

@[simp] theorem Thread.setX_live (t : Thread) (r : Reg) (v : Word) : (t.setX r v).live = t.live := by unfold Thread.setX; split <;> rfl
@[simp] theorem Thread.setX_mode (t : Thread) (r : Reg) (v : Word) : (t.setX r v).mode = t.mode := by unfold Thread.setX; split <;> rfl
@[simp] theorem Thread.setX_pc (t : Thread) (r : Reg) (v : Word) : (t.setX r v).pc = t.pc := by unfold Thread.setX; split <;> rfl
@[simp] theorem Thread.setX_npc (t : Thread) (r : Reg) (v : Word) : (t.setX r v).npc = t.npc := by unfold Thread.setX; split <;> rfl
@[simp] theorem Thread.setX_csr (t : Thread) (r : Reg) (v : Word) : (t.setX r v).csr = t.csr := by unfold Thread.setX; split <;> rfl
@[simp] theorem Thread.setX_prq (t : Thread) (r : Reg) (v : Word) : (t.setX r v).prq = t.prq := by unfold Thread.setX; split <;> rfl
@[simp] theorem Thread.setX_frc (t : Thread) (r : Reg) (v : Word) : (t.setX r v).frc = t.frc := by unfold Thread.setX; split <;> rfl
@[simp] theorem Thread.setX_prqAt (t : Thread) (r : Reg) (v : Word) : (t.setX r v).prqAt = t.prqAt := by unfold Thread.setX; split <;> rfl
@[simp] theorem Thread.setX_stopNow (t : Thread) (r : Reg) (v : Word) : (t.setX r v).stopNow = t.stopNow := by unfold Thread.setX; split <;> rfl
@[simp] theorem Thread.setX_stopped (t : Thread) (r : Reg) (v : Word) : (t.setX r v).stopped = t.stopped := by unfold Thread.setX; split <;> rfl
@[simp] theorem Thread.setX_gang (t : Thread) (r : Reg) (v : Word) : (t.setX r v).gang = t.gang := by unfold Thread.setX; split <;> rfl
@[simp] theorem Thread.setX_wfence (t : Thread) (r : Reg) (v : Word) : (t.setX r v).wfence = t.wfence := by unfold Thread.setX; split <;> rfl
@[simp] theorem Thread.setX_laneBad (t : Thread) (r : Reg) (v : Word) : (t.setX r v).laneBad = t.laneBad := by unfold Thread.setX; split <;> rfl
@[simp] theorem Thread.setX_rank (t : Thread) (r : Reg) (v : Word) : (t.setX r v).rank = t.rank := by unfold Thread.setX; split <;> rfl
@[simp] theorem Thread.setX_vlc (t : Thread) (r : Reg) (v : Word) : (t.setX r v).vlc = t.vlc := by unfold Thread.setX; split <;> rfl
@[simp] theorem Thread.setX_epoch (t : Thread) (r : Reg) (v : Word) : (t.setX r v).epoch = t.epoch := by unfold Thread.setX; split <;> rfl
@[simp] theorem Thread.setX_resv (t : Thread) (r : Reg) (v : Word) : (t.setX r v).resv = t.resv := by unfold Thread.setX; split <;> rfl
@[simp] theorem Thread.setX_sb (t : Thread) (r : Reg) (v : Word) : (t.setX r v).sb = t.sb := by unfold Thread.setX; split <;> rfl
@[simp] theorem Thread.setX_svMark (t : Thread) (r : Reg) (v : Word) : (t.setX r v).svMark = t.svMark := by unfold Thread.setX; split <;> rfl
@[simp] theorem Thread.setX_vq (t : Thread) (r : Reg) (v : Word) : (t.setX r v).vq = t.vq := by unfold Thread.setX; split <;> rfl
@[simp] theorem Thread.setX_banks (t : Thread) (r : Reg) (v : Word) : (t.setX r v).banks = t.banks := by unfold Thread.setX; split <;> rfl
@[simp] theorem Thread.setX_fx (t : Thread) (r : Reg) (v : Word) : (t.setX r v).fx = t.fx := by unfold Thread.setX; split <;> rfl
@[simp] theorem Thread.setX_settled (t : Thread) (r : Reg) (v : Word) : (t.setX r v).settled = t.settled := by unfold Thread.setX; split <;> rfl
@[simp] theorem Thread.setX_frozen (t : Thread) (r : Reg) (v : Word) : (t.setX r v).frozen = t.frozen := by unfold Thread.setX; split <;> rfl
@[simp] theorem Thread.setX_convTrap (t : Thread) (r : Reg) (v : Word) : (t.setX r v).convTrap = t.convTrap := by unfold Thread.setX; split <;> rfl
@[simp] theorem Thread.setX_laneTraps (t : Thread) (r : Reg) (v : Word) : (t.setX r v).laneTraps = t.laneTraps := by unfold Thread.setX; split <;> rfl
@[simp] theorem Thread.setX_engTraps (t : Thread) (r : Reg) (v : Word) : (t.setX r v).engTraps = t.engTraps := by unfold Thread.setX; split <;> rfl
@[simp] theorem Thread.setX_done (t : Thread) (r : Reg) (v : Word) : (t.setX r v).done = t.done := by unfold Thread.setX; split <;> rfl
@[simp] theorem Thread.setX_held (t : Thread) (r : Reg) (v : Word) : (t.setX r v).held = t.held := by unfold Thread.setX; split <;> rfl
@[simp] theorem Thread.setX_notifies (t : Thread) (r : Reg) (v : Word) : (t.setX r v).notifies = t.notifies := by unfold Thread.setX; split <;> rfl
@[simp] theorem Thread.setX_handles (t : Thread) (r : Reg) (v : Word) : (t.setX r v).handles = t.handles := by unfold Thread.setX; split <;> rfl
@[simp] theorem Thread.setX_bars (t : Thread) (r : Reg) (v : Word) : (t.setX r v).bars = t.bars := by unfold Thread.setX; split <;> rfl
@[simp] theorem Thread.setX_arrivals (t : Thread) (r : Reg) (v : Word) : (t.setX r v).arrivals = t.arrivals := by unfold Thread.setX; split <;> rfl
@[simp] theorem Thread.setX_openB (t : Thread) (r : Reg) (v : Word) : (t.setX r v).openB = t.openB := by unfold Thread.setX; split <;> rfl
@[simp] theorem Thread.setX_closedB (t : Thread) (r : Reg) (v : Word) : (t.setX r v).closedB = t.closedB := by unfold Thread.setX; split <;> rfl
@[simp] theorem Thread.setX_copies (t : Thread) (r : Reg) (v : Word) : (t.setX r v).copies = t.copies := by unfold Thread.setX; split <;> rfl
@[simp] theorem Thread.setX_copyFlt (t : Thread) (r : Reg) (v : Word) : (t.setX r v).copyFlt = t.copyFlt := by unfold Thread.setX; split <;> rfl
@[simp] theorem Thread.setX_water (t : Thread) (r : Reg) (v : Word) : (t.setX r v).water = t.water := by unfold Thread.setX; split <;> rfl
@[simp] theorem Thread.setX_wait (t : Thread) (r : Reg) (v : Word) : (t.setX r v).wait = t.wait := by unfold Thread.setX; split <;> rfl
@[simp] theorem Thread.setX_arrived (t : Thread) (r : Reg) (v : Word) : (t.setX r v).arrived = t.arrived := by unfold Thread.setX; split <;> rfl
@[simp] theorem Thread.setX_armed (t : Thread) (r : Reg) (v : Word) : (t.setX r v).armed = t.armed := by unfold Thread.setX; split <;> rfl
@[simp] theorem Thread.setX_yielded (t : Thread) (r : Reg) (v : Word) : (t.setX r v).yielded = t.yielded := by unfold Thread.setX; split <;> rfl
@[simp] theorem Thread.setX_mcfg (t : Thread) (r : Reg) (v : Word) : (t.setX r v).mcfg = t.mcfg := by unfold Thread.setX; split <;> rfl
@[simp] theorem Thread.setX_mmOut (t : Thread) (r : Reg) (v : Word) : (t.setX r v).mmOut = t.mmOut := by unfold Thread.setX; split <;> rfl
@[simp] theorem Thread.setX_mmFlt (t : Thread) (r : Reg) (v : Word) : (t.setX r v).mmFlt = t.mmFlt := by unfold Thread.setX; split <;> rfl
@[simp] theorem Thread.setX_mmFltStat (t : Thread) (r : Reg) (v : Word) : (t.setX r v).mmFltStat = t.mmFltStat := by unfold Thread.setX; split <;> rfl
@[simp] theorem Thread.setX_mmLast (t : Thread) (r : Reg) (v : Word) : (t.setX r v).mmLast = t.mmLast := by unfold Thread.setX; split <;> rfl
@[simp] theorem Thread.setX_mmDone (t : Thread) (r : Reg) (v : Word) : (t.setX r v).mmDone = t.mmDone := by unfold Thread.setX; split <;> rfl
@[simp] theorem Thread.setX_atFlt (t : Thread) (r : Reg) (v : Word) : (t.setX r v).atFlt = t.atFlt := by unfold Thread.setX; split <;> rfl
@[simp] theorem Thread.setX_atRpl (t : Thread) (r : Reg) (v : Word) : (t.setX r v).atRpl = t.atRpl := by unfold Thread.setX; split <;> rfl
@[simp] theorem Thread.setX_atCan (t : Thread) (r : Reg) (v : Word) : (t.setX r v).atCan = t.atCan := by unfold Thread.setX; split <;> rfl
@[simp] theorem Thread.setX_atBad (t : Thread) (r : Reg) (v : Word) : (t.setX r v).atBad = t.atBad := by unfold Thread.setX; split <;> rfl
@[simp] theorem Thread.setX_atDone (t : Thread) (r : Reg) (v : Word) : (t.setX r v).atDone = t.atDone := by unfold Thread.setX; split <;> rfl
@[simp] theorem Thread.retire_live (t : Thread) : t.retire.live = t.live := by unfold Thread.retire; split <;> rfl
@[simp] theorem Thread.retire_mode (t : Thread) : t.retire.mode = t.mode := by unfold Thread.retire; split <;> rfl
@[simp] theorem Thread.retire_x (t : Thread) : t.retire.x = t.x := by unfold Thread.retire; split <;> rfl
@[simp] theorem Thread.retire_pc (t : Thread) : t.retire.pc = t.pc := by unfold Thread.retire; split <;> rfl
@[simp] theorem Thread.retire_npc (t : Thread) : t.retire.npc = t.npc := by unfold Thread.retire; split <;> rfl
@[simp] theorem Thread.retire_prq (t : Thread) : t.retire.prq = t.prq := by unfold Thread.retire; split <;> rfl
@[simp] theorem Thread.retire_frc (t : Thread) : t.retire.frc = t.frc := by unfold Thread.retire; split <;> rfl
@[simp] theorem Thread.retire_prqAt (t : Thread) : t.retire.prqAt = t.prqAt := by unfold Thread.retire; split <;> rfl
@[simp] theorem Thread.retire_stopNow (t : Thread) : t.retire.stopNow = t.stopNow := by unfold Thread.retire; split <;> rfl
@[simp] theorem Thread.retire_stopped (t : Thread) : t.retire.stopped = t.stopped := by unfold Thread.retire; split <;> rfl
@[simp] theorem Thread.retire_gang (t : Thread) : t.retire.gang = t.gang := by unfold Thread.retire; split <;> rfl
@[simp] theorem Thread.retire_wfence (t : Thread) : t.retire.wfence = t.wfence := by unfold Thread.retire; split <;> rfl
@[simp] theorem Thread.retire_laneBad (t : Thread) : t.retire.laneBad = t.laneBad := by unfold Thread.retire; split <;> rfl
@[simp] theorem Thread.retire_rank (t : Thread) : t.retire.rank = t.rank := by unfold Thread.retire; split <;> rfl
@[simp] theorem Thread.retire_vlc (t : Thread) : t.retire.vlc = t.vlc := by unfold Thread.retire; split <;> rfl
@[simp] theorem Thread.retire_epoch (t : Thread) : t.retire.epoch = t.epoch := by unfold Thread.retire; split <;> rfl
@[simp] theorem Thread.retire_resv (t : Thread) : t.retire.resv = t.resv := by unfold Thread.retire; split <;> rfl
@[simp] theorem Thread.retire_sb (t : Thread) : t.retire.sb = t.sb := by unfold Thread.retire; split <;> rfl
@[simp] theorem Thread.retire_svMark (t : Thread) : t.retire.svMark = t.svMark := by unfold Thread.retire; split <;> rfl
@[simp] theorem Thread.retire_vq (t : Thread) : t.retire.vq = t.vq := by unfold Thread.retire; split <;> rfl
@[simp] theorem Thread.retire_banks (t : Thread) : t.retire.banks = t.banks := by unfold Thread.retire; split <;> rfl
@[simp] theorem Thread.retire_fx (t : Thread) : t.retire.fx = t.fx := by unfold Thread.retire; split <;> rfl
@[simp] theorem Thread.retire_settled (t : Thread) : t.retire.settled = t.settled := by unfold Thread.retire; split <;> rfl
@[simp] theorem Thread.retire_frozen (t : Thread) : t.retire.frozen = t.frozen := by unfold Thread.retire; split <;> rfl
@[simp] theorem Thread.retire_convTrap (t : Thread) : t.retire.convTrap = t.convTrap := by unfold Thread.retire; split <;> rfl
@[simp] theorem Thread.retire_laneTraps (t : Thread) : t.retire.laneTraps = t.laneTraps := by unfold Thread.retire; split <;> rfl
@[simp] theorem Thread.retire_engTraps (t : Thread) : t.retire.engTraps = t.engTraps := by unfold Thread.retire; split <;> rfl
@[simp] theorem Thread.retire_done (t : Thread) : t.retire.done = t.done := by unfold Thread.retire; split <;> rfl
@[simp] theorem Thread.retire_held (t : Thread) : t.retire.held = t.held := by unfold Thread.retire; split <;> rfl
@[simp] theorem Thread.retire_notifies (t : Thread) : t.retire.notifies = t.notifies := by unfold Thread.retire; split <;> rfl
@[simp] theorem Thread.retire_handles (t : Thread) : t.retire.handles = t.handles := by unfold Thread.retire; split <;> rfl
@[simp] theorem Thread.retire_bars (t : Thread) : t.retire.bars = t.bars := by unfold Thread.retire; split <;> rfl
@[simp] theorem Thread.retire_arrivals (t : Thread) : t.retire.arrivals = t.arrivals := by unfold Thread.retire; split <;> rfl
@[simp] theorem Thread.retire_openB (t : Thread) : t.retire.openB = t.openB := by unfold Thread.retire; split <;> rfl
@[simp] theorem Thread.retire_closedB (t : Thread) : t.retire.closedB = t.closedB := by unfold Thread.retire; split <;> rfl
@[simp] theorem Thread.retire_copies (t : Thread) : t.retire.copies = t.copies := by unfold Thread.retire; split <;> rfl
@[simp] theorem Thread.retire_copyFlt (t : Thread) : t.retire.copyFlt = t.copyFlt := by unfold Thread.retire; split <;> rfl
@[simp] theorem Thread.retire_water (t : Thread) : t.retire.water = t.water := by unfold Thread.retire; split <;> rfl
@[simp] theorem Thread.retire_wait (t : Thread) : t.retire.wait = t.wait := by unfold Thread.retire; split <;> rfl
@[simp] theorem Thread.retire_arrived (t : Thread) : t.retire.arrived = t.arrived := by unfold Thread.retire; split <;> rfl
@[simp] theorem Thread.retire_armed (t : Thread) : t.retire.armed = t.armed := by unfold Thread.retire; split <;> rfl
@[simp] theorem Thread.retire_yielded (t : Thread) : t.retire.yielded = t.yielded := by unfold Thread.retire; split <;> rfl
@[simp] theorem Thread.retire_mcfg (t : Thread) : t.retire.mcfg = t.mcfg := by unfold Thread.retire; split <;> rfl
@[simp] theorem Thread.retire_mmOut (t : Thread) : t.retire.mmOut = t.mmOut := by unfold Thread.retire; split <;> rfl
@[simp] theorem Thread.retire_mmFlt (t : Thread) : t.retire.mmFlt = t.mmFlt := by unfold Thread.retire; split <;> rfl
@[simp] theorem Thread.retire_mmFltStat (t : Thread) : t.retire.mmFltStat = t.mmFltStat := by unfold Thread.retire; split <;> rfl
@[simp] theorem Thread.retire_mmLast (t : Thread) : t.retire.mmLast = t.mmLast := by unfold Thread.retire; split <;> rfl
@[simp] theorem Thread.retire_mmDone (t : Thread) : t.retire.mmDone = t.mmDone := by unfold Thread.retire; split <;> rfl
@[simp] theorem Thread.retire_atFlt (t : Thread) : t.retire.atFlt = t.atFlt := by unfold Thread.retire; split <;> rfl
@[simp] theorem Thread.retire_atRpl (t : Thread) : t.retire.atRpl = t.atRpl := by unfold Thread.retire; split <;> rfl
@[simp] theorem Thread.retire_atCan (t : Thread) : t.retire.atCan = t.atCan := by unfold Thread.retire; split <;> rfl
@[simp] theorem Thread.retire_atBad (t : Thread) : t.retire.atBad = t.atBad := by unfold Thread.retire; split <;> rfl
@[simp] theorem Thread.retire_atDone (t : Thread) : t.retire.atDone = t.atDone := by unfold Thread.retire; split <;> rfl
@[simp] theorem Thread.retire_csr_mstatus (t : Thread) : t.retire.csr.mstatus = t.csr.mstatus := by unfold Thread.retire; split <;> rfl
@[simp] theorem Thread.retire_csr_mtvec (t : Thread) : t.retire.csr.mtvec = t.csr.mtvec := by unfold Thread.retire; split <;> rfl
@[simp] theorem Thread.retire_csr_mepc (t : Thread) : t.retire.csr.mepc = t.csr.mepc := by unfold Thread.retire; split <;> rfl
@[simp] theorem Thread.retire_csr_mcause (t : Thread) : t.retire.csr.mcause = t.csr.mcause := by unfold Thread.retire; split <;> rfl
@[simp] theorem Thread.retire_csr_mtval (t : Thread) : t.retire.csr.mtval = t.csr.mtval := by unfold Thread.retire; split <;> rfl
@[simp] theorem Thread.retire_csr_mscratch (t : Thread) : t.retire.csr.mscratch = t.csr.mscratch := by unfold Thread.retire; split <;> rfl
@[simp] theorem Thread.retire_csr_mtrapx (t : Thread) : t.retire.csr.mtrapx = t.csr.mtrapx := by unfold Thread.retire; split <;> rfl
@[simp] theorem Thread.retire_csr_mcountinhibit (t : Thread) : t.retire.csr.mcountinhibit = t.csr.mcountinhibit := by unfold Thread.retire; split <;> rfl
@[simp] theorem Thread.retire_csr_mcycle (t : Thread) : t.retire.csr.mcycle = t.csr.mcycle := by unfold Thread.retire; split <;> rfl
@[simp] theorem Thread.retire_csr_vptbase (t : Thread) : t.retire.csr.vptbase = t.csr.vptbase := by unfold Thread.retire; split <;> rfl
@[simp] theorem Thread.retire_csr_vasid (t : Thread) : t.retire.csr.vasid = t.csr.vasid := by unfold Thread.retire; split <;> rfl
@[simp] theorem Thread.retire_csr_lmsel (t : Thread) : t.retire.csr.lmsel = t.csr.lmsel := by unfold Thread.retire; split <;> rfl
@[simp] theorem Thread.retire_csr_vl (t : Thread) : t.retire.csr.vl = t.csr.vl := by unfold Thread.retire; split <;> rfl
@[simp] theorem Thread.retire_csr_vw (t : Thread) : t.retire.csr.vw = t.csr.vw := by unfold Thread.retire; split <;> rfl
@[simp] theorem Thread.retire_csr_vctx (t : Thread) : t.retire.csr.vctx = t.csr.vctx := by unfold Thread.retire; split <;> rfl
@[simp] theorem Thread.retire_csr_vslip (t : Thread) : t.retire.csr.vslip = t.csr.vslip := by unfold Thread.retire; split <;> rfl
@[simp] theorem Thread.retire_csr_vqlim (t : Thread) : t.retire.csr.vqlim = t.csr.vqlim := by unfold Thread.retire; split <;> rfl
@[simp] theorem Thread.retire_csr_vxstat (t : Thread) : t.retire.csr.vxstat = t.csr.vxstat := by unfold Thread.retire; split <;> rfl
@[simp] theorem Thread.retire_csr_fidx (t : Thread) : t.retire.csr.fidx = t.csr.fidx := by unfold Thread.retire; split <;> rfl
@[simp] theorem Thread.retire_csr_vround (t : Thread) : t.retire.csr.vround = t.csr.vround := by unfold Thread.retire; split <;> rfl
@[simp] theorem Thread.retire_csr_ffst (t : Thread) : t.retire.csr.ffst = t.csr.ffst := by unfold Thread.retire; split <;> rfl
@[simp] theorem Thread.retire_csr_vlive (t : Thread) : t.retire.csr.vlive = t.csr.vlive := by unfold Thread.retire; split <;> rfl
@[simp] theorem Thread.retire_csr_rngkey (t : Thread) : t.retire.csr.rngkey = t.csr.rngkey := by unfold Thread.retire; split <;> rfl
@[simp] theorem Thread.retire_csr_rngctr (t : Thread) : t.retire.csr.rngctr = t.csr.rngctr := by unfold Thread.retire; split <;> rfl
@[simp] theorem Thread.retire_csr_cb (t : Thread) : t.retire.csr.cb = t.csr.cb := by unfold Thread.retire; split <;> rfl
@[simp] theorem Thread.retire_csr_wcnt (t : Thread) : t.retire.csr.wcnt = t.csr.wcnt := by unfold Thread.retire; split <;> rfl
@[simp] theorem Thread.settle_live (t : Thread) : t.settle.live = t.live := rfl
@[simp] theorem Thread.settle_mode (t : Thread) : t.settle.mode = t.mode := rfl
@[simp] theorem Thread.settle_x (t : Thread) : t.settle.x = t.x := rfl
@[simp] theorem Thread.settle_pc (t : Thread) : t.settle.pc = t.pc := rfl
@[simp] theorem Thread.settle_npc (t : Thread) : t.settle.npc = t.npc := rfl
@[simp] theorem Thread.settle_csr (t : Thread) : t.settle.csr = t.csr := rfl
@[simp] theorem Thread.settle_prq (t : Thread) : t.settle.prq = t.prq := rfl
@[simp] theorem Thread.settle_frc (t : Thread) : t.settle.frc = t.frc := rfl
@[simp] theorem Thread.settle_prqAt (t : Thread) : t.settle.prqAt = t.prqAt := rfl
@[simp] theorem Thread.settle_stopNow (t : Thread) : t.settle.stopNow = t.stopNow := rfl
@[simp] theorem Thread.settle_stopped (t : Thread) : t.settle.stopped = t.stopped := rfl
@[simp] theorem Thread.settle_gang (t : Thread) : t.settle.gang = t.gang := rfl
@[simp] theorem Thread.settle_wfence (t : Thread) : t.settle.wfence = t.wfence := rfl
@[simp] theorem Thread.settle_laneBad (t : Thread) : t.settle.laneBad = t.laneBad := rfl
@[simp] theorem Thread.settle_rank (t : Thread) : t.settle.rank = t.rank := rfl
@[simp] theorem Thread.settle_vlc (t : Thread) : t.settle.vlc = t.vlc := rfl
@[simp] theorem Thread.settle_epoch (t : Thread) : t.settle.epoch = t.epoch := rfl
@[simp] theorem Thread.settle_resv (t : Thread) : t.settle.resv = t.resv := rfl
@[simp] theorem Thread.settle_sb (t : Thread) : t.settle.sb = t.sb := rfl
@[simp] theorem Thread.settle_svMark (t : Thread) : t.settle.svMark = t.svMark := rfl
@[simp] theorem Thread.settle_vq (t : Thread) : t.settle.vq = t.vq := rfl
@[simp] theorem Thread.settle_banks (t : Thread) : t.settle.banks = t.banks := rfl
@[simp] theorem Thread.settle_fx (t : Thread) : t.settle.fx = t.fx := rfl
@[simp] theorem Thread.settle_settled (t : Thread) : t.settle.settled = t.settled := rfl
@[simp] theorem Thread.settle_frozen (t : Thread) : t.settle.frozen = t.frozen := rfl
@[simp] theorem Thread.settle_convTrap (t : Thread) : t.settle.convTrap = t.convTrap := rfl
@[simp] theorem Thread.settle_laneTraps (t : Thread) : t.settle.laneTraps = t.laneTraps := rfl
@[simp] theorem Thread.settle_engTraps (t : Thread) : t.settle.engTraps = t.engTraps := rfl
@[simp] theorem Thread.settle_done (t : Thread) : t.settle.done = t.done := rfl
@[simp] theorem Thread.settle_held (t : Thread) : t.settle.held = t.held := rfl
@[simp] theorem Thread.settle_notifies (t : Thread) : t.settle.notifies = t.notifies := rfl
@[simp] theorem Thread.settle_handles (t : Thread) : t.settle.handles = t.handles := rfl
@[simp] theorem Thread.settle_bars (t : Thread) : t.settle.bars = t.bars := rfl
@[simp] theorem Thread.settle_arrivals (t : Thread) : t.settle.arrivals = t.arrivals := rfl
@[simp] theorem Thread.settle_openB (t : Thread) : t.settle.openB = t.openB := rfl
@[simp] theorem Thread.settle_closedB (t : Thread) : t.settle.closedB = t.closedB := rfl
@[simp] theorem Thread.settle_copies (t : Thread) : t.settle.copies = t.copies := rfl
@[simp] theorem Thread.settle_copyFlt (t : Thread) : t.settle.copyFlt = t.copyFlt := rfl
@[simp] theorem Thread.settle_water (t : Thread) : t.settle.water = t.water := rfl
@[simp] theorem Thread.settle_armed (t : Thread) : t.settle.armed = t.armed := rfl
@[simp] theorem Thread.settle_yielded (t : Thread) : t.settle.yielded = t.yielded := rfl
@[simp] theorem Thread.settle_mcfg (t : Thread) : t.settle.mcfg = t.mcfg := rfl
@[simp] theorem Thread.settle_mmOut (t : Thread) : t.settle.mmOut = t.mmOut := rfl
@[simp] theorem Thread.settle_mmFlt (t : Thread) : t.settle.mmFlt = t.mmFlt := rfl
@[simp] theorem Thread.settle_mmFltStat (t : Thread) : t.settle.mmFltStat = t.mmFltStat := rfl
@[simp] theorem Thread.settle_mmLast (t : Thread) : t.settle.mmLast = t.mmLast := rfl
@[simp] theorem Thread.settle_mmDone (t : Thread) : t.settle.mmDone = t.mmDone := rfl
@[simp] theorem Thread.settle_atFlt (t : Thread) : t.settle.atFlt = t.atFlt := rfl
@[simp] theorem Thread.settle_atRpl (t : Thread) : t.settle.atRpl = t.atRpl := rfl
@[simp] theorem Thread.settle_atCan (t : Thread) : t.settle.atCan = t.atCan := rfl
@[simp] theorem Thread.settle_atBad (t : Thread) : t.settle.atBad = t.atBad := rfl
@[simp] theorem Thread.settle_atDone (t : Thread) : t.settle.atDone = t.atDone := rfl
@[simp] theorem Thread.settle_wait (t : Thread) : t.settle.wait = .none := rfl
@[simp] theorem Thread.post_live (t : Thread) (i : Nat) (v : Bool) : (t.post i v).live = t.live := rfl
@[simp] theorem Thread.mergeFlags_live (t : Thread) (f : BitVec 8) : (t.mergeFlags f).live = t.live := rfl
@[simp] theorem Thread.post_mode (t : Thread) (i : Nat) (v : Bool) : (t.post i v).mode = t.mode := rfl
@[simp] theorem Thread.mergeFlags_mode (t : Thread) (f : BitVec 8) : (t.mergeFlags f).mode = t.mode := rfl
@[simp] theorem Thread.post_x (t : Thread) (i : Nat) (v : Bool) : (t.post i v).x = t.x := rfl
@[simp] theorem Thread.mergeFlags_x (t : Thread) (f : BitVec 8) : (t.mergeFlags f).x = t.x := rfl
@[simp] theorem Thread.post_pc (t : Thread) (i : Nat) (v : Bool) : (t.post i v).pc = t.pc := rfl
@[simp] theorem Thread.mergeFlags_pc (t : Thread) (f : BitVec 8) : (t.mergeFlags f).pc = t.pc := rfl
@[simp] theorem Thread.post_npc (t : Thread) (i : Nat) (v : Bool) : (t.post i v).npc = t.npc := rfl
@[simp] theorem Thread.mergeFlags_npc (t : Thread) (f : BitVec 8) : (t.mergeFlags f).npc = t.npc := rfl
@[simp] theorem Thread.post_prq (t : Thread) (i : Nat) (v : Bool) : (t.post i v).prq = t.prq := rfl
@[simp] theorem Thread.mergeFlags_prq (t : Thread) (f : BitVec 8) : (t.mergeFlags f).prq = t.prq := rfl
@[simp] theorem Thread.post_frc (t : Thread) (i : Nat) (v : Bool) : (t.post i v).frc = t.frc := rfl
@[simp] theorem Thread.mergeFlags_frc (t : Thread) (f : BitVec 8) : (t.mergeFlags f).frc = t.frc := rfl
@[simp] theorem Thread.post_prqAt (t : Thread) (i : Nat) (v : Bool) : (t.post i v).prqAt = t.prqAt := rfl
@[simp] theorem Thread.mergeFlags_prqAt (t : Thread) (f : BitVec 8) : (t.mergeFlags f).prqAt = t.prqAt := rfl
@[simp] theorem Thread.post_stopNow (t : Thread) (i : Nat) (v : Bool) : (t.post i v).stopNow = t.stopNow := rfl
@[simp] theorem Thread.mergeFlags_stopNow (t : Thread) (f : BitVec 8) : (t.mergeFlags f).stopNow = t.stopNow := rfl
@[simp] theorem Thread.post_stopped (t : Thread) (i : Nat) (v : Bool) : (t.post i v).stopped = t.stopped := rfl
@[simp] theorem Thread.mergeFlags_stopped (t : Thread) (f : BitVec 8) : (t.mergeFlags f).stopped = t.stopped := rfl
@[simp] theorem Thread.post_gang (t : Thread) (i : Nat) (v : Bool) : (t.post i v).gang = t.gang := rfl
@[simp] theorem Thread.post_wfence (t : Thread) (i : Nat) (v : Bool) : (t.post i v).wfence = t.wfence := rfl
@[simp] theorem Thread.post_laneBad (t : Thread) (i : Nat) (v : Bool) : (t.post i v).laneBad = t.laneBad := rfl
@[simp] theorem Thread.mergeFlags_gang (t : Thread) (f : BitVec 8) : (t.mergeFlags f).gang = t.gang := rfl
@[simp] theorem Thread.mergeFlags_wfence (t : Thread) (f : BitVec 8) : (t.mergeFlags f).wfence = t.wfence := rfl
@[simp] theorem Thread.mergeFlags_laneBad (t : Thread) (f : BitVec 8) : (t.mergeFlags f).laneBad = t.laneBad := rfl
@[simp] theorem Thread.post_rank (t : Thread) (i : Nat) (v : Bool) : (t.post i v).rank = t.rank := rfl
@[simp] theorem Thread.mergeFlags_rank (t : Thread) (f : BitVec 8) : (t.mergeFlags f).rank = t.rank := rfl
@[simp] theorem Thread.post_vlc (t : Thread) (i : Nat) (v : Bool) : (t.post i v).vlc = t.vlc := rfl
@[simp] theorem Thread.mergeFlags_vlc (t : Thread) (f : BitVec 8) : (t.mergeFlags f).vlc = t.vlc := rfl
@[simp] theorem Thread.post_epoch (t : Thread) (i : Nat) (v : Bool) : (t.post i v).epoch = t.epoch := rfl
@[simp] theorem Thread.mergeFlags_epoch (t : Thread) (f : BitVec 8) : (t.mergeFlags f).epoch = t.epoch := rfl
@[simp] theorem Thread.post_resv (t : Thread) (i : Nat) (v : Bool) : (t.post i v).resv = t.resv := rfl
@[simp] theorem Thread.mergeFlags_resv (t : Thread) (f : BitVec 8) : (t.mergeFlags f).resv = t.resv := rfl
@[simp] theorem Thread.post_sb (t : Thread) (i : Nat) (v : Bool) : (t.post i v).sb = t.sb := rfl
@[simp] theorem Thread.mergeFlags_sb (t : Thread) (f : BitVec 8) : (t.mergeFlags f).sb = t.sb := rfl
@[simp] theorem Thread.post_svMark (t : Thread) (i : Nat) (v : Bool) : (t.post i v).svMark = t.svMark := rfl
@[simp] theorem Thread.mergeFlags_svMark (t : Thread) (f : BitVec 8) : (t.mergeFlags f).svMark = t.svMark := rfl
@[simp] theorem Thread.post_vq (t : Thread) (i : Nat) (v : Bool) : (t.post i v).vq = t.vq := rfl
@[simp] theorem Thread.mergeFlags_vq (t : Thread) (f : BitVec 8) : (t.mergeFlags f).vq = t.vq := rfl
@[simp] theorem Thread.post_banks (t : Thread) (i : Nat) (v : Bool) : (t.post i v).banks = t.banks := rfl
@[simp] theorem Thread.mergeFlags_banks (t : Thread) (f : BitVec 8) : (t.mergeFlags f).banks = t.banks := rfl
@[simp] theorem Thread.post_fx (t : Thread) (i : Nat) (v : Bool) : (t.post i v).fx = t.fx := rfl
@[simp] theorem Thread.mergeFlags_fx (t : Thread) (f : BitVec 8) : (t.mergeFlags f).fx = t.fx := rfl
@[simp] theorem Thread.post_settled (t : Thread) (i : Nat) (v : Bool) : (t.post i v).settled = t.settled := rfl
@[simp] theorem Thread.mergeFlags_settled (t : Thread) (f : BitVec 8) : (t.mergeFlags f).settled = t.settled := rfl
@[simp] theorem Thread.post_frozen (t : Thread) (i : Nat) (v : Bool) : (t.post i v).frozen = t.frozen := rfl
@[simp] theorem Thread.mergeFlags_frozen (t : Thread) (f : BitVec 8) : (t.mergeFlags f).frozen = t.frozen := rfl
@[simp] theorem Thread.post_convTrap (t : Thread) (i : Nat) (v : Bool) : (t.post i v).convTrap = t.convTrap := rfl
@[simp] theorem Thread.mergeFlags_convTrap (t : Thread) (f : BitVec 8) : (t.mergeFlags f).convTrap = t.convTrap := rfl
@[simp] theorem Thread.post_laneTraps (t : Thread) (i : Nat) (v : Bool) : (t.post i v).laneTraps = t.laneTraps := rfl
@[simp] theorem Thread.mergeFlags_laneTraps (t : Thread) (f : BitVec 8) : (t.mergeFlags f).laneTraps = t.laneTraps := rfl
@[simp] theorem Thread.post_engTraps (t : Thread) (i : Nat) (v : Bool) : (t.post i v).engTraps = t.engTraps := rfl
@[simp] theorem Thread.mergeFlags_engTraps (t : Thread) (f : BitVec 8) : (t.mergeFlags f).engTraps = t.engTraps := rfl
@[simp] theorem Thread.post_done (t : Thread) (i : Nat) (v : Bool) : (t.post i v).done = t.done := rfl
@[simp] theorem Thread.mergeFlags_done (t : Thread) (f : BitVec 8) : (t.mergeFlags f).done = t.done := rfl
@[simp] theorem Thread.post_held (t : Thread) (i : Nat) (v : Bool) : (t.post i v).held = t.held := rfl
@[simp] theorem Thread.mergeFlags_held (t : Thread) (f : BitVec 8) : (t.mergeFlags f).held = t.held := rfl
@[simp] theorem Thread.post_notifies (t : Thread) (i : Nat) (v : Bool) : (t.post i v).notifies = t.notifies := rfl
@[simp] theorem Thread.mergeFlags_notifies (t : Thread) (f : BitVec 8) : (t.mergeFlags f).notifies = t.notifies := rfl
@[simp] theorem Thread.post_handles (t : Thread) (i : Nat) (v : Bool) : (t.post i v).handles = t.handles := rfl
@[simp] theorem Thread.mergeFlags_handles (t : Thread) (f : BitVec 8) : (t.mergeFlags f).handles = t.handles := rfl
@[simp] theorem Thread.post_bars (t : Thread) (i : Nat) (v : Bool) : (t.post i v).bars = t.bars := rfl
@[simp] theorem Thread.mergeFlags_bars (t : Thread) (f : BitVec 8) : (t.mergeFlags f).bars = t.bars := rfl
@[simp] theorem Thread.post_arrivals (t : Thread) (i : Nat) (v : Bool) : (t.post i v).arrivals = t.arrivals := rfl
@[simp] theorem Thread.mergeFlags_arrivals (t : Thread) (f : BitVec 8) : (t.mergeFlags f).arrivals = t.arrivals := rfl
@[simp] theorem Thread.post_openB (t : Thread) (i : Nat) (v : Bool) : (t.post i v).openB = t.openB := rfl
@[simp] theorem Thread.mergeFlags_openB (t : Thread) (f : BitVec 8) : (t.mergeFlags f).openB = t.openB := rfl
@[simp] theorem Thread.post_closedB (t : Thread) (i : Nat) (v : Bool) : (t.post i v).closedB = t.closedB := rfl
@[simp] theorem Thread.mergeFlags_closedB (t : Thread) (f : BitVec 8) : (t.mergeFlags f).closedB = t.closedB := rfl
@[simp] theorem Thread.post_copies (t : Thread) (i : Nat) (v : Bool) : (t.post i v).copies = t.copies := rfl
@[simp] theorem Thread.mergeFlags_copies (t : Thread) (f : BitVec 8) : (t.mergeFlags f).copies = t.copies := rfl
@[simp] theorem Thread.post_copyFlt (t : Thread) (i : Nat) (v : Bool) : (t.post i v).copyFlt = t.copyFlt := rfl
@[simp] theorem Thread.mergeFlags_copyFlt (t : Thread) (f : BitVec 8) : (t.mergeFlags f).copyFlt = t.copyFlt := rfl
@[simp] theorem Thread.post_water (t : Thread) (i : Nat) (v : Bool) : (t.post i v).water = t.water := rfl
@[simp] theorem Thread.mergeFlags_water (t : Thread) (f : BitVec 8) : (t.mergeFlags f).water = t.water := rfl
@[simp] theorem Thread.post_wait (t : Thread) (i : Nat) (v : Bool) : (t.post i v).wait = t.wait := rfl
@[simp] theorem Thread.mergeFlags_wait (t : Thread) (f : BitVec 8) : (t.mergeFlags f).wait = t.wait := rfl
@[simp] theorem Thread.post_arrived (t : Thread) (i : Nat) (v : Bool) : (t.post i v).arrived = t.arrived := rfl
@[simp] theorem Thread.mergeFlags_arrived (t : Thread) (f : BitVec 8) : (t.mergeFlags f).arrived = t.arrived := rfl
@[simp] theorem Thread.post_armed (t : Thread) (i : Nat) (v : Bool) : (t.post i v).armed = t.armed := rfl
@[simp] theorem Thread.mergeFlags_armed (t : Thread) (f : BitVec 8) : (t.mergeFlags f).armed = t.armed := rfl
@[simp] theorem Thread.post_yielded (t : Thread) (i : Nat) (v : Bool) : (t.post i v).yielded = t.yielded := rfl
@[simp] theorem Thread.mergeFlags_yielded (t : Thread) (f : BitVec 8) : (t.mergeFlags f).yielded = t.yielded := rfl
@[simp] theorem Thread.post_mcfg (t : Thread) (i : Nat) (v : Bool) : (t.post i v).mcfg = t.mcfg := rfl
@[simp] theorem Thread.mergeFlags_mcfg (t : Thread) (f : BitVec 8) : (t.mergeFlags f).mcfg = t.mcfg := rfl
@[simp] theorem Thread.post_mmOut (t : Thread) (i : Nat) (v : Bool) : (t.post i v).mmOut = t.mmOut := rfl
@[simp] theorem Thread.mergeFlags_mmOut (t : Thread) (f : BitVec 8) : (t.mergeFlags f).mmOut = t.mmOut := rfl
@[simp] theorem Thread.post_mmFlt (t : Thread) (i : Nat) (v : Bool) : (t.post i v).mmFlt = t.mmFlt := rfl
@[simp] theorem Thread.mergeFlags_mmFlt (t : Thread) (f : BitVec 8) : (t.mergeFlags f).mmFlt = t.mmFlt := rfl
@[simp] theorem Thread.post_mmFltStat (t : Thread) (i : Nat) (v : Bool) : (t.post i v).mmFltStat = t.mmFltStat := rfl
@[simp] theorem Thread.mergeFlags_mmFltStat (t : Thread) (f : BitVec 8) : (t.mergeFlags f).mmFltStat = t.mmFltStat := rfl
@[simp] theorem Thread.post_mmLast (t : Thread) (i : Nat) (v : Bool) : (t.post i v).mmLast = t.mmLast := rfl
@[simp] theorem Thread.mergeFlags_mmLast (t : Thread) (f : BitVec 8) : (t.mergeFlags f).mmLast = t.mmLast := rfl
@[simp] theorem Thread.post_mmDone (t : Thread) (i : Nat) (v : Bool) : (t.post i v).mmDone = t.mmDone := rfl
@[simp] theorem Thread.mergeFlags_mmDone (t : Thread) (f : BitVec 8) : (t.mergeFlags f).mmDone = t.mmDone := rfl
@[simp] theorem Thread.post_atFlt (t : Thread) (i : Nat) (v : Bool) : (t.post i v).atFlt = t.atFlt := rfl
@[simp] theorem Thread.mergeFlags_atFlt (t : Thread) (f : BitVec 8) : (t.mergeFlags f).atFlt = t.atFlt := rfl
@[simp] theorem Thread.post_atRpl (t : Thread) (i : Nat) (v : Bool) : (t.post i v).atRpl = t.atRpl := rfl
@[simp] theorem Thread.mergeFlags_atRpl (t : Thread) (f : BitVec 8) : (t.mergeFlags f).atRpl = t.atRpl := rfl
@[simp] theorem Thread.post_atCan (t : Thread) (i : Nat) (v : Bool) : (t.post i v).atCan = t.atCan := rfl
@[simp] theorem Thread.mergeFlags_atCan (t : Thread) (f : BitVec 8) : (t.mergeFlags f).atCan = t.atCan := rfl
@[simp] theorem Thread.post_atBad (t : Thread) (i : Nat) (v : Bool) : (t.post i v).atBad = t.atBad := rfl
@[simp] theorem Thread.mergeFlags_atBad (t : Thread) (f : BitVec 8) : (t.mergeFlags f).atBad = t.atBad := rfl
@[simp] theorem Thread.post_atDone (t : Thread) (i : Nat) (v : Bool) : (t.post i v).atDone = t.atDone := rfl
@[simp] theorem Thread.mergeFlags_atDone (t : Thread) (f : BitVec 8) : (t.mergeFlags f).atDone = t.atDone := rfl
@[simp] theorem Thread.post_csr_mstatus (t : Thread) (i : Nat) (v : Bool) : (t.post i v).csr.mstatus = t.csr.mstatus := rfl
@[simp] theorem Thread.mergeFlags_csr_mstatus (t : Thread) (f : BitVec 8) : (t.mergeFlags f).csr.mstatus = t.csr.mstatus := rfl
@[simp] theorem Thread.post_csr_mtvec (t : Thread) (i : Nat) (v : Bool) : (t.post i v).csr.mtvec = t.csr.mtvec := rfl
@[simp] theorem Thread.mergeFlags_csr_mtvec (t : Thread) (f : BitVec 8) : (t.mergeFlags f).csr.mtvec = t.csr.mtvec := rfl
@[simp] theorem Thread.post_csr_mepc (t : Thread) (i : Nat) (v : Bool) : (t.post i v).csr.mepc = t.csr.mepc := rfl
@[simp] theorem Thread.mergeFlags_csr_mepc (t : Thread) (f : BitVec 8) : (t.mergeFlags f).csr.mepc = t.csr.mepc := rfl
@[simp] theorem Thread.post_csr_mcause (t : Thread) (i : Nat) (v : Bool) : (t.post i v).csr.mcause = t.csr.mcause := rfl
@[simp] theorem Thread.mergeFlags_csr_mcause (t : Thread) (f : BitVec 8) : (t.mergeFlags f).csr.mcause = t.csr.mcause := rfl
@[simp] theorem Thread.post_csr_mtval (t : Thread) (i : Nat) (v : Bool) : (t.post i v).csr.mtval = t.csr.mtval := rfl
@[simp] theorem Thread.mergeFlags_csr_mtval (t : Thread) (f : BitVec 8) : (t.mergeFlags f).csr.mtval = t.csr.mtval := rfl
@[simp] theorem Thread.post_csr_mscratch (t : Thread) (i : Nat) (v : Bool) : (t.post i v).csr.mscratch = t.csr.mscratch := rfl
@[simp] theorem Thread.mergeFlags_csr_mscratch (t : Thread) (f : BitVec 8) : (t.mergeFlags f).csr.mscratch = t.csr.mscratch := rfl
@[simp] theorem Thread.post_csr_mtrapx (t : Thread) (i : Nat) (v : Bool) : (t.post i v).csr.mtrapx = t.csr.mtrapx := rfl
@[simp] theorem Thread.mergeFlags_csr_mtrapx (t : Thread) (f : BitVec 8) : (t.mergeFlags f).csr.mtrapx = t.csr.mtrapx := rfl
@[simp] theorem Thread.post_csr_mcountinhibit (t : Thread) (i : Nat) (v : Bool) : (t.post i v).csr.mcountinhibit = t.csr.mcountinhibit := rfl
@[simp] theorem Thread.mergeFlags_csr_mcountinhibit (t : Thread) (f : BitVec 8) : (t.mergeFlags f).csr.mcountinhibit = t.csr.mcountinhibit := rfl
@[simp] theorem Thread.post_csr_minstret (t : Thread) (i : Nat) (v : Bool) : (t.post i v).csr.minstret = t.csr.minstret := rfl
@[simp] theorem Thread.mergeFlags_csr_minstret (t : Thread) (f : BitVec 8) : (t.mergeFlags f).csr.minstret = t.csr.minstret := rfl
@[simp] theorem Thread.post_csr_mcycle (t : Thread) (i : Nat) (v : Bool) : (t.post i v).csr.mcycle = t.csr.mcycle := rfl
@[simp] theorem Thread.mergeFlags_csr_mcycle (t : Thread) (f : BitVec 8) : (t.mergeFlags f).csr.mcycle = t.csr.mcycle := rfl
@[simp] theorem Thread.post_csr_vptbase (t : Thread) (i : Nat) (v : Bool) : (t.post i v).csr.vptbase = t.csr.vptbase := rfl
@[simp] theorem Thread.mergeFlags_csr_vptbase (t : Thread) (f : BitVec 8) : (t.mergeFlags f).csr.vptbase = t.csr.vptbase := rfl
@[simp] theorem Thread.post_csr_vasid (t : Thread) (i : Nat) (v : Bool) : (t.post i v).csr.vasid = t.csr.vasid := rfl
@[simp] theorem Thread.mergeFlags_csr_vasid (t : Thread) (f : BitVec 8) : (t.mergeFlags f).csr.vasid = t.csr.vasid := rfl
@[simp] theorem Thread.post_csr_lmsel (t : Thread) (i : Nat) (v : Bool) : (t.post i v).csr.lmsel = t.csr.lmsel := rfl
@[simp] theorem Thread.mergeFlags_csr_lmsel (t : Thread) (f : BitVec 8) : (t.mergeFlags f).csr.lmsel = t.csr.lmsel := rfl
@[simp] theorem Thread.post_csr_vl (t : Thread) (i : Nat) (v : Bool) : (t.post i v).csr.vl = t.csr.vl := rfl
@[simp] theorem Thread.mergeFlags_csr_vl (t : Thread) (f : BitVec 8) : (t.mergeFlags f).csr.vl = t.csr.vl := rfl
@[simp] theorem Thread.post_csr_vw (t : Thread) (i : Nat) (v : Bool) : (t.post i v).csr.vw = t.csr.vw := rfl
@[simp] theorem Thread.mergeFlags_csr_vw (t : Thread) (f : BitVec 8) : (t.mergeFlags f).csr.vw = t.csr.vw := rfl
@[simp] theorem Thread.post_csr_vctx (t : Thread) (i : Nat) (v : Bool) : (t.post i v).csr.vctx = t.csr.vctx := rfl
@[simp] theorem Thread.mergeFlags_csr_vctx (t : Thread) (f : BitVec 8) : (t.mergeFlags f).csr.vctx = t.csr.vctx := rfl
@[simp] theorem Thread.post_csr_vslip (t : Thread) (i : Nat) (v : Bool) : (t.post i v).csr.vslip = t.csr.vslip := rfl
@[simp] theorem Thread.mergeFlags_csr_vslip (t : Thread) (f : BitVec 8) : (t.mergeFlags f).csr.vslip = t.csr.vslip := rfl
@[simp] theorem Thread.post_csr_vqlim (t : Thread) (i : Nat) (v : Bool) : (t.post i v).csr.vqlim = t.csr.vqlim := rfl
@[simp] theorem Thread.mergeFlags_csr_vqlim (t : Thread) (f : BitVec 8) : (t.mergeFlags f).csr.vqlim = t.csr.vqlim := rfl
@[simp] theorem Thread.post_csr_vxstat (t : Thread) (i : Nat) (v : Bool) : (t.post i v).csr.vxstat = t.csr.vxstat := rfl
@[simp] theorem Thread.post_csr_fidx (t : Thread) (i : Nat) (v : Bool) : (t.post i v).csr.fidx = t.csr.fidx := rfl
@[simp] theorem Thread.mergeFlags_csr_fidx (t : Thread) (f : BitVec 8) : (t.mergeFlags f).csr.fidx = t.csr.fidx := rfl
@[simp] theorem Thread.post_csr_vround (t : Thread) (i : Nat) (v : Bool) : (t.post i v).csr.vround = t.csr.vround := rfl
@[simp] theorem Thread.mergeFlags_csr_vround (t : Thread) (f : BitVec 8) : (t.mergeFlags f).csr.vround = t.csr.vround := rfl
@[simp] theorem Thread.post_csr_ffst (t : Thread) (i : Nat) (v : Bool) : (t.post i v).csr.ffst = t.csr.ffst := rfl
@[simp] theorem Thread.mergeFlags_csr_ffst (t : Thread) (f : BitVec 8) : (t.mergeFlags f).csr.ffst = t.csr.ffst := rfl
@[simp] theorem Thread.post_csr_vlive (t : Thread) (i : Nat) (v : Bool) : (t.post i v).csr.vlive = t.csr.vlive := rfl
@[simp] theorem Thread.mergeFlags_csr_vlive (t : Thread) (f : BitVec 8) : (t.mergeFlags f).csr.vlive = t.csr.vlive := rfl
@[simp] theorem Thread.post_csr_rngkey (t : Thread) (i : Nat) (v : Bool) : (t.post i v).csr.rngkey = t.csr.rngkey := rfl
@[simp] theorem Thread.mergeFlags_csr_rngkey (t : Thread) (f : BitVec 8) : (t.mergeFlags f).csr.rngkey = t.csr.rngkey := rfl
@[simp] theorem Thread.post_csr_rngctr (t : Thread) (i : Nat) (v : Bool) : (t.post i v).csr.rngctr = t.csr.rngctr := rfl
@[simp] theorem Thread.mergeFlags_csr_rngctr (t : Thread) (f : BitVec 8) : (t.mergeFlags f).csr.rngctr = t.csr.rngctr := rfl
@[simp] theorem Thread.mergeFlags_csr_cb (t : Thread) (f : BitVec 8) : (t.mergeFlags f).csr.cb = t.csr.cb := rfl
@[simp] theorem Thread.post_csr_wcnt (t : Thread) (i : Nat) (v : Bool) : (t.post i v).csr.wcnt = t.csr.wcnt := rfl
@[simp] theorem Thread.mergeFlags_csr_wcnt (t : Thread) (f : BitVec 8) : (t.mergeFlags f).csr.wcnt = t.csr.wcnt := rfl

end Sys2Proof.Machine
end

