-- ==== Sys2Proof/Laws/Registers.lean ====
section
/-! SUPPORT. What the named operations leave: threads, cores, registers, results, stalls, the exception entry and the return
from it. -/

namespace Sys2Proof.Machine

/-! Threads. -/

theorem State.thread_setThread (s : State) (k j : Nat) (t : Thread) :
    (s.setThread k t).thread j = if j = k then t else s.thread j := by
  simp [State.thread, State.setThread, Tab.get_set]

@[simp] theorem State.thread_setThread_same (s : State) (k : Nat) (t : Thread) : (s.setThread k t).thread k = t := by
  simp [State.thread_setThread]

theorem State.thread_setThread_other (s : State) {j k : Nat} (t : Thread) (h : j ≠ k) :
    (s.setThread k t).thread j = s.thread j := by simp [State.thread_setThread, h]

theorem State.thread_updThread (s : State) (k j : Nat) (f : Thread → Thread) :
    (s.updThread k f).thread j = if j = k then f (s.thread k) else s.thread j := State.thread_setThread s k j _

@[simp] theorem State.thread_updThread_same (s : State) (k : Nat) (f : Thread → Thread) :
    (s.updThread k f).thread k = f (s.thread k) := by simp [State.thread_updThread]

theorem State.thread_updThread_other (s : State) {j k : Nat} (f : Thread → Thread) (h : j ≠ k) :
    (s.updThread k f).thread j = s.thread j := by simp [State.thread_updThread, h]

theorem State.thread_updMe_other (s : State) {j : Nat} (f : Thread → Thread) (h : j ≠ s.cur) :
    (s.updMe f).thread j = s.thread j := State.thread_setThread_other s _ h

@[simp] theorem State.me_setMe (s : State) (t : Thread) : (s.setMe t).me = t := by
  simp [State.me, State.setMe]

@[simp] theorem State.me_updMe (s : State) (f : Thread → Thread) : (s.updMe f).me = f s.me := by
  simp [State.me, State.updMe, State.setMe]

@[simp] theorem State.me_setCore (s : State) (c : Nat) (k : Core) : (s.setCore c k).me = s.me := rfl
@[simp] theorem State.me_updCore (s : State) (c : Nat) (f : Core → Core) : (s.updCore c f).me = s.me := rfl
@[simp] theorem State.me_updMyCore (s : State) (f : Core → Core) : (s.updMyCore f).me = s.me := rfl
@[simp] theorem State.me_updDie (s : State) (d : Nat) (f : Die → Die) : (s.updDie d f).me = s.me := rfl
@[simp] theorem State.me_updCluster (s : State) (c : Nat) (f : Cluster → Cluster) : (s.updCluster c f).me = s.me := rfl
@[simp] theorem State.thread_setCore (s : State) (c j : Nat) (k : Core) : (s.setCore c k).thread j = s.thread j := rfl
@[simp] theorem State.thread_updCore (s : State) (c j : Nat) (f : Core → Core) : (s.updCore c f).thread j = s.thread j := rfl
@[simp] theorem State.thread_updMyCore (s : State) (j : Nat) (f : Core → Core) :
    (s.updMyCore f).thread j = s.thread j := rfl

@[simp] theorem State.me_setThread_cur (s : State) (t : Thread) : (s.setThread s.cur t).me = t := State.me_setMe s t

/-! Cores, clusters and dies. -/

theorem State.core_setCore (s : State) (c j : Nat) (k : Core) : (s.setCore c k).core j = if j = c then k else s.core j := by
  simp [State.core, State.setCore, Tab.get_set]

@[simp] theorem State.core_setCore_same (s : State) (c : Nat) (k : Core) : (s.setCore c k).core c = k := by
  simp [State.core_setCore]

theorem State.core_updCore (s : State) (c j : Nat) (f : Core → Core) :
    (s.updCore c f).core j = if j = c then f (s.core c) else s.core j := State.core_setCore s c j _

@[simp] theorem State.core_updCore_same (s : State) (c : Nat) (f : Core → Core) : (s.updCore c f).core c = f (s.core c) := by
  simp [State.core_updCore]

@[simp] theorem State.myCore_updMyCore (s : State) (f : Core → Core) : (s.updMyCore f).myCore = f s.myCore := by
  simp [State.myCore, State.updMyCore]

@[simp] theorem State.core_updThread (s : State) (k j : Nat) (f : Thread → Thread) : (s.updThread k f).core j = s.core j := rfl
@[simp] theorem State.core_setThread (s : State) (k j : Nat) (t : Thread) : (s.setThread k t).core j = s.core j := rfl
@[simp] theorem State.core_updMe (s : State) (j : Nat) (f : Thread → Thread) : (s.updMe f).core j = s.core j := rfl
@[simp] theorem State.core_wr (s : State) (j : Nat) (r : Reg) (v : Word) : (s.wr r v).core j = s.core j := rfl
@[simp] theorem State.core_advance (s : State) (j : Nat) : s.advance.core j = s.core j := rfl
@[simp] theorem State.myCore_updMe (s : State) (f : Thread → Thread) : (s.updMe f).myCore = s.myCore := rfl

theorem State.cluster_updCluster (s : State) (c j : Nat) (f : Cluster → Cluster) :
    (s.updCluster c f).cluster j = if j = c then f (s.cluster c) else s.cluster j := by
  simp [State.cluster, State.updCluster, Tab.get_set]

@[simp] theorem State.die_setDie_same (s : State) (d : Nat) (x : Die) : (s.setDie d x).die d = x := by
  simp [State.die, State.setDie]

theorem State.die_setDie_other (s : State) {d e : Nat} (x : Die) (h : e % 4 ≠ d % 4) : (s.setDie d x).die e = s.die e := by
  have : d % 4 ≠ e % 4 := fun h' => h h'.symm
  simp [State.die, State.setDie, this]

@[simp] theorem State.die_updDie_same (s : State) (d : Nat) (f : Die → Die) : (s.updDie d f).die d = f (s.die d) := by
  simp [State.updDie]

theorem State.rec_setRec (s : State) (e j : Nat) (r : Option Rec) :
    (s.setRec e r).rec? j = if j = e then r else s.rec? j := by
  simp [State.rec?, State.setRec, Tab.get_set]

theorem State.op_setOp (s : State) (i j : Nat) (o : Option Op) : (s.setOp i o).op? j = if j = i then o else s.op? j := by
  simp [State.op?, State.setOp, Tab.get_set]

theorem State.queue_setQueue (s : State) (q j : Nat) (x : Queue) :
    (s.setQueue q x).queue j = if j = q then x else s.queue j := by
  simp [State.queue, State.setQueue, Tab.get_set]

/-! General registers. -/

@[simp] theorem Thread.getX_zero (t : Thread) : t.getX 0 = 0 := rfl
@[simp] theorem Thread.setX_zero (t : Thread) (v : Word) : t.setX 0 v = t := rfl

/-- A register reads back what was written; x0 reads zero. -/
theorem Thread.getX_setX (t : Thread) (r q : Reg) (v : Word) :
    (t.setX r v).getX q = if q = r then (if r = 0 then 0 else v) else t.getX q := by
  by_cases hr : r = 0
  · by_cases hq : q = r
    · rw [if_pos hq, if_pos hr, hq, hr]; rfl
    · rw [if_neg hq, hr]; rfl
  · by_cases hq : q = r
    · subst hq
      simp only [Thread.getX, Thread.setX, if_neg hr, if_true, Vector.getElem_set_self]
    · have h : r.toNat ≠ q.toNat := fun h => hq (BitVec.eq_of_toNat_eq h.symm)
      simp only [Thread.getX, Thread.setX, if_neg hr, if_neg hq, Vector.getElem_set_ne _ _ h]

theorem Thread.getX_congr {t u : Thread} (h : t.x = u.x) (q : Reg) : t.getX q = u.getX q := by
  simp only [Thread.getX, h]

@[simp] theorem Thread.settle_getX (t : Thread) (q : Reg) : t.settle.getX q = t.getX q := rfl
@[simp] theorem Thread.retire_getX (t : Thread) (q : Reg) : t.retire.getX q = t.getX q := Thread.getX_congr (by simp) q

theorem State.rd_def (s : State) (r : Reg) : s.rd r = s.me.getX r := rfl

@[simp] theorem State.rd_zero (s : State) : s.rd 0 = 0 := rfl

theorem State.rd_wr (s : State) (r q : Reg) (v : Word) :
    (s.wr r v).rd q = if q = r then (if r = 0 then 0 else v) else s.rd q := by
  simp [State.rd_def, State.wr, Thread.getX_setX]

@[simp] theorem State.me_wr (s : State) (r : Reg) (v : Word) : (s.wr r v).me = s.me.setX r v := by simp [State.wr]

/-! An instruction that performs. -/

@[simp] theorem State.me_advance (s : State) : s.advance.me = { s.me.retire.settle with pc := s.me.npc } := by
  simp [State.advance]

@[simp] theorem State.me_jump (s : State) (pc : Word) : (s.jump pc).me = { s.me.retire.settle with pc } := by
  simp [State.jump]

theorem State.rd_advance (s : State) (q : Reg) : s.advance.rd q = s.rd q := by
  simp only [State.rd_def, State.me_advance]
  exact Thread.getX_congr (by simp) q

/-- Everything `ret` does: the register is written, the thread's instruction has performed, nothing else changes. -/
theorem State.ret_spec (s : State) (r : Reg) (v : Word) :
    ∃ t, s.ret r v = .next t ∧ (∀ q, t.rd q = if q = r then (if r = 0 then 0 else v) else s.rd q) ∧
      t.me.pc = s.me.npc ∧ t.me.mode = s.me.mode ∧ (∀ k, k ≠ s.cur → t.thread k = s.thread k) ∧
      ({ t with threads := s.threads } : State) = s := by
  refine ⟨_, rfl, ?_, by simp, by simp, ?_, rfl⟩
  · intro q
    rw [State.rd_advance, State.rd_wr]
  · intro k hk
    exact (State.thread_updMe_other _ _ (by simpa using hk)).trans (State.thread_setThread_other _ _ hk)

/-- Everything `stall` does: the instruction issues again; the thread is marked as waiting, and nothing else changes. -/
theorem State.stall_spec (s : State) :
    ∃ t, s.stall = .next t ∧ t.me = s.me.block ∧ (∀ k, k ≠ s.cur → t.thread k = s.thread k) ∧
      ({ t with threads := s.threads } : State) = s :=
  ⟨_, rfl, State.me_updMe _ _, fun _ hk => State.thread_updMe_other _ _ hk, rfl⟩

/-! Exceptions. -/

/-- Everything an exception taken in U mode does: the entry of the executing thread, and nothing else. -/
theorem State.takeException_user (s : State) (tr : Trap) (epc : Word) (h : s.me.mode = .u) :
    (s.takeException tr epc).me = s.me.enter tr epc ∧
      (∀ k, k ≠ s.cur → (s.takeException tr epc).thread k = s.thread k) ∧
      ({ s.takeException tr epc with threads := s.threads } : State) = s := by
  have e : s.takeException tr epc = s.setMe (s.me.enter tr epc) := by simp [State.takeException, h]
  rw [e]
  exact ⟨by simp, fun k hk => State.thread_setThread_other _ _ hk, rfl⟩

/-- An exception is a next state. -/
theorem State.trap_next (s : State) (c : Nat) (v i : Word) :
    s.trap c v i = .next (s.takeException { cause := c, tval := v, info := i } s.me.pc) := rfl

/-- Everything a return from an exception does. -/
theorem State.returnException_spec (s : State) :
    s.returnException.me.pc = s.me.csr.mepc ∧
      s.returnException.me.mode = (if s.me.csr.mstatus.extractLsb' 11 2 = 0 then .u else .m) ∧
      s.returnException.me.csr.mstatus = mstatusReturn s.me.csr.mstatus ∧
      (∀ k, k ≠ s.cur → s.returnException.thread k = s.thread k) ∧
      ({ s.returnException with threads := s.threads } : State) = s := by
  refine ⟨by simp [State.returnException], by simp [State.returnException], by simp [State.returnException], ?_, rfl⟩
  intro k hk
  exact State.thread_updMe_other _ _ hk

end Sys2Proof.Machine
end

