-- ==== Sys2Proof/Laws/Rows.lean ====
section
/-! SUPPORT. Vector registers and masks: a register reads back what was written at its width, and a write leaves other banks,
other registers and the masks alone (R131 to R135). -/

namespace Sys2Proof.Machine

/-! Rows and descriptors. -/

theorem row_key {b r b' r' : Nat} (hr : r < 512) (hr' : r' < 512) : b * 512 + r = b' * 512 + r' ↔ b = b' ∧ r = r' := by omega
theorem seg_key {b v b' v' : Nat} (hv : v < 16) (hv' : v' < 16) : b * 16 + v = b' * 16 + v' ↔ b = b' ∧ v = v' := by omega

theorem Core.row_setRow (c : Core) (b r b' r' : Nat) (x : Row) (hr : r < 512) (hr' : r' < 512) :
    (c.setRow b r x).row b' r' = if b' = b ∧ r' = r then x else c.row b' r' := by
  simp only [Core.row, Core.setRow, Tab.get_set, row_key hr' hr]

@[simp] theorem Core.segd_setRow (c : Core) (b r b' v : Nat) (x : Row) : (c.setRow b r x).segd b' v = c.segd b' v := rfl
@[simp] theorem Core.row_setSegd (c : Core) (b v b' r : Nat) (d : BitVec 32) : (c.setSegd b v d).row b' r = c.row b' r := rfl

theorem Core.segd_setSegd (c : Core) (b v b' v' : Nat) (d : BitVec 32) (hv : v < 16) (hv' : v' < 16) :
    (c.setSegd b v d).segd b' v' = if b' = b ∧ v' = v then d else c.segd b' v' := by
  simp only [Core.segd, Core.setSegd, Tab.get_set, seg_key hv' hv]

/-- Writing rows, counted from `i`. -/
theorem Core.row_writeFrom (ps : List Row) (i : Nat) (c : Core) (b r0 b' r' : Nat) (h : r0 + i + ps.length ≤ 512)
    (hr' : r' < 512) :
    ((ps.zipIdx i).foldl (fun (c : Core) p => c.setRow b (r0 + p.2) p.1) c).row b' r' =
      if b' = b ∧ r0 + i ≤ r' ∧ r' < r0 + i + ps.length then (ps[r' - (r0 + i)]?).getD 0 else c.row b' r' := by
  induction ps generalizing i c with
  | nil => rw [if_neg (by simp only [List.length_nil]; omega)]; rfl
  | cons p ps ih =>
    simp only [List.length_cons] at h
    rw [List.zipIdx_cons, List.foldl_cons, ih (i + 1) _ (by omega), Core.row_setRow c b (r0 + i) b' r' p (by omega) hr']
    simp only [List.length_cons]
    by_cases hb : b' = b
    · by_cases h0 : r' = r0 + i
      · subst h0
        rw [if_neg (by omega), if_pos ⟨hb, rfl⟩, if_pos ⟨hb, by omega, by omega⟩, Nat.sub_self]
        rfl
      · by_cases h1 : r0 + i ≤ r' ∧ r' < r0 + i + (ps.length + 1)
        · rw [if_pos ⟨hb, by omega, by omega⟩, if_pos ⟨hb, h1⟩]
          obtain ⟨k, hk⟩ : ∃ k, r' = r0 + i + (k + 1) := ⟨r' - (r0 + i) - 1, by omega⟩
          subst hk
          have e1 : r0 + i + (k + 1) - (r0 + (i + 1)) = k := by omega
          have e2 : r0 + i + (k + 1) - (r0 + i) = k + 1 := by omega
          rw [e1, e2, List.getElem?_cons_succ]
        · rw [if_neg (by omega), if_neg (by omega), if_neg (fun h => h1 h.2)]
    · rw [if_neg (fun h => hb h.1), if_neg (fun h => hb h.1), if_neg (fun h => hb h.1)]

/-- Everything `writeRows` does to rows. -/
theorem Core.row_writeRows (c : Core) (b r0 b' r' : Nat) (ps : List Row) (h : r0 + ps.length ≤ 512) (hr' : r' < 512) :
    (c.writeRows b r0 ps).row b' r' =
      if b' = b ∧ r0 ≤ r' ∧ r' < r0 + ps.length then (ps[r' - r0]?).getD 0 else c.row b' r' := by
  exact Core.row_writeFrom ps 0 c b r0 b' r' (by omega) hr'

@[simp] theorem Core.segd_writeRows (c : Core) (b r0 b' v : Nat) (ps : List Row) :
    (c.writeRows b r0 ps).segd b' v = c.segd b' v := by
  unfold Core.writeRows
  generalize ps.zipIdx = l
  induction l generalizing c with
  | nil => rfl
  | cons p l ih => rw [List.foldl_cons, ih]; rfl

/-! Fields of a descriptor. -/

theorem segMake_toNat (keep : Nat) (sgn pk : Bool) (ww : Nat) (pr : Bool) (base : Nat) :
    (segMake keep sgn pk ww pr base).toNat = keep % 64 + 2 ^ 6 * b2n sgn + 2 ^ 7 * b2n pk + 2 ^ 8 * (ww % 16) + 2 ^ 12 * b2n pr
      + 2 ^ 16 * (base % 65536) := by
  unfold segMake
  rw [BitVec.toNat_ofNat, Nat.mod_eq_of_lt]
  cases sgn <;> cases pk <;> cases pr <;> simp [b2n] <;> omega

theorem segKeep_make {keep : Nat} (h : keep < 64) (sgn pk : Bool) (ww : Nat) (pr : Bool) (base : Nat) :
    segKeep (segMake keep sgn pk ww pr base) = keep := by
  simp only [segKeep, BitVec.extractLsb'_toNat, segMake_toNat, Nat.shiftRight_eq_div_pow]
  omega

theorem testBit_b2n {n k : Nat} (h : n / 2 ^ k % 2 = 1 ↔ False) : n.testBit k = false := by
  simp only [Nat.testBit_eq_decide_div_mod_eq, iff_false] at *
  simp [h]

theorem bitAt (n k : Nat) (b : Bool) (h : n / 2 ^ k % 2 = b2n b) : n.testBit k = b := by
  rw [Nat.testBit_eq_decide_div_mod_eq, h]
  cases b <;> rfl

theorem segSgn_make (keep : Nat) (sgn pk : Bool) (ww : Nat) (pr : Bool) (base : Nat) :
    segSgn (segMake keep sgn pk ww pr base) = sgn := by
  unfold segSgn
  rw [BitVec.getLsbD, segMake_toNat]
  refine bitAt _ _ _ ?_
  have hs : b2n sgn < 2 := by cases sgn <;> decide
  omega

theorem segPk_make (keep : Nat) (sgn pk : Bool) (ww : Nat) (pr : Bool) (base : Nat) :
    segPk (segMake keep sgn pk ww pr base) = pk := by
  unfold segPk
  rw [BitVec.getLsbD, segMake_toNat]
  refine bitAt _ _ _ ?_
  have hs : b2n sgn < 2 := by cases sgn <;> decide
  have hk : b2n pk < 2 := by cases pk <;> decide
  omega

theorem segPr_make (keep : Nat) (sgn pk : Bool) (ww : Nat) (pr : Bool) (base : Nat) :
    segPr (segMake keep sgn pk ww pr base) = pr := by
  unfold segPr
  rw [BitVec.getLsbD, segMake_toNat]
  refine bitAt _ _ _ ?_
  have hs : b2n sgn < 2 := by cases sgn <;> decide
  have hk : b2n pk < 2 := by cases pk <;> decide
  have hp : b2n pr < 2 := by cases pr <;> decide
  omega

theorem segWw_make (keep : Nat) (sgn pk : Bool) {ww : Nat} (h : ww < 16) (pr : Bool) (base : Nat) :
    segWw (segMake keep sgn pk ww pr base) = ww := by
  simp only [segWw, BitVec.extractLsb'_toNat, segMake_toNat, Nat.shiftRight_eq_div_pow]
  have hs : b2n sgn < 2 := by cases sgn <;> decide
  have hk : b2n pk < 2 := by cases pk <;> decide
  omega

/-! Planes kept and restored. -/

/-- What `findBelow` finds. -/
theorem findBelow_spec {p : Nat → Bool} {n k : Nat} (h : findBelow p n = some k) : k < n ∧ p k = true := by
  induction n with
  | zero => simp [findBelow] at h
  | succ n ih =>
    unfold findBelow at h
    split at h
    · rename_i i hi
      cases h
      exact ⟨Nat.lt_succ_of_lt (ih hi).1, (ih hi).2⟩
    · split at h
      · cases h
        exact ⟨Nat.lt_succ_self _, ‹_›⟩
      · cases h

/-- What `keepOf` promises: it is no more than the planes there are, and every plane above is elided. -/
theorem keepOf_spec (sgn : Bool) (ps : List Row) :
    keepOf sgn ps ≤ ps.length ∧ (sgn = true → ps ≠ [] → 1 ≤ keepOf sgn ps) ∧
      ∀ j, keepOf sgn ps ≤ j → j < ps.length → (ps[j]?).getD 0 = if sgn then (ps[keepOf sgn ps - 1]?).getD 0 else 0 := by
  unfold keepOf
  cases h : findBelow (fun k =>
    (if sgn then decide (1 ≤ k) else true) &&
      (ps.drop k).all fun p => p == (if sgn then (ps[k - 1]?).getD 0 else 0)) ps.length with
  | none =>
    exact ⟨Nat.le_refl _, fun _ hne => List.length_pos_iff.mpr hne, fun j hj hl => absurd hl (Nat.not_lt.mpr hj)⟩
  | some k =>
    obtain ⟨hk, hp⟩ := findBelow_spec h
    simp only [Bool.and_eq_true, List.all_eq_true, beq_iff_eq] at hp
    refine ⟨Nat.le_of_lt hk, fun hs _ => by simpa [hs] using hp.1, fun j hj hl => ?_⟩
    have hmem : (ps[j]?).getD 0 ∈ ps.drop k := by
      simp only [Option.getD_some] at hj
      rw [List.getElem?_eq_getElem hl, Option.getD_some, List.mem_drop_iff_getElem]
      exact ⟨j - k, by omega, by congr 1; omega⟩
    exact hp.2 _ hmem

/-- The planes that are kept give all planes back. -/
theorem planesTo_keep (sgn : Bool) (ps : List Row) : planesTo sgn (ps.take (keepOf sgn ps)) ps.length = ps := by
  obtain ⟨hle, h1, hel⟩ := keepOf_spec sgn ps
  refine List.ext_getElem (by simp [planesTo]) fun j hj hj' => ?_
  simp only [planesTo, List.getElem_map, List.getElem_range, planeExt]
  by_cases hk : j < keepOf sgn ps
  · rw [List.getElem?_take_of_lt hk, List.getElem?_eq_getElem hj']
  · rw [List.getElem?_eq_none (by simp; omega)]
    have e := hel j (by omega) hj'
    rw [List.getElem?_eq_getElem hj', Option.getD_some] at e
    rw [e]
    cases sgn with
    | false => rfl
    | true =>
      have hpos := h1 rfl (by intro hn; simp [hn] at hj')
      simp only [if_true]
      rw [List.getLast?_eq_getElem?, List.length_take, Nat.min_eq_left hle, List.getElem?_take_of_lt (by omega)]

/-- Planes at their own width are themselves. -/
theorem planesTo_self (sgn : Bool) (ps : List Row) : planesTo sgn ps ps.length = ps := by
  refine List.ext_getElem (by simp [planesTo]) fun j hj hj' => ?_
  simp [planesTo, planeExt, List.getElem?_eq_getElem hj']

/-! Reading a register back. -/

/-- Stored planes of a register, from its rows. -/
theorem Core.storedRows (c : Core) (b v k : Nat) (ps : List Row) (hk : k ≤ ps.length)
    (h : ∀ j < k, c.row b (16 * v + j) = (ps[j]?).getD 0) :
    (List.range k).map (fun j => c.row b (16 * v + j)) = ps.take k := by
  refine List.ext_getElem (by simp; omega) fun j hj hj' => ?_
  have hjk : j < k := by simpa using hj
  simp [h j hjk, List.getElem?_eq_getElem (Nat.lt_of_lt_of_le hjk hk)]

/-- The planes of an unpacked descriptor over rows that hold what was kept. -/
theorem Core.segPlanes_keep (c : Core) (b v ww : Nat) (sgn pr : Bool) (ps : List Row) (hn : ps.length ≤ 32)
    (hw : (if pr then 32 else ww + 1) = ps.length) (hww : ww < 16)
    (h : ∀ j < keepOf sgn ps, c.row b (16 * v + j) = (ps[j]?).getD 0) :
    c.segPlanes b (16 * v) (segMake (keepOf sgn ps) sgn false ww pr 0) = ps := by
  have hle := (keepOf_spec sgn ps).1
  unfold Core.segPlanes
  simp only [segKeep_make (show keepOf sgn ps < 64 by omega), segSgn_make, segPk_make, segWidth, segPr_make,
    segWw_make _ _ _ hww, Bool.not_false, Bool.and_true, Bool.false_eq_true, if_false, hw]
  rw [Core.storedRows c b v _ ps hle h, planesTo_keep]

/-- A register reads back what was written at its width. -/
theorem Core.readReg_writeReg (c : Core) (b v : Nat) (sgn : Bool) (ps : List Row) (hv : v < 16) (hn : 1 ≤ ps.length)
    (hw : ps.length ≤ 16) : (c.writeReg b v sgn ps).readReg b v ps.length = ps := by
  have hle := (keepOf_spec sgn ps).1
  have hd : (c.writeReg b v sgn ps).segd b v = segMake (keepOf sgn ps) sgn false (ps.length - 1) false 0 := by
    unfold Core.writeReg
    rw [Core.segd_setSegd _ _ _ _ _ _ hv hv, if_pos ⟨rfl, rfl⟩]
  have hp : segPr ((c.writeReg b v sgn ps).segd b (v - v % 2)) = false := by
    by_cases he : v - v % 2 = v
    · rw [he, hd, segPr_make]
    · unfold Core.writeReg
      rw [Core.segd_setSegd _ _ _ _ _ _ hv (by omega), if_neg (fun h => he h.2), Core.segd_writeRows]
      unfold Core.splitPair
      dsimp only
      split
      · rw [if_pos (show v % 2 = 1 by omega), Core.segd_setSegd _ _ _ _ _ _ (by omega) (by omega), if_pos ⟨rfl, rfl⟩, segPr_make]
      · exact Bool.eq_false_iff.mpr ‹_›
  unfold Core.readReg Core.regPlanes
  simp only [hp, Bool.false_eq_true, and_false, if_false, hd]
  rw [Core.segPlanes_keep _ b v _ sgn false ps (by omega) (by simp; omega) (by omega), planesTo_self]
  intro j hj
  unfold Core.writeReg
  rw [Core.row_setSegd, Core.row_writeRows _ _ _ _ _ _ (by simp; omega) (by omega),
    if_pos ⟨rfl, by omega, by simp; omega⟩, Nat.add_sub_cancel_left, List.getElem?_take_of_lt hj]

/-- A pair reads back what was written. -/
theorem Core.readPair_writePair (c : Core) (b v : Nat) (sgn : Bool) (ps : List Row) (hv : v + 1 < 16) (hw : ps.length = 32) :
    (c.writePair b v sgn ps).readPair b v = ps := by
  have hle := (keepOf_spec sgn ps).1
  have hd : (c.writePair b v sgn ps).segd b v = segMake (keepOf sgn ps) sgn false 15 true 0 := by
    unfold Core.writePair
    rw [Core.segd_setSegd _ _ _ _ _ _ (by omega) (by omega), if_pos ⟨rfl, rfl⟩]
  unfold Core.readPair
  simp only [hd, segPr_make, if_true]
  refine Core.segPlanes_keep _ b v _ sgn true ps (by omega) (by simp [hw]) (by omega) fun j hj => ?_
  unfold Core.writePair
  rw [Core.row_setSegd, Core.row_setSegd, Core.row_writeRows _ _ _ _ _ _ (by simp; omega) (by omega),
    if_pos ⟨rfl, by omega, by simp; omega⟩, Nat.add_sub_cancel_left, List.getElem?_take_of_lt hj]

/-! What a write leaves alone. -/

/-- Splitting a pair changes no row and no descriptor of another bank. -/
theorem Core.splitPair_other (c : Core) (b v b' r' : Nat) (hv : v < 16) (hr' : r' < 512) (hb : b' ≠ b) :
    (c.splitPair b v).row b' r' = c.row b' r' := by
  unfold Core.splitPair
  dsimp only
  split
  · have ho : (if v % 2 = 1 then v - v % 2 else v - v % 2 + 1) < 16 := by split <;> omega
    generalize (if v % 2 = 1 then v - v % 2 else v - v % 2 + 1) = o at ho
    have hk := (keepOf_spec (segSgn (c.segd b (v - v % 2))) (c.readReg b o 16)).1
    have hl : (c.readReg b o 16).length = 16 := by simp [Core.readReg, planesTo]
    rw [Core.row_setSegd, Core.row_writeRows _ _ _ _ _ _ (by simp; omega) hr', if_neg (fun h => hb h.1), Core.row_setSegd]
  · rfl

/-- A register write changes no row of another bank. -/
theorem Core.row_writeReg_bank (c : Core) (b v b' r' : Nat) (sgn : Bool) (ps : List Row) (hv : v < 16) (hw : ps.length ≤ 16)
    (hr' : r' < 512) (hb : b' ≠ b) : (c.writeReg b v sgn ps).row b' r' = c.row b' r' := by
  have hle := (keepOf_spec sgn ps).1
  unfold Core.writeReg
  dsimp only
  rw [Core.row_setSegd, Core.row_writeRows _ _ _ _ _ _ (by simp; omega) hr', if_neg (fun h => hb h.1),
    Core.splitPair_other c b v b' r' hv hr' hb]

/-- Masks: one written reads back, m0 reads all ones, and the others are as before. -/
theorem Core.maskRow_setMaskRow (c : Core) (b m b' m' : Nat) (r : Row) (hm : m < 8) (hm' : m' < 8) :
    (c.setMaskRow b m r).maskRow b' m' = if m' = 0 then BitVec.allOnes 2048 else
      if b' = b ∧ m' = m then r else c.maskRow b' m' := by
  unfold Core.setMaskRow Core.maskRow
  by_cases h' : m' = 0
  · simp only [h', if_true]
  · simp only [h', if_false]
    by_cases h : m = 0
    · rw [if_pos h, if_neg (fun h'' => h' (h''.2.trans h))]
    · rw [if_neg h, Core.row_setRow c b _ b' _ r (by omega) (by omega)]
      simp

end Sys2Proof.Machine
end

