-- ==== Sys2Proof/Tests/Slice0.lean ====
section
/-! SUPPORT. The model's own tests: ill-formed instructions that the check refuses, words written out from the encoding
tables, and for each obligation states and operands that meet its hypotheses. Expected words come from the spec's match
bits and its worked examples, or from the RISC-V encodings. -/

namespace Sys2Proof.Tests

set_option Elab.async false

open Sys2Proof Sys2Proof.Machine Sys2Proof.Say

/-! Well-formedness: an ill-formed instruction for each check, and a well-formed neighbour. -/

/-- A vector word with every field zero. -/
def w0 : VWord := ⟨0, 0, 0, 0, 0, 0, 0, 0, 0, 0, 0, 0, 0, 0, 0, 0⟩

theorem test_wf_refuses :
    ([.vdrain 0 2, .vdrain 1 6, .vgetP 5 3, .cbcmpEq 16 1 2, .cblogAnd 27 1 2, .cbseti 20 1, .wmwait 6 1 2, .wmwait 0 0 0,
      .wmwaitArm 0 1 2, .wmwaitDisarm 7, .wmpub 6 1 2, .wmpubRemote 1 2, .scfence 6, .acqfence 7, .relfence 6,
      .baseInstruction (.shift .slliw 1 2 32), .csrAccess .rw 1 2 0x800, .csrAccess .rs 1 0 0x811,
      .csrAccessRng .rw 1 2 0x813, .csrWriteVl .rs 1 0, .illegalInstruction 0, .vectorIllegal 0,
      .vamo { w0 with fn := 8 }, .vamoTile w0, .vstop { w0 with fn := 1 }, .vstopR w0] : List Instr).all (!·.wf) = true := by
  decide +kernel

theorem test_wf_accepts :
    ([.vdrain 1 5, .vgetP 5 2, .cbcmpEq 15 1 2, .cblogAnd 28 1 2, .cbseti 1 1, .wmwait 5 1 0, .wmwaitDisarm 0, .wmpub 5 1 2,
      .scfence 5, .baseInstruction (.shift .slliw 1 2 31), .baseInstruction (.shift .slli 1 2 63), .csrAccess .rs 1 0 0x800,
      .csrAccessRng .rs 1 0 0x811, .csrWriteVl .rs 1 2, .vamo { w0 with fn := 7 }, .vamoTile { w0 with fn := 8 },
      .vstop { w0 with fn := 2 }, .vstopR { w0 with fn := 1 }] : List Instr).all Instr.wf = true := by decide +kernel

/-! Decoding: words written out from the match bits and the field places of the spec's tables. -/

/-- Words of opcode 0xb, from the match bits and field places of R244 to R249. -/
theorem test_decode_vectorControl :
    [0x000b068b, 0x020b068b, 0x39cb268b, 0x040b068b, 0x060b068b, 0x0861000b, 0x0a00000b, 0x0c9b068b, 0x0e00000b,
     0x1005068b, 0x1015068b, 0x129b068b, 0x149b068b, 0x169b068b, 0x189b068b, 0x1a9b068b, 0x1c9b068b, 0x1e9b068b,
     0x209b068b, 0x229b068b, 0x249b068b, 0x2600068b, 0x289b000b, 0x2a0b000b, 0x0010368b, 0xa5cb100b].map decode32 =
    [.vsetvl 13 22, .vsetw 13 22, .vsetvli 13 22 924, .vctx 13 22, .vslip 13 22, .vdrain 6 2, .vqdrain,
     .vlive 13 22 9, .svfence, .vget 13 10, .vgetP 13 10, .cbcmpEq 13 22 9, .cbcmpNe 13 22 9, .cbcmpLt 13 22 9,
     .cbcmpGe 13 22 9, .cbcmpLtu 13 22 9, .cbcmpGeu 13 22 9, .cblogAnd 13 22 9, .cblogOr 13 22 9, .cblogXor 13 22 9,
     .cblogAndn 13 22 9, .cbget 13, .cbput 22 9, .cbclr 22, .cbseti 13 1, .vfetch 22 2652] := by decide +kernel

/-- Words of opcode 0x2b, from the match bits and field places of R244 to R249. -/
theorem test_decode_tileControl :
    [0x009b06ab, 0x029b06ab, 0x040b06ab, 0x060006ab, 0x080b06ab, 0x0a0b06ab, 0x0c0b02ab, 0x0e0002ab, 0x100002ab,
     0x120106ab, 0x140106ab, 0x169b06ab, 0x180b002b, 0x1a05002b, 0x1c0b06ab, 0x1c1b06ab, 0x1c2b06ab, 0x1c3b06ab,
     0x1c4b06ab, 0x1e9b012b, 0x1e0002ab, 0x209b012b, 0x31e0102b].map decode32 =
    [.tcfg 13 22 9, .tload 13 22 9, .tstore 13 22, .tfree 13, .tstat 13 22, .tcopy 13 22, .strcfg 5 22, .strstart 5,
     .strstop 5, .strstat 13 2, .strbind 13 2, .xcopy 13 22 9, .xform 22, .close 10, .lineClean 13 22,
     .lineFlush 13 22, .lineInval 13 22, .lineLastuse 13 22, .lineDiscard 13 22, .wmwait 2 22 9, .wmwaitDisarm 5,
     .wmpub 2 22 9, .wait 1 4 3 6] := by decide +kernel

/-- Words of opcode 0x5b, from the match bits and field places of R244 to R249. -/
theorem test_decode_unitControl :
    [0x009b035b, 0x0205005b, 0x0405005b, 0x0605005b, 0x0805005b, 0x0a01005b, 0x0c01005b, 0x0e01005b, 0x109b06db,
     0x129b06db, 0x149b06db, 0x169b06db, 0x189b06db, 0x1a9b06db, 0x1c9b06db, 0x1e9b06db, 0x209b06db, 0x229b06db,
     0x240b06db, 0x269b06db, 0x289b06db, 0x2a9b06db, 0x2c0b06db, 0x2e9b06db, 0x309b06db, 0x329b06db, 0x349b06db,
     0x369b06db, 0x380b06db, 0x3a9b06db, 0x3c9b06db, 0x3e0b06db, 0x400006db, 0x420b06db].map decode32 =
    [.barinit 6 22 9, .bararrive 10, .barwait 10, .bararrwait 10, .barinv 10, .scfence 2, .acqfence 2, .relfence 2,
     .afaddS 13 22 9, .afminS 13 22 9, .afmaxS 13 22 9, .afminnS 13 22 9, .afmaxnS 13 22 9, .sqcreate 13 22 9,
     .sqres 13 22 9, .sqcommit 13 22 9, .sqabandon 13 22 9, .sqfork 13 22 9, .sqlen 13 22, .sqwait 13 22 9,
     .sqseal 13 22 9, .sqevict 13 22 9, .sqrelease 13 22, .btinv 13 22 9, .ixcreate 13 22 9, .ixfamily 13 22 9,
     .ixins 13 22 9, .ixdel 13 22 9, .ixprobe 13 22, .ixrehash 13 22 9, .ixstat 13 22 9, .attn 13 22, .attnstat 13,
     .attncancel 13 22] := by decide +kernel

/-- Words of opcode 0x7b, from the match bits and field places of R244 to R249. -/
theorem test_decode_systemControl :
    [0xb60b06fb, 0xb60b16fb, 0x000b26fb, 0x029b207b, 0x049b207b, 0x069b207b, 0x089b207b, 0x0a0b207b, 0x0c9b207b,
     0x0e0026fb, 0x1000207b, 0x0000707b, 0x001b707b, 0x0200707b, 0x040076fb, 0x069b76fb, 0x089b707b, 0x0a0076fb,
     0x0c1b76fb, 0x0e0b76fb, 0x100b76fb, 0x129b76fb].map decode32 =
    [.bc 22 3510, .bnc 22 3510, .mmcfg 13 22, .mmissue 22 9, .mmsparse 22 9, .mmgather 22 9, .mmret 22 9,
     .acczero 22, .accscale 22 9, .mmstat 13, .mmfence, .haltt, .halttF 22, .yield, .preemptpt 13, .launch 13 22 9,
     .rngseed 22 9, .rngnext 13, .ctxsave 13 22 1, .ctxload 13 22, .laneretire 13 22, .bblog 13 22 9] := by decide +kernel

/-- A vector word with every field of R251 set. -/
def fullWord : VWord :=
  { c := 1, fn := 5, vd := 11, va := 6, vb := 12, mk := 5, mi := 1, ms := 3, se := 1, wa := 9, wb := 4, wd := 14, wo := 1, gs := 6
    so := 1, imm := 0x5A3C }

/-- Every opcode of R256 over the same fields: 0x805b6cb794eeda3c holds all but the opcode. -/
def vectorRows : List (Nat × (VWord → Instr)) :=
  [(0x00, .vadd), (0x01, .vsub), (0x02, .vrsub), (0x03, .vneg), (0x04, .vabs), (0x05, .vmin), (0x06, .vmax),
   (0x07, .vminu), (0x08, .vmaxu), (0x09, .vmul), (0x0a, .vmulh), (0x0b, .vmac), (0x0c, .vand), (0x0d, .vor),
   (0x0e, .vxor), (0x0f, .vandn), (0x10, .vnot), (0x11, .vsll), (0x12, .vsrl), (0x13, .vsra), (0x14, .vshrr),
   (0x15, .vcmp), (0x16, .vsel), (0x17, .vmov), (0x18, .vmovi), (0x19, .vmovg), (0x1a, .vpopc), (0x1b, .vclz),
   (0x1c, .vabsd), (0x1d, .vavg), (0x1e, .vdotr), (0x1f, .vrand), (0x20, .vsext), (0x21, .vzext), (0x22, .vsatw),
   (0x23, .vpack), (0x24, .vsegd), (0x25, .vcvt), (0x26, .mlog), (0x27, .mset), (0x28, .mpop), (0x29, .mfirst),
   (0x2a, .vany), (0x2b, .vall), (0x2c, .vtrim), (0x2d, .vsetvlb), (0x30, .vfadd), (0x31, .vfsub), (0x32, .vfmul),
   (0x33, .vfma), (0x34, .vfmin), (0x35, .vfmax), (0x36, .vfdiv), (0x37, .vfsqrt), (0x38, .vfrecip),
   (0x39, .vfrsqrt), (0x3a, .vfexp2), (0x3b, .vfcmp), (0x3c, .vfclass), (0x3d, .vfscale), (0x3e, .vfsgn),
   (0x40, .vred), (0x41, .vfred), (0x42, .vscan), (0x43, .vperm), (0x44, .vslideup), (0x45, .vslidedn),
   (0x46, .vbcast), (0x47, .vcompact), (0x48, .vnzscan), (0x49, .vpfxpop), (0x4a, .vramp), (0x4b, .vbar),
   (0x50, .vld), (0x51, .vlds), (0x52, .vldx), (0x53, .vldseg), (0x54, .vldff), (0x55, .vst), (0x56, .vsts),
   (0x57, .vstx), (0x58, .vstseg), (0x59, .vamo), (0x5a, .vamof), (0x5b, .vldt), (0x5c, .vstt), (0x5d, .vwaitn),
   (0x5e, .vpref), (0x60, .vaccrd), (0x61, .vaccwr), (0x62, .vaccz), (0x63, .vmxsc), (0x64, .vixprobe),
   (0x65, .vixhash), (0x66, .vsqmap), (0x67, .vsqpos), (0x70, .vstop), (0x71, .vtfetch), (0x72, .vnop), (0x73, .vtrap)]

theorem test_decode_vectorWords :
    vectorRows.all (fun p => decode64 (BitVec.ofNat 64 (0x805b6cb794eeda3c + p.1 * 2 ^ 56)) == p.2 fullWord) = true := by decide +kernel

/-- FN bit 3 of VAMO names a tile and FN = 1 of VSTOP is VSTOP.R; the reserved opcodes and 0x7F are illegal (R253, R256). -/
theorem test_decode_sharedVectorWords :
    [0x5980000000000000, 0x7010000000000000, 0x2E00000000000000, 0x7F00000000000000].map decode64 =
    [.vamoTile { fullWord with c := 0, fn := 8, vd := 0, va := 0, vb := 0, mk := 0, mi := 0, ms := 0, se := 0, wa := 0, wb := 0, wd := 0, wo := 0, gs := 0, so := 0, imm := 0 },
     .vstopR { fullWord with c := 0, fn := 1, vd := 0, va := 0, vb := 0, mk := 0, mi := 0, ms := 0, se := 0, wa := 0, wb := 0, wd := 0, wo := 0, gs := 0, so := 0, imm := 0 },
     .vectorIllegal 0x2E00000000000000, .vectorIllegal 0x7F00000000000000] := by decide +kernel
/-- Base words, CSR rows, atomics and fences by the RISC-V encodings. -/
theorem test_decode_base :
    [0x00C58533, 0x0085A503, 0x00A13823, 0xFE0588E3, 0x008000EF, 0x00008067, 0x123452B7, 0x02C5C533, 0x800312F3, 0x800023F3,
     0x811313F3, 0x81451073, 0x1005A52F, 0x18C5B52F, 0x06C5A52F, 0x0FF0000F, 0x8330000F, 0x0000100F, 0x00000073, 0x00100073,
     0x30200073, 0x10500073].map decode32 =
    [.baseInstruction (.alu .add 10 11 12), .scalarLoad .lw 10 11 8, .scalarStore .sd 2 10 16,
     .baseInstruction (.branch .eq 11 0 0xFF8), .baseInstruction (.jal 1 4), .baseInstruction (.jalr 0 1 0),
     .baseInstruction (.lui 5 0x12345), .baseInstruction (.alu .div 10 11 12), .csrWriteVl .rw 5 6, .csrAccess .rs 7 0 0x800,
     .csrAccessRng .rw 7 6 0x811, .csrWriteWcnt .rw 0 10, .lr false false false 10 11, .sc true false false 10 11 12,
     .amo .add false true true 10 11 12, .fence 15 15, .fenceTso, .fenceI, .ecall, .ebreak, .mret, .wfi] := by decide +kernel

/-- Compressed words by the RISC-V encodings. -/
theorem test_decode_compressed :
    [0x0001, 0x4505, 0x8082, 0x9002, 0x852E, 0x4188].map decode16 =
    [.baseInstruction (.imm .addi 0 0 0), .baseInstruction (.imm .addi 10 0 1), .baseInstruction (.jalr 0 1 0), .ebreak,
     .baseInstruction (.alu .add 10 0 11), .scalarLoad .lw 10 11 0] := by decide +kernel

/-- Encodings that the spec's worked examples print. -/
theorem test_decode_examples :
    [0x0A01005B, 0x0201805B, 0x007581DB, 0x7775228B, 0x0005900B, 0x1002060B, 0x1606008B, 0x0006830B, 0x0A00000B, 0xFE080CFB,
     0x1CB5065B, 0x3E0807DB, 0x1EE506DB, 0x2A04035B, 0x02B5207B, 0x0601805B, 0x14C502DB].map decode32 =
    [.scfence 2, .bararrive 3, .barinit 3 11 7, .vsetvli 5 10 0x777, .vfetch 11 0, .vget 12 4, .cbcmpLt 1 12 0, .vsetvl 6 13,
     .vqdrain, .bc 16 0xFFC, .sqres 12 10 11, .attn 15 16, .sqcommit 13 10 14, .sqevict 6 8 0, .mmissue 10 11,
     .bararrwait 3, .afmaxS 5 10 12] := by decide +kernel

/-- Vector words that the spec's worked examples print. -/
theorem test_decode_vectorExamples :
    ([(0x8902010024780000, .vmul { w0 with c := 1, vd := 2, vb := 1, wa := 2, wb := 4, wd := 7, wo := 1 }),
      (0x0003320077780000, .vadd { w0 with vd := 3, va := 3, vb := 2, wa := 7, wb := 7, wd := 7, wo := 1 }),
      (0x8012010533380000, .vadd { w0 with c := 1, fn := 1, vd := 2, vb := 1, ms := 2, se := 1, wa := 3, wb := 3, wd := 3, wo := 1 }),
      (0x2A00200000000001, .vany { w0 with va := 2, imm := 1 }),
      (0x4804260030080000, .vnzscan { w0 with vd := 4, va := 2, vb := 6, wa := 3, wo := 1 }),
      (0x6004000000038000, .vaccrd { w0 with vd := 4, gs := 3, so := 1 }),
      (0x6604200000038000, .vsqmap { w0 with vd := 4, va := 2, gs := 3, so := 1 }),
      (0x6706800000038000, .vsqpos { w0 with vd := 6, va := 8, gs := 3, so := 1 }),
      (0x6404000B00028000, .vixprobe { w0 with vd := 4, ms := 5, se := 1, gs := 2, so := 1 })] :
      List (BitVec 64 × Instr)).all (fun p => decode64 p.1 == p.2) = true := by decide +kernel

/-! Witnesses: small states, one per shape of hypothesis. -/

/-- A module that serves, with nothing in it. -/
def on : State := { State.reset with camp := { power := true, ready := true } }
/-- A thread of gang 1 with some registers set. -/
def thr (md : Mode) (l : List (Reg × Word)) : Thread :=
  l.foldl (fun t p => { t with x := t.x.set p.1.toNat p.2 p.1.isLt })
    { live := true, mode := md, gang := 1, pc := 4096, npc := 4100, vlc := 64 }
/-- Thread 0 in M mode, where addresses are physical. -/
def sm (l : List (Reg × Word)) : State := { on with threads := [(0, thr .m l)] }
/-- Thread 0 in U mode. -/
def su (l : List (Reg × Word)) : State := { on with threads := [(0, thr .u l)] }
/-- The Cupola thread of cluster 0. -/
def scu (md : Mode) (l : List (Reg × Word)) : State := { on with threads := [(128, thr md l)], cur := 128 }

/-- A place in memory, decided. -/
theorem goes_of {s : State} {need : Need} {cs : Causes} {va : Word} {n : Nat} {r w : Bool} {pa : Nat}
    (h : (match s.place need cs va n r w with | .mem x => x == pa | _ => false) = true) : goesTo s need cs va n r w pa := by
  unfold goesTo
  split at h
  · rename_i e; rw [e]; simpa using h
  all_goals exact absurd h (by decide)

/-- A result, decided. -/
theorem ok_of {α : Type} [BEq α] [LawfulBEq α] {ε : Type} {x : Except ε α} {a : α}
    (h : (match x with | .ok y => y == a | .error _ => false) = true) : x = .ok a := by
  split at h
  · rw [eq_of_beq h]
  · exact absurd h (by decide)

/-- A record that can be read and of which a test holds, decided. -/
theorem reads_of {s : State} {va : Word} {n : Nat} (p : Nat → State → Bool)
    (h : (match s.getRecord va n n with | .ok r t => p r t | _ => false) = true) :
    ∃ r t, reads s va n r t ∧ p r t = true := by
  unfold reads
  split at h
  · exact ⟨_, _, ‹_›, h⟩
  all_goals exact absurd h (by decide)

/-- A thread that does not wait is in no wait that a store can end. -/
theorem notWoken_of {s : State} (h : s.me.wait = .none) : NotWoken s := by
  intro a b c d e; rw [h] at e; cases e

theorem witness_BaseResultsAreWritten :
    baseWrites (sm [(2, 7)]) (.imm .addi 1 2 5) = some (1, 12) ∧ baseWrites (sm [(2, 7)]) (.imm .addi 0 2 5) = some (0, 12) := by
  decide +kernel

theorem witness_JumpsAndBranchesMoveThePc :
    baseJumps (sm []) (.jal 1 8) = some (4112, 1, 4100) ∧ baseJumps (sm []) (.jalr 0 1 0) = some (0, 0, 4100) ∧
    baseJumps (sm []) (.branch .eq 0 0 8) = some (4112, 0, 0) ∧ baseJumps (sm []) (.branch .ne 0 0 8) = some (4100, 0, 0) := by
  decide +kernel

theorem witness_LoadsReadWhatTheThreadSees :
    goesTo (sm [(2, 4104)]) .read loadCauses ((sm [(2, 4104)]).rd 2 + (-8#12).signExtend 64) (loadBytes .ld) true false 4096 :=
  goes_of (by decide +kernel)

theorem witness_StoresEnterTheStoreBuffer :
    goesTo (sm [(2, 4096)]) .write storeCauses ((sm [(2, 4096)]).rd 2 + (1#12).signExtend 64) (storeBytes .sb) false false
      4097 := goes_of (by decide +kernel)

theorem witness_LoadReservedAndStoreConditional : let s := sm [(2, 4096)]
    goesTo s .read loadCauses (s.rd 2) (atomBytes true) true false 4096 ∧
    goesTo s .write storeCauses (s.rd 2) (atomBytes true) false true 4096 ∧ s.rlWaits true = false ∧
    s.atomicWaits s.cur 4096 (atomBytes true) = false ∧ plainLine s 4096 :=
  ⟨goes_of (by decide +kernel), goes_of (by decide +kernel), by decide +kernel, by decide +kernel, by
    unfold plainLine plainBut; decide +kernel⟩

/-- SC with a reservation held, the other side of its clause. -/
theorem witness_StoreConditionalWithReservation :
    let s := (sm [(2, 4096)]).updMe fun t => { t with resv := some ⟨64, 4096, 8⟩ }
    goesTo s .write storeCauses (s.rd 2) 8 false true 4096 ∧ ∃ r, s.me.resv = some r ∧ r.addr = 4096 ∧ r.size = 8 :=
  ⟨goes_of (by decide +kernel), ⟨64, 4096, 8⟩, by decide +kernel⟩

theorem witness_AtomicsReadAndWriteAtTheHome :
    atomicGoes (sm [(2, 4096)]) true ((sm [(2, 4096)]).rd 2) (atomBytes true) 4096 ∧
    atomicGoes (sm [(2, 4096)]) false ((sm [(2, 4096)]).rd 2) 4 4096 ∧ fpAtomOf (.afminS 1 2 3) = some (.fmin, 1, 2, 3) :=
  ⟨⟨goes_of (by decide +kernel), by unfold plainLine plainBut; decide +kernel⟩,
    ⟨goes_of (by decide +kernel), by unfold plainLine plainBut; decide +kernel⟩, rfl⟩

theorem witness_FencesAdvanceWhenQuiet :
    fenceReady (sm []) (.scfence 5) ∧ fenceReady (sm []) (.relfence 0) ∧ fenceReady (sm []) (.acqfence 5) ∧ fenceNow 1 2 ∧
    fenceNow 3 12 ∧ fenceLater 1 1 ∧ fenceLater 15 1 ∧ (sm []).quiet (sm []).cur 5 = true ∧ (sm []).me.sb = [] := by
  unfold fenceReady fenceLater fenceNow; decide +kernel

theorem witness_CsrAccessReadsAndWrites :
    csrOf (.csrAccess .rw 1 2 0x803) = some (.rw, 1, 2, 0x803) ∧ csrLegal (su []) 0x803 true 4 ∧
    csrOf (.csrAccess .rs 1 0 0xC00) = some (.rs, 1, 0, 0xC00) ∧ csrLegal (sm []) 0xC00 false 0 ∧
    csrFree (su []) (.csrWriteWcnt .rw 1 2) ∧ csrFree (su []) (.csrAccessRng .rw 1 2 0x812) ∧ (su []).onCupola = false := by
  unfold csrLegal csrFree; decide +kernel

theorem witness_CsrAccessTraps : (su []).me.mode = .u ∧
    (su []).csrValue 0x123 = none ∧ (csrWrites .rw 0 = true ∧ 0xC80 / 1024 = 3) ∧ 0x305 / 256 % 4 ≠ 0 ∧
    csrFree (su []) (.csrAccess .rw 1 0 0x305) := by unfold csrFree; decide +kernel

theorem witness_CsrWritesOfVectorSettings :
    csrSpecial (.csrWriteVl .rw 1 2) = some (.rw, 1, 2, 0x800) ∧ (su []).csrValue 0x800 = some 0 ∧
    (su []).csrValue 0x801 = some 0x777 ∧ csrSpecial (.csrWriteVctx .rsi 1 3) = some (.rsi, 1, 3, 0x802) ∧
    (su []).csrValue 0x802 = some 0 ∧ (su []).ctxWaits = false ∧ (scu .u []).onCupola = true := by decide +kernel

theorem witness_SettingsAreSet : let s := su [(2, 1000)]
    (setsTo s (.vslip 1 2)).map (·.1) = some 1 ∧ (setsTo s (.vslip 1 2)).map (·.2.1) = some 15 ∧ setFree s (.vslip 1 2) ∧
    setFree s (.vsetvl 1 2) ∧ setFree s (.vsetvli 1 2 0) ∧ setFree s (.vctx 1 2) ∧ setFree s (.vlive 1 2 3) := by
  unfold setFree; decide +kernel

theorem witness_BlocksAreQueuedAndDrained : let s := su [(2, 0x10000)]
    s.onCupola = false ∧ (s.rd 2 + (8#12).signExtend 64).toNat % 8 = 0 ∧ s.me.csr.vctx.getLsbD 9 = false ∧
    s.queueFull = false ∧ s.me.svMark = 0 ∧ (s.rd 2 + (4#12).signExtend 64).toNat % 8 ≠ 0 ∧ s.me.mode = .u ∧
    drainReady s (.vdrain 7 5) ∧ drainReady s .vqdrain := by unfold drainReady; decide +kernel

theorem witness_VgetReadsElementZero :
    vgetOf (.vget 1 15) = some (1, 15, false) ∧ vgetOf (.vgetP 1 14) = some (1, 14, true) ∧ (14#4).getLsbD 0 = false ∧
    (su []).onCupola = false ∧ (su []).me.vq = [] ∧
    ((su []).updMe fun t => { t with csr := { t.csr with vctx := 0x200 } }).me.csr.vctx.getLsbD 9 = true := by decide +kernel

theorem witness_ConditionBitsAreWritten :
    condWrites (su [(2, 1)]) (.cbcmpLt 15 0 2) = some (15, true) ∧ condWrites (su []) (.cbcmpEq 16 0 0) = some (16, true) ∧
    condWrites (su []) (.cblogAnd 28 1 2) = some (28, false) ∧ condFree (su []) (.cblogAnd 28 1 2) ∧
    condFree (su []) (.cbcmpEq 16 0 0) ∧ (su []).me.mode = .u ∧ (su []).me.vq = [] ∧ (su []).me.held = [] := by
  unfold condFree; decide +kernel

theorem witness_ConditionBranches : (su []).condWaits 16 = false := by decide +kernel

/-- A record of gang 1 that runs on thread 0. -/
def rec1 : Rec := { bits := 0, q := 0, prio := 0, st := .run, taken := 0, seats := [⟨0, 0, 0⟩] }
/-- The same thread with its record. -/
def withRec (s : State) : State := { s with belfry := { s.belfry with recs := [(1, some rec1)] } }

theorem witness_ExceptionsInMachineModeEndTheGang :
    raises .ecall = some (8, 0, 11) ∧ (withRec (sm [])).me.mode = .m ∧ (withRec (sm [])).rec? (withRec (sm [])).me.gang = some rec1 ∧
    (withRec (sm [])).cur ∈ rec1.seats.map Seat.tid := by decide +kernel

theorem witness_ExceptionsAreTaken :
    raises (.illegalInstruction 0xFFFFFFFF) = some (2, 0xFFFFFFFF, 2) ∧ (su []).me.mode = .u ∧ machineOnlyInstr .mret ∧
    notOnCupolaInstr .vqdrain ∧ (scu .u []).onCupola = true ∧ (scu .u []).me.mode = .u :=
  ⟨rfl, by decide +kernel, trivial, trivial, by decide +kernel, by decide +kernel⟩

theorem witness_MretReturns : (sm []).me.mode = .m ∧ (sm []).me.retransWaits (sm []) (sm []).cur ((sm []).unpinned (sm []).cur) = false := by
  decide +kernel

/-- A trap for the tests. -/
def tr1 : Trap := { cause := 51, tval := 64, info := 7, due := true }

theorem witness_TrapTakeTakesTheNextTrap :
    let s1 := (su []).updMe fun t => { t with convTrap := some tr1 }
    let s2 := (su []).updMe fun t => { t with laneTraps := [tr1], vq := [blockAt (su []) 0x10000] }
    let s3 := (su []).updMe fun t => { t with engTraps := [tr1] }
    (s1.thread s1.ev.tid).live = true ∧ (s1.thread s1.ev.tid).mode = .u ∧ (s1.thread s1.ev.tid).wait = .none ∧
    (s1.thread s1.ev.tid).convTrap = some tr1 ∧ (s2.thread s2.ev.tid).convTrap = none ∧
    (s2.thread s2.ev.tid).laneTraps = [tr1] ∧ (s2.thread s2.ev.tid).vq ≠ [] ∧ tr1.info.getLsbD 63 = false ∧
    (s3.thread s3.ev.tid).convTrap = none ∧ (s3.thread s3.ev.tid).laneTraps = [] ∧
    (s3.thread s3.ev.tid).engTraps = [tr1] ∧ tr1.due = true := by decide +kernel

theorem witness_SystemInstructions :
    sysReady ((sm []).updMe fun t => { t with prq := true }) .wfi ∧ sysReady (sm []) (.bblog 1 2 3) ∧
    sysReady (sm []) (.rngseed 1 2) ∧ sysReady (sm []) (.rngnext 1) ∧ drawsState (.rngnext 1) ∧
    ((su []).updMe fun t => { t with vq := [blockAt (su []) 0x10000] }).me.vq ≠ [] := by
  unfold sysReady drawsState; decide +kernel

theorem witness_HalttEndsTheThread : let s := withRec (su [])
    let c := (su []).updMe fun t => { t with convTrap := some tr1 }
    let e := (su []).updMe fun t => { t with engTraps := [tr1] }
    s.me.convTrap = none ∧ s.me.laneTraps = [] ∧ s.me.engTraps = [] ∧ s.haltWaits = false ∧ s.rec? s.me.gang = some rec1 ∧
    Unended rec1 ∧ c.me.mode = .u ∧ c.me.convTrap = some tr1 ∧ e.me.convTrap = none ∧ e.me.laneTraps = [] ∧
    e.me.engTraps.head? = some tr1 :=
  have u : Unended rec1 := ⟨fun _ _ h => (nomatch h), by decide⟩
  ⟨by decide +kernel, by decide +kernel, by decide +kernel, by decide +kernel, by decide +kernel, u, by decide +kernel⟩

theorem witness_LaunchAppendsTheRecord :
    let s := { sm [(2, 4096)] with queues := [(64, { lgsize := 1, st := .on })] }
    let f := { sm [(2, 4096)] with queues := [(64, { lgsize := 1, st := .on, tail := BitVec.ofNat 32 (s.queue 64).slots })] }
    let b := { su [(2, 4096)] with queues := [(64, { lgsize := 1, st := .on, base := 2 ^ 32 })], dead := [0] }
    s.ovtHolds s.cur = false ∧ s.quiet s.cur 5 = true ∧ NotWoken s ∧ (∃ bits s1, reads s (s.rd 2) 128 bits s1) ∧
    s.appendWaits 64 = false ∧ b.appendWaits 64 = false ∧ b.slotBad ((b.queue 64).slot (b.queue 64).tail) = true ∧
    b.me.mode = .u ∧ ((b.queue 64).tail - (b.queue 64).head).toNat ≠ (b.queue 64).slots ∧
    s.slotBad ((s.queue 64).slot (s.queue 64).tail) = false ∧ plainLine s ((s.queue 64).slot (s.queue 64).tail) ∧
    plainLine s ((s.queue 64).slot (s.queue 64).tail + 64) ∧ (s.queue 64).st = .on ∧
    ((s.queue 64).tail - (s.queue 64).head).toNat ≠ (s.queue 64).slots ∧ (s.queue 95).st ≠ .on ∧
    (f.queue 64).st = .on ∧ ((f.queue 64).tail - (f.queue 64).head).toNat = (f.queue 64).slots := by
  unfold plainLine plainBut
  refine ⟨by decide +kernel, by decide +kernel, notWoken_of (by decide +kernel), ?_, by decide +kernel⟩
  obtain ⟨r, t, h, -⟩ := reads_of (s := { sm [(2, 4096)] with queues := [(64, { lgsize := 1, st := .on })] })
    (va := 4096) (n := 128) (fun _ _ => true) (by decide +kernel)
  exact ⟨r, t, h⟩

theorem witness_LaneretireMarksTheLane :
    let c : Core := { retired := [(3, [5])] }
    2079 ∉ Tab.get [] c.retired 63 ∧ 5 ∈ Tab.get [] c.retired 3 ∧ (sm []).me.mode = .m := by decide +kernel

/-! States with records in memory: bits given as (place, value). -/

/-- A record from its fields: (place, value). -/
def fields (l : List (Nat × Nat)) : Nat := l.foldl (fun n p => n + p.2 * 2 ^ p.1) 0
/-- A core whose banks all belong to gang 1. -/
def core1 : Core := { bankOf := (List.range 64).map fun b => (b, some 1) }

/-- A thread with bank 0, a core, and memory: a page table at 0 that maps the first GiB to itself, and the cells given. -/
def st (md : Mode) (l : List (Reg × Word)) (cells : List Host.Cell) : State :=
  { on with threads := [(0, thr md l)], cores := [(0, core1)], mem := (0, 31) :: cells }

theorem witness_CtxsaveAndCtxload :
    let s := st .m [(2, 0x20000)] []
    let v : Saved := { base := 0x20000, lgn := 0 }
    let t := { s with saves := [(0x40001, some v)] }
    let u := { s with saves := [(0x40001, some { v with lgn := 3 })] }
    let w : Saved := { v with rows := [(5, 7)], banks := [0] }
    let x := { st .m [(2, 0x20000)] [(w.rowAt 5, 7)] with saves := [(0x40001, some w)] }
    Tab.get none x.saves (2 * (x.rd 2).toNat + 1) = some w ∧ w.lgn = ctxLgn x.me.csr.vctx ∧ x.imageStands w = true ∧
    (w.rows.map (·.1)).Nodup ∧ (∀ p ∈ w.rows, w.banks.headD 0 ≤ p.1 / 512) ∧
    (∀ p ∈ w.rows, Memory.readList x.mem (w.rowAt p.1) 256 = rowBytes p.2) ∧
    s.regionWaits (dieOf s.cur) (s.rd 2).toNat = false ∧ NotWoken s ∧ s.me.mode = .m ∧ s.regionErr false (s.rd 2) = none ∧ s.regionErr true (s.rd 2) = none ∧
    s.me.midConvoy = false ∧ s.me.vq = [] ∧ s.me.held = [] ∧
    s.me.csr.vctx.getLsbD 9 = false ∧ Tab.get none t.saves (2 * (t.rd 2).toNat + 1) = some v ∧ v.lgn = ctxLgn t.me.csr.vctx ∧
    t.imageStands v = true ∧ v.rows = [] ∧ v.thread.retransWaits t t.cur (fun _ => true) = false ∧
    Tab.get none u.saves (2 * (u.rd 2).toNat + 1) = some { v with lgn := 3 } ∧ 3 ≠ ctxLgn u.me.csr.vctx :=
  ⟨by decide +kernel, by decide +kernel, by decide +kernel, by decide +kernel, by decide +kernel, by decide +kernel,
    by decide +kernel, notWoken_of (by decide +kernel), by decide +kernel⟩

/-- A shape record: 4 rows of 16 signed bytes at 0x20000, read-only or not, in the format given. -/
def shapeRec (ro fmt : Nat) : Nat := fields [(0, fmt), (4, if fmt = 0 then 7 else 0), (11, ro), (16, 4), (32, 16), (64, 0x20000), (128, 16)]

/-- TCFG reads its record and every check passes; a reserved format fails check 1. -/
theorem witness_TcfgBindsATile :
    let s := st .u [(2, 0x1000), (3, 0)] [(0x1000, 0x70), (0x1002, 4), (0x1004, 0x10), (0x100a, 2), (0x1010, 0x10)]
    let b := st .u [(2, 0x1000), (3, 0)] [(0x1000, 0xf), (0x1002, 4), (0x1004, 0x10), (0x100a, 2), (0x1010, 0x10)]
    s.ovtHolds s.cur = false ∧ s.me.handle 31 = none ∧
    (∃ r t, reads s (s.rd 2) 64 r t ∧ (shapeCheck (Shape.of r) r 0 (s.groupHeld 0 0) == none &&
      decide ((Shape.of r).nrows (s.myCore.groupLanes 0 0) ≤ 240) &&
      s.myCore.findTile 0 0 ((Shape.of r).nrows (s.myCore.groupLanes 0 0)) == some (0, 272)) = true) ∧
    (∃ r t, reads b (b.rd 2) 64 r t ∧ (shapeCheck (Shape.of r) r 0 (b.groupHeld 0 0) == some 1) = true) ∧ b.me.mode = .u ∧
    (b.updMe fun t => t.bind 31 (some 63)).me.handle 31 = some 63 :=
  ⟨by decide +kernel, by decide +kernel, reads_of (fun r _ => _) (by decide +kernel), reads_of (fun r _ => _) (by decide +kernel),
    by decide +kernel, by decide +kernel⟩

/-- A tile of 256 rows fits no entry; one of 8 finds no rows where another tile has all. -/
theorem witness_TcfgBindsATile_room :
    let big := st .u [(2, 0x1000), (3, 0)] [(0x1000, 0x70), (0x1003, 0x10), (0x1004, 0x10), (0x100a, 2), (0x1010, 0x10)]
    let s := st .u [(2, 0x1000), (3, 0)] [(0x1000, 0x70), (0x1002, 4), (0x1004, 0x10), (0x100a, 2), (0x1010, 0x10)]
    let full := s.updMyCore fun c => c.setTile 9
      (some { st := .ready, flt := false, stream := none, owner := 1, frow := 272, nrows := 240, fbank := 0
              shape := Shape.of (shapeRec 0 0), usable := 2048 })
    (∃ r t, reads big (big.rd 2) 64 r t ∧ (shapeCheck (Shape.of r) r 0 (big.groupHeld 0 0) == none &&
      decide (240 < (Shape.of r).nrows (big.myCore.groupLanes 0 0))) = true) ∧
    (∃ r t, reads full (full.rd 2) 64 r t ∧ (shapeCheck (Shape.of r) r 0 (full.groupHeld 0 0) == none &&
      decide ((Shape.of r).nrows (full.myCore.groupLanes 0 0) ≤ 240) &&
      full.myCore.findTile 0 0 ((Shape.of r).nrows (full.myCore.groupLanes 0 0)) == none) = true) ∧
    big.me.mode = .u ∧ full.me.mode = .u ∧ full.me.handle 31 = none ∧ full.ovtHolds full.cur = false :=
  ⟨reads_of (fun r _ => _) (by decide +kernel), reads_of (fun r _ => _) (by decide +kernel), by decide +kernel⟩

/-- A tile of that shape in a state. -/
def tile (state : TileSt) (ro : Nat) : Tile :=
  { st := state, flt := false, stream := none, owner := 0, frow := 272, nrows := 8, fbank := 0, shape := Shape.of (shapeRec ro 0)
    usable := 2048 }
/-- Handle 3 names tile entry 0, handle 4 entry 1. -/
def tiled (md : Mode) (x y : Tile) : State :=
  { st md [(2, 0)] [] with
    threads := [(0, { thr md [(2, 0)] with handles := [(3, 1), (4, 2)] })]
    cores := [(0, { core1 with tiles := [(0, some x), (1, some y)] })] }

theorem witness_TileStateTraps : let s := tiled .u (tile .empty 0) (tile .ready 1)
    s.me.mode = .u ∧ s.me.handle 5 = none ∧ s.me.handle 3 = some 0 ∧ s.myCore.tile? 0 = some (tile .empty 0) ∧
    (tile .empty 0).st = .empty ∧ s.me.handle 4 = some 1 ∧ s.myCore.tile? 1 = some (tile .ready 1) ∧
    (tile .ready 1).st = .ready ∧ (tile .ready 1).shape.ro = true := by decide +kernel

theorem witness_TileInstructionsActOnTheirEntry : let s := tiled .u (tile .ready 0) (tile .empty 0)
    Holds s 3 0 (tile .ready 0) ∧ Holds s 4 1 (tile .empty 0) ∧ (tile .ready 0).shape.ro = false ∧ engineFree s 0 ∧
    engineFree s 1 ∧ engineFree s 2 ∧ s.linesPending s.cur (drainLines s (tile .ready 0) (s.rd 2)) = false ∧
    (tile .empty 0).shape = (tile .ready 0).shape ∧ (tile .empty 0).nrows = (tile .ready 0).nrows ∧
    (tile .empty 0).usable = (tile .ready 0).usable ∧ s.me.handle 31 = none := by
  unfold Holds engineFree; decide +kernel

/-- The stream record at 0x2000 names the shape at 0x1000, steps of 64, two windows and two slots. -/
theorem witness_StrcfgConfiguresAStream :
    let s := st .u [(2, 0x2000)] [(0x1000, 0x70), (0x1001, 8), (0x1002, 4), (0x1004, 0x10), (0x100a, 2), (0x1010,
      0x10), (0x2001, 0x10), (0x2008, 0x40), (0x2018, 2), (0x201c, 1)]
    let sh := Shape.of (shapeRec 1 0)
    (s.myCore.stream 7).st = .uncfg ∧ s.ovtHolds s.cur = false ∧
    (∃ r t, reads s (s.rd 2) 64 r t ∧ (!streamReserved r && bitsOf r 226 224 == 1 &&
      (match t.getRecord (va48 (bitsOf r 47 0)) 64 64 with | .ok sr _ => sr == shapeRec 1 0 | _ => false)) = true) ∧
    shapeCheck sh (shapeRec 1 0) 0 (s.groupHeld 0 0) = none ∧ sh.ro = true ∧ sh.nrows (s.myCore.groupLanes 0 0) ≤ 240 ∧
    (Core.newSlots sh 0 0 7 2 s.myCore).isSome = true ∧
    ((s.updMyCore fun c => c.setStream 0 { st := .fault }).myCore.stream 0).st ≠ .uncfg :=
  ⟨by decide +kernel, by decide +kernel, reads_of (fun r t => _) (by decide +kernel), by decide +kernel, by decide +kernel,
    by decide +kernel, by decide +kernel, by decide +kernel⟩

/-- Stream 7 of the thread with two slots. -/
def streamed (x : Stream) : State :=
  let s := tiled .u { tile .ready 1 with stream := some 7 } { tile .empty 1 with stream := some 7 }
  s.updMyCore fun c => c.setStream 7 x

theorem witness_StreamsStartStopAndBind :
    let idle : Stream := { st := .idle, slots := [0, 1], nsm := 1 }
    let run : Stream := { idle with st := .run, filled := 1 }
    let ended : Stream := { run with nwin := 1, dlv := 1 }
    let s := streamed run
    ((streamed idle).myCore.stream 7).st = .idle ∧ idle.owner = thrOf s.cur ∧ (streamed idle).engineWaits = false ∧
    (∀ i ∈ idle.slots, ((streamed idle).myCore.tile? i).all (fun d => d.rdrs = 0 ∧ d.st ≠ .filling ∧ d.st ≠ .draining)) ∧
    s.myCore.stream 7 = run ∧ s.me.handle 5 = none ∧ (run.nwin = 0 ∧ run.dlv < run.filled) ∧
    ((s.myCore.tile? (run.slots.getD (run.dlv % (run.nsm + 1)) 0)).map Tile.st) = some .ready ∧
    (streamed ended).myCore.stream 7 = ended ∧ ended.nwin ≠ 0 ∧ ended.nwin ≤ ended.dlv ∧
    let bad : Stream := { run with st := .fault, dlv := 1 }
    let f := streamed bad
    f.myCore.stream 7 = bad ∧ bad.owner = thrOf f.cur ∧ f.me.handle 5 = none ∧ bad.nwin = 0 ∧ f.me.mode = .u ∧
    (f.myCore.tile? (bad.slots.getD (bad.dlv % (bad.nsm + 1)) 0)).map Tile.st = some .empty := by decide +kernel

theorem witness_EngineCommandsIssue :
    let s := st .u [(1, 64), (2, 0x20000), (3, 0x30000), (4, 2 ^ 36), (5, 0x3000), (6, 0x3020), (7, 0x3040), (8, 3 * 2 ^ 34)]
      [(0x300a, 2), (0x3010, 0x40), (0x3020, 9), (0x3040, 0x77), (0x3088, 1), (0x308a, 2), (0x3090, 0x40)]
    let u := { tiled .u (tile .ready 0) (tile .empty 0) with mem := s.mem }
    bitsOf (s.rd 4).toNat 63 36 ≠ 0 ∧ bitOf (s.rd 8).toNat 34 = true ∧ bitOf (s.rd 8).toNat 35 = true ∧
    bitsOf (s.rd 1).toNat 63 34 = 0 ∧ engineFree s 2 ∧ bitsOf (s.rd 1).toNat 31 0 ≠ 0 ∧
    s.linesPending s.cur (s.engLines s.whoMe (s.rd 2) 64) = false ∧
    s.pagesWait s.whoMe .read (s.rd 3) 64 = false ∧ s.pagesWait s.whoMe .write (s.rd 2) 64 = false ∧
    bitsOf (s.rd 0).toNat 31 0 = 0 ∧ s.me.copies = [] ∧
    (∃ r t, reads s (s.rd 5) 32 r t ∧ (xfOk (BitVec.ofNat 256 r) && !xfTgt (BitVec.ofNat 256 r) && (xfAddr (BitVec.ofNat 256 r)).toNat % 64 == 0 &&
      !t.linesPending s.cur (t.xfLines (BitVec.ofNat 256 r))) = true) ∧
    (∃ r t, reads s (s.rd 6) 32 r t ∧ (!xfOk (BitVec.ofNat 256 r)) = true) ∧
    (∃ r t, reads s (s.rd 7 + 0x40) 32 r t ∧ (xfOk (BitVec.ofNat 256 r) && !xfTgt (BitVec.ofNat 256 r) &&
      (xfAddr (BitVec.ofNat 256 r)).toNat % 64 != 0) = true) ∧
    (∃ r t, reads u 0x3040 32 r t ∧ (xfOk (BitVec.ofNat 256 r) && xfTgt (BitVec.ofNat 256 r) && bitsOf r 9 5 == 3) = true) ∧
    engineFree u 2 ∧ Holds u 3 0 (tile .ready 0) := by
  unfold engineFree Holds
  refine ⟨by decide +kernel, by decide +kernel, by decide +kernel, by decide +kernel, by decide +kernel, by decide +kernel, ?_⟩
  refine ⟨?_, ?_, ?_, ?_, ?_, reads_of (fun r t => _) ?_, reads_of (fun r _ => _) ?_, reads_of (fun r _ => _) ?_,
    reads_of (fun r _ => _) ?_, ?_⟩ <;> decide +kernel

theorem witness_BatchesCloseAndWait :
    let s := su []
    let w := s.updMe fun t => { t with engTraps := [tr1] }
    s.me.mode = .u ∧ (∀ c : Fin 4, s.me.closeFull c = false) ∧ waitFree s 0 7 6 0 ∧ s.me.engTraps = [] ∧ waitFree w 0 0 0 0 ∧
    w.me.engTraps = [tr1] := by unfold waitFree; decide +kernel

theorem witness_LineOperationsActOnTheirLines :
    lineOf? (.lineClean 1 2) = some (1, 2, true) ∧ lineOf? (.lineInval 1 2) = some (1, 2, false) ∧
    let s := st .u [(1, 2), (2, 0x2000)] []
    s.lineCount 1 = 2 ∧ s.lineCount 0 = 1 ∧ linesGo s .read (s.rd 2 &&& ~~~(63 : Word)) 2 (fun i => 0x80 + i) ∧
    linesGo s .write (s.rd 2 &&& ~~~(63 : Word)) 1 (fun i => 0x80 + i) ∧ plainLine s 0x2000 := by
  refine ⟨rfl, rfl, by decide +kernel, by decide +kernel, ⟨by decide +kernel, by decide +kernel, by decide +kernel, ?_⟩,
    ⟨by decide +kernel, by decide +kernel, by decide +kernel, ?_⟩, by unfold plainLine plainBut; decide +kernel⟩
  · intro i hi
    obtain rfl | rfl : i = 0 ∨ i = 1 := by omega
    · exact ⟨0x2000, ok_of (by decide +kernel), by decide +kernel, by decide +kernel, by decide +kernel⟩
    · exact ⟨0x2040, ok_of (by decide +kernel), by decide +kernel, by decide +kernel, by decide +kernel⟩
  · intro i hi
    obtain rfl : i = 0 := by omega
    exact ⟨0x2000, ok_of (by decide +kernel), by decide +kernel, by decide +kernel, by decide +kernel⟩

theorem witness_WatermarksAndPublishing :
    let s := st .u [(1, 0x2000), (2, 3), (3, 2 ^ 63 + 9), (4, 0x3001), (5, 4)] [(0x2000, 3), (0x3000, 7)]
    let r := { s with port := { s.port with conns := [(7, { st := .opened })] }, ir := 5 * 128 }
    (goesTo s .read loadCauses (s.rd 1) 8 true false 0x2000 ∧ goesTo s .read loadCauses (s.rd 1) 8 false false 0x2000 ∧
      goesTo s .write storeCauses (s.rd 1) 8 true true 0x2000) ∧
    ((s.rd 2).getLsbD 63 = false ∧ (boundOf (s.rd 2)).toNat ≤ leNat (s.bytesOf s.cur 0x2000 8) ∧
      leNat (s.bytesOf s.cur 0x2000 8) < (boundOf (s.rd 5)).toNat ∧ s.monitorsUsed (coreOf s.cur) < 256) ∧
    (s.rd 3).getLsbD 63 = true ∧ scopeOf? (.wmpub 6 1 2) = some 6 ∧ s.me.mode = .u ∧
    (s.released 5 = true ∧ s.atomicWaits s.cur 0x2000 8 = false ∧ plainLine s 0x2000) ∧
    (s.rd 4).getLsbD 0 = true ∧ s.ir.extractLsb' 7 5 ≠ 5 ∧ r.ir.extractLsb' 7 5 = 5 ∧ r.released 5 = true ∧ engineFree r 2 ∧
    (∃ v t, reads r (r.rd 4 - 1) 16 v t ∧ ((Peer.of v).map Peer.conn == some 7) = true) ∧ (r.conn 7).st = .opened ∧
    ({ r with port := s.port }.conn 7).st ≠ .opened := by
  unfold plainLine plainBut engineFree
  refine ⟨⟨goes_of ?_, goes_of ?_, goes_of ?_⟩, ?_, ?_, rfl, ?_, ?_, ?_, ?_, ?_, ?_, ?_, reads_of (fun v _ => _) ?_, ?_, ?_⟩ <;>
    decide +kernel

/-! Barriers, sequences, index tables. -/

/-- A bound barrier in line 0x80 and a handle of it. -/
def bar1 : Bar := { target := 3, scope := 2, arr := 0, phase := 1, id := 5, home := 0 }
def barH : BarHandle := ⟨0x80, 5, 0, false, 0x2000⟩
/-- Handle 15 names a barrier; it is bound or gone. -/
def barred (bound : Bool) : State :=
  let s := st .u [(1, 0x2000), (2, 3 + 2 * 2 ^ 16)] []
  { s.updMe fun t => { t with bars := [(15, barH)] } with bars := if bound then [(0x80, some bar1)] else [] }

/-- The place of an operand, decided. -/
theorem place_of {s : State} {need : Need} {cs : Causes} {va : Word} {n : Nat} {r w : Bool} {pa : Nat}
    (h : (match s.place need cs va n r w with | .mem x => x == pa | _ => false) = true) :
    s.place need cs va n r w = .mem pa := goes_of h

theorem witness_BarriersAreBoundAndUnbound :
    let s := st .u [(1, 0x2000), (2, 3 + 2 * 2 ^ 16)] []
    let b := barred true
    s.place .write storeCauses (s.rd 1) 1 false true = .mem 0x2000 ∧ barParamsBad (s.rd 1) (s.rd 2) = false ∧
    s.atomicWaits s.cur (lineOf 0x2000 * 64) 64 = false ∧ s.bar? (lineOf 0x2000) = none ∧
    (s.bars.filter fun p => barUnit p.1 == barUnit (lineOf 0x2000)).length < 1024 ∧ plainLine s (lineOf 0x2000 * 64) ∧
    b.bar? (lineOf 0x2000) = some bar1 ∧ (b.rd 2).getLsbD 19 = false ∧ bar1.target = Fld (b.rd 2) 15 0 ∧
    bar1.scope = Fld (b.rd 2) 18 16 ∧ inDomain bar1.scope bar1.home b.cur = true ∧ b.me.bar? 15 = some barH ∧
    b.barOf barH = some bar1 ∧ b.homeErr (dieOf b.cur) false (barH.line * 64) = none ∧ b.pathHolds (dieOf b.cur) (barH.line * 64) = false ∧
    b.writeWaits barH.line b.cur = false ∧ b.atomicWaits b.cur (barH.line * 64) 64 = false ∧ plainBut b (barH.line * 64) ∧
    (∃ pa, b.xlateMe .write barH.va = .ok pa) ∧
    let far := { barred true with threads := [(0, { thr .u [] with bars := [(15, { barH with va := 2 ^ 30 })] })] }
    far.barOf { barH with va := 2 ^ 30 } = some bar1 ∧ far.me.bar? 15 = some { barH with va := 2 ^ 30 } ∧
    (match far.xlateMe .write (2 ^ 30) with | .error .invalid => true | _ => false) = true ∧ far.me.mode = .u := by
  unfold plainLine plainBut
  refine ⟨place_of (by decide +kernel), ?_⟩
  refine ⟨by decide +kernel, by decide +kernel, by decide +kernel, by decide +kernel, by decide +kernel, by decide +kernel,
    by decide +kernel, by decide +kernel, by decide +kernel, by decide +kernel, by decide +kernel, by decide +kernel,
    by decide +kernel, by decide +kernel, by decide +kernel, by decide +kernel, by decide +kernel, ⟨0x2000, ok_of (by decide +kernel)⟩,
    by decide +kernel⟩

/-- An arrival that may perform. -/
def arr1 : Arrival := { handle := 15, line := 0x80, id := 5, scope := 2, held := [], stores := 0, blocks := 0 }

theorem witness_BarriersAreReachedAndPassed :
    let s := barred true
    let a := s.updMe fun t => { t with arrivals := [arr1], arrived := [(t.mode, t.pc)] }
    Bound s 15 barH bar1 ∧ barWaits s (.barwait 15) = some 15 ∧ barWaits a (.bararrwait 15) = some 15 ∧ Bound a 15 barH bar1 ∧
    barH.pending = false ∧ BitVec.slt 0 (bar1.phase - barH.exp) = true ∧ barOp (.barinv 15) = some 15 ∧
    (barred false).me.bar? 15 = some barH ∧ (barred false).barOf barH = none ∧ s.me.bar? 0 = none ∧ s.me.arrived = [] ∧
    s.me.mode = .u ∧ (a.thread a.ev.tid).arrivals[a.ev.idx]? = some arr1 ∧ a.arrivalReady a.ev.tid arr1 = true ∧
    a.bar? arr1.line = some bar1 ∧ bar1.id = arr1.id := by unfold Bound; decide +kernel

/-- A sequence: its descriptor at 0x4000, table at 0x7000, pool at 0x6000 with two frames, 64 slots committed in a sealed frame
at 0xF000 and 5 more reserved in a frame at 0x13000; a template for another at 0x5000 and for a fork at 0x5040. -/
def seqSt (md : Mode) (l : List (Reg × Word)) (head : List Host.Cell) : State :=
  st md ([(1, 0x4000), (2, 0x5000), (3, 0x4100), (4, 0x5040)] ++ l) (head ++
    [(0x5008, 8), (0x5018, 7), (0x5020, 4), (0x5024, 1), (0x5025, 1), (0x5026, 0x80), (0x5027, 1), (0x504c, 0x40),
      (0x5058, 8), (0x6000, 2), (0x6004, 4), (0x6008, 0x17), (0x600c, 0xc), (0x7000, 1), (0x7001, 0xf0), (0x7008, 1), (0x7009,
        0x30), (0x700a, 1), (0xf000, 0xff), (0xf001, 0xff), (0xf002, 0xff), (0xf003, 0xff), (0xf004, 0xff), (0xf005,
          0xff), (0xf006, 0xff), (0xf007, 0xff), (0xf008, 1), (0xf00a, 1), (0xf00c, 7), (0x13000, 0xff), (0x13001,
            0xff), (0x13002, 0xff), (0x13003, 0xff), (0x13004, 0xff), (0x13005, 0xff), (0x13006, 0xff), (0x13007,
              0xff), (0x13008, 1), (0x17001, 0x80), (0x17002, 1), (0x17009, 0xb0), (0x1700a, 1)])
/-- Its descriptor: state, references, RLEN, CLEN and the fixed fields. -/
def seqHead (state refcnt rlen clen : Byte) : List Host.Cell :=
  [(0x4000, rlen), (0x4004, clen), (0x4008, state + 8), (0x400A, refcnt), (0x4018, 7), (0x4020, 4), (0x4024, 1),
    (0x4025, 1),
   (0x4026, 0x80), (0x4027, 1)]

theorem witness_SequencesAreCreatedForkedAndReleased :
    let s := seqSt .u [] [(0x4008, 8)]
    let q := Sq.of (s.homeNum 0x5000 64)
    let u := seqSt .u [] (seqHead 1 2 69 64)
    let v := seqSt .u [] (seqHead 3 1 69 64)
    (unitObject s true (s.rd 1) 0x4000 ∧ sourceAt s (s.rd 2) 64 0x5000 ∧ (s.sq 0x4000).st = 0 ∧
      unitReads s 0x4000 [(0x4000, 80), (0x5000, 64), (q.pool, 16), (q.btbase, 8 * q.btcap)] ∧
      templateBad (s.homeNum 0x5000 64) = false ∧ 64 + 64 * 64 * (q.kbu + q.vbu) ≤ s.poolSize q.pool) ∧
    (unitObject u true (u.rd 1) 0x4000 ∧ unitObject u true (u.rd 3) 0x4100 ∧ sourceAt u (u.rd 4) 64 0x5040 ∧
      (u.sq 0x4000).st = 1 ∧ (u.sq 0x4100).st = 0 ∧ forkBad (u.homeNum 0x5040 64) (u.sq 0x4000).btcap = false ∧
      forkPos u 0x5040 = 64 ∧ (u.sq 0x4000).clen = 64 ∧ (u.sq 0x4000).refcnt = 2 ∧
      unitReads u 0x4000 ((0x4100, 80) :: (0x5040, 64) :: u.seqReads 0x4000 (blocksFrom 0 (ceilDiv 64 64)))) ∧
    (∀ k, k < ceilDiv 64 64 → (u.frame (entFrame (u.entry (u.sq 0x4000) k))).refcnt < 0xFFFF) ∧
    unitReads u 0x4000 [(0x4000, 80)] ∧ unitObject v true (v.rd 1) 0x4000 ∧ (v.sq 0x4000).st = 3 ∧ (v.sq 0x4000).refcnt = 1 ∧
    unitReads v 0x4000 (v.seqReads 0x4000 (blocksFrom 0 (v.sq 0x4000).btcap)) ∧ NotWoken v := by
  unfold unitObject sourceAt unitReads
  refine ⟨⟨⟨place_of ?_, ?_⟩, ⟨place_of ?_, ?_⟩, ?_⟩, ⟨⟨place_of ?_, ?_⟩, ⟨place_of ?_, ?_⟩, ⟨place_of ?_, ?_⟩, ?_⟩, ?_, ?_,
    ⟨place_of ?_, ?_⟩, ?_, ?_, ?_, notWoken_of ?_⟩ <;> decide +kernel

/-- A thread that does not wait has nothing that was sent to a unit. -/
theorem notSent_of {s : State} (h : s.me.wait = .none) : ∀ id, s.me.wait ≠ .sent id := by
  intro id e; rw [h] at e; cases e

theorem notAccepted_of {s : State} (h : s.me.wait = .none) : ∀ id r, s.me.wait ≠ .accepted id r := by
  intro id r e; rw [h] at e; cases e

theorem unheld_of {s : State} {d : Nat} (w : s.me.wait = .none) (h : s.unitBusy d none = false) : unheld s d := ⟨notSent_of w, h⟩

/-- A table's operand, decided. -/
theorem tableAt_of {s : State} {va : Word} {d : Nat} (o : unitObject s true va d) (h : s.drained s.cur = true)
    (w : s.me.wait = .none) (b : s.unitBusy d none = false) : tableAt s va d := ⟨o, h, unheld_of w b⟩

/-- A unit object, decided. -/
theorem object_of {s : State} {chg : Bool} {va : Word} {d : Nat}
    (p : (match s.place (if chg then .write else .read) (if chg then storeCauses else loadCauses) va 1 true chg with
      | .mem x => x == d | _ => false) = true)
    (h : (!s.atomicWaits s.cur d 256 && va.toNat % 256 == 0 && d % 256 == 0 && inMemory d 256) = true) :
    unitObject s chg va d := by
  simp only [Bool.and_eq_true, Bool.not_eq_true', beq_iff_eq] at h
  exact ⟨goes_of p, h.1.1.1, h.1.1.2, h.1.2, h.2⟩

theorem witness_SequencesGrow :
    let s := seqSt .u [(5, 256), (6, 64), (7, 0)] (seqHead 1 1 69 64)
    let q := s.sq 0x4000
    let busy := { s with ops := [(0, some { tid := 0, mode := .u, root := 0, owns := [], pins := []
                                            op := .btinv 0x4000 0 0x7000 0x6000 0xF001 0x1F001, gang := 1 })] }
    (∀ id, s.me.wait ≠ .sent id) ∧ busy.btinvBusy 0x4000 0 = true ∧ s.poolHas q.pool (newBlocks s q 64).length = true ∧
    s.poolHas q.pool 1 = true ∧
    unitObject s true (s.rd 1) 0x4000 ∧ (q.st = 1 ∧ onLive? s (.sqres 9 1 5) = some (9, 1) ∧ s.me.mode = .u ∧
      ((seqSt .u [] (seqHead 2 0 69 64)).sq 0x4000).st ≠ 1) ∧
    (unitReads s 0x4000 (s.resReads 0x4000 256) ∧ (64 * (q.clen / 64 + 4) < q.rlen + 256 ∨ 64 * q.btcap < q.rlen + 256)) ∧
    (unitReads s 0x4000 (s.resReads 0x4000 64) ∧ q.rlen + 64 ≤ 64 * (q.clen / 64 + 4) ∧ q.rlen + 64 ≤ 64 * q.btcap ∧
      (newBlocks s q 64).length ≤ s.poolTop q.pool) ∧
    (unitReads s 0x4000 [(0x4000, 80)] ∧ s.quiet s.cur q.scope = true ∧ s.vecQuiet s.cur q.scope = true ∧ NotWoken s) ∧
    (q.rlen ≤ 256 ∧ q.clen ≤ 64 ∧ 64 < q.rlen ∧ bitOf q.fill (64 - 64 * (q.clen / 64)) = false) ∧
    unitReads s 0x4000 (s.seqReads 0x4000 (blocksFrom (ceilDiv 64 64) (ceilDiv q.rlen 64))) ∧
    (0 < q.btcap ∧ 64 * 0 + 64 ≤ q.clen ∧ unitReads s 0x4000 (s.seqReads 0x4000 [0]) ∧
      inMemory (entFrame (s.entry q 0)) 16 = true ∧ unitReads s 0x4000 (s.evictReads 0x4000 0 (s.rd 8)) ∧ s.btinvBusy 0x4000 0 = false ∧
      s.isSealed q 0 = true ∧ s.poolTop q.pool ≠ 0) := by
  unfold unitObject unitReads
  refine ⟨notSent_of ?_, ?_, ?_, ?_, ⟨place_of ?_, ?_⟩, ?_, ?_, ?_, ⟨?_, ?_, ?_, notWoken_of ?_⟩, ?_⟩ <;> decide +kernel

/-- A Lantern job that pins block 0 of the sequence. -/
def job1 : Job :=
  { id := 9, tid := 0, card := 0, cardVa := 0x1000, st := .queued, lan := 0, replayed := false, pins := [(0x7000, 0xF001)], qt := 0
    ot := 1, stw := none, kbu := 1, vbu := 1, blocks := 0, cancel := false, ran := false, gang := 1 }

/-- An operation of thread 0 in M mode. -/
def opOf (o : UnitOp) : Op := { tid := 0, mode := .m, root := 0, owns := [], pins := [], op := o, gang := 1 }
/-- Operation 7 is in flight, and the event names it. -/
def opSt (o : Op) : State :=
  { tiled .m (tile .filling 0) (tile .empty 0) with ops := [(7, some o)], ev := { idx := 7 } }

theorem witness_SequencesAreReadAndWaitedFor :
    let s := seqSt .u [(5, 64), (7, 0)] (seqHead 1 1 69 64)
    let p := { s with clusters := [(0, { jobs := [job1] })] }
    let w := s.updMe fun t => { t with wait := .deadline (some 0) 9 0x4000 65 }
    let a := s.updMe fun t => { t with wait := .accepted 3 9 }
    let o : Op := opOf (.btinv 0x4000 0 0x7000 0x6000 0xF001 0x1F001)
    let k : Op := opOf (.btinv 0x4000 0 0x7000 0x6000 0xF001 0xF001)
    let f := { s with frames := [(0xF000, 0x6000, 0x4000)] }
    (unitObject s false (s.rd 1) 0x4000 ∧ unitObject s true (s.rd 1) 0x4000 ∧ (s.sq 0x4000).st = 1 ∧
      Fld (s.rd 5) 31 0 ≤ (s.sq 0x4000).clen ∧ ((seqSt .u [] (seqHead 2 0 69 64)).sq 0x4000).st = 2 ∧
      ((seqSt .u [] (seqHead 3 0 69 64)).sq 0x4000).st = 3) ∧
    ((w.thread w.ev.tid).wait = .deadline (some 0) 9 0x4000 65 ∧ (w.thread w.ev.tid).live = true ∧ 0 ≤ w.now) ∧
    (∀ id, s.me.wait ≠ .sent id) ∧ (∀ id r, s.me.wait ≠ .accepted id r) ∧ (s.rd 7).toNat < (s.sq 0x4000).btcap ∧
    s.btinvBusy 0x4000 0 = false ∧ unitReads s 0x4000 (s.seqReads 0x4000 [0]) ∧ s.isSealed (s.sq 0x4000) 0 = true ∧
    s.entryPinned ((s.sq 0x4000).entryAt 0) = false ∧ p.entryPinned ((p.sq 0x4000).entryAt 0) = true ∧
    a.me.wait = .accepted 3 9 ∧ a.op? 3 = none ∧
    (({ s with ops := [(0, some o)] } : State).op? 0 = some o ∧ ({ s with ops := [(0, some k)] } : State).op? 0 = some k ∧
      s.entryPinned 0x7000 = false ∧ entV 0xF001 = true ∧ entFrame 0xF001 ≠ entFrame 0x1F001 ∧
      1 < (({ s with mem := Memory.write s.mem 0xF008 2 } : State).frame 0xF000).refcnt ∧ inMemory 0xF000 16 = true) ∧
    f.frames[f.ev.idx]? = some (0xF000, 0x6000, 0x4000) ∧ f.framePinned 0xF000 = false ∧ 0x6000 % 64 = 0 ∧
    inMemory 0x6000 64 = true ∧ f.poolTop 0x6000 < (f.pool 0x6000).cap := by
  unfold unitObject unitReads
  refine ⟨⟨⟨place_of ?_, ?_⟩, ⟨place_of ?_, ?_⟩, ?_⟩, ?_, notSent_of ?_, notAccepted_of ?_, ?_⟩ <;> decide +kernel

/-- An index table at 0x4000 over four rows of 16 signed bytes, with two buckets at 0x20000; a template for it at 0x5000, a family
at 0x5100 and a probe record at 0x5200. -/
def tabSt (head : Host.Cell) : State :=
  let s := st .u [(1, 0x4000), (2, 0x5000), (3, 0x5100), (4, 0x5200), (5, 3), (6, 4)] (head ::
    [(0x4004, 4), (0x4009, 3), (0x4010, 0x40), (0x4035, 0x10), (0x4040, 0x34), (0x4041, 0x12), (0x4048, 1), (0x404a,
      0xf), (0x404c, 8), (0x5004, 4), (0x5009, 3), (0x5010, 0x40), (0x5035, 0x10), (0x5040, 0x34), (0x5041, 0x12),
        (0x5048, 1), (0x504a, 0xf), (0x504c, 8), (0x5100, 0x34), (0x5101, 0x12), (0x5108, 1), (0x510a, 0xf), (0x510c,
          8), (0x5201, 0x40), (0x520a, 3), (0x5211, 0x60), (0x5218, 8), (0x30000, 8), (0x30001, 7), (0x30002, 6),
            (0x30003, 5), (0x30004, 4), (0x30005, 3), (0x30006, 2), (0x30007, 1)])
  { s with tables := if head.1 = 0x4000 then [0x4000] else [] }

theorem isOk_of {α ε : Type} {x : Except ε α} (h : (match x with | .ok _ => true | .error _ => false) = true) :
    ∃ a, x = .ok a := by
  split at h
  · exact ⟨_, rfl⟩
  · exact absurd h (by decide)

/-- The table in REHASH with a family at block `b` of 64 KiB. -/
def rehashSt (b : Nat) : State :=
  let s := tabSt (0x4000, 2)
  { s with mem := Memory.writeList s.mem 0x4050 (leBytes 16 (2 ^ 64 + 2 ^ 80 * 15 + 2 ^ 98 * b)) }

theorem error_of {α ε : Type} {x : Except ε α} (h : (match x with | .ok _ => false | .error _ => true) = true) :
    ∃ e, x = .error e := by
  split at h
  · exact absurd h (by decide)
  · exact ⟨_, rfl⟩

theorem isOk_twice {α β ε : Type} {x : Except ε α} {g : α → Except ε β}
    (h : (match x with | .ok a => (match g a with | .ok _ => true | .error _ => false) | .error _ => false) = true) :
    ∃ a b, x = .ok a ∧ g a = .ok b := by
  split at h
  · obtain ⟨b, e⟩ := isOk_of h
    exact ⟨_, b, rfl, e⟩
  · exact absurd h (by decide)

theorem witness_IndexTablesAreCreated :
    let s := tabSt (0x3FFF, 1)
    let l := tabSt (0x4000, 1)
    let v := s.homeNum 0x5000 256
    let f := Fam.of (l.homeNum 0x5100 16)
    let o : Op := opOf (.ixcreate 0x4000 (List.replicate 256 1))
    let k : Op := opOf (.ixfamily 0x4000 0x1234)
    let a := s.updMe fun t => { t with wait := .accepted 3 9 }
    (tableAt s (s.rd 1) 0x4000 ∧ unitReads s 0x4000 [(0x4000, 96)] ∧ recordAt s (s.rd 2) 256 v ∧ recordAt l (l.rd 3) 16 (l.homeNum 0x5100 16) ∧
      tableAt l (l.rd 1) 0x4000 ∧ unitReads l 0x4000 [(0x4000, 96)]) ∧ (∀ id r, s.me.wait ≠ .accepted id r) ∧
    ((s.ix 0x4000).ready = false ∧ tableBad (homeDie 0x4000) v = false ∧
      s.rangesWait [(lineOf 0x4000, 4), (Fam.of (Ix.of v).cur).lines] = false) ∧
    ((l.ix 0x4000).st = 1 ∧ famBad (homeDie 0x4000) f = false ∧ f.fmt = (Fam.of (l.ix 0x4000).cur).fmt ∧
      f.d = (Fam.of (l.ix 0x4000).cur).d ∧ l.rangesWait [(lineOf 0x4000, 4), f.lines, (l.ix 0x4000).bitmapLines] = false) ∧
    (a.me.wait = .accepted 3 9 ∧ a.op? 3 = none ∧ ({ s with ops := [(0, some o)] } : State).op? 0 = some o ∧
      ({ s with ops := [(0, some k)] } : State).op? 0 = some k ∧ (s.die (homeDie 0x4000)).window = none ∧ 0x4000 % 256 = 0 ∧
      inMemory 0x4000 256 = true ∧ (List.replicate 256 (1 : Byte)).length = 256) := by
  unfold recordAt unitReads
  refine ⟨⟨tableAt_of (object_of ?_ ?_) ?_ ?_ ?_, ?_, ⟨[(0x5000, 64), (0x5040, 64), (0x5080, 64), (0x50c0, 64)], ok_of ?_, ?_⟩,
    ⟨[(0x5100, 16)], ok_of ?_, ?_⟩, tableAt_of (object_of ?_ ?_) ?_ ?_ ?_, ?_⟩, notAccepted_of ?_, ?_⟩ <;> decide +kernel

theorem witness_IndexTablesAreUsed :
    let s := tabSt (0x4000, 1)
    let x := s.ix 0x4000
    let h : Bucket := ⟨0x20000, 0, 0, []⟩
    rowOp (.ixins 9 1 5) = some (9, 1, 5) ∧ tableAt s (s.rd 1) 0x4000 ∧ s.me.mode = .u ∧ unitReads s 0x4000 [(0x4000, 96)] ∧
    ((tabSt (0x4000, 3)).ix 0x4000).ready = false ∧
    (x.ready = true ∧ x.nrows ≤ (s.rd 6).toNat ∧ (s.rd 5).toNat < x.nrows ∧ unitReads s 0x4000 (s.onRowReads 0x4000 3)) ∧
    (∃ r, (Filing.mk s x 0 0).fileAll (dieOf s.cur) 3 x.fam = .ok r) ∧ (∃ r, s.unfileAll (dieOf s.cur) x x.fam 3 = .ok r) ∧
    (x.st = 1 ∧ x.ovp < 2 ∧ x.fam.l = 1 ∧ s.keyHash x x.fam 3 = some [0] ∧ s.chainOf x x.fam 0 0 = some [h] ∧ 3 ∉ h.ids ∧
      h.ids.length < 14 ∧ inMemory h.addr 64 = true ∧ h.addr % 64 = 0 ∧ 0x4000 + 96 ≤ h.addr) := by
  unfold unitReads
  refine ⟨rfl, tableAt_of (object_of ?_ ?_) ?_ ?_ ?_, ?_, ?_, ?_, ?_, isOk_of ?_, isOk_of ?_, ?_⟩ <;> decide +kernel

theorem witness_IndexTablesAreUsed_rehash :
    let s := rehashSt 5
    let x := s.ix 0x4000
    let b := rehashSt 3
    let k := min (min (s.rd 5).toNat 256) x.left
    let m := { s.updMe fun t => { t with wait := .sent 3 } with
      ops := [(3, some { tid := 0, mode := .u, root := 0, owns := [], pins := [], op := .sent 0x4000 none (s.rd 1) (.moving 2 false)
                         gang := 1 })] }
    (tableAt s (s.rd 1) 0x4000 ∧ unitReads s 0x4000 [(0x4000, 96)] ∧ x.st = 2 ∧ k = 2 ∧
      unitReads s 0x4000 (s.tryMoves (dieOf s.cur) 0x4000 k).1 ∧ (s.tryMoves (dieOf s.cur) 0x4000 k).2 = none) ∧
    (let y := { s with mem := Memory.write s.mem 0x20000 15 }
     (y.ix 0x4000).st = 2 ∧ min (min (y.rd 5).toNat 256) (y.ix 0x4000).left = 2 ∧
      unitReads y 0x4000 (y.tryMoves (dieOf y.cur) 0x4000 2).1 ∧ (y.tryMoves (dieOf y.cur) 0x4000 2).2 = some 6) ∧
    moving m 3 0x4000 (s.rd 1) 2 false ∧ (m.ix 0x4000).st = 2 ∧ unitReads m 0x4000 (m.moveReads 0x4000) ∧
    (∃ r, (Filing.mk m (m.ix 0x4000) 0 0).move (dieOf m.cur) = .ok r) ∧ (∃ r, (Filing.mk s x 0 0).move (dieOf s.cur) = .ok r) ∧
    (∃ r q, s.unfileAll (dieOf s.cur) x x.fam 3 = .ok r ∧ r.1.unfileAll (dieOf s.cur) x (Fam.of x.cur) 3 = .ok q) ∧
    (∃ c, (Filing.mk b (b.ix 0x4000) 0 0).fileAll (dieOf b.cur) 3 (b.ix 0x4000).fam = .error c) ∧
    (∃ c, b.unfileAll (dieOf b.cur) (b.ix 0x4000) (b.ix 0x4000).fam 3 = .error c) ∧ (s.rd 0).toNat = 0 ∧
    ((tabSt (0x4000, 1)).ix 0x4000).st = 1 := by
  unfold unitReads moving
  refine ⟨⟨tableAt_of (object_of ?_ ?_) ?_ ?_ ?_, ?_⟩, ?_, ?_, ?_, ?_, isOk_of ?_, isOk_of ?_, isOk_twice ?_, error_of ?_,
    error_of ?_, ?_⟩ <;> decide +kernel

theorem witness_IndexTablesAreUsed_probe :
    let s := tabSt (0x4000, 1)
    let x := s.ix 0x4000
    let f := Fam.of x.cur
    let v := leNat (s.gather [(0x5200, 32)])
    let r := Probe.of v
    let ins := [(0x30000, 16)]
    let xs := f.elems (s.gather ins)
    (s.rd 4).toNat % 32 = 0 ∧ s.drained s.cur = true ∧ recordAt s (s.rd 4) 32 v ∧ r.bad = false ∧
    unitObject s false r.table 0x4000 ∧ unitReads s 0x4000 [(0x4000, 96)] ∧ x.ready = true ∧ r.inp.toNat % f.align = 0 ∧
    s.operandBytes .read loadCauses r.inp f.bytes = .ok ins ∧
    unitReads s 0x4000 (s.probeReads 0x4000 x (x.consulted xs)) ∧ ((s.candidateSet x xs).map (·.1)) = some [] ∧
    s.operandBytes .write storeCauses r.list (4 * min 0 r.cap) = .ok [] ∧ NotWoken s ∧ unheld s 0x4000 := by
  unfold unitObject unitReads recordAt
  refine ⟨?_, ?_, ⟨[(0x5200, 32)], ok_of ?_, rfl⟩, ?_, ⟨place_of ?_, ?_⟩, ?_, ?_, ?_, ok_of ?_, ?_, ?_, ok_of ?_, notWoken_of ?_, unheld_of ?_ ?_⟩ <;>
    decide +kernel

/-! Attention jobs, matrix operations, engines. -/

theorem ready_of {r : Named} {i : Nat} {x : Tile} (h : (match r with | .ready a b => a == i && b == x | _ => false) = true) :
    r = .ready i x := by
  split at h
  · simp only [Bool.and_eq_true, beq_iff_eq] at h; rw [h.1, h.2]
  all_goals exact absurd h (by decide)

/-- A destination tile of 32 rows. -/
def outTile : Tile := { tile .empty 0 with nrows := 32 }
/-- A sequence with a card at 0x9000 for 64 keys of one head of 16 elements, its query tile at handle 3 and its output at 4. -/
def attnSt (q : Tile) (jobs : List Job) : State :=
  let s := seqSt .u [(9, 0x9000)] (seqHead 1 1 69 64 ++
    [(0x9001, 0x40), (0x900c, 0x40), (0x9016, 0xf), (0x9018, 0x83), (0x901b, 0x77), (0x901c, 7), (0x901d, 1),
      (0x901e, 1), (0x9022, 0x80), (0x9023, 0x3f), (0x9029, 4)])
  { s.updMe fun t => { t with handles := [(3, 1), (4, 2)] } with
    cores := [(0, { core1 with tiles := [(0, some q), (1, some outTile)] })]
    clusters := [(0, { jobs })] }

theorem witness_AttentionJobsAreQueued :
    let s := attnSt (tile .ready 0) []
    let ps := [(0x9000, 64), (0x9040, 64)]
    let c := Card.of (leNat (s.gather ps))
    let e := { s with mem := s.mem.filter fun x => x.1 ≠ 0x9016 }
    let small := s.updMyCore fun k => { k with tiles := [(0, some (tile .ready 0)), (1, some (tile .empty 0))] }
    let gone := { s with mem := s.mem.filter fun x => x.1 ≠ 0x7000 }
    s.engineWaits = false ∧ (s.rd 5).toNat % 64 = 0 ∧ (s.rd 9 + 1).toNat % 64 ≠ 0 ∧ cardAt s (s.rd 9) ps ∧
    cardAt e (e.rd 9) ps ∧ cardBad (leNat (e.gather ps)) = true ∧ cardBad (leNat (s.gather ps)) = false ∧
    unitObject s false c.seq 0x4000 ∧ statusAt s c.stw none ∧ statusAt s 0x10000 (some 0x10000) ∧
    s.attnCheck { c with khi := 65 } (s.sq 0x4000) = some 3 ∧ tilesReady small c 0x4000 0 1 (tile .empty 0) ∧
    outFits (tile .empty 0) c (outFmt c.ofmt).width = false ∧ tilesReady gone c 0x4000 0 1 outTile ∧
    blocksReady gone c 0x4000 outTile ∧ (gone.attnPins c (gone.sq 0x4000)).any (fun p => !entV p.2.toNat) = true ∧
    jobReady s c 0x4000 0 1 0 := by
  have t {u : State} {c : Card} {y : Tile} (h : u.attnCheck c (u.sq 0x4000) = none) (k : u.me.engTraps.any (u.me.attnTrap c) = false)
      (q : (match u.named c.qh with | .ready a b => a == 0 && b == tile .ready 0 | _ => false) = true)
      (o : (match u.namedDst c.oh with | .ready a b => a == 1 && b == y | _ => false) = true) : tilesReady u c 0x4000 0 1 y :=
    ⟨h, k, ⟨_, ready_of q⟩, ready_of o⟩
  unfold cardAt unitObject statusAt jobReady blocksReady unitReads
  refine ⟨?_, ?_, ?_, ⟨?_, ?_, ok_of ?_⟩, ⟨?_, ?_, ok_of ?_⟩, ?_, ?_, ⟨place_of ?_, ?_⟩, .inl ?_,
    .inr ⟨0x10000, ?_, place_of ?_, ?_, rfl⟩, ?_, t ?_ ?_ ?_ ?_, ?_, t ?_ ?_ ?_ ?_, ?_, ?_, ⟨outTile, t ?_ ?_ ?_ ?_, ?_⟩, ?_⟩ <;>
    decide +kernel

theorem witness_AttentionJobsAreQueued_cancel :
    let w := attnSt (tile .ready 0) [job1]
    let r := attnSt (tile .ready 0) [{ job1 with st := .running }]
    let c := (attnSt (tile .ready 0) []).updMe fun t => { t with wait := .cancelling 1 }
    w.me.wait = .none ∧ (w.rd 9 + 1).toNat % 64 ≠ 0 ∧ (w.rd 9).toNat % 64 = 0 ∧ w.me.mode = .u ∧
    (∀ j ∈ w.jobList w.cur, j.st ≠ .running ∧ w.statusWaits j = false) ∧ r.me.wait = .none ∧ r.jobList r.cur ≠ [] ∧
    (∀ j ∈ r.jobList r.cur, j.st = .running) ∧ ((r.cluster (cluOf r.cur)).jobs.map (·.id)).Nodup ∧
    c.me.wait = .cancelling 1 ∧ (∀ j ∈ c.jobList c.cur, j.cancel = false) := by decide +kernel

theorem witness_LanternsRunJobs :
    let card : BitVec 1024 := BitVec.ofNat 1024 (leNat ((attnSt (tile .ready 0) []).gather [(0x9000, 64), (0x9040, 64)]))
    let at_ (f : Job → Job) := { attnSt { tile .ready 0 with rdrs := 1 } [f { job1 with card }] with ev := { idx := 9 } }
    let run := at_ fun j => { j with st := .running }
    let ran := at_ fun j => { j with st := .running, replayed := true }
    let rep := at_ fun j => { j with st := .replay }
    let stop := at_ fun j => { j with cancel := true }
    let dead := { run with poison := [lineOf 0xF040] }
    (evJobIs (at_ id) { job1 with card } ∧ ((at_ id).cluster 0).canStart { job1 with card } = true) ∧
    (evJobIs rep { job1 with card, st := .replay } ∧ (rep.cluster 0).lanternIdle 0 = true ∧
      ∀ x ∈ (rep.cluster 0).jobs.takeWhile (·.id != 9), x.lan ≠ 0 ∨ x.st ≠ .replay) ∧
    (evJobIs run { job1 with card, st := .running } ∧ ((run.core 0).tile? 0).isSome = true ∧ ((run.core 0).tile? 1).isSome = true ∧
      run.jobReadBad { job1 with card, st := .running } (Card.of card.toNat) = none ∧
      run.jobReadWaits { job1 with card, st := .running } (Card.of card.toNat) = false) ∧
    evJobIs ran { job1 with card, st := .running, replayed := true } ∧ (evJobIs dead { job1 with card, st := .running } ∧
      (dead.jobReadBad { job1 with card, st := .running } (Card.of card.toNat)).isSome = true) ∧
    evJobIs stop { job1 with card, cancel := true } := by unfold evJobIs; decide +kernel

/-- The Cupola thread of cluster 0, and thread 0 of its core 0, whose handle 3 names a READY B tile. -/
def matSt (l : List (Reg × Word)) (x : Tile) (cells : List Host.Cell) : State :=
  { scu .u l with
    threads := [(0, { thr .u [] with handles := [(3, 1)] }), (128, thr .u l)]
    cores := [(0, { core1 with tiles := [(0, some x)] })], mem := (0, 31) :: cells }

theorem accept_of {r : Accept} (h : (match r with | .ok => true | _ => false) = true) : r = .ok := by
  split at h
  · rfl
  all_goals exact absurd h (by decide)

/-- The B operand: 16 rows of 256 bytes. -/
def bTile : Tile := { tile .ready 1 with nrows := 16, shape := Shape.of (87112285931760252691252997576778048342128) }
/-- The staging tile of a gather: 256 columns, room for 16 × 256. -/
def sTile : Tile := { tile .ready 0 with nrows := 16, shape := Shape.of (87112285931760252691252997576778048342128) }

theorem witness_MatrixOperationsAreAccepted :
    let a : Word := 0x1000
    let c : Word := 24
    let s := matSt [(2, a), (3, c), (5, 3), (6, 0x2000000)] bTile [(0x1000, 0x70), (0x1001, 8), (0x1002, 4), (0x1005,
      1), (0x100a, 6), (0x1011, 1), (0x2000, 0x70), (0x2001, 0xc), (0x2002, 4), (0x2005, 1), (0x200a, 6), (0x2011,
        1), (0x2022, 7)]
    let g := matSt [(2, a), (3, c)] sTile [(0x1001, 0x30), (0x1009, 0x40), (0x1012, 8), (0x1018, 2), (0x101d, 1),
      (0x3000, 0x70), (0x3001, 8), (0x3003, 1), (0x3004, 0x10), (0x300a, 9), (0x3010, 0x10), (0x4000, 0x70), (0x4001,
        8), (0x4002, 4), (0x4005, 1), (0x400a, 0xa), (0x4011, 1)]
    let r := matSt [(2, a), (3, c)] sTile [(0x1001, 0x30), (0x1009, 0x40), (0x1012, 8), (0x1018, 2), (0x101c, 0x10),
      (0x3000, 0x70), (0x3001, 8), (0x3002, 0x20), (0x3005, 1), (0x300a, 9), (0x3011, 1), (0x4000, 0x70), (0x4001,
        8), (0x4002, 4), (0x4005, 1), (0x400a, 0xa), (0x4011, 1)]
    (isCup s.cur = true ∧ mcfgBad (s.rd 0) = false ∧ mcfgBad (s.rd 5) = true ∧ s.me.mode = .u ∧ s.me.mmOut = [] ∧
      s.me.engTraps.find? (·.mtx) = none ∧ isCup (su []).cur = false ∧ (su []).me.mode = .u) ∧ cupolaInstr .mmfence ∧
    (mmOf s (.mmissue 2 3) = some (1, a, c) ∧ mmOf s (.accscale 6 3) = some (6, 0x2000000, c) ∧ aWordBad a = false ∧
      cWordBad c = false ∧ s.engineWaits = false ∧ regionBad (s.rd 6) = false) ∧
    (∃ r t, reads s (va48 a.toNat) 64 r t ∧ (r == 87112285931760253900178817191407222261872) = true) ∧
    (let w := Shape.of (87112285931760253900178817191407222261872)
     operandCheck w (87112285931760253900178817191407222261872) = none ∧ shapeChecks 1 0 0 w w c ((s.cTiles 0 c).map (·.2)) = none ∧
     mmFree s (targetOf 1 0 0 w w a c 16) (some c)) ∧
    (∃ r t, reads s 0x2000 64 r t ∧ (r == 53119852521797279282954036514705595103503399117617871794483145757615355455802182768) = true) ∧
    (let w := Shape.of (53119852521797279282954036514705595103503399117617871794483145757615355455802182768)
     operandCheck w (53119852521797279282954036514705595103503399117617871794483145757615355455802182768) = none ∧ shapeChecks 2 0 0 w w c ((s.cTiles 0 c).map (·.2)) = none ∧
     mmFree s (targetOf 2 0 0 w w a c 16) (some c)) ∧
    (∃ x t, reads g (va48 a.toNat) 64 x t ∧ (x == 6901746346803117990905529402210658619542509437590568902142001634357248 && !gatherBad x && (match t.getRecord (gW x) 64 64 with
        | .ok rw u => rw == 5444517870735026295746370250639599994992 && (match u.getRecord (gX x) 64 64 with | .ok rx _ => rx == 87112285931760258735882095649923921086576 | _ => false)
        | _ => false)) = true) ∧
    (let w := Shape.of (5444517870735026295746370250639599994992)
     let x := Shape.of (87112285931760258735882095649923921086576)
     operandCheck w (5444517870735026295746370250639599994992) = none ∧ operandCheck x (87112285931760258735882095649923921086576) = none ∧ w.fmt < 7 ∧ x.fmt < 7 ∧
     shapeChecks 3 0 (6901746346803117990905529402210658619542509437590568902142001634357248) w x c ((g.cTiles 0 c).map (·.2)) = none ∧
     mmFree g (targetOf 3 0 (6901746346803117990905529402210658619542509437590568902142001634357248) w x a c 0) (some c)) ∧
    (∃ x t, reads r (va48 a.toNat) 64 x t ∧ (x == 431359146686964440185445781325947257869594776180831506677135174545408 && !gatherBad x && (match t.getRecord (gW x) 64 64 with
        | .ok rw u => rw == 87112285931760257526956276035294748215408 && (match u.getRecord (gX x) 64 64 with | .ok rx _ => rx == 87112285931760258735882095649923921086576 | _ => false)
        | _ => false)) = true) ∧
    (let w := Shape.of (87112285931760257526956276035294748215408)
     let x := Shape.of (87112285931760258735882095649923921086576)
     operandCheck x (87112285931760258735882095649923921086576) = none ∧ shapeChecks 4 0 (431359146686964440185445781325947257869594776180831506677135174545408) w x c ((r.cTiles 0 c).map (·.2)) = none ∧
     mmFree r (targetOf 4 0 (431359146686964440185445781325947257869594776180831506677135174545408) w x a c 0) (some c)) ∧
    mmFree s (targetOf 5 0 0 noShape noShape 0x2000000 0 0) none := by
  unfold mmFree
  exact ⟨by decide +kernel, trivial, by decide +kernel, reads_of (fun r _ => _) (by decide +kernel),
    ⟨by decide +kernel, by decide +kernel, accept_of (by decide +kernel)⟩, reads_of (fun r _ => _) (by decide +kernel),
    ⟨by decide +kernel, by decide +kernel, accept_of (by decide +kernel)⟩, reads_of (fun r _ => _) (by decide +kernel),
    ⟨by decide +kernel, by decide +kernel, by decide +kernel, by decide +kernel, by decide +kernel, accept_of (by decide +kernel)⟩,
    reads_of (fun r _ => _) (by decide +kernel), ⟨by decide +kernel, by decide +kernel, accept_of (by decide +kernel)⟩,
    accept_of (by decide +kernel)⟩
theorem some_of {α : Type} {o : Option α} (p : α → Bool) (h : (match o with | some a => p a | none => false) = true) :
    ∃ a, o = some a ∧ p a = true := by
  split at h
  · exact ⟨_, rfl, h⟩
  · exact absurd h (by decide)

theorem witness_MatrixOperationsPerform :
    let o : Op := { opOf (.matrix [0] 5 0 noShape noShape 0x2000000 0 0 0 0 0) with tid := 128, mode := .u, pins := [0x80] }
    let s := { (matSt [] bTile []).updThread 128 fun t => { t with mmOut := [7] } with ops := [(7, some o)], ev := { idx := 7 } }
    let z := { (matSt [] bTile []).updCore 0 fun c => { c with zeroing := [2] } with ev := { idx := 2 } }
    (∃ q, s.mm? s.ev.idx = some q ∧ (!s.mmBehind q && !s.mmReaders q && !s.mmWaits q && (s.thread q.who.tid).mmOut.contains q.id &&
      q.funct == 5) = true) ∧ z.ev.idx ∈ (z.core z.ev.core).zeroing ∧ evOp s o := by
  unfold evOp
  exact ⟨some_of _ (by decide +kernel), by decide +kernel⟩

/-- A line that poison makes unreadable, and one that an earlier engine command owns. -/
def bad (s : State) : State := { s with poison := [lineOf 0x20000] }
def lineHeld (s : State) : State :=
  { s with ops := (3, some { opOf (.xcopy 0x20000 0 64 false) with owns := [(lineOf 0x20000, 1)] }) :: s.ops, nextOp := 9 }

/-- An error of which a test holds, decided. -/
theorem error_if {α ε : Type} {x : Except ε α} (p : ε → Bool) (h : (match x with | .ok _ => false | .error e => p e) = true) :
    ∃ e, x = .error e ∧ p e = true := by
  split at h
  · exact absurd h (by decide)
  · exact ⟨_, rfl, h⟩

theorem witness_EnginesEndTheirCommands :
    let f := opOf (.fill 0 0 0 0)
    let d := opOf (.drain 0 0 0)
    let x := opOf (.xcopy 0x20000 0x30000 64 false)
    let p := opOf (.posting 0 (some 0) none 0)
    let sh := (tile .filling 0).shape
    let dr (s : State) := (s.drainRows (d.who 7) 0 0 0).2
    let cp (s : State) := (s.runCopy (x.who 7) 0x30000 0x20000 64).2.2
    (evOp (opSt f) f ∧ ((opSt f).core 0).tile? 0 = some (tile .filling 0) ∧ (∃ y, (opSt f).fill (f.who 7) sh 0 0 = .ok y) ∧
      (∃ e, (bad (opSt f)).fill (f.who 7) sh 0 0 = .error e ∧ (e != .hold) = true) ∧
      ∃ e, (lineHeld (opSt f)).fill (f.who 7) sh 0 0 = .error e ∧ (e == .hold) = true) ∧
    (evOp (opSt d) d ∧ dr (opSt d) ≠ some .hold ∧ dr (lineHeld (opSt d)) = some .hold) ∧
    (evOp (opSt x) x ∧ cp (opSt x) ≠ some .hold ∧ cp (lineHeld (opSt x)) = some .hold) ∧
    (evOp (opSt (opOf (.tcopy 0 1 0))) (opOf (.tcopy 0 1 0)) ∧ ((opSt d).core 0).tile? 1 = some (tile .empty 0)) ∧
    evOp (opSt p) p ∧ ¬onItsWay (opSt p) p 7 := by
  unfold evOp onItsWay
  refine ⟨⟨?_, ?_, isOk_of ?_, error_if _ ?_, error_if _ ?_⟩, ?_⟩ <;> decide +kernel

theorem witness_EnginesEndTheirCommands_streams :
    let r : BitVec 256 := BitVec.ofNat 256 (21778071482940064079507614104891514945536)
    let a := opOf (.awl 0 r none)
    let xf (s : State) := s.xfMemory { a.who 7 with atHome := true } r
    let b (x : Stream) : State := { streamed x with ev := { unit := 7 }, agenda := [] }
    let x : Stream := { st := .run, slots := [0, 1], nsm := 1, filled := 1 }
    let d1 : Tile := { tile .empty 1 with stream := some 7 }
    let fl (s : State) := s.fill { tid := s.streamOwner 0 7, mode := x.mode, root := x.root, last := x.last, id := s.nextOp } d1.shape (x.step * 1) (x.mstep * 1)
    let w := (st .u [] [(0x2000, 3)]).updMe fun t => { t with wait := .monitor 0x2000 3 }
    evOp (opSt (opOf (.awl 0 r (some 0)))) (opOf (.awl 0 r (some 0))) ∧
    (evOp (opSt a) a ∧ (∃ s1, xf (opSt a) = .ok s1) ∧ (∃ e, xf (bad (opSt a)) = .error e ∧ (e != .hold) = true) ∧
      ∃ e, xf (lineHeld (opSt a)) = .error e ∧ (e == .hold) = true) ∧
    (((b x).core 0).stream 7 = x ∧ x.nwin = 0 ∧ ((b x).core 0).tile? (x.slots.getD (x.filled % 2) 0) = some d1 ∧
      d1.st = .empty ∧ d1.rdrs = 0 ∧ (∃ y, fl (b x) = .ok y) ∧ (∃ e, fl (bad (b x)) = .error e ∧ (e != .hold) = true) ∧
      ∃ e, fl (lineHeld (b x)) = .error e ∧ (e == .hold) = true) ∧
    (w.thread w.ev.tid).wait = .monitor 0x2000 3 ∧ (3 : Word).toNat ≤ leNat (w.bytesOf w.ev.tid 0x2000 8) := by
  unfold evOp
  refine ⟨?_, ⟨?_, isOk_of ?_, error_if _ ?_, error_if _ ?_⟩, ⟨?_, ?_, ?_, ?_, ?_, isOk_of ?_, error_if _ ?_, error_if _ ?_⟩, ?_⟩ <;>
    decide +kernel

/-- Registers 2, 4 and 6, widths 8. -/
def vw1 : VWord :=
  { c := 0, fn := 0, vd := 2, va := 4, vb := 6, mk := 0, mi := 0, ms := 0, se := 0, wa := 7, wb := 7, wd := 7, wo := 1, gs := 0
    so := 0, imm := 0 }
/-- A state in which bank 0 executes at a convoy, slot 0 holding `g`. -/
def vs (g : Word) (cells : List Host.Cell) : State :=
  { st .u [] cells with
    act := { banks := [0], addr := 0x8000, snap := ⟨(Vector.replicate 8 0).set 0 g, 4, 0x777, 0, 4, 0⟩ } }

theorem dstOk_of {d : Dst} (h : (match d with
    | .reg r w _ => decide (r < 16 ∧ 1 ≤ w ∧ w ≤ 16)
    | .pair r _ => decide (r < 16 ∧ r % 2 = 0)
    | .msk m => decide (1 ≤ m ∧ m < 8)) = true) : dstOk d := by cases d <;> simpa [dstOk] using h

theorem witness_ElementwiseWordsWriteTheirResults :
    let s := vs 0 []
    (∃ d f, intWord s (.vadd { vw1 with se := 1, ms := 2 }) = some ({ vw1 with se := 1, ms := 2 }, d, f) ∧ dstOk d ∧
      seOk { vw1 with se := 1, ms := 2 } d) ∧
    (∃ d f, intWord s (.vcmp vw1) = some (vw1, d, f) ∧ dstOk d ∧ seOk vw1 d) ∧
    (∃ d f, intWord s (.vramp vw1) = some (vw1, d, f) ∧ dstOk d ∧ seOk vw1 d) ∧
    ∃ d f, fpWord s (.vfma vw1) = some (vw1, d, f) ∧ dstOk d ∧ seOk vw1 d :=
  ⟨⟨_, _, rfl, dstOk_of (by decide +kernel), fun _ => ⟨by decide, nofun⟩⟩,
    ⟨_, _, rfl, dstOk_of (by decide +kernel), fun h => absurd h (by decide)⟩,
    ⟨_, _, rfl, dstOk_of (by decide +kernel), fun h => absurd h (by decide)⟩,
    ⟨_, _, rfl, dstOk_of (by decide +kernel), fun h => absurd h (by decide)⟩⟩

theorem witness_ReductionsScansAndLists :
    let s := vs 0 []
    let z : State := { s with act := { s.act with snap := { s.act.snap with vl := 0 } } }
    ((∃ d x fl, reduceWord s (.vred vw1) = some (vw1, d, x, fl) ∧ dstOk d ∧ seOk vw1 d) ∧
      (∃ d xs, listWord s (.vcompact vw1) = some (vw1, d, xs) ∧ dstOk d ∧ apart vw1.vb.toNat d ∧
        ∀ k, k < xs.length → (s.lay.el k).bank ∈ s.act.banks)) ∧
    (s.act.snap.vl ≠ 0 ∧ z.act.snap.vl = 0 ∧ s.lay.first ∈ s.act.banks ∧ s.lay.e ≠ 0 ∧
      postWord s (.vany { vw1 with va := 0, imm := 1 }) = some (1, true) ∧ vlWord s (.vtrim vw1) = some (4, [(25, false)]) ∧
      vlWord s (.vsetvlb { vw1 with so := 1 }) = some (0, []) ∧ vw1.vb.toNat % 2 = 0 ∧ vw1.vd.toNat % 2 = 0 ∧ s.act.banks.Nodup ∧
      s.on vw1 = [⟨0, 0, 0⟩] ++ ⟨0, 1, 1⟩ :: [⟨0, 2, 2⟩, ⟨0, 3, 3⟩]) ∧
    seOk vw1 (.reg vw1.vd.toNat (s.wD vw1) (vw1.fn.getLsbD 0)) ∧ idleWord (.vnop vw1) :=
  have e : ((vs 0 []).on vw1).length = 4 := by decide +kernel
  have b : ∀ k, k < 4 → ((vs 0 []).lay.el k).bank ∈ (vs 0 []).act.banks := by decide +kernel
  ⟨⟨⟨_, _, _, rfl, dstOk_of (by decide +kernel), fun h => absurd h (by decide)⟩,
      ⟨_, _, rfl, dstOk_of (by decide +kernel), by unfold apart; decide +kernel, fun k h => b k (by rw [List.length_map, e] at h; exact h)⟩⟩,
    by decide +kernel, fun h => absurd h (by decide), trivial⟩

/-- The bytes of elements 0 to 3 of `n` bytes each at `a`. -/
def accs4 (a n : Nat) : List (Acc × List Nat) :=
  (List.range 4).map fun i => ({ el := ⟨0, i, i⟩, va := word (a + n * i), n }, (List.range n).map (a + n * i + ·))

theorem fault_of {α ε : Type} [BEq ε] [LawfulBEq ε] {x : Except ε α} {e : ε}
    (h : (match x with | .ok _ => false | .error f => f == e) = true) : x = .error e := by
  split at h
  · exact absurd h (by decide)
  · rw [eq_of_beq h]

/-- The convoy of `vs` with another vl. -/
def withVl (s : State) (n : BitVec 18) : State := { s with act := { s.act with snap := { s.act.snap with vl := n } } }
/-- What an unmapped page and a poisoned line answer at element 0. -/
def pageFault : VFault := ⟨0, 1, 0x40000000, 0⟩

theorem witness_VectorMemoryWords_loads :
    let s := vs 0x2000 [(0x2000, 7)]
    let p := { s with poison := [0x80] }
    let o := { s with act := { s.act with only := some [1] } }
    let f := vs 0x40000000 []
    let g := vs 0x3FFFFFFE []
    let x := accs4 0x2000 1
    loadForm (.vld vw1) = some (.unit, vw1) ∧ reached s .read false (s.accs .unit vw1) x ∧
    (fresh s x ∧ homeFault s true x = none ∧ (homeFault p true x).isSome = true ∧ fresh p x ∧ s.act.only = none ∧ fresh o x ∧
      homeFault o true x = none ∧ o.act.only = some [1]) ∧
    f.reachAll .read false (f.accs .unit vw1) = .error pageFault ∧
    (s.untilFault (s.accs .unit vw1) = (x, none) ∧ f.untilFault (f.accs .unit vw1) = ([], some pageFault) ∧
      (g.untilFault (g.accs .unit vw1)).1 ≠ [] ∧ ((g.untilFault (g.accs .unit vw1)).2.map VFault.code) = some 1 ∧
      fresh g (g.untilFault (g.accs .unit vw1)).1) ∧
    s.act.banks.Nodup ∧ ∀ k, k < nfOf .unit vw1 → dstOk (s.loadDst vw1 k) ∧ seOk vw1 (s.loadDst vw1 k) := by
  unfold reached fresh
  refine ⟨rfl, ok_of ?_, ?_, fault_of ?_, ?_, ?_, fun k _ => ⟨dstOk_of ?_, fun h => absurd h (by decide)⟩⟩ <;> try decide +kernel
  have e : nfOf .unit vw1 = 1 := by decide
  have h : k = 0 := by omega
  subst h; decide +kernel

theorem witness_VectorMemoryWords_stores :
    let s := vs 0x2000 [(0x2000, 7)]
    let f := vs 0x40000000 []
    let n : VWord := { vw1 with imm := 0x80 }
    let r : VWord := { vw1 with fn := 4 }
    let t := withVl s 1
    let one : List (Acc × List Nat) := [({ el := ⟨0, 0, 0⟩, va := 0x2000, n := 1 }, [0x2000])]
    (storeForm (.vst vw1) = some (.unit, vw1) ∧ s.progressWord vw1 = .ok none ∧
      s.progressWord n = .ok (some ⟨0x2000, 4, 0, [], 0x2000, 0x8000⟩) ∧
      reached s .write false (s.accs .unit vw1) (accs4 0x2000 1) ∧
      f.progressWord n = .error { pageFault with i := 2 ^ 32 - 1 } ∧
      f.reachHeld false (fun u => u.accs .unit vw1) = .error pageFault) ∧
    atomForm (.vamo r) = some (r, false) ∧ t.progressWord r = .ok none ∧ reached t .write true (t.atomAccs r) one ∧
    f.reachHeld true (fun u => u.atomAccs vw1) = .error pageFault ∧
    atomsApart t one ∧ (homeFault t true one = none ∧ (t.thread t.act.tid).done = [] ∧ t.lagging = false ∧ t.act.banks.Nodup) ∧
    dstOk (t.atomDst r false) ∧ seOk r (t.atomDst r false) := by
  unfold reached atomsApart plainLine plainBut
  refine ⟨⟨rfl, ok_of ?_, ok_of ?_, ok_of ?_, fault_of ?_, fault_of ?_⟩, rfl, ok_of ?_, ok_of ?_, fault_of ?_,
    ⟨.cons (fun _ h => (nomatch h)) .nil, ?_, ?_⟩, ?_, dstOk_of ?_, fun h => absurd h (by decide)⟩ <;> decide +kernel

theorem witness_VectorMemoryWords_held :
    let s := vs 0x2000 [(0x2000, 7)]
    let el : Elem := { idx := 0, va := 0x2000, pas := [0x2000], mask := [0xFF], bytes := [9] }
    let h : Held := { id := 1, ord := false, ovt := false, scope := 1, atomic := false, elems := [el] }
    let ea : Elem := { el with bytes := [9, 0, 0, 0], pas := [0x2000, 0x2001, 0x2002, 0x2003], op := some (.add, .fp32) }
    let ha : Held := { h with atomic := true, elems := [ea] }
    let p := s.updThread 0 fun t => { t with held := [h] }
    let a := s.updThread 0 fun t => { t with held := [ha] }
    let n : Notify := ⟨0x2000, 4, 1, [], 0x2000, 0x8000⟩
    let q := s.updThread 0 fun t => { t with notifies := [n] }
    let m := s.updThread 0 fun t => { t with held := [{ h with vamof := true, elems := [], flags := 1 }] }
    (heldElem p h el ∧ p.elemBad p.ev.tid h.atomic el.pas = none ∧ el.op = none) ∧
    (heldElem a ha ea ∧ a.elemBad a.ev.tid ha.atomic ea.pas = none ∧ plainLine a (ea.pas.headD 0) ∧ 0x2000 % 64 + 4 ≤ 64) ∧
    (heldElem { a with poison := [0x80] } ha ea ∧ ({ a with poison := [0x80] } : State).elemBad 0 ha.atomic ea.pas ≠ none ∧
      (∀ x ∈ ha.elems, ea.idx ≤ x.idx) ∧ (a.thread a.ev.tid).present = true ∧ (a.thread a.ev.tid).convTrap = none ∧ (a.thread a.ev.tid).frozen = false) ∧
    ((q.thread q.ev.tid).notifies = n :: [] ∧ q.notifyReady q.ev.tid n = true ∧ q.elemBad q.ev.tid true [n.word] = none ∧
      plainLine q n.word) ∧
    ((m.thread m.ev.tid).held[m.ev.unit]? = some { h with vamof := true, elems := [], flags := 1 }) := by
  unfold heldElem plainLine plainBut; decide +kernel

theorem witness_VectorMemoryWords_waits :
    let s := vs 0x2000 [(0x2000, 7)]
    let x := accs4 0x2000 8
    let p := { s with poison := [0x80] }
    let ar (b : Word) := s.updThread 0 fun t => { t with armed := some (2 ^ 32 - 1, [(0x2000, b)]) }
    let full := s.updThread 1 fun t => { t with live := true, armed := some (0, List.replicate 256 (0x2000, 9)) }
    (reached s .read true (waitAccs s vw1) x ∧ homeFault s true x = none ∧
      (homeFault p true x).isSome = true ∧ (s.thread s.act.tid).armed = none ∧
      (∀ y ∈ x, s.loaded? y.1 = none) ∧
      ((x.filter fun y => !((p.homeBad true y.1 y.2).isNone && p.waitMet vw1 y)).head?.isSome = true) ∧
      0 < 256 - s.monitorsUsed (coreOf s.act.tid) ∧ 256 - full.monitorsUsed (coreOf full.act.tid) = 0 ∧ x ≠ []) ∧
    (((ar 7).thread 0).armed = some (2 ^ 32 - 1, [(0x2000, 7)]) ∧ 7 ≤ (ar 7).viewNum 0 0x2000 8 ∧
      ¬(8 ≤ (ar 8).viewNum 0 0x2000 8)) ∧
    (vs 0x40000000 []).reachAll .read true (waitAccs (vs 0x40000000 []) vw1) = .error pageFault := by
  unfold reached
  exact ⟨⟨ok_of (by decide +kernel), by decide +kernel⟩, by decide +kernel, fault_of (by decide +kernel)⟩

/-- Every probe of a word settles, decided. -/
theorem settles_of {s : State} {v : VWord} {l : List El}
    (h : (l.all fun e => match s.probe v e.i with | .done .. | .fault .. => true | _ => false) = true) :
    ∀ e ∈ l, settles (s.probe v e.i) := by
  intro e he
  have h := List.all_eq_true.mp h e he
  unfold settles
  split at h
  · simp_all
  · simp_all
  · exact absurd h (by decide)

/-- The probe of an element that finds its candidates, decided. -/
theorem done_of {s : State} {v : VWord} {i : Nat} {p : List Nat → List Nat → Bool}
    (h : (match s.probe v i with | .done _ _ _ pas ids => p pas ids | _ => false) = true) :
    ∃ nan total lines pas ids, s.probe v i = .done nan total lines pas ids ∧ p pas ids = true := by
  split at h
  · exact ⟨_, _, _, _, _, ‹_›, h⟩
  · exact absurd h (by decide)

/-- Another state, with the convoy of `vs` whose slot 0 holds `g` and vl = `n`. -/
def onVec (s : State) (g : Word) (n : BitVec 18) : State :=
  { s with act := { banks := [0], addr := 0x8000, snap := ⟨(Vector.replicate 8 0).set 0 g, n, 0x777, 0, 4, 0⟩ } }

theorem witness_WordsOnSideUnits :
    let s := vs 5 []
    let t := onVec (tiled .u (tile .ready 0) (tile .empty 0)) 3 4
    let x := tile .ready 0
    (accFree s vw1 ∧ s.on vw1 ≠ [] ∧ vw1.vd.toNat % 2 = 0 ∧ (accWord? s (.vaccz vw1)).isSome = true ∧
      ((s.on vw1).map (·.i)).Nodup) ∧
    (t.act.snap.vl ≠ 0 ∧ tileReady t vw1 0 x ∧ layerIs t vw1 x 8 272 ∧ t.readersAhead (coreOf t.act.tid) 0 x = false ∧
      Fld (t.slot vw1) 63 5 = 0 ∧ (∀ e ∈ t.on vw1, t.regEl vw1.vb.toNat (t.wB vw1) e < x.shape.elems) ∧ 0 < x.usable ∧
      x.usable ≤ 2048 ∧ x.frow + x.shape.w * x.layers ≤ 512 ∧ 0 < x.shape.elems) := by
  unfold accFree tileReady layerIs
  decide +kernel

theorem witness_WordsOnSideUnits_objects :
    let q := onVec (seqSt .u [] (seqHead 1 1 69 64)) 0x4000 4
    let q2 := onVec (seqSt .u [] (seqHead 2 1 69 64)) 0x4000 4
    let x := onVec (tabSt (0x4000, 1)) 0x4000 4
    let r := onVec (rehashSt 5) 0x4000 4
    let h : VWord := { vw1 with fn := 4 }
    (q.act.snap.vl ≠ 0 ∧ (sqWord? q (.vsqmap vw1)).isSome = true ∧ objectAt q vw1 80 0x4000 ∧ (q.sq 0x4000).st = 1 ∧
      readsGo q vw1 (q.blockReads (q.sq 0x4000) (namedBlocks q vw1 (q.sq 0x4000))) ∧ vw1.se = 0 ∧ vw1.vd.toNat % 2 = 0) ∧
    (objectAt q2 vw1 80 0x4000 ∧ (q2.sq 0x4000).st ≠ 1) ∧
    (objectAt x vw1 96 0x4000 ∧ (x.ix 0x4000).ready = true ∧ vw1.fn.getLsbD 2 = false ∧ 0 < x.lay.e ∧ x.lay.e ≤ 2048) ∧
    (objectAt r h 96 0x4000 ∧ h.fn.getLsbD 2 = true ∧ (r.ix 0x4000).ready = true ∧ (r.ix 0x4000).st = 2) ∧
    objectAt x h 96 0x4000 ∧ (x.ix 0x4000).st ≠ 2 := by
  have o {s : State} {v : VWord} {n : Nat} (h : (s.slot v).toNat % 256 = 0)
      (k : s.reach .read false (objAcc (s.firstOn v) (s.slot v) 1) = .ok ({ el := ⟨0, 0, 0⟩, va := 0x4000, n := 1 }, [0x4000]))
      (r : readsGo s v [(0x4000, n)]) : objectAt s v n 0x4000 := ⟨h, ⟨_, k, rfl⟩, r⟩
  refine ⟨⟨?_, ?_, o ?_ (ok_of ?_) ?_, ?_⟩, ⟨o ?_ (ok_of ?_) ?_, ?_⟩, ⟨o ?_ (ok_of ?_) ?_, ?_⟩, ⟨o ?_ (ok_of ?_) ?_, ?_⟩,
    o ?_ (ok_of ?_) ?_, ?_⟩ <;>
    first | decide +kernel | (unfold readsGo; decide +kernel)

theorem witness_WordsOnSideUnits_probes :
    let p := onVec (tabSt (0x4000, 1)) 0x5200 1
    let n := onVec (tabSt (0x4000, 3)) 0x5200 1
    let e : El := ⟨0, 0, 0⟩
    p.act.snap.vl ≠ 0 ∧ (p.thread p.act.tid).done = [] ∧ (p.slot vw1).toNat % 32 = 0 ∧
    ((onVec p 0x5201 1).slot vw1).toNat % 32 ≠ 0 ∧ (∀ e ∈ p.on vw1, settles (p.probe vw1 e.i)) ∧
    (∀ e ∈ n.on vw1, settles (n.probe vw1 e.i)) ∧
    (match p.probeRun vw1 (p.on vw1) with | (_, none) => true | _ => false) = true ∧
    (match n.probeRun vw1 (n.on vw1) with | (_, some (0, .fault 1 0x4000)) => true | _ => false) = true ∧ p.act.banks.Nodup ∧
    p.on vw1 = [e] ∧ (∃ nan total lines pas ids, p.probe vw1 0 = .done nan total lines pas ids ∧
      (decide pas.Nodup && pas.all (fun a => (Tab.get none p.bars (lineOf a)).isNone) && pas.length == 4 * ids.length) = true) := by
  refine ⟨?_, ?_, ?_, ?_, settles_of ?_, settles_of ?_, ?_, ?_, ?_, ?_, done_of ?_⟩ <;> decide +kernel

theorem witness_BlocksAreControlled :
    let blk : Block := ⟨0x8000, (vs 0 []).act.snap, 0, false⟩
    let b (d : Div) (pc : Word) : BankRun := { pc, div := d, rejoin := 0x8008 }
    let s := (vs 0 []).updThread 0 fun t => { t with vq := [blk], banks := [(0, b .joined 0x8000)] }
    let w := s.updThread 0 fun t => { t with banks := [(0, b .waiting 0x8008), (1, b .waiting 0x8008)] }
    let d := s.updThread 0 fun t => { t with banks := [(0, b .waiting 0x8008), (1, b .diverged 0x8010)] }
    (0, b .joined 0x8000) ∈ (s.thread s.act.tid).banks ∧ 0 ∈ s.act.banks ∧ (b .joined 0x8000).div ≠ .diverged ∧
    (w.thread w.ev.tid).allWaiting = true ∧ d.waitPoint d.ev.tid = some (0x8008, 1) ∧ (d.thread d.ev.tid).frozen = false ∧
    (d.thread d.ev.tid).convTrap = none := by decide +kernel
/-! Events: starting, health, the chain, messages, registers, the scheduler. -/

/-- The event operands of a state, set. -/
def evSt (s : State) (ev : Ev) : State := { s with ev }
/-- A cold start that waits at its pre-heat step. -/
def coldSt : State := { State.reset with camp := { power := true, step := 2, env := { State.reset.camp.env with cold := true } } }

theorem witness_StartsAndHealthEvents :
    let asked (a : StartAsk) : State := { on with camp := { on.camp with reset := [a] } }
    let win := on.updDie 0 fun d => { d with window := some 5 }
    let late := { coldSt with now := heatBound }
    let soft (k : SoftError) : State := { st .u [] [] with ev := { soft := k } }
    (healthReady State.reset .powerOn ∧ healthReady coldSt .preHeatDone ∧ healthReady late .preHeatTimeout ∧
      healthReady { late with now := heatBound + 1 } .preHeatDone ∧
      coldSt.camp.cfail = 0 ∧ ({ late with camp := { late.camp with cfail := 2 } } : State).preheating = true) ∧
    (∀ warm keep, healthReady (asked ⟨1, warm, keep, none, 0⟩) .startBegin) ∧
    healthReady on .ethernetLinkUp ∧ healthReady on .thermalTrip ∧
    healthReady { on with camp := { on.camp with tripped := true } } .thermalRecovery ∧ healthReady on .retrainWindowOpen ∧
    healthReady win .retrainWindowClose ∧ healthReady win .retrainFailed ∧
    healthReady (evSt on { addr := 0x2000 }) .uncorrectableMemoryError ∧
    (∀ k ∈ [SoftError.singleTransient, .doubleTransient, .singleHard, .doubleHard], healthReady (soft k) .scratchpadSoftError) ∧
    (st .u [] []).holders 0 0 = [0] := by
  refine ⟨?_, fun w k => ⟨⟨⟨1, w, k, none, 0⟩, ?_⟩, ?_, ?_⟩, ?_⟩
  · unfold healthReady cleanStart; decide +kernel
  · revert w k; decide +kernel
  · unfold cleanStart; revert w k; decide +kernel
  · revert w k; decide +kernel
  · unfold healthReady; decide +kernel

/-- A write of die 0 that waits at die 1, and one on the link between them. -/
def crossW : Outw := { src := 0, tid := 0, seq := 1, addr := 2 ^ 44, bytes := [5], stamp := #v[1, 0, 0, 0] }

theorem witness_ChainEvents :
    let a := evSt { on with dies := on.dies.set 1 { inb := [crossW] } } { die := 1 }
    let l := evSt { on with links := [(0, [.wr 1 crossW])] } {}
    let r := evSt { on with links := [(1, [.report 1 0 7, .report 2 0 7])] } { cls := .sync }
    let m := evSt (on.updDie 0 fun d => { d with modHi := 8 }) {}
    let up (v : BitVec 2) := on.updDie 0 fun d => { d with lnkHi := v }
    chainReady on .linkCrcReplay ∧ chainReady (up 2) .linkRetrain ∧ chainReady (up 1) .linkRetrain ∧ chainReady on .adjacencyFailed ∧
    chainReady m .ucieModuleLost ∧ chainReady l .flitReceive ∧ (chainReady r .flitReceive ∧
      Tab.get [] r.links (linkKey r) = [.report 1 0 7, .report 2 0 7] ∧ linkEnd r = 1) ∧ chainReady a .causalWriteApply ∧ chainReady on .sequenceReport ∧
    chainReady on .lrWriteDeferralEnd := by
  unfold chainReady plainLine plainBut
  exact ⟨trivial, by decide +kernel, by decide +kernel, by decide +kernel, by decide +kernel,
    by decide +kernel, by decide +kernel, ⟨crossW, by decide +kernel⟩, by decide +kernel, trivial⟩

/-- Connection 5 is open for the owner. -/
def linked (k : Conn → Conn) (q : Queue → Queue) : State :=
  { on with port := { conns := [(5, k { st := .opened, owner := true, addr := 9, sconn := 7 })], owner := some 9 }
            queues := [(3, q { base := 0x10, lgsize := 4, qen := true, st := .on })] }
/-- A packet with a payload of `n` bytes that hold `v` big-endian. -/
def pkt (typ : BitVec 4) (op : BitVec 8) (addr : Word) (n v : Nat) : Packet :=
  { packet0 with typ, op, addr, conn := 5, tag := 77, src := 9, payload := beBytes n v, len := BitVec.ofNat 16 n }
/-- It arrives at a device with that connection. -/
def arrives (p : Packet) : State := evSt (linked id id) { pkt := some p }

/-- `heard`, `nextPacket` and `served`, decided. -/
def heardB (s : State) (p : Packet) : Bool :=
  s.ev.pkt == some p && s.portUp && !s.filtered p && (!s.port.msen || p.macsec) && p.sack.isNone
def nextB (s : State) (p : Packet) : Bool :=
  let k := s.conn p.conn.toNat
  decide (p.conn ≠ 0 ∧ k.st = .opened ∧ k.rx = p.psn ∧ k.buf = [] ∧ k.unacked = [] ∧ k.waiting = [] ∧ 0 < k.cwnd ∧
    0 < k.credit.toNat ∧ p.ackreq = false ∧ p.ecne = false ∧ (k.part = [] ∨ p.first = false))
def lastB (s : State) (p : Packet) : Bool :=
  let k := s.conn p.conn.toNat
  decide ((p.last = true ∧ malformed (k.part ++ [p]) = false ∧ k.wrote = false ∧
    ((s.die 0).out.any fun w => w.tid == connAgent p.conn.toNat) = false) ∧ s.limited = false)
theorem heard_of {s : State} {p : Packet} (h : heardB s p = true) : heard s p := by
  simp only [heardB, Bool.and_eq_true, beq_iff_eq, Bool.not_eq_true', Bool.or_eq_true, Option.isNone_iff_eq_none] at h
  obtain ⟨⟨⟨⟨h1, h2⟩, h3⟩, h4⟩, h5⟩ := h
  exact ⟨h1, h2, h3, fun e => h4.resolve_left (by simp [e]), h5⟩
theorem next_of {s : State} {p : Packet} (h : (heardB s p && nextB s p) = true) : nextPacket s p := by
  have h := Bool.and_eq_true_iff.mp h
  exact ⟨heard_of h.1, of_decide_eq_true h.2⟩
theorem served_of {s : State} {p : Packet} (h : (heardB s p && nextB s p && lastB s p) = true) : served s p := by
  have h := Bool.and_eq_true_iff.mp h
  have k := of_decide_eq_true h.2
  exact ⟨⟨next_of h.1, k.1⟩, k.2⟩

/-- The connection is a PEER's, and window 0 gives it 64 KiB at 0x10000 under key 5 for what `perm` allows. -/
def peered (perm : BitVec 3) (p : Packet) : State :=
  let s := linked (fun k => { k with owner := false }) id
  evSt { s with port := { s.port with windows := [(0, { base := 0x10000, size := 0x10000, key := 5, perm })] } } { pkt := some p }
/-- The packet of a WRITE after its first. -/
def tail (p : Packet) : Packet := { p with first := false, addr := p.addr + 8 }

theorem witness_MessagesAndPortEvents :
    let w (p : Packet) : State := arrives p
    let post : Packet := { pkt 0 0 0 128 1 with qw := 3 }
    let q (f : Queue → Queue) : State := evSt (linked id f) { pkt := some post }
    let dead : State := { w post with dead := [0], queues := [(3, { base := 2 ^ 32, lgsize := 4, qen := true, st := .on })] }
    let rd := pkt 1 0 0x2000 8 8
    let wr := pkt 2 0 0x2000 8 8
    let long := pkt 2 0 0x2038 16 8
    let add := pkt 3 0 0x2000 8 8
    let cas := pkt 3 2 0x2000 16 8
    let fadd := pkt 3 4 0x2000 8 8
    (messageReady (w post) post .post ∧ messageReady (peered 7 post) post .post ∧ messageReady dead post .post) ∧
    (((w post).queue 3).st = .on ∧ (((w post).queue 3).tail - ((w post).queue 3).head).toNat ≠ ((w post).queue 3).slots ∧
      (w post).slotBad (((w post).queue 3).slot ((w post).queue 3).tail) = false ∧
      dead.slotBad ((dead.queue 3).slot (dead.queue 3).tail) = true ∧
      ((q fun q => { q with tail := 16 }).queue 3).tail.toNat = ((w post).queue 3).slots ∧
      ((q fun q => { q with st := .draining }).queue 3).st ≠ .on) ∧
    messageReady (w rd) rd .read ∧ messageReady (w wr) wr .write ∧ messageReady (w long) long .write ∧
    messageReady (w add) add .atomicAdd ∧ messageReady (w cas) cas .atomicCas ∧ messageReady (w fadd) fadd .atomicFaddS := by
  unfold messageReady freeRun plainLine plainBut owns inReach unlocked
  refine ⟨⟨⟨served_of ?_, ?_⟩, ⟨served_of ?_, ?_⟩, ⟨served_of ?_, ?_⟩⟩, ?_, ⟨served_of ?_, ?_⟩, ⟨served_of ?_, ?_⟩, ⟨served_of ?_, ?_⟩,
    ⟨0, rfl, served_of ?_, ?_⟩, ⟨2, rfl, served_of ?_, ?_⟩, ⟨4, rfl, served_of ?_, ?_⟩⟩ <;> decide +kernel

theorem witness_MessagesAndPortEvents_windows :
    let rd : Packet := { pkt 1 0 0x100 8 8 with key := 5 }
    let wr : Packet := { pkt 2 0 0x100 8 8 with key := 5 }
    let add : Packet := { pkt 3 0 0x100 8 8 with key := 5 }
    let far : Packet := { rd with addr := 0x10000 }
    let hi := { pkt 1 0 (2 ^ 46) 8 8 with key := 0 }
    (messageReady (peered 1 rd) rd .read ∧ messageReady (peered 2 wr) wr .write ∧ messageReady (peered 4 add) add .atomicAdd) ∧
    (served (peered 1 far) far ∧ ¬inReach (peered 1 far) (whole (peered 1 far) far) 8 ∧ served (arrives hi) hi ∧
      ¬inReach (arrives hi) (whole (arrives hi) hi) 8) ∧
    (served (peered 6 rd) rd ∧ reaches (whole (peered 6 rd) rd) 8 .read ∧ inReach (peered 6 rd) (whole (peered 6 rd) rd) 8 ∧
      ¬unlocked (peered 6 rd) (whole (peered 6 rd) rd)) ∧
    (served (peered 5 wr) wr ∧ reaches (whole (peered 5 wr) wr) 8 .write ∧ ¬unlocked (peered 5 wr) (whole (peered 5 wr) wr)) ∧
    served (peered 3 add) add ∧ reaches (whole (peered 3 add) add) 8 .atomicAdd ∧
      ¬unlocked (peered 3 add) (whole (peered 3 add) add) := by
  unfold messageReady freeRun plainLine plainBut inReach unlocked reaches
  refine ⟨⟨⟨served_of ?_, ?_⟩, ⟨served_of ?_, ?_⟩, ⟨0, rfl, served_of ?_, ?_⟩⟩, ⟨served_of ?_, ?_, served_of ?_, ?_⟩,
    ⟨served_of ?_, ?_⟩, ⟨served_of ?_, ?_⟩, served_of ?_, ?_⟩ <;> decide +kernel

theorem witness_MessagesAndPortEvents_packets :
    let one : Packet := { pkt 2 0 0x2000 8 8 with last := false }
    let two : Packet := tail (pkt 2 0 0x2000 8 9)
    let part (p : Packet) : State := evSt (linked (fun k => { k with part := [one] }) id) { pkt := some p }
    let cpl : Packet := { pkt 4 0 0 8 8 with last := false }
    (nextPacket (arrives one) one ∧ one.last = false) ∧ (nextPacket (part { two with last := false }) { two with last := false }) ∧
    (messageReady (part two) two .write ∧ (whole (part two) two).payload.length = 16) ∧ nextPacket (arrives cpl) cpl := by
  unfold messageReady freeRun plainLine plainBut inReach unlocked
  refine ⟨⟨next_of ?_, ?_⟩, next_of ?_, ⟨⟨served_of ?_, ?_⟩, ?_⟩, next_of ?_⟩ <;> decide +kernel

theorem witness_MessagesAndPortEvents_management :
    let w (p : Packet) : State := arrives p
    let man (op n v : Nat) : Packet := pkt 5 (BitVec.ofNat 8 op) 0 n v
    let cpl : Packet := pkt 4 0 0 0 0
    let c (r : Waiter) := evSt (linked (fun k => { k with reqs := [(77, r)] }) id) { pkt := some cpl }
    let ack : Packet := { packet0 with typ := 6, conn := 5, src := 9 }
    messageReady (c (.queue 3)) cpl .completion ∧ messageReady (c (.record 3 1)) cpl .completion ∧ messageReady (w ack) ack .ack ∧
    messageReady (w (man 1 8 0)) (man 1 8 0) .manageClose ∧ messageReady (w (man 2 32 1)) (man 2 32 1) .manageAttest ∧
    messageReady (w (man 3 8 5)) (man 3 8 5) .manageBbread ∧ messageReady (peered 7 (man 3 8 5)) (man 3 8 5) .manageBbread ∧
    messageReady (w (man 4 8 0)) (man 4 8 0) .manageResetWarm ∧ messageReady (peered 7 (man 4 8 0)) (man 4 8 0) .manageResetWarm ∧
    messageReady (w (man 4 8 1)) (man 4 8 1) .manageResetKeep ∧ messageReady (w (man 4 8 2)) (man 4 8 2) .manageResetCold ∧
    messageReady (w (man 5 48 2)) (man 5 48 2) .manageCakset ∧
    messageReady (peered 7 (man 5 48 2)) (man 5 48 2) .manageCakset := by
  unfold messageReady
  refine ⟨⟨(served_of ?_).1, ?_, ?_, 3, .inl ?_⟩, ⟨(served_of ?_).1, ?_, ?_, 3, .inr ⟨1, ?_⟩⟩, ⟨heard_of ?_, ?_⟩,
    ⟨(served_of ?_).1, ?_⟩, ⟨(served_of ?_).1, ?_⟩, ⟨served_of ?_, ?_⟩, ⟨served_of ?_, ?_⟩, ⟨served_of ?_, ?_⟩, ⟨served_of ?_, ?_⟩,
    ⟨served_of ?_, ?_⟩, ⟨served_of ?_, ?_⟩, ⟨served_of ?_, ?_⟩, ⟨served_of ?_, ?_⟩⟩ <;> decide +kernel

theorem witness_MessagesAndPortEvents_open :
    let opn (kind : Nat) : Packet := { pkt 5 0 0 16 (kind * 2 ^ 120 + 8 * 2 ^ 96) with conn := 0 }
    let at_ (s : State) (kind : Nat) : State := evSt s { pkt := some (opn kind) }
    let held := linked id id
    let taken : State := { held with port := { held.port with owner := some 8 } }
    let closed : State := { held with port := { held.port with msreq := true } }
    (openSound (at_ on 0) (opn 0) ∧ openRefusal (at_ on 0) (opn 0) = none ∧ lowestFree (at_ on 0) = some 0) ∧
    (openSound (at_ held 0) (opn 0) ∧ openRefusal (at_ held 0) (opn 0) = none) ∧
    (openSound (at_ taken 0) (opn 0) ∧ openRefusal (at_ taken 0) (opn 0) = some 8) ∧
    (openSound (at_ taken 1) (opn 1) ∧ openRefusal (at_ taken 1) (opn 1) = none) ∧
    openSound (at_ closed 0) (opn 0) ∧ openRefusal (at_ closed 0) (opn 0) = some 2 := by
  unfold openSound
  refine ⟨⟨⟨heard_of ?_, ?_⟩, ?_⟩, ⟨⟨heard_of ?_, ?_⟩, ?_⟩, ⟨⟨heard_of ?_, ?_⟩, ?_⟩, ⟨⟨heard_of ?_, ?_⟩, ?_⟩,
    ⟨heard_of ?_, ?_⟩, ?_⟩ <;> decide +kernel

/-- Every connection number is taken. -/
def crowd : State := { on with port := { conns := (List.range 1024).map fun i => (i + 1, { st := .opened }) } }
theorem crowd_conn (l : List Nat) (i : Nat) (h : i ∈ l) :
    Tab.get ({} : Conn) (l.map fun i => (i + 1, { st := .opened })) (i + 1) = { st := .opened } := by
  induction l with
  | nil => simp at h
  | cons a r ih =>
    rw [List.map_cons, Tab.get]
    by_cases e : a = i
    · simp [e]
    · rw [if_neg (by omega)]
      exact ih ((List.mem_cons.mp h).resolve_left (Ne.symm e))

theorem witness_MessagesAndPortEvents_full :
    let opn : Packet := { pkt 5 0 0 16 (7 * 2 ^ 96) with conn := 0 }
    let s := evSt crowd { pkt := some opn }
    openSound s opn ∧ openRefusal s opn = some 9 := by
  have full (ev : Ev) : lowestFree (evSt crowd ev) = none := by
    refine List.find?_eq_none.mpr fun i hi => ?_
    rw [State.conn, evSt, crowd, crowd_conn _ i hi]
    decide
  refine ⟨⟨heard_of ?_, ?_⟩, ?_⟩
  · decide +kernel
  · decide +kernel
  · rw [openRefusal, if_neg (by decide +kernel), if_neg (by decide +kernel), if_pos (full _)]

theorem witness_MessagesAndPortEvents_port :
    let s (k : Conn → Conn) : State := evSt (linked k id) { idx := 5 }
    let other := { packet0 with ver := 2 }
    portReady { on with camp := { on.camp with cak := some [] } } .mkaKeyChange ∧
    portReady (evSt (linked id id) { pkt := some other }) .frameDrop ∧
    portReady on .icmpv6NdAnswer ∧ portReady (s fun k => { k with ackDue := true }) .ackDelayExpire ∧
    portReady (s fun k => { k with unacked := [⟨packet0, 3⟩] }) .retransmissionTimerExpire ∧
    portReady (s fun k => { k with unacked := [⟨packet0, 12⟩] }) .retransmissionTimerExpire ∧
    portReady (s fun k => { k with st := .held }) .connectionHoldExpire ∧
    portReady (s fun k => { k with waiting := [packet0] }) .outboundTransferSend := by
  unfold portReady
  refine ⟨?_, ⟨?_, ?_⟩, trivial, ?_, ⟨⟨packet0, 3⟩, ?_⟩, ⟨⟨packet0, 12⟩, ?_⟩, ?_, ⟨packet0, ?_⟩⟩ <;> decide +kernel

/-- An access of 8 bytes at an offset of die 0's registers. -/
def access (s : State) (off : Nat) (value : Word) : State := evSt s { addr := 0x80000000000 + off, width := 8, value }

theorem dev_of {s : State} {need : Need} {cs : Causes} {va : Word} {n pa : Nat} {r w : Bool}
    (h : (match s.place need cs va n r w with | .dev p => p == pa | _ => false) = true) : s.place need cs va n r w = .dev pa := by
  split at h
  · next e => rw [e, eq_of_beq h]
  · exact absurd h (by decide)

theorem witness_RegisterAccesses :
    let off := linked id fun q => { q with st := .off, qen := false }
    let sl := linked id fun q => { q with tail := 2 }
    let run := { on with belfry := { recs := [(1, some { rec1 with st := .ready })] } }
    accessReady (access on 0x2008 5) .registerWrite ∧ accessReady (access on 0x3000 5) .registerWrite ∧
    accessReady (access off 0x100C0 0x10000) .registerWrite ∧ accessReady (access on 0x3010 5) .windowCommit ∧
    accessReady (access on 0x2018 5) .portaddrCommit ∧ accessReady (access on 0x40000008 5) .campanileStore ∧
    accessReady (access on 0x5000 5) .xlinvPage ∧ accessReady (access on 0x5000 0x20005) .xlinvAsid ∧
    accessReady (access on 0x5000 0x10000) .xlinvAll ∧ accessReady (access off 0x100C8 9) .queueEnable ∧
    accessReady (access sl 0x100C8 8) .queueDisable ∧ accessReady (access sl 0x100E8 0) .qcancelTag ∧
    accessReady (access sl 0x100E8 (2 ^ 32)) .qcancelAll ∧ accessReady (access run 0x20010 0) .schcancelTag ∧
    (schHits (access run 0x20010 0) 0).length = 1 ∧ accessReady (access run 0x20010 0x80) .schcancelAll ∧
    accessReady (access on 0x1000 0) .chainstRead ∧ accessReady (access on 0x2000 0) .portstRead ∧
    accessReady (access on 0x4000 0) .memhlthRead ∧ accessReady (access on 0x100E0 0) .qstatRead ∧
    accessReady (access on 0x20008 0) .schstRead ∧ accessReady (access (su []) 0x2020 0) .unassignedAccess ∧
    (accessReady (access (sm []) 0x2020 0) .unassignedAccess ∧ ((access (sm []) 0x2020 0).thread 0).mode = .m) ∧
    accessReady (evSt (linked id fun q => { q with tail := 2, cancelled := [0] }) { idx := 3 }) .cancelledSlotPass := by
  unfold accessReady named
  exact ⟨.inl (by decide +kernel), .inr (.inr (.inr (.inr (.inl ⟨0, .inl (by decide +kernel)⟩)))),
    .inr (.inr (.inr (.inr (.inr ⟨3, .inl (by decide +kernel), by decide +kernel⟩)))), ⟨0, by decide +kernel⟩, by decide +kernel,
    ⟨8, by decide +kernel⟩, by decide +kernel, by decide +kernel, by decide +kernel, ⟨3, by decide +kernel⟩, ⟨3, by decide +kernel⟩,
    ⟨3, by decide +kernel⟩, ⟨3, by decide +kernel⟩, by decide +kernel, by decide +kernel, by decide +kernel, ⟨0, by decide +kernel⟩,
    by decide +kernel, ⟨0, by decide +kernel⟩, ⟨3, by decide +kernel⟩, by decide +kernel, by decide +kernel, by decide +kernel,
    by decide +kernel⟩

theorem witness_RegisterAccesses_store :
    let s := sm [(1, 0x80000005000), (2, 0x20000)]
    let el : Elem := { idx := 0, va := 0x2000, pas := [0x2000], mask := [0xFF], bytes := [9] }
    let h : Held := { id := 1, ord := false, ovt := true, scope := 1, atomic := false, elems := [el], pins := [⟨0, 16⟩] }
    let p := s.updThread 0 fun t => { t with held := [h] }
    (s.place .write storeCauses (s.rd 1 + (0 : BitVec 12).signExtend 64) 8 false false = .dev 0x80000005000 ∧
      devAccess 0x80000005000 8 = some (.xlinv, true, true) ∧ s.fenceWaits = false ∧ s.xlinvWaits (s.rd 2).toNat = false) ∧
    p.place .write storeCauses (p.rd 1 + (0 : BitVec 12).signExtend 64) 8 false false = .dev 0x80000005000 ∧
      p.fenceWaits = false ∧ p.xlinvWaits (p.rd 2).toNat = true := by
  refine ⟨⟨dev_of ?_, ?_⟩, dev_of ?_, ?_⟩ <;> decide +kernel

/-- A start record of one thread on die 0: ENTRY 4096, VLC 64; `more` adds fields. -/
def startRec (more : List (Nat × Nat)) : BitVec 1024 := BitVec.ofNat 1024 (fields ([(0, 4096), (75, 1), (88, 64)] ++ more))
/-- Record 1 in a state of the pending set; thread 0 belongs to it. -/
def sched (bits : BitVec 1024) (s0 : RecSt) (t : Thread → Thread) : State :=
  { su [] with
    threads := [(0, t (thr .u []))], cores := [(0, core1)], now := 10 ^ 9, ev := { idx := 1 }
    belfry := { recs := [(1, some { rec1 with bits, st := s0 })], depto := 5 } }
/-- Queue 3 holds one record. -/
def ringSt (cells : List Host.Cell) : State := { linked id (fun q => { q with tail := 1 }) with mem := cells }
/-- Record 2 claims the hart on which record 1 runs with a lower priority and a save area. -/
def crowded : State :=
  let s := sched (startRec [(208, 2)]) .run id
  { s with belfry := { s.belfry with recs := s.belfry.recs ++
      [(2, some { rec1 with bits := startRec [], prio := 3, st := .ready, seats := [], claim := some [⟨0, 0, 0⟩] })] } }

theorem witness_SchedulerEvents :
    let good := ringSt [(0x10001, 0x10), (0x10009, 8), (0x1000b, 0x40)]
    let bad := ringSt []
    let dead := { good with poison := [lineOf 0x10000] }
    let held := { good with ops := [(3, some { opOf (.xcopy 0x10000 0 64 false) with owns := [(lineOf 0x10000, 1)] })] }
    let plain := startRec []
    let free := { on with belfry := { recs := [(1, some { rec1 with bits := plain, st := .ready, claim := some [⟨0, 0, 0⟩] })] } }
    (good.serving = true ∧ good.nextQueue = some 3 ∧ ¬headFails good 3 ∧ ¬headWaits good 3 ∧
      recCheck (good.queue 3) (headRec good 3) = none ∧ (passed good 3).fitsIdle (headRec good 3) = true ∧
      selfDep (headRec good 3) = false ∧ good.deadDep (headRec good 3) = false) ∧
    (bad.nextQueue = some 3 ∧ ¬headFails bad 3 ∧ ¬headWaits bad 3 ∧ recCheck (bad.queue 3) (headRec bad 3) = some 3) ∧
    (dead.nextQueue = some 3 ∧ headFails dead 3 ∧ held.nextQueue = some 3 ∧ ¬headFails held 3 ∧ headWaits held 3) ∧
    schedReady (sched plain .wait id) .dependencePass ∧ ((sched plain .wait id).deadDep plain = false ∧
      ∀ i < recNdep plain, (sched plain .wait id).depPasses plain i = true) ∧
    schedReady (sched plain .wait id) .dependenceTimeout ∧ schedReady (sched plain .ready id) .claimFormed ∧
    (free.serving = true ∧ Tab.wf none free.belfry.recs = true ∧ free.nextPlaced.isSome = true) ∧
    (∃ x, free.nextPlaced = some x ∧ true = true) := by
  unfold schedReady headFails headWaits
  refine ⟨?_, ?_, ?_, ⟨{ rec1 with bits := startRec [], st := .wait }, ?_⟩, ?_, ⟨{ rec1 with bits := startRec [], st := .wait }, ?_⟩,
    ⟨{ rec1 with bits := startRec [], st := .ready }, ?_⟩, ?_, some_of (fun _ => true) ?_⟩ <;> decide +kernel

theorem witness_SchedulerEvents_gangs :
    let plain := startRec []
    let saved := startRec [(208, 2)]
    let far := startRec [(208, 2 ^ 30 - 1)]
    let stop := sched saved .stop fun t => { t with live := false, stopped := true }
    let fault := (sched (startRec [(109, 1)]) .place id).updCore 0 fun c => c.setStream 0 { st := .fault }
    let done (l : List (Nat × Nat)) := sched (startRec l) (.ending 0 0) fun t => { t with live := false }
    let lost : State := { done [(259, 0x400)] with poison := [0x80] }
    schedReady (sched plain .place id) .gangStart ∧ schedReady fault .prefetchFault ∧
    (crowded.serving = true ∧ crowded.belfry.nopre = false ∧ crowded.topRecord.map (·.1) = some 2 ∧
      (match crowded.topRecord with
        | some (e, r) => !r.victims.any crowded.standing && (crowded.place? e r).isNone &&
            crowded.addVictims e r [] (crowded.candidates e r) == some [1]
        | none => false) = true) ∧
    schedReady (sched saved .stop fun t => { t with prq := true, stopNow := true }) .threadStopSave ∧
    schedReady (sched saved .stop fun t => { t with prq := true }) .preemptForceExpire ∧
    schedReady stop .gangSaved ∧ schedReady (sched far .stop id) .saveRestoreFail ∧
    schedReady (done [(259, 0x400)]) .recordComplete ∧ schedReady (done []) .recordComplete ∧
    ((done [(259, 0x400)]).rec? 1).map (fun r => recCplw r.bits) = some 0x2000 ∧ plainLine (done [(259, 0x400)]) 0x2000 ∧
    (done [(259, 0x400)]).wordFails 0x2000 = false ∧ schedReady lost .recordComplete ∧ lost.wordFails 0x2000 = true := by
  unfold schedReady plainLine plainBut
  refine ⟨⟨{ rec1 with bits := startRec [], st := .place }, ?_⟩, ⟨{ rec1 with bits := startRec [(109, 1)], st := .place }, ?_⟩, ?_,
    ⟨?_, ?_, { rec1 with bits := startRec [(208, 2)], st := .stop }, ?_⟩, ?_,
    ⟨{ rec1 with bits := startRec [(208, 2)], st := .stop }, ?_⟩,
    ⟨{ rec1 with bits := startRec [(208, 2 ^ 30 - 1)], st := .stop }, ?_⟩,
    ⟨?_, { rec1 with bits := startRec [(259, 0x400)], st := .ending 0 0 }, 0, 0, ?_⟩,
    ⟨?_, { rec1 with bits := startRec [], st := .ending 0 0 }, 0, 0, ?_⟩, ?_, ?_, ?_,
    ⟨?_, { rec1 with bits := startRec [(259, 0x400)], st := .ending 0 0 }, 0, 0, ?_⟩, ?_⟩ <;> decide +kernel

theorem witness_EncodedWordsDecodeBack :
    (Instr.vsetvl 1 2).wf = true ∧ (encode32 (.vsetvl 1 2)).isSome = true ∧ (Instr.vadd vw1).wf = true ∧
    (encode64 (.vadd vw1)).isSome = true := by decide +kernel

/-- Thread 0 in M mode at 4096, with code there: C.NOP and ADDI x1, x0, 5. -/
def codeSt (cells : List Host.Cell) : State := { sm [] with mem := cells, agenda := [.thread 0] }
/-- Bank 0 of thread 0 stands at VMOVI m1 := 1 (R311), which lies at 0x8000. -/
def convSt : State :=
  let s := vs 0 [(0x8000, 1), (0x8006, 1), (0x8007, 0x27)]
  { s.updThread 0 fun t => { t with vq := [⟨0x8000, s.act.snap, 0, true⟩], banks := [(0, { pc := 0x8000 })] } with
    act := {}, agenda := [.banks 0 [0]] }

theorem witness_StepRunsTheDecodedInstruction :
    let c := codeSt [(4096, 1)]
    let a := codeSt [(4096, 0x93), (4098, 0x50)]
    let w : BitVec 64 := 0x2701000000000001
    let b : Block := ⟨0x8000, (vs 0 []).act.snap, 0, true⟩
    let u := ({ convSt with agenda := [] } : State).beginBlock 0
    let u1 := u.vecFill 0 true 0x8000
    threadTurnAt c 0 [] ∧ halfAt (onTurn c 0 []) 4096 4096 ∧
    (let u1 := (onTurn c 0 []).icFill 0 4096
     leNat (u1.icBytes 0 4096 2) % 4 ≠ 3 ∧ decodeBytes (u1.icBytes 0 4096 2) = .ok (.baseInstruction (.imm .addi 0 0 0), 2) ∧
     noTrapDue (u1.latch (u1.icBytes 0 4096 2) 2) (.baseInstruction (.imm .addi 0 0 0))) ∧
    threadTurnAt a 0 [] ∧ halfAt (onTurn a 0 []) 4096 4096 ∧ halfAt ((onTurn a 0 []).icFill 0 4096) 4098 4098 ∧
    decodeBytes [0x93, 0, 0x50, 0] = .ok (.baseInstruction (.imm .addi 1 0 5), 4) ∧
    banksTurnAt convSt 0 [0] [] b { pc := 0x8000 } ∧ u.convoy 0 true 4 0x8000 = [some w] ∧
    convoyBad .joined 0x777 1 0 [] [w] = none ∧
    (match exec (decode64 w) { u1 with act := (u.thread 0).actOf 0 [0] b { pc := 0x8000 } } with
      | .next _ => true
      | _ => false) = true ∧
    on.admits .thermalTrip = true ∧ on.admits (rowOf packet0) = true := by
  unfold threadTurnAt halfAt noTrapDue banksTurnAt
  refine ⟨?_, ok_of ?_, ⟨?_, ok_of ?_, ?_⟩, ?_, ok_of ?_, ok_of ?_, ok_of ?_, ?_⟩ <;> decide +kernel

theorem witness_StepKeepsMemoryCanonical :
    Memory.wf (codeSt [(4096, 1)]).mem = true ∧
    (match step (codeSt [(4096, 1)]) with | .next t => t.me.pc == 4098 | _ => false) = true := by decide +kernel

end Sys2Proof.Tests
end

section
/-! Proofs of the statements on vector settings (R275 to R280) and on system instructions (R186, R272, R290, R292, R295).
The common part first: what an instruction keeps that edits only its own thread, and what it leaves once it has performed. -/

namespace Sys2Proof.Proofs.Scalar

open Sys2Proof Sys2Proof.Machine Sys2Proof.Say

/-! Only the executing thread changes. -/

theorem onlyMe_refl (s : State) : OnlyMe s s := ⟨rfl, fun _ _ => rfl⟩

theorem onlyMe_updMe {s u : State} (h : OnlyMe s u) (f : Thread → Thread) : OnlyMe s (u.updMe f) := by
  obtain ⟨houtside, hothers⟩ := h
  have hcur : u.cur = s.cur := by
    unfold Outside at houtside
    simpa using congrArg State.cur houtside
  exact ⟨houtside, fun k hk => (State.thread_updMe_other u f (hcur ▸ hk)).trans (hothers k hk)⟩

theorem onlyMe_wr {s u : State} (h : OnlyMe s u) (r : Reg) (v : Word) : OnlyMe s (u.wr r v) :=
  onlyMe_updMe h fun t => t.setX r v

theorem onlyMe_advance {s u : State} (h : OnlyMe s u) : OnlyMe s u.advance := onlyMe_updMe h _

/-! An instruction prepared and performed. -/

/-- State `u` differs from `s` in the executing thread alone, and there not in its place, its mode, its registers or its
queued blocks; its CSRs are `c`. So a scalar instruction stands before it writes its result. -/
structure Edits (s u : State) (c : Csrs) : Prop where
  onlyMe : OnlyMe s u
  npc : u.me.npc = s.me.npc
  mode : u.me.mode = s.me.mode
  regs : u.me.x = s.me.x
  queue : u.me.vq = s.me.vq
  csr : u.me.csr = c

theorem Edits.refl (s : State) : Edits s s s.me.csr := ⟨onlyMe_refl s, rfl, rfl, rfl, rfl, rfl⟩

/-- One more change of the executing thread. -/
theorem Edits.updMe {s u : State} {c c' : Csrs} (h : Edits s u c) (f : Thread → Thread) (hcsr : (f u.me).csr = c')
    (hnpc : (f u.me).npc = u.me.npc := by rfl) (hmode : (f u.me).mode = u.me.mode := by rfl)
    (hx : (f u.me).x = u.me.x := by rfl) (hvq : (f u.me).vq = u.me.vq := by rfl) : Edits s (u.updMe f) c' where
  onlyMe := onlyMe_updMe h.onlyMe f
  npc := by simp [hnpc, h.npc]
  mode := by simp [hmode, h.mode]
  regs := by simp [hx, h.regs]
  queue := by simp [hvq, h.queue]
  csr := by simp [hcsr]

theorem csrsAre_advance {u : State} {c : Csrs} (hc : u.me.csr = c) : CsrsAre u.advance c := by
  subst hc
  simp [CsrsAre]

theorem sameRegs_advance {s u : State} (hx : u.me.x = s.me.x) : SameRegs s u.advance := fun q =>
  (State.rd_advance u q).trans (Thread.getX_congr hx q)

theorem regs_wr_advance {s u : State} (hx : u.me.x = s.me.x) (rd : Reg) (v : Word) : Regs s (u.wr rd v).advance rd v := by
  intro q
  rw [State.rd_advance, State.rd_wr, show u.rd q = s.rd q from Thread.getX_congr hx q]
  by_cases hq : q = rd
  · subst hq
    by_cases h0 : q = 0
    · subst h0
      rfl
    · simp only [h0, ne_eq, not_false_eq_true, and_self, if_true, if_false]
  · simp [hq]

/-- An instruction without a result has performed. -/
theorem Edits.advance {s u : State} {c : Csrs} (h : Edits s u c) :
    OnlyMe s u.advance ∧ At s u.advance s.me.npc ∧ SameRegs s u.advance ∧ CsrsAre u.advance c :=
  ⟨onlyMe_advance h.onlyMe, ⟨by simp [h.npc], by simp [h.mode], by simp⟩, sameRegs_advance h.regs,
    csrsAre_advance h.csr⟩

/-- What an instruction that sets the CSRs to `c` and gives `v` in `rd` leaves. -/
def Sets (s : State) (rd : Reg) (v : Word) (c : Csrs) (t : State) : Prop :=
  OnlyMe s t ∧ At s t s.me.npc ∧ Regs s t rd v ∧ CsrsAre t c ∧ t.me.vq = s.me.vq

/-- An instruction has written its result and performed. -/
theorem Edits.wr_advance {s u : State} {c : Csrs} (h : Edits s u c) (rd : Reg) (v : Word) :
    Sets s rd v c (u.wr rd v).advance :=
  ⟨onlyMe_advance (onlyMe_wr h.onlyMe rd v), ⟨by simp [h.npc], by simp [h.mode], by simp⟩,
    regs_wr_advance h.regs rd v, csrsAre_advance (by simp [h.csr]), by simp [h.queue]⟩

/-- An instruction whose meaning ends in `ret`. -/
theorem Edits.does_ret {s u : State} {c : Csrs} {i : Instr} {rd : Reg} {v : Word} (h : Edits s u c)
    (hi : exec i s = u.ret rd v) : Does i s (Sets s rd v c) :=
  ⟨(u.wr rd v).advance, hi, h.wr_advance rd v⟩

/-! Vector settings. -/

theorem notOnCupola_of_not {s : State} (h : s.onCupola = false) (k : Out) : s.notOnCupola k = k := by
  simp [State.notOnCupola, h]

theorem vlFor_lt (s : State) (req : Word) : vlFor s req < 2 ^ 18 := by
  have := s.me.vlc.isLt
  unfold vlFor
  omega

/-- A vector length and the register value that is read from it. -/
theorem setWidth_vl {n : Nat} (h : n < 2 ^ 18) : (BitVec.ofNat 18 n).setWidth 64 = word n := by
  apply BitVec.eq_of_toNat_eq
  simp only [BitVec.toNat_setWidth, BitVec.toNat_ofNat]
  omega

theorem setVl_edits (s : State) (req : Word) :
    Edits s (s.setVl req) { s.me.csr with vl := BitVec.ofNat 18 (vlFor s req) } := by
  unfold State.setVl
  exact (Edits.refl s).updMe _ rfl

theorem Edits.setVw {s u : State} {c : Csrs} (h : Edits s u c) (w : BitVec 12) :
    Edits s (u.setVw w) { c with vw := w } := h.updMe _ (by rw [← h.csr])

/-- The strip watermark is no CSR (R348). -/
theorem Edits.stripCheck {s u : State} {c : Csrs} (h : Edits s u c) : Edits s u.stripCheck c := by
  cases hw : u.me.water <;>
    exact h.updMe _ (by simp [hw, h.csr]) (by simp [hw]) (by simp [hw]) (by simp [hw]) (by simp [hw])

/-- The new vl as both instructions return it. -/
theorem Edits.vlWord {s u : State} {c : Csrs} (h : Edits s u c) (req : Word) (hvl : c.vl = BitVec.ofNat 18 (vlFor s req)) :
    u.vlWord = word (vlFor s req) := by
  rw [State.vlWord, h.csr, hvl, setWidth_vl (vlFor_lt s req)]

theorem vsetvl_sets {s : State} (hc : s.onCupola = false) (hs : s.stripStop = false) (rd rs1 : Reg) :
    Does (.vsetvl rd rs1) s (Sets s rd (word (vlFor s (s.rd rs1)))
      { s.me.csr with vl := BitVec.ofNat 18 (vlFor s (s.rd rs1)) }) := by
  have hu := setVl_edits s (s.rd rs1)
  apply hu.stripCheck.does_ret
  simp [exec, execVsetvl, notOnCupola_of_not hc, hs, hu.vlWord _ rfl]

theorem vsetvli_sets {s : State} (hc : s.onCupola = false) (hs : s.stripStop = false) (rd rs1 : Reg) (w : BitVec 12) :
    Does (.vsetvli rd rs1 w) s (Sets s rd (word (vlFor s (s.rd rs1)))
      { s.me.csr with vl := BitVec.ofNat 18 (vlFor s (s.rd rs1)), vw := w }) := by
  have hu := (setVl_edits s (s.rd rs1)).setVw w
  apply hu.stripCheck.does_ret
  simp [exec, execVsetvli, notOnCupola_of_not hc, hs, hu.vlWord _ rfl]

theorem setWidth_setWidth_eq_and (x : Word) : (x.setWidth 12).setWidth 64 = x &&& 0xFFF := by
  apply BitVec.eq_of_toNat_eq
  simp only [BitVec.toNat_setWidth, BitVec.toNat_and]
  rw [show (0xFFF : Word).toNat = 2 ^ 12 - 1 from rfl, Nat.and_two_pow_sub_one_eq_mod]
  omega

theorem vsetw_sets {s : State} (hc : s.onCupola = false) (rd rs1 : Reg) :
    Does (.vsetw rd rs1) s (Sets s rd (s.rd rs1 &&& 0xFFF) { s.me.csr with vw := (s.rd rs1).setWidth 12 }) := by
  apply ((Edits.refl s).setVw _).does_ret
  rw [← setWidth_setWidth_eq_and]
  exact notOnCupola_of_not hc _

theorem vslip_sets {s : State} (hc : s.onCupola = false) (rd rs1 : Reg) :
    Does (.vslip rd rs1) s (Sets s rd (word (min 15 (s.rd rs1).toNat))
      { s.me.csr with vslip := BitVec.ofNat 4 (min 15 (s.rd rs1).toNat) }) :=
  Edits.does_ret ((Edits.refl s).updMe _ rfl) (notOnCupola_of_not hc _)

theorem vlive_sets {s : State} (hc : s.onCupola = false) (rd rs1 rs2 : Reg) :
    Does (.vlive rd rs1 rs2) s (Sets s rd s.me.csr.vlive { s.me.csr with
      vlive := ((s.me.csr.vlive &&& ~~~(s.rd rs2)) ||| (s.rd rs1 &&& s.rd rs2)) &&& 0xFFFFFFFF00FFFFFF }) :=
  Edits.does_ret ((Edits.refl s).updMe _ rfl) (notOnCupola_of_not hc _)

/-- The context after a request that is granted (R106): the new mvl is that of the new context. -/
theorem setCtx_granted {s : State} {v : Word} (h : s.ctxOk v = true) :
    (s.setCtx v).1 = word (s.myCore.mvl (v.setWidth 10)) ∧ Edits s (s.setCtx v).2 { s.me.csr with
      vctx := v.setWidth 10, vl := BitVec.ofNat 18 (min s.me.csr.vl.toNat (s.myCore.mvl (v.setWidth 10))) } := by
  have h1 : Edits s (s.updMe fun t => { t with csr := { t.csr with vctx := v.setWidth 10 } })
    { s.me.csr with vctx := v.setWidth 10 } := (Edits.refl s).updMe _ rfl
  simp only [State.setCtx, h, if_true]
  constructor
  · simp [State.mvl]
  · exact h1.updMe _ (by simp [State.mvl])

theorem setCtx_refused {s : State} {v : Word} (h : s.ctxOk v = false) : s.setCtx v = (0, s) := by
  simp [State.setCtx, h]

theorem exec_vctx {s : State} (hc : s.onCupola = false) (hw : s.ctxWaits = false) (rd rs1 : Reg) :
    exec (.vctx rd rs1) s = (s.setCtx (s.rd rs1)).2.ret rd (s.setCtx (s.rd rs1)).1 := by
  simp [exec, execVctx, notOnCupola_of_not hc, hw]

theorem vctx_sets {s : State} (hc : s.onCupola = false) (hw : s.ctxWaits = false) {rd rs1 : Reg} {r : Reg × Word × Csrs}
    (h : setsTo s (.vctx rd rs1) = some r) : Does (.vctx rd rs1) s (Sets s r.1 r.2.1 r.2.2) := by
  have hi := exec_vctx hc hw rd rs1
  obtain rfl := Option.some.inj h
  by_cases hok : s.ctxOk (s.rd rs1) = true
  · obtain ⟨hv, hu⟩ := setCtx_granted hok
    rw [if_pos hok]
    exact hu.does_ret (hv ▸ hi)
  · rw [if_neg hok]
    rw [setCtx_refused (by simpa using hok)] at hi
    exact (Edits.refl s).does_ret hi

/-- Settles O11: every setting is an edit of the thread's CSRs followed by the write of its result. -/
theorem settingsAreSet : Obligations.SettingsAreSet := by
  unfold Obligations.SettingsAreSet
  intro i s rd v c h hf
  change Does i s (Sets s rd v c)
  cases i with
  | vsetvl rd rs1 =>
    cases h
    obtain ⟨hc, hs⟩ := hf
    exact vsetvl_sets hc hs rd rs1
  | vsetvli rd rs1 w =>
    cases h
    obtain ⟨hc, hs⟩ := hf
    exact vsetvli_sets hc hs rd rs1 w
  | vsetw rd rs1 =>
    cases h
    exact vsetw_sets hf rd rs1
  | vslip rd rs1 =>
    cases h
    exact vslip_sets hf rd rs1
  | vlive rd rs1 rs2 =>
    cases h
    exact vlive_sets hf rd rs1 rs2
  | vctx rd rs1 =>
    obtain ⟨hc, hw⟩ := hf
    exact vctx_sets hc hw h
  | _ => cases h

/-! System instructions. -/

theorem machineOnly_of_m {s : State} (h : s.me.mode = .m) (k : Out) : s.machineOnly k = k := by
  simp [State.machineOnly, h]

/-- The whole effect of a system instruction that is ready. -/
def SysEffect (i : Instr) (s : State) : Prop := Does i s fun t => At s t s.me.npc ∧ sysDone s t i

theorem yield_effect (s : State) : SysEffect .yield s := by
  have hu : Edits s (s.updMe fun t => { t with yielded := true }) s.me.csr := (Edits.refl s).updMe _ rfl
  obtain ⟨honly, hat, hregs, hcsrs⟩ := hu.advance
  exact ⟨_, rfl, hat, honly, hregs, hcsrs, by simp⟩

theorem wfi_effect {s : State} (hm : s.me.mode = .m)
    (hp : s.me.convTrap.isSome ∨ s.me.laneTraps ≠ [] ∨ s.me.engTraps ≠ [] ∨ s.me.prq = true) : SysEffect .wfi s := by
  have hi : exec .wfi s = .next s.advance := by
    have : (s.me.trapPending || s.me.prq) = true := by simpa [Thread.trapPending, or_assoc] using hp
    simp [exec, execWfi, machineOnly_of_m hm, this]
  obtain ⟨honly, hat, hregs, hcsrs⟩ := (Edits.refl s).advance
  exact ⟨_, hi, hat, honly, hregs, hcsrs⟩

theorem stripStop_iff (s : State) : s.stripStop = true ↔ s.me.prq = true ∧ s.me.mode = .u := by
  simp [State.stripStop]

/-- The mark that the thread stops is put on it after its result is written (R290). -/
theorem preemptpt_effect (rd : Reg) (s : State) : SysEffect (.preemptpt rd) s := by
  by_cases h : s.stripStop = true
  · have hasked := (stripStop_iff s).1 h
    obtain ⟨honly, -, hregs, hcsrs, -⟩ := (Edits.refl s).wr_advance rd 1
    refine ⟨(s.wr rd 1).advance.updMe fun t => { t with stopNow := true }, by simp [exec, execPreemptpt, h], ?_,
      onlyMe_updMe honly _, ?_, fun _ => ⟨?_, by simp⟩, fun hn => absurd hasked hn⟩
    · exact ⟨by simp, by simp, by simp⟩
    · simpa only [CsrsAre, State.me_updMe] using hcsrs
    · intro q
      rw [← hregs q, State.rd_def, State.rd_def, State.me_updMe]
      rfl
  · obtain ⟨honly, hat, hregs, hcsrs, -⟩ := (Edits.refl s).wr_advance rd 0
    exact ⟨(s.wr rd 0).advance, by simp [exec, execPreemptpt, h, State.ret], hat, honly, hcsrs,
      fun ha => absurd ((stripStop_iff s).2 ha) h, fun _ => ⟨hregs, by simp⟩⟩

theorem unissued_of_nil {s : State} (h : s.me.vq = []) : s.unissued = false := by simp [State.unissued, h]

theorem rngseed_effect {s : State} (h : s.me.vq = []) (rs1 rs2 : Reg) : SysEffect (.rngseed rs1 rs2) s := by
  have hu : Edits s (s.updMe fun t => { t with csr := { t.csr with rngkey := s.rd rs1, rngctr := s.rd rs2 } })
    { s.me.csr with rngkey := s.rd rs1, rngctr := s.rd rs2 } := (Edits.refl s).updMe _ rfl
  obtain ⟨honly, hat, hregs, hcsrs⟩ := hu.advance
  exact ⟨_, by simp only [exec, execRngseed, unissued_of_nil h]; rfl, hat, honly, hregs, hcsrs⟩

theorem rngnext_effect {s : State} (h : s.me.vq = []) (rd : Reg) : SysEffect (.rngnext rd) s := by
  have hu : Edits s (s.updMe fun t => { t with csr := { t.csr with rngctr := s.me.csr.rngctr + 1 } })
    { s.me.csr with rngctr := s.me.csr.rngctr + 1 } := (Edits.refl s).updMe _ rfl
  obtain ⟨honly, hat, hregs, hcsrs, -⟩ := hu.wr_advance rd (mix s.me.csr.rngkey s.me.csr.rngctr)
  exact ⟨_, by simp only [exec, execRngnext, unissued_of_nil h]; rfl, hat, honly, hregs, hcsrs⟩

/-! The black-box record (R59). -/

/-- Bits [lo+w-1:lo] of a number held in `n` bits. -/
theorem extractLsb'_ofNat_div {n lo w : Nat} (h : lo + w ≤ n) (x : Nat) :
    (BitVec.ofNat n x).extractLsb' lo w = BitVec.ofNat w (x / 2 ^ lo) := by
  ext i hi
  have hn : lo + i < n := by omega
  simp [BitVec.getElem_eq_testBit_toNat, Nat.testBit_mod_two_pow, Nat.testBit_div_two_pow, hi, hn, Nat.add_comm]

theorem extractLsb'_ofNat_eq {n lo w x : Nat} {b : BitVec w} (hn : lo + w ≤ n) (h : x / 2 ^ lo % 2 ^ w = b.toNat) :
    (BitVec.ofNat n x).extractLsb' lo w = b := by
  rw [extractLsb'_ofNat_div hn]
  exact BitVec.eq_of_toNat_eq (by simpa using h)

theorem ofNat_congr_mod {w a b : Nat} (h : a % 2 ^ w = b % 2 ^ w) : BitVec.ofNat w a = BitVec.ofNat w b :=
  BitVec.eq_of_toNat_eq (by simpa using h)

theorem ofNat_congr_mod_unless {w a b : Nat} {c : Bool} (h : a % 2 ^ w = if c then 0 else b % 2 ^ w) :
    BitVec.ofNat w a = if c then 0 else BitVec.ofNat w b := by
  cases c with
  | true => exact ofNat_congr_mod (by simpa using h)
  | false => exact ofNat_congr_mod h

/-- Bits [95:64] of a record: its code, the place and the source. -/
def bbTag (code place src : Nat) : Nat :=
  code % 256 + 2 ^ 8 * dieOf place + 2 ^ 10 * (place / 256 % 8) + 2 ^ 13 * (if isCup place then 0 else place / 8 % 16)
    + 2 ^ 17 * (if isCup place then 0 else thrOf place) + 2 ^ 20 * src + 2 ^ 24 * b2n (isCup place)

/-- The record that `State.blackBox` writes. -/
def bbEntry (time tag : Nat) (seq : BitVec 32) (a0 a1 : Word) : BitVec 256 :=
  BitVec.ofNat 256 (time % 2 ^ 64 + 2 ^ 64 * tag + 2 ^ 96 * seq.toNat + 2 ^ 128 * a0.toNat + 2 ^ 192 * a1.toNat)

/-- Writing a record puts it at the head and moves the head and the count on. -/
theorem blackBox_camp (s : State) (code place src : Nat) (a0 a1 : Word) :
    let c := (s.blackBox code place src a0 a1).camp
    Tab.get 0 c.bb s.camp.bbHead.toNat =
      bbEntry ((s.now - s.camp.cold) * 10) (bbTag code place src) s.camp.bbSeq a0 a1 ∧
    c.bbHead = s.camp.bbHead + 1 ∧ c.bbSeq = s.camp.bbSeq + 1 :=
  ⟨Tab.get_set_same _ _ _ _, rfl, rfl⟩

@[simp] theorem me_blackBox (s : State) (code place src : Nat) (a0 a1 : Word) :
    (s.blackBox code place src a0 a1).me = s.me := rfl

section
variable {time tag : Nat} (seq : BitVec 32) (a0 a1 : Word)

theorem bbEntry_time : (bbEntry time tag seq a0 a1).extractLsb' 0 64 = BitVec.ofNat 64 time := by
  rw [bbEntry, extractLsb'_ofNat_div (by decide)]
  apply ofNat_congr_mod
  omega

theorem bbEntry_tag : (bbEntry time tag seq a0 a1).extractLsb' 64 32 = BitVec.ofNat 32 tag := by
  rw [bbEntry, extractLsb'_ofNat_div (by decide)]
  apply ofNat_congr_mod
  omega

theorem bbEntry_tag_field {lo w : Nat} (h : lo + w ≤ 32) :
    (bbEntry time tag seq a0 a1).extractLsb' (64 + lo) w = BitVec.ofNat w (tag / 2 ^ lo) := by
  rw [← extractLsb'_ofNat_div h, ← bbEntry_tag (time := time) seq a0 a1]
  ext i hi
  simp [show lo + i < 32 by omega, Nat.add_assoc]

theorem bbEntry_seq (h : tag < 2 ^ 32) : (bbEntry time tag seq a0 a1).extractLsb' 96 32 = seq :=
  extractLsb'_ofNat_eq (by decide) (by omega)

theorem bbEntry_arg0 (h : tag < 2 ^ 32) : (bbEntry time tag seq a0 a1).extractLsb' 128 64 = a0 :=
  extractLsb'_ofNat_eq (by decide) (by omega)

theorem bbEntry_arg1 (h : tag < 2 ^ 32) : (bbEntry time tag seq a0 a1).extractLsb' 192 64 = a1 :=
  extractLsb'_ofNat_eq (by decide) (by omega)

end

/-- Fields side by side in a number, each within its bits. -/
theorem packed_fields {code die clu core thr src : Nat} (cup : Nat) (hcode : code < 2 ^ 8) (hdie : die < 2 ^ 2)
    (hclu : clu < 2 ^ 3) (hcore : core < 2 ^ 4) (hthr : thr < 2 ^ 3) (hsrc : src < 2 ^ 4) :
    let tag := code + 2 ^ 8 * die + 2 ^ 10 * clu + 2 ^ 13 * core + 2 ^ 17 * thr + 2 ^ 20 * src + 2 ^ 24 * cup
    tag % 2 ^ 8 = code ∧ tag / 2 ^ 8 % 2 ^ 2 = die ∧ tag / 2 ^ 10 % 2 ^ 3 = clu ∧ tag / 2 ^ 13 % 2 ^ 4 = core ∧
      tag / 2 ^ 17 % 2 ^ 3 = thr ∧ tag / 2 ^ 20 % 2 ^ 4 = src ∧ tag / 2 ^ 24 = cup := by
  intro tag
  refine ⟨?_, ?_, ?_, ?_, ?_, ?_, ?_⟩ <;> omega

theorem bbTag_fields (code place : Nat) {src : Nat} (hsrc : src < 2 ^ 4) :
    let tag := bbTag code place src
    tag % 2 ^ 8 = code % 2 ^ 8 ∧ tag / 2 ^ 8 % 2 ^ 2 = place / 2048 % 2 ^ 2 ∧ tag / 2 ^ 10 % 2 ^ 3 = place / 256 % 2 ^ 3 ∧
      tag / 2 ^ 13 % 2 ^ 4 = (if isCup place then 0 else place / 8 % 2 ^ 4) ∧
      tag / 2 ^ 17 % 2 ^ 3 = (if isCup place then 0 else place % 2 ^ 3) ∧
      tag / 2 ^ 20 % 2 ^ 4 = src ∧ tag / 2 ^ 24 = b2n (isCup place) := by
  refine packed_fields _ (Nat.mod_lt _ (by decide)) (Nat.mod_lt _ (by decide)) (Nat.mod_lt _ (by decide)) ?_ ?_ hsrc
  · split <;> omega
  · unfold thrOf
    split <;> omega

theorem bbTag_lt (code place : Nat) {src : Nat} (hsrc : src < 2 ^ 4) : bbTag code place src < 2 ^ 32 := by
  obtain ⟨-, -, -, -, -, -, hcup⟩ := bbTag_fields code place hsrc
  have : b2n (isCup place) ≤ 1 := by
    unfold b2n
    split <;> decide
  omega

/-- Where the writer of a record stands, as the record gives it (R59): its die, its cluster and, but on a Cupola core, its
core and its hart. -/
theorem bbEntry_place (time code place : Nat) {src : Nat} (hsrc : src < 2 ^ 4) (seq : BitVec 32) (a0 a1 : Word) :
    let e := bbEntry time (bbTag code place src) seq a0 a1
    e.extractLsb' 64 8 = BitVec.ofNat 8 code ∧ e.extractLsb' 72 2 = BitVec.ofNat 2 (place / 2048) ∧
      e.extractLsb' 74 3 = BitVec.ofNat 3 (place / 256) ∧
      e.extractLsb' 77 4 = (if isCup place then 0 else BitVec.ofNat 4 (place / 8)) ∧
      e.extractLsb' 81 3 = (if isCup place then 0 else BitVec.ofNat 3 place) ∧
      e.extractLsb' 84 4 = BitVec.ofNat 4 src ∧ e.getLsbD 88 = isCup place := by
  intro e
  have hfield {lo w : Nat} (h : lo + w ≤ 32) : e.extractLsb' (64 + lo) w = BitVec.ofNat w (bbTag code place src / 2 ^ lo) :=
    bbEntry_tag_field seq a0 a1 h
  obtain ⟨hcode, hdie, hclu, hcore, hthr, hsource, hcup⟩ := bbTag_fields code place hsrc
  refine ⟨?_, ?_, ?_, ?_, ?_, ?_, ?_⟩
  · exact (hfield (lo := 0) (by decide)).trans (ofNat_congr_mod (by simpa using hcode))
  · exact (hfield (lo := 8) (by decide)).trans (ofNat_congr_mod hdie)
  · exact (hfield (lo := 10) (by decide)).trans (ofNat_congr_mod hclu)
  · exact (hfield (lo := 13) (by decide)).trans (ofNat_congr_mod_unless hcore)
  · exact (hfield (lo := 17) (by decide)).trans (ofNat_congr_mod_unless hthr)
  · exact (hfield (lo := 20) (by decide)).trans (ofNat_congr_mod (by omega))
  · have hbit := congrArg (·.getLsbD 0) (hfield (lo := 24) (w := 1) (by decide))
    rw [hcup] at hbit
    cases hc : isCup place <;> simpa [b2n, hc] using hbit

/-- The code of a record that BBLOG writes (R295): 0x80 with the low seven bits of its first operand. -/
theorem bblog_code (x : Word) : BitVec.ofNat 8 (0x80 + Fld x 6 0) = 0x80#8 ||| (x.setWidth 8 &&& 0x7F) := by
  apply BitVec.eq_of_toNat_eq
  have h7 : x.toNat % 2 ^ 7 < 2 ^ 7 := Nat.mod_lt _ (by decide)
  have hlow : (x.setWidth 8 &&& 0x7F).toNat = x.toNat % 2 ^ 7 := by
    rw [BitVec.toNat_and, BitVec.toNat_setWidth, show (0x7F : BitVec 8).toNat = 2 ^ 7 - 1 from rfl,
      Nat.and_two_pow_sub_one_eq_mod]
    omega
  rw [BitVec.toNat_or, hlow, show (0x80#8).toNat = 2 ^ 7 * 1 from rfl, ← Nat.two_pow_add_eq_or_of_lt h7]
  simp [Fld, bitsOf]
  omega

theorem bblog_effect {s : State} (hm : s.me.mode = .m) (rc rs1 rs2 : Reg) : SysEffect (.bblog rc rs1 rs2) s := by
  have hsrc : 1 < 2 ^ 4 := by decide
  obtain ⟨hentry, hhead, hseq⟩ := blackBox_camp s (0x80 + Fld (s.rd rc) 6 0) s.cur 1 (s.rd rs1) (s.rd rs2)
  have htag := bbTag_lt (0x80 + Fld (s.rd rc) 6 0) s.cur hsrc
  obtain ⟨hcode, hdie, hclu, hcore, hthr, hsource, hcup⟩ := bbEntry_place ((s.now - s.camp.cold) * 10)
    (0x80 + Fld (s.rd rc) 6 0) s.cur hsrc s.camp.bbSeq (s.rd rs1) (s.rd rs2)
  rw [bblog_code] at hcode
  refine ⟨(s.blackBox (0x80 + Fld (s.rd rc) 6 0) s.cur 1 (s.rd rs1) (s.rd rs2)).advance,
    by simp only [exec, execBblog, machineOnly_of_m hm], ⟨by simp, by simp, by simp⟩, ?_⟩
  simp only [sysDone, State.advance_camp, hentry]
  exact ⟨fun k hk => State.thread_updMe_other _ _ hk, sameRegs_advance rfl, csrsAre_advance rfl, fun _ => rfl, hhead, hseq,
    hcode, bbEntry_seq _ _ _ htag, bbEntry_arg0 _ _ _ htag, bbEntry_arg1 _ _ _ htag, bbEntry_time _ _ _, hdie, hclu,
    hsource, hcup, hcore, hthr⟩

/-! Waiting. -/

@[simp] theorem await_x (t : Thread) : t.await.x = t.x := by unfold Thread.await; split <;> rfl
@[simp] theorem await_pc (t : Thread) : t.await.pc = t.pc := by unfold Thread.await; split <;> rfl
@[simp] theorem await_csr (t : Thread) : t.await.csr = t.csr := by unfold Thread.await; split <;> rfl
@[simp] theorem await_vq (t : Thread) : t.await.vq = t.vq := by unfold Thread.await; split <;> rfl

/-- An instruction that waits stays where it is. -/
theorem waits_keeps (s : State) : ∃ t, s.waits = .next t ∧
    OnlyMe s t ∧ t.me.pc = s.me.pc ∧ SameRegs s t ∧ t.me.csr = s.me.csr ∧ t.me.vq = s.me.vq :=
  ⟨_, rfl, onlyMe_updMe (onlyMe_refl s) _, by simp, fun q => Thread.getX_congr (by simp) q, by simp, by simp⟩

theorem draw_waits {i : Instr} {s : State} (hi : drawsState i) (hq : s.me.vq ≠ []) : exec i s = s.waits := by
  have hu : s.unissued = true := by simpa [State.unissued] using hq
  cases i with
  | rngseed rs1 rs2 => simp [exec, execRngseed, hu]
  | rngnext rd => simp [exec, execRngnext, hu]
  | _ => cases hi

/-- Settles O20: each instruction edits its thread, or appends a black-box record, and performs; a draw from a queue that is
not empty waits. -/
theorem systemInstructions : Obligations.SystemInstructions := by
  unfold Obligations.SystemInstructions
  constructor
  · intro i s h
    change SysEffect i s
    cases i with
    | yield => exact yield_effect s
    | preemptpt rd => exact preemptpt_effect rd s
    | wfi =>
      obtain ⟨hm, hp⟩ := h
      exact wfi_effect hm hp
    | rngseed rs1 rs2 => exact rngseed_effect h rs1 rs2
    | rngnext rd => exact rngnext_effect h rd
    | bblog rc rs1 rs2 => exact bblog_effect h rc rs1 rs2
    | _ => cases h
  · intro i s h hq
    rw [Does, draw_waits h hq]
    exact waits_keeps s

end Sys2Proof.Proofs.Scalar
end
